-- ==== Sys2Proof/Word.lean ====
section
/-! DEFINITION. The word types of FECCORE: a register is 32 bits wide (10_state.md R21), a buffer element of
BYTEBUF and SHARDMEM 8 bits (20_memory.md R70). -/

namespace Sys2Proof

/-- The contents of one register (R21). -/
abbrev Word := BitVec 32

/-- One element of BYTEBUF or SHARDMEM (R70). -/
abbrev Byte := BitVec 8

end Sys2Proof
end

