-- ==== Sys2Proof/Config.lean ====
section
/-! DEFINITION. What is fixed per instance of the block (00_scope.md R8, 41_crc.md R150) and the free values:
what the spec leaves open, as constants without a body. The default parameter values are in
Machine/Defaults.lean, the constraints on them in WellFormed.lean. -/

namespace Sys2Proof

/-- A CRC parameter set `(w, poly, init, refin, refout, xorout)` (41_crc.md R150); the width is the type's index. -/
structure CrcParams (w : Nat) where
  poly : BitVec w
  init : BitVec w
  refin : Bool
  refout : Bool
  xorout : BitVec w
  deriving DecidableEq, Repr

/-- A polynomial over GF(2) of degree at most 8: bit `i` is the coefficient of `X^i` (43_reed_solomon.md R185). -/
abbrev GfPoly := BitVec 9

/-- Where a platform places the five windows of the block, as byte offsets from BASE, and how many bytes from BASE the block
answers (20_memory.md R72: the map "is a default: a platform may place the five windows elsewhere, and a model should
take the map as configuration"). -/
structure AddressMap where
  /-- The first offset of the registers. -/
  regs : Nat
  /-- The first offset of BYTEBUF. -/
  byteBuf : Nat
  /-- The first offset of SHARDMEM. -/
  shardMem : Nat
  /-- The first offset of the INT view of BITBUF. -/
  bitInt : Nat
  /-- The first offset of the CHR view of BITBUF. -/
  bitChr : Nat
  /-- The offsets below this one are the block's. -/
  span : Nat
  deriving DecidableEq, Repr

/-- The named parameters of one instance of the block (00_scope.md R8; `base` and `map` are 20_memory.md R72).
A state carries them, so that a statement about every state ranges over their values too; no step changes
them (notes/assumptions/8.md). -/
structure Config where
  /-- N_MAX: largest accepted `dataShards + parityShards`. -/
  nMax : Nat
  /-- CHUNK_MAX: largest accepted `chunkSize`. -/
  chunkMax : Nat
  /-- K_MAX: largest accepted constraint length. -/
  kMax : Nat
  /-- NPOLY_MAX: largest accepted number of generator polynomials, and the size of the POLY file. -/
  npolyMax : Nat
  /-- BYTE_CAP: capacity of BYTEBUF in bytes. -/
  byteCap : Nat
  /-- SHARD_CAP: capacity of SHARDMEM in bytes. -/
  shardCap : Nat
  /-- BIT_CAP: capacity of BITBUF in bits. -/
  bitCap : Nat
  /-- BASE: the address from which the map's offsets count. -/
  base : Nat
  /-- The address map. -/
  map : AddressMap
  crc8 : CrcParams 8
  crc16 : CrcParams 16
  crc32 : CrcParams 32
  /-- GF_POLY: the field polynomial of GF(2^8). -/
  gfPoly : GfPoly
  deriving DecidableEq, Repr

/-- The CRC width selected by `SEL[1:0]` (30_encoding.md R103). -/
inductive CrcWidth
  | w8 | w16 | w32
  deriving DecidableEq, Repr

/-- The envelope position selected by `SEL[2]` (30_encoding.md R103): `suf` the CRC after the payload, `pre` before. -/
inductive EnvPos
  | suf | pre
  deriving DecidableEq, Repr

/-- What element `i` of BYTEBUF holds while nothing has written it since the `epoch`-th reset event (10_state.md
R46, 70_reset_and_hazards.md R340). A free value (notes/assumptions/4.md). -/
opaque Config.unwrittenByte (epoch i : Nat) : Byte

/-- What element `i` of SHARDMEM holds while nothing has written it since the `epoch`-th reset event (R46, R340).
A free value (notes/assumptions/4.md). -/
opaque Config.unwrittenShard (epoch i : Nat) : Byte

/-- What element `i` of BITBUF holds while nothing has written it since the `epoch`-th reset event (R46, R340).
A free value (notes/assumptions/4.md). -/
opaque Config.unwrittenBit (epoch i : Nat) : Bool

/-- The value the `d`-th unspecified host read returns (20_memory.md R77, R79, R80; 10_state.md R33), of which the read takes
as many bits as it is wide. A free value (notes/assumptions/6.md, 7.md). -/
opaque Config.unspecifiedRead (d : Nat) : Word

end Sys2Proof
end

