-- ==== Sys2Proof/Machine/Defaults.lean ====
section
/-! DEFINITION. The default parameter values (00_scope.md R8, 41_crc.md R152, 43_reed_solomon.md R185). -/

namespace Sys2Proof.Machine

/-- CRC8_PARAMS, CRC-8/SMBUS (R152). -/
def defaultCrc8 : CrcParams 8 :=
  { poly := 0x07, init := 0x00, refin := false, refout := false, xorout := 0x00 }

/-- CRC16_PARAMS, CRC-16/CCITT-FALSE (R152). -/
def defaultCrc16 : CrcParams 16 :=
  { poly := 0x1021, init := 0xFFFF, refin := false, refout := false, xorout := 0x0000 }

/-- CRC32_PARAMS, CRC-32/ISO-HDLC (R152). -/
def defaultCrc32 : CrcParams 32 :=
  { poly := 0x04C11DB7, init := 0xFFFFFFFF, refin := true, refout := true, xorout := 0xFFFFFFFF }

/-- GF_POLY, `X^8 + X^4 + X^3 + X^2 + 1` (R8, R185). -/
def defaultGfPoly : GfPoly := 0x11D

/-- The default address map (20_memory.md R72). -/
def defaultMap : AddressMap :=
  { regs := 0x000000, byteBuf := 0x010000, shardMem := 0x020000, bitInt := 0x100000, bitChr := 0x200000,
    span := 0x300000 }

/-- The default parameters (R8). The spec gives BASE no default; 0 is the model's (DESIGN CHOICE,
notes/assumptions/8.md). -/
def defaultConfig : Config :=
  { nMax := 20, chunkMax := 256, kMax := 16, npolyMax := 8, byteCap := 16384, shardCap := 8192, bitCap := 1048576,
    base := 0, map := defaultMap, crc8 := defaultCrc8, crc16 := defaultCrc16, crc32 := defaultCrc32,
    gfPoly := defaultGfPoly }

end Sys2Proof.Machine
end

