-- ==== Sys2Proof/Machine/Bits.lean ====
section
/-! DEFINITION. The bit and sequence notation of 00_scope.md R11 and the two conversion functions of 40_bitops.md R130. -/

namespace Sys2Proof.Machine

/-- `lowmask(k) = 2^k - 1` (R11). -/
def lowmask (k : Nat) : Nat := 2 ^ k - 1

/-- The register value with the low `k` bits set. -/
def lowmaskWord (k : Nat) : Word := BitVec.ofNat 32 (lowmask k)

/-- The register value in which exactly the bits listed are set. -/
def maskOf (rows : List Nat) : Word := rows.foldl (fun acc i => acc ||| BitVec.ofNat 32 (2 ^ i)) 0

/-- `parity(v)` of a value below `2^k`: the number of its one bits modulo 2, as a bit (R11). -/
def parity (k v : Nat) : Bool := decide (((List.range k).filter v.testBit).length % 2 = 1)

/-- `bitrev_k(v)`: bit `i` of the result is bit `k-1-i` of `v`, for `i < k` (R11). -/
def bitrev (k v : Nat) : Nat :=
  ((List.range k).map fun i => (v.testBit (k - 1 - i)).toNat * 2 ^ i).sum

/-- The bits of one byte, most significant first: bit `r` is `(b >> (7 - r)) & 1` (R130). -/
def byteBits (b : Byte) : List Bool := (List.range 8).map fun r => b.getLsbD (7 - r)

/-- `bits_of_bytes(b)` (R130). -/
def bitsOfBytes (b : List Byte) : List Bool := b.flatMap byteBits

/-- The byte whose bits are listed most significant first: the sum of `t[r] * 2^(7 - r)` (R130). -/
def byteOfBits (t : List Bool) : Byte :=
  BitVec.ofNat 8 ((List.range 8).map fun r => (t.getD r false).toNat * 2 ^ (7 - r)).sum

/-- `bytes_of_bits(t)`, for a length that is a multiple of 8 (R130). -/
def bytesOfBits (t : List Bool) : List Byte :=
  (List.range (t.length / 8)).map fun q => byteOfBits (t.drop (8 * q))

end Sys2Proof.Machine
end

