-- ==== Sys2Proof/Machine/Moves.lean ====
section
/-! DEFINITION. What acts on the block from outside: the names of the registers (10_state.md R22), the host's moves
(20_memory.md R71), the reset input (70_reset_and_hazards.md R340), and the events of a schedule. -/

namespace Sys2Proof.Machine

/-- The registers by name (10_state.md R22). -/
inductive Reg
  | cmd | status | err | dataShards | parityShards | chunkSize | constraintLen | nPoly | convFlags | arg0
  | byteLen | bitLen | rows | cols | present | recon | bytesPadded | attempts | result | mask | pcache | codec
  | ident | caps
  | poly (j : Nat)
  deriving DecidableEq, Repr

/-- The two byte-wide buffers (20_memory.md R70, R71). -/
inductive ByteSpace
  | byteBuf | shardMem
  deriving DecidableEq, Repr

/-- The two host views of BITBUF (20_memory.md R76). -/
inductive BitView
  | int | chr
  deriving DecidableEq, Repr

/-- One access of the host (20_memory.md R71). `HostCommand(word)` is `writeReg .cmd word`. The last two are the same
accesses by address and width in bits, through the map of R72; a byte access carries its byte in the low 8 bits
of the data (notes/assumptions/18.md). -/
inductive HostMove
  | readReg (r : Reg)
  | writeReg (r : Reg) (v : Word)
  | readByte (sp : ByteSpace) (i : Nat)
  | writeByte (sp : ByteSpace) (i : Nat) (v : Byte)
  | readBit (view : BitView) (i : Nat)
  | writeBit (view : BitView) (i : Nat) (v : Byte)
  | busRead (addr width : Nat)
  | busWrite (addr width : Nat) (data : Word)
  deriving DecidableEq, Repr

/-- What an access is aimed at: a register, a byte of a byte-wide buffer, a bit of BITBUF through a view, nothing that
exists (20_memory.md R79), or an address that is not the block's (notes/assumptions/9.md). -/
inductive Target
  | reg (r : Reg)
  | byte (sp : ByteSpace) (i : Nat)
  | bit (view : BitView) (i : Nat)
  | unmapped
  | outside
  deriving DecidableEq, Repr

/-- What can happen next at the block: a host move, the reset input, or the core having the time to finish the command
it runs (notes/assumptions/3.md). -/
inductive Event
  | host (m : HostMove)
  | reset
  | core
  deriving DecidableEq, Repr

end Sys2Proof.Machine
end

