-- ==== Sys2Proof/Machine/State.lean ====
section
/-! DEFINITION. The state of one FECCORE instance as plain data (10_state.md R20, R22, R41), the error names
(60_exceptions.md R301), the reasons a step could stop, and the state after reset (10_state.md R44). -/

namespace Sys2Proof.Machine

/-- The named errors (60_exceptions.md R301). They are results of a command, in ERR, and stop nothing. -/
inductive Err
  /-- Code 1, raised by CHUNK. -/
  | emptyInput
  /-- Code 2, raised by CHUNK. -/
  | payloadTooLarge
  /-- Code 3, raised by RSENC and RSDECF. -/
  | verificationFailed
  /-- Code 4, raised by RSDECF and RSDECD. -/
  | reconstructionFailed
  /-- Code 5, raised by SEARCH. -/
  | decodeExhausted
  /-- Code 6, raised by VDEC. -/
  | crcMismatch
  /-- Code 7, raised by no command of the block; the host-side soft decoder fails with it (R301, R283). -/
  | constraintExceedsData
  /-- Code 8. -/
  | invalidParams
  /-- Code 9. -/
  | badOperand
  /-- Code 10, for a word that is no command. -/
  | illegalCommand
  deriving DecidableEq, Repr

/-- The latched convolutional codec `(K, m, e[0 .. m-1])` (10_state.md R41, 46_viterbi.md R250); `m` is the number of
the effective polynomials. -/
structure Codec where
  k : Nat
  polys : List Word
  deriving DecidableEq, Repr

/-- No step of this machine faults, so there is no reason to name: every accepted command completes, and "There is no
other way for the block to signal a failure: no trap, no abort, no lock-up" (60_exceptions.md R300). A host protocol
violation is no fault either, it sets STATUS.HERR (20_memory.md R79). -/
inductive Fault
  deriving DecidableEq, Repr

/-- Why an instruction is refused. -/
inductive Refusal
  /-- Raised by an arm of `exec` for an instruction that has no meaning yet; safe, since the machine stops. No arm
  raises it. -/
  | notModelled (mnemonic : String)
  deriving DecidableEq, Repr

/-- The state: the registers of 10_state.md R22, the three buffers (R39), the hidden state (R41), the parameters of
the instance, and the model's own fields. ID, CAPS and CODEC are computed (R37, R38). -/
structure State where
  /-- CMD (R23). -/
  cmd : Word
  /-- STATUS (R24): bit 0 BUSY, bit 1 DONE, bit 2 ERRF, bit 3 HERR. -/
  status : Word
  /-- ERR (R25). -/
  err : Word
  /-- DATA_SHARDS (R26). -/
  dataShards : Word
  /-- PARITY_SHARDS (R26). -/
  parityShards : Word
  /-- CHUNK_SIZE (R26). -/
  chunkSize : Word
  /-- CONSTRAINT_LEN (R28). -/
  constraintLen : Word
  /-- NPOLY (R28). -/
  nPoly : Word
  /-- CONV_FLAGS (R28). -/
  convFlags : Word
  /-- ARG0 (R30). -/
  arg0 : Word
  /-- BYTELEN (R31). -/
  byteLen : Word
  /-- BITLEN (R31). -/
  bitLen : Word
  /-- ROWS (R32). -/
  rows : Word
  /-- COLS (R32). -/
  cols : Word
  /-- PRESENT (R33). -/
  present : Word
  /-- RECON (R34). -/
  recon : Word
  /-- BYTES_PADDED (R35). -/
  bytesPadded : Word
  /-- ATTEMPTS (R35). -/
  attempts : Word
  /-- RESULT (R35). -/
  result : Word
  /-- MASK (R35). -/
  mask : Word
  /-- PCACHE, the valid bits of the pattern cache (R36, R41 (a)). -/
  pcache : Word
  /-- POLY[0 .. NPOLY_MAX-1] (R29). -/
  poly : List Word
  /-- The latched codec, or nothing (R41 (b)); CODEC.VALID is 1 exactly when there is one (R37). -/
  codec : Option Codec
  /-- BYTEBUF (R39): the elements written since reset, by index. -/
  byteBuf : List Host.Cell
  /-- SHARDMEM (R39): the elements written since reset, by index. -/
  shardMem : List Host.Cell
  /-- BITBUF (R39): the elements written since reset, by index. -/
  bitBuf : List (Nat × Bool)
  /-- The parameters of the instance (R45, 00_scope.md R8): no step changes them. -/
  cfg : Config
  /-- The model's own: the events not yet taken, oldest first. -/
  schedule : List Event
  /-- The model's own: the value the last host read returned. -/
  readData : Word
  /-- The model's own: how many unspecified read values have been handed out. -/
  draws : Nat
  /-- The model's own: how many reset events there have been. -/
  epoch : Nat
  deriving DecidableEq, Repr

/-- The state after reset of a block with parameters `cfg` (10_state.md R44): every register 0, no codec, the pattern
cache empty, no buffer element written. -/
def State.initial (cfg : Config) : State :=
  { cmd := 0, status := 0, err := 0, dataShards := 0, parityShards := 0, chunkSize := 0, constraintLen := 0,
    nPoly := 0, convFlags := 0, arg0 := 0, byteLen := 0, bitLen := 0, rows := 0, cols := 0, present := 0, recon := 0,
    bytesPadded := 0, attempts := 0, result := 0, mask := 0, pcache := 0, poly := List.replicate cfg.npolyMax 0,
    codec := none, byteBuf := [], shardMem := [], bitBuf := [], cfg := cfg, schedule := [], readData := 0, draws := 0,
    epoch := 0 }

/-- The machine right after reset, with the default parameters and nothing scheduled (R44, R8). -/
def State.reset : State := State.initial defaultConfig

end Sys2Proof.Machine
end

