-- ==== Sys2Proof/Machine/Flags.lean ====
section
/-! DEFINITION. The four flags of the block, bits 3:0 of STATUS (10_state.md R24), and what each event makes of the whole
register: acceptance (R23), completion (60_exceptions.md R303), a host protocol violation (20_memory.md R79). -/

namespace Sys2Proof.Machine

/-- STATUS.BUSY (R24). -/
def State.busy (s : State) : Bool := s.status.getLsbD 0

/-- STATUS.DONE (R24). -/
def State.done (s : State) : Bool := s.status.getLsbD 1

/-- STATUS.ERRF (R24). -/
def State.errf (s : State) : Bool := s.status.getLsbD 2

/-- STATUS.HERR (R24). -/
def State.herr (s : State) : Bool := s.status.getLsbD 3

/-- Acceptance: BUSY is set, DONE and ERRF are cleared, every other bit is kept (R23). -/
def acceptedStatus (st : Word) : Word := (st &&& 0xFFFFFFF8) ||| 0x1

/-- Completion: BUSY is cleared, DONE is set, ERRF says whether the code is not 0, every other bit is kept (R303). -/
def completedStatus (st code : Word) : Word :=
  (st &&& 0xFFFFFFF8) ||| (if code = 0 then 0x2 else 0x6)

/-- A host protocol violation: HERR is set, every other bit is kept (R79). -/
def violatedStatus (st : Word) : Word := st ||| 0x8

end Sys2Proof.Machine
end

