-- ==== Sys2Proof/Machine/Ops.lean ====
section
/-! DEFINITION. The named operations over memory and registers: the buffers (20_memory.md R70, 00_scope.md R13), the
registers by name (10_state.md R22), and completion with or without an error, which is all there is of taking an exception
(60_exceptions.md R303) and of returning from one (R306). -/

namespace Sys2Proof.Machine

/-! ## Buffers -/

/-- The canonical form of a buffer: indices strictly rising. An unlisted index holds no value (nothing has written it
since reset), so no entry can equal what an unlisted index holds. -/
abbrev Memory.wf {α : Type} (m : List (Nat × α)) : Prop := m.Pairwise fun x y => x.1 < y.1

/-- Every listed index is below the capacity. -/
abbrev Memory.within {α : Type} (cap : Nat) (m : List (Nat × α)) : Prop := ∀ c ∈ m, c.1 < cap

/-- What element `a` holds, or `none` when nothing has written it since reset: the ONE definition of what an unlisted
index reads as. -/
def cellAt {α : Type} (m : List (Nat × α)) (a : Nat) : Option α :=
  (m.find? fun c => c.1 == a).map Prod.snd

/-- The elements of `vs` at the indices from `a` upward. -/
def cellsFrom {α : Type} (a : Nat) : List α → List (Nat × α)
  | [] => []
  | v :: vs => (a, v) :: cellsFrom (a + 1) vs

/-- `MemWrite(S, a, len(vs), vs)` (00_scope.md R13), keeping the canonical form. -/
def writeCells {α : Type} (m : List (Nat × α)) (a : Nat) (vs : List α) : List (Nat × α) :=
  (m.filter fun c => decide (c.1 < a)) ++ cellsFrom a vs ++ (m.filter fun c => decide (a + vs.length ≤ c.1))

/-- `BY[i]`: one byte of BYTEBUF; the free value of the element when nothing has written it since reset (10_state.md
R46). -/
def State.byteAt (s : State) (i : Nat) : Byte :=
  (cellAt s.byteBuf i).getD (Config.unwrittenByte s.epoch i)

/-- `SH[i]`: one byte of SHARDMEM (R46 as above). -/
def State.shardAt (s : State) (i : Nat) : Byte :=
  (cellAt s.shardMem i).getD (Config.unwrittenShard s.epoch i)

/-- `BT[i]`: one bit of BITBUF (R46 as above). -/
def State.bitAt (s : State) (i : Nat) : Bool :=
  (cellAt s.bitBuf i).getD (Config.unwrittenBit s.epoch i)

/-- `MemRead(BY, 0, n)` (00_scope.md R13). -/
def State.bytes (s : State) (n : Nat) : List Byte := (List.range n).map s.byteAt

/-- `MemRead(BT, 0, n)` (00_scope.md R13). -/
def State.bits (s : State) (n : Nat) : List Bool := (List.range n).map s.bitAt

/-- `MemRead(SH, a, n)` (00_scope.md R13). -/
def State.shards (s : State) (a n : Nat) : List Byte := (List.range n).map fun i => s.shardAt (a + i)

/-- The first `n` rows of a shard matrix of `cs` columns: row `r` is `SH[r*cs .. (r+1)*cs)` (10_state.md R32). -/
def State.shardRows (s : State) (n cs : Nat) : List (List Byte) :=
  (List.range n).map fun r => s.shards (r * cs) cs

/-- `BY[i] <- v`. -/
def State.setByte (s : State) (i : Nat) (v : Byte) : State := { s with byteBuf := writeCells s.byteBuf i [v] }

/-- `BT[i] <- v`. -/
def State.setBit (s : State) (i : Nat) (v : Bool) : State := { s with bitBuf := writeCells s.bitBuf i [v] }

/-- `SH[a ..] <- vs`. -/
def State.setShards (s : State) (a : Nat) (vs : List Byte) : State :=
  { s with shardMem := writeCells s.shardMem a vs }

/-- A command's byte output: `MemWrite(BY, 0, len(b), b)` and `BYTELEN <- len(b)`. -/
def State.putBytes (s : State) (b : List Byte) : State :=
  { s with byteBuf := writeCells s.byteBuf 0 b, byteLen := BitVec.ofNat 32 b.length }

/-- A command's bit output: `MemWrite(BT, 0, len(t), t)` and `BITLEN <- len(t)`. -/
def State.putBits (s : State) (t : List Bool) : State :=
  { s with bitBuf := writeCells s.bitBuf 0 t, bitLen := BitVec.ofNat 32 t.length }

/-- Rows `i` of `is` of SHARDMEM, each of `cs` bytes, become the rows of the same index of `m` (43_reed_solomon.md R196,
R197: the erased rows are filled in place). -/
def State.fillRows (s : State) (cs : Nat) (m : List (List Byte)) (is : List Nat) : State :=
  { s with shardMem := is.foldl (fun mem i => writeCells mem (i * cs) (m.getD i [])) s.shardMem }

/-- `ROWS <- r; COLS <- c; PRESENT <- p; RECON <- q`. -/
def State.setShape (s : State) (r c : Nat) (p q : Word) : State :=
  { s with rows := BitVec.ofNat 32 r, cols := BitVec.ofNat 32 c, present := p, recon := q }

/-- `PRESENT <- p; RECON <- q`. -/
def State.setPresence (s : State) (p q : Word) : State := { s with present := p, recon := q }

/-- `RESULT <- v` (R35). -/
def State.setResult (s : State) (v : Word) : State := { s with result := v }

/-- `BYTES_PADDED <- v` (R35). -/
def State.setBytesPadded (s : State) (v : Nat) : State := { s with bytesPadded := BitVec.ofNat 32 v }

/-- `PCACHE <- PCACHE | 2^n` (45_search_decoder.md R233). -/
def State.markPattern (s : State) (n : Nat) : State :=
  { s with pcache := s.pcache ||| BitVec.ofNat 32 (2 ^ n) }

/-- `ATTEMPTS <- j; MASK <- k` (45_search_decoder.md R234). -/
def State.setAttempts (s : State) (j k : Nat) : State :=
  { s with attempts := BitVec.ofNat 32 j, mask := BitVec.ofNat 32 k }

/-- The latched codec becomes `c`, or is dropped (46_viterbi.md R258). -/
def State.latch (s : State) (c : Option Codec) : State := { s with codec := c }

/-! ## Registers by name -/

/-- ID (10_state.md R38). -/
def idValue : Word := 0x46454307

/-- CAPS (R38). -/
def capsValue (c : Config) : Word := BitVec.ofNat 32 (c.nMax + 256 * c.kMax + 65536 * c.npolyMax)

/-- The value of a register (R22): CODEC is 1 exactly when a codec is latched (R37); an index of POLY beyond the file
names no register and reads as 0 here, the host port refuses it first (notes/assumptions/11.md). -/
def State.reg (s : State) : Reg → Word
  | .cmd => s.cmd
  | .status => s.status
  | .err => s.err
  | .dataShards => s.dataShards
  | .parityShards => s.parityShards
  | .chunkSize => s.chunkSize
  | .constraintLen => s.constraintLen
  | .nPoly => s.nPoly
  | .convFlags => s.convFlags
  | .arg0 => s.arg0
  | .byteLen => s.byteLen
  | .bitLen => s.bitLen
  | .rows => s.rows
  | .cols => s.cols
  | .present => s.present
  | .recon => s.recon
  | .bytesPadded => s.bytesPadded
  | .attempts => s.attempts
  | .result => s.result
  | .mask => s.mask
  | .pcache => s.pcache
  | .codec => if s.codec.isSome then 1 else 0
  | .ident => idValue
  | .caps => capsValue s.cfg
  | .poly j => s.poly.getD j 0

/-! ## Completion, errors, acceptance -/

/-- The numeric code of an error (60_exceptions.md R301). -/
def Err.code : Err → Word
  | .emptyInput => 1
  | .payloadTooLarge => 2
  | .verificationFailed => 3
  | .reconstructionFailed => 4
  | .decodeExhausted => 5
  | .crcMismatch => 6
  | .constraintExceedsData => 7
  | .invalidParams => 8
  | .badOperand => 9
  | .illegalCommand => 10

/-- Completion, with or without an error, "is the same single event": `ERR <- code; STATUS.ERRF <- (code != 0);
STATUS.DONE <- 1; STATUS.BUSY <- 0` (R303). -/
def State.complete (s : State) (code : Word) : State :=
  { s with err := code, status := completedStatus s.status code }

/-- The command completes without error; `s` holds its commit (R303). -/
def succeed (s : State) : Host.Outcome State Fault Refusal := .next (s.complete 0)

/-- `raise E`: the command completes now with `ERR <- code(E)` and nothing else of it happens (R303, R304). This is taking
the block's one synchronous exception: nothing is saved, no mode changes, control goes nowhere. -/
def raise (e : Err) (s : State) : Host.Outcome State Fault Refusal := .next (s.complete e.code)

/-- Acceptance of a command word (10_state.md R23). It is also all there is of a return from an error: there is no return
command, and the acceptance of the next command clears ERR (60_exceptions.md R306). -/
def State.accept (s : State) (w : Word) : State :=
  { s with cmd := w, err := 0, status := acceptedStatus s.status }

/-- A host protocol violation changes no state but HERR (20_memory.md R79). -/
def State.violation (s : State) : State := { s with status := violatedStatus s.status }

/-- The events still to come become `es` (the model's own field, notes/assumptions/3.md). -/
def State.withSchedule (s : State) (es : List Event) : State := { s with schedule := es }

/-- The reset input (70_reset_and_hazards.md R340): every piece of the block's state at its reset value, the contents of the
buffers unspecified anew. What is not the block's stays: its parameters, the schedule, and the host's side
(notes/assumptions/19.md). -/
def State.afterReset (s : State) : State :=
  { State.initial s.cfg with
    schedule := s.schedule, readData := s.readData, draws := s.draws, epoch := s.epoch + 1 }

end Sys2Proof.Machine
end

