-- ==== Sys2Proof/Machine/Operands.lean ====
section
/-! DEFINITION. The operands of the commands: every operand is the full value of a register (30_encoding.md R104), under the
names of 00_scope.md R14, and the checks the command rules share. -/

namespace Sys2Proof.Machine

/-- `ds` (R14). -/
def State.ds (s : State) : Nat := s.dataShards.toNat

/-- `ps` (R14). -/
def State.ps (s : State) : Nat := s.parityShards.toNat

/-- `cs` (R14). -/
def State.cs (s : State) : Nat := s.chunkSize.toNat

/-- `n = ds + ps`, in unbounded naturals (R14, 42_chunker.md R170). -/
def State.n (s : State) : Nat := s.ds + s.ps

/-- `ByteBufOK` (10_state.md R31). -/
def State.byteBufOK (s : State) : Bool := decide (s.byteLen.toNat ≤ s.cfg.byteCap)

/-- `BitBufOK` (10_state.md R31). -/
def State.bitBufOK (s : State) : Bool := decide (s.bitLen.toNat ≤ s.cfg.bitCap)

/-- `ShapeOK` (10_state.md R32). -/
def State.shapeOK (s : State) : Bool := decide (s.rows.toNat * s.cols.toNat ≤ s.cfg.shardCap)

/-- `CodecParamsOK` (42_chunker.md R170). -/
def State.codecParamsOK (s : State) : Bool :=
  decide (1 ≤ s.ds) && decide (1 ≤ s.cs) && decide (s.n ≤ s.cfg.nMax) && decide (s.cs ≤ s.cfg.chunkMax)

/-- `present(i) = (i ≥ 32) or (PRESENT[i] = 1)` (10_state.md R33). -/
def State.isPresent (s : State) (i : Nat) : Bool := decide (32 ≤ i) || s.present.getLsbD i

/-- "exists i < r with not present(i)" is false; only rows below 32 can be erased (10_state.md R33). -/
def State.allPresent (s : State) (r : Nat) : Bool := (List.range (min r 32)).all s.isPresent

/-- `{ i < n : present(i) }`, in rising order. -/
def State.available (s : State) (n : Nat) : List Nat := (List.range n).filter s.isPresent

/-- `{ i < n : not present(i) }`, in rising order. -/
def State.erased (s : State) (n : Nat) : List Nat := (List.range n).filter fun i => !s.isPresent i

/-- The shape of SHARDMEM is `r` rows of `cs` columns. -/
def State.hasShape (s : State) (r c : Nat) : Bool := decide (s.rows.toNat = r) && decide (s.cols.toNat = c)

end Sys2Proof.Machine
end

