-- ==== Sys2Proof/Machine/BitOps.lean ====
section
/-! DEFINITION. BitOps (40_bitops.md): NOP, B2BIT, BIT2B, and BSET, BCLR, BFLIP on either target. -/

namespace Sys2Proof.Machine

/-- NOP (R136): "no register and no buffer changes; `ERR = 0`, `STATUS.DONE = 1`". -/
def execNop (s : State) : Host.Outcome State Fault Refusal := succeed s

/-- B2BIT (R131). -/
def execB2bit (s : State) : Host.Outcome State Fault Refusal :=
  if ¬ s.byteBufOK then raise .badOperand s
  else if s.cfg.bitCap < 8 * s.byteLen.toNat then raise .badOperand s
  else succeed (s.putBits (bitsOfBytes (s.bytes s.byteLen.toNat)))

/-- BIT2B (R132). -/
def execBit2b (s : State) : Host.Outcome State Fault Refusal :=
  if ¬ s.bitBufOK then raise .badOperand s
  else if s.bitLen.toNat % 8 ≠ 0 then raise .badOperand s
  else if s.cfg.byteCap < s.bitLen.toNat / 8 then raise .badOperand s
  else succeed (s.putBytes (bytesOfBits (s.bits s.bitLen.toNat)))

/-- A single-bit command on BITBUF: bit ARG0 becomes `f` of what it was (R133 to R135, target BITBUF). -/
def bitCommand (f : Bool → Bool) (s : State) : Host.Outcome State Fault Refusal :=
  if ¬ s.bitBufOK then raise .badOperand s
  else if s.bitLen.toNat ≤ s.arg0.toNat then raise .badOperand s
  else succeed (s.setBit s.arg0.toNat (f (s.bitAt s.arg0.toNat)))

/-- The byte with the one bit `0x80 >> (i mod 8)` set: where bit index `i` lies in its byte (R133). -/
def bitInByte (i : Nat) : Byte := (0x80 : Byte) >>> (i % 8)

/-- A single-bit command on BYTEBUF: the byte that holds bit ARG0 becomes `f` of that byte and the bit's place (R133 to R135,
target BYTEBUF). -/
def byteCommand (f : Byte → Byte → Byte) (s : State) : Host.Outcome State Fault Refusal :=
  if ¬ s.byteBufOK then raise .badOperand s
  else if 8 * s.byteLen.toNat ≤ s.arg0.toNat then raise .badOperand s
  else succeed (s.setByte (s.arg0.toNat / 8) (f (s.byteAt (s.arg0.toNat / 8)) (bitInByte s.arg0.toNat)))

/-- BSET.BIT (R133): `BT[i] <- 1`. -/
def execBsetBit (s : State) : Host.Outcome State Fault Refusal := bitCommand (fun _ => true) s

/-- BSET.BYTE (R133): `BY[q] <- BY[q] | (0x80 >> r)`. -/
def execBsetByte (s : State) : Host.Outcome State Fault Refusal := byteCommand (fun b p => b ||| p) s

/-- BCLR.BIT (R134): `BT[i] <- 0`. -/
def execBclrBit (s : State) : Host.Outcome State Fault Refusal := bitCommand (fun _ => false) s

/-- BCLR.BYTE (R134): `BY[q] <- BY[q] & ~(0x80 >> r)`. -/
def execBclrByte (s : State) : Host.Outcome State Fault Refusal := byteCommand (fun b p => b &&& ~~~p) s

/-- BFLIP.BIT (R135): `BT[i] <- 1 - BT[i]`. -/
def execBflipBit (s : State) : Host.Outcome State Fault Refusal := bitCommand (fun b => !b) s

/-- BFLIP.BYTE (R135): `BY[q] <- BY[q] ^ (0x80 >> r)`. -/
def execBflipByte (s : State) : Host.Outcome State Fault Refusal := byteCommand (fun b p => b ^^^ p) s

end Sys2Proof.Machine
end

