-- ==== Sys2Proof/Machine/Chunker.lean ====
section
/-! DEFINITION. The Chunker (42_chunker.md): CHUNK, FLAT, UNFLAT. -/

namespace Sys2Proof.Machine

/-- A payload followed by zero bytes up to `size` (R171). -/
def padTo (size : Nat) (p : List Byte) : List Byte := p ++ List.replicate (size - p.length) 0

/-- CHUNK (R171). -/
def execChunk (s : State) : Host.Outcome State Fault Refusal :=
  if ¬ s.codecParamsOK then raise .invalidParams s
  else if ¬ s.byteBufOK then raise .badOperand s
  else if s.byteLen.toNat = 0 then raise .emptyInput s
  else if s.ds * s.cs < s.byteLen.toNat then raise .payloadTooLarge s
  else
    let q := padTo (s.ds * s.cs) (s.bytes s.byteLen.toNat)
    succeed (((s.setShards 0 q).setShape s.ds s.cs (lowmaskWord s.ds) 0).setBytesPadded
      (s.ds * s.cs - s.byteLen.toNat))

/-- FLAT (R172). -/
def execFlat (s : State) : Host.Outcome State Fault Refusal :=
  if ¬ s.shapeOK then raise .badOperand s
  else if ¬ s.allPresent s.rows.toNat then raise .badOperand s
  else succeed (s.putBytes (s.shards 0 (s.rows.toNat * s.cols.toNat)))

/-- UNFLAT (R173). -/
def execUnflat (s : State) : Host.Outcome State Fault Refusal :=
  if ¬ s.byteBufOK then raise .badOperand s
  else if ¬ s.shapeOK then raise .badOperand s
  else if s.byteLen.toNat ≠ s.rows.toNat * s.cols.toNat then raise .badOperand s
  else succeed ((s.setShards 0 (s.bytes s.byteLen.toNat)).setPresence (lowmaskWord (min s.rows.toNat 32)) 0)

end Sys2Proof.Machine
end

