-- ==== Sys2Proof/Machine/Interleaver.lean ====
section
/-! DEFINITION. The Interleaver (44_interleaver.md): ILV and DILV. -/

namespace Sys2Proof.Machine

/-- `transpose` in flat storage (R220): of an old `rows × cols` matrix, new `SH[i * rows + r]` is old `SH[r * cols + i]`, written as
the list of the new bytes in order. -/
def transposed (s : State) (rows cols : Nat) : List Byte :=
  (List.range (rows * cols)).map fun k => s.shardAt ((k % rows) * cols + k / rows)

/-- The operation of ILV and DILV (R221, R222). -/
def interleave (s : State) : Host.Outcome State Fault Refusal :=
  if ¬ s.shapeOK then raise .badOperand s
  else if ¬ s.allPresent s.rows.toNat then raise .badOperand s
  else succeed ((s.setShards 0 (transposed s s.rows.toNat s.cols.toNat)).setShape s.cols.toNat s.rows.toNat
    (lowmaskWord (min s.cols.toNat 32)) 0)

/-- ILV (R221). -/
def execIlv (s : State) : Host.Outcome State Fault Refusal := interleave s

/-- DILV (R222): "exactly those of ILV". -/
def execDilv (s : State) : Host.Outcome State Fault Refusal := interleave s

end Sys2Proof.Machine
end

