-- ==== Sys2Proof/Machine/Crc.lean ====
section
/-! DEFINITION. The CRC unit (41_crc.md): the parametrised CRC, the envelope functions, and CRCGEN, CRCENC, CRCCHK. -/

namespace Sys2Proof.Machine

/-- One of the 8 shifts of R151. -/
def crcShift {w : Nat} (poly reg : BitVec w) : BitVec w :=
  if reg.msb then (reg <<< 1) ^^^ poly else reg <<< 1

/-- What one byte does to the CRC register (R151): the byte, reflected when `refin`, is added at the top, then 8 shifts. -/
def crcByte {w : Nat} (p : CrcParams w) (reg : BitVec w) (b : Byte) : BitVec w :=
  let b' : Byte := if p.refin then BitVec.ofNat 8 (bitrev 8 b.toNat) else b
  (List.range 8).foldl (fun r _ => crcShift p.poly r) (reg ^^^ (b'.setWidth w <<< (w - 8)))

/-- `crc(P, d)` (R151). -/
def crc {w : Nat} (p : CrcParams w) (d : List Byte) : BitVec w :=
  let reg := d.foldl (crcByte p) p.init
  (if p.refout then BitVec.ofNat w (bitrev w reg.toNat) else reg) ^^^ p.xorout

/-- The width in bits, `w = 8 * 2^wc` (30_encoding.md R103). -/
abbrev crcBits : CrcWidth → Nat
  | .w8 => 8
  | .w16 => 16
  | .w32 => 32

/-- `c = w / 8`, the bytes of a stored CRC (R154). -/
def crcLen (w : CrcWidth) : Nat := crcBits w / 8

/-- The parameter set of a width (R150). -/
def crcParams (c : Config) : (w : CrcWidth) → CrcParams (crcBits w)
  | .w8 => c.crc8
  | .w16 => c.crc16
  | .w32 => c.crc32

/-- `crc_w(d)` (R150). -/
def crcOf (c : Config) (w : CrcWidth) (d : List Byte) : BitVec (crcBits w) := crc (crcParams c w) d

/-- `crc_bytes(w, v)`, most significant byte first (R153). -/
def crcBytes {w : Nat} (v : BitVec w) : List Byte :=
  (List.range (w / 8)).map fun t => (v >>> (w - 8 - 8 * t)).setWidth 8

/-- `env_make(w, pos, p)` (R154). -/
def envMake (c : Config) (w : CrcWidth) (pos : EnvPos) (p : List Byte) : List Byte :=
  match pos with
  | .pre => crcBytes (crcOf c w p) ++ p
  | .suf => p ++ crcBytes (crcOf c w p)

/-- `env_split(w, pos, e)`: the stored CRC and the payload, undefined for a sequence shorter than a CRC (R154). -/
def envSplit (w : CrcWidth) (pos : EnvPos) (e : List Byte) : Option (List Byte × List Byte) :=
  if e.length < crcLen w then none
  else match pos with
    | .pre => some (e.take (crcLen w), e.drop (crcLen w))
    | .suf => some (e.drop (e.length - crcLen w), e.take (e.length - crcLen w))

/-- `env_ok(w, pos, e)` (R154). -/
def envOk (c : Config) (w : CrcWidth) (pos : EnvPos) (e : List Byte) : Bool :=
  match envSplit w pos e with
  | none => false
  | some (stored, payload) => decide (stored = crcBytes (crcOf c w payload))

/-- The payload of an envelope whose CRC verifies (R154). -/
def envOpen (c : Config) (w : CrcWidth) (pos : EnvPos) (e : List Byte) : Option (List Byte) :=
  if envOk c w pos e then (envSplit w pos e).map Prod.snd else none

/-- CRCGEN of width `w` (R155). -/
def crcGenerate (w : CrcWidth) (s : State) : Host.Outcome State Fault Refusal :=
  if ¬ s.byteBufOK then raise .badOperand s
  else succeed (s.setResult ((crcOf s.cfg w (s.bytes s.byteLen.toNat)).setWidth 32))

/-- CRCENC of width `w` at position `pos` (R156). -/
def crcEncode (w : CrcWidth) (pos : EnvPos) (s : State) : Host.Outcome State Fault Refusal :=
  if ¬ s.byteBufOK then raise .badOperand s
  else if s.cfg.byteCap < s.byteLen.toNat + crcLen w then raise .badOperand s
  else
    let p := s.bytes s.byteLen.toNat
    succeed ((s.putBytes (envMake s.cfg w pos p)).setResult ((crcOf s.cfg w p).setWidth 32))

/-- CRCCHK of width `w` at position `pos` (R157): a mismatch is a result, not an error. -/
def crcCheck (w : CrcWidth) (pos : EnvPos) (s : State) : Host.Outcome State Fault Refusal :=
  if ¬ s.byteBufOK then raise .badOperand s
  else succeed (s.setResult (if envOk s.cfg w pos (s.bytes s.byteLen.toNat) then 1 else 0))

/-- CRCGEN.8 (R155). -/
def execCrcgen8 (s : State) : Host.Outcome State Fault Refusal := crcGenerate .w8 s
/-- CRCGEN.16 (R155). -/
def execCrcgen16 (s : State) : Host.Outcome State Fault Refusal := crcGenerate .w16 s
/-- CRCGEN.32 (R155). -/
def execCrcgen32 (s : State) : Host.Outcome State Fault Refusal := crcGenerate .w32 s

/-- CRCENC.8.SUF (R156). -/
def execCrcenc8Suf (s : State) : Host.Outcome State Fault Refusal := crcEncode .w8 .suf s
/-- CRCENC.16.SUF (R156). -/
def execCrcenc16Suf (s : State) : Host.Outcome State Fault Refusal := crcEncode .w16 .suf s
/-- CRCENC.32.SUF (R156). -/
def execCrcenc32Suf (s : State) : Host.Outcome State Fault Refusal := crcEncode .w32 .suf s
/-- CRCENC.8.PRE (R156). -/
def execCrcenc8Pre (s : State) : Host.Outcome State Fault Refusal := crcEncode .w8 .pre s
/-- CRCENC.16.PRE (R156). -/
def execCrcenc16Pre (s : State) : Host.Outcome State Fault Refusal := crcEncode .w16 .pre s
/-- CRCENC.32.PRE (R156). -/
def execCrcenc32Pre (s : State) : Host.Outcome State Fault Refusal := crcEncode .w32 .pre s

/-- CRCCHK.8.SUF (R157). -/
def execCrcchk8Suf (s : State) : Host.Outcome State Fault Refusal := crcCheck .w8 .suf s
/-- CRCCHK.16.SUF (R157). -/
def execCrcchk16Suf (s : State) : Host.Outcome State Fault Refusal := crcCheck .w16 .suf s
/-- CRCCHK.32.SUF (R157). -/
def execCrcchk32Suf (s : State) : Host.Outcome State Fault Refusal := crcCheck .w32 .suf s
/-- CRCCHK.8.PRE (R157). -/
def execCrcchk8Pre (s : State) : Host.Outcome State Fault Refusal := crcCheck .w8 .pre s
/-- CRCCHK.16.PRE (R157). -/
def execCrcchk16Pre (s : State) : Host.Outcome State Fault Refusal := crcCheck .w16 .pre s
/-- CRCCHK.32.PRE (R157). -/
def execCrcchk32Pre (s : State) : Host.Outcome State Fault Refusal := crcCheck .w32 .pre s

end Sys2Proof.Machine
end

