-- ==== Sys2Proof/Machine/ReedSolomon.lean ====
section
/-! DEFINITION. The erasure codec (43_reed_solomon.md): GF(2^8), matrices, the generator matrix, parity, reconstruction,
verification, and RSENC, RSDECF, RSDECD. The functions take the field polynomial `g`, which is GF_POLY of the instance in the
commands (00_scope.md R8). -/

namespace Sys2Proof.Machine

/-! ## The field (R185 to R187) -/

/-- `a << 1`, reduced by the field polynomial `g` when bit 8 comes out set (R186, where `g` is 0x11D). -/
def gfDouble (g : GfPoly) (a : Byte) : Byte := if a.msb then (a <<< 1) ^^^ g.setWidth 8 else a <<< 1

/-- The loop of `gmul` (R186); `b` has at most `k` bits left. -/
def gmulLoop (g : GfPoly) : Nat → Byte → Byte → Byte → Byte
  | 0, _, _, r => r
  | k + 1, a, b, r => gmulLoop g k (gfDouble g a) (b >>> 1) (if b.getLsbD 0 then r ^^^ a else r)

/-- `a ⊗ b` (R186). -/
def gmul (g : GfPoly) (a b : Byte) : Byte := gmulLoop g 8 a b 0

/-- `gpow(a, e)` (R187). -/
def gpow (g : GfPoly) (a : Byte) : Nat → Byte
  | 0 => 1
  | e + 1 => gmul g (gpow g a e) a

/-- `inv(a) = gpow(a, 254)` (R187). -/
def ginv (g : GfPoly) (a : Byte) : Byte := gpow g a 254

/-! ## Matrices over the field (R188), as lists of rows -/

/-- Element `(i, j)`; 0 outside the matrix. -/
def entry (m : List (List Byte)) (i j : Nat) : Byte := (m.getD i []).getD j 0

/-- `x[0] ⊗ y[0] ⊕ x[1] ⊗ y[1] ⊕ ...` over the first `k` terms. -/
def dot (g : GfPoly) (k : Nat) (x y : Nat → Byte) : Byte :=
  (List.range k).foldl (fun acc i => acc ^^^ gmul g (x i) (y i)) 0

/-- The product of `a`, whose rows have `k` entries, and `b`, whose `k` rows have `c` entries (R188). -/
def matMul (g : GfPoly) (k c : Nat) (a b : List (List Byte)) : List (List Byte) :=
  a.map fun row => (List.range c).map fun j => dot g k (fun i => row.getD i 0) (fun i => entry b i j)

/-- The identity matrix. -/
def identityRows (d : Nat) : List (List Byte) :=
  (List.range d).map fun i => (List.range d).map fun j => if i = j then 1 else 0

/-- One column of Gauss-Jordan elimination: the first row at or below `c` with a non-zero entry in column `c` is
swapped into place and scaled to a leading 1, and its multiples clear the column in every other row. -/
def eliminate (g : GfPoly) (m : List (List Byte)) (c : Nat) : List (List Byte) :=
  match (List.range m.length).find? fun r => decide (c ≤ r) && decide (entry m r c ≠ 0) with
  | none => m
  | some p =>
    let pivot := (m.getD p []).map (gmul g (ginv g (entry m p c)))
    ((m.set p (m.getD c [])).set c pivot).mapIdx fun r row =>
      if r = c then row else List.zipWith (fun x y => x ^^^ gmul g (row.getD c 0) y) row pivot

/-- The inverse of an invertible `d × d` matrix (R188): elimination of the matrix with the identity beside it. The method is
the model's, the result is not: an inverse is unique (notes/assumptions/12.md). -/
def matInv (g : GfPoly) (d : Nat) (m : List (List Byte)) : List (List Byte) :=
  ((List.range d).foldl (eliminate g) (List.zipWith (· ++ ·) m (identityRows d))).map (List.drop d)

/-! ## The code (R189 to R194) -/

/-- The matrix `V` of R189: `n` rows, `V[r][c] = gpow(r, c)`. -/
def vandermonde (g : GfPoly) (n ds : Nat) : List (List Byte) :=
  (List.range n).map fun r => (List.range ds).map fun c => gpow g (BitVec.ofNat 8 r) c

/-- The generator matrix `M(ds, ps) = V T^-1` (R189). -/
def genMatrix (g : GfPoly) (ds ps : Nat) : List (List Byte) :=
  let v := vandermonde g (ds + ps) ds
  matMul g ds ds v (matInv g ds (v.take ds))

/-- `rs_parity(ds, ps, D)`, of `cs` columns (R191). -/
def rsParity (g : GfPoly) (ds ps cs : Nat) (d : List (List Byte)) : List (List Byte) :=
  matMul g ds cs ((genMatrix g ds ps).drop ds) d

/-- `rs_encode(ds, ps, D)` (R191). -/
def rsEncode (g : GfPoly) (ds ps cs : Nat) (d : List (List Byte)) : List (List Byte) := d ++ rsParity g ds ps cs d

/-- `rs_verify(ds, ps, W)` (R193). -/
def rsVerify (g : GfPoly) (ds ps cs : Nat) (w : List (List Byte)) : Bool :=
  decide (w.drop ds = rsParity g ds ps cs (w.take ds))

/-- `rs_data(ds, ps, W, A)` with `A` in rising order; `none` is ReconstructionFailed (R192). -/
def rsData (g : GfPoly) (ds ps cs : Nat) (w : List (List Byte)) (a : List Nat) : Option (List (List Byte)) :=
  if a.length < ds then none
  else
    let is := a.take ds
    let dm := matInv g ds (is.map fun i => (genMatrix g ds ps).getD i [])
    let full := matMul g ds cs dm (is.map fun i => w.getD i [])
    some ((List.range ds).map fun d => if a.contains d then w.getD d [] else full.getD d [])

/-- `rs_payload(ds, cs, pad, D)` (R194). -/
def rsPayload (ds cs pad : Nat) (d : List (List Byte)) : List Byte := d.flatten.take (ds * cs - pad)

/-! ## The commands -/

/-- RSENC (R195). The verification is the document's; with this arithmetic it cannot fail (R307). -/
def execRsenc (s : State) : Host.Outcome State Fault Refusal :=
  if ¬ s.codecParamsOK then raise .invalidParams s
  else if ¬ s.hasShape s.ds s.cs then raise .badOperand s
  else if ¬ s.allPresent s.ds then raise .badOperand s
  else
    let d := s.shardRows s.ds s.cs
    let q := rsParity s.cfg.gfPoly s.ds s.ps s.cs d
    if ¬ rsVerify s.cfg.gfPoly s.ds s.ps s.cs (d ++ q) then raise .verificationFailed s
    else succeed ((s.setShards (s.ds * s.cs) q.flatten).setShape s.n s.cs (lowmaskWord s.n) 0)

/-- RSDECF (R196). -/
def execRsdecf (s : State) : Host.Outcome State Fault Refusal :=
  if ¬ s.codecParamsOK then raise .invalidParams s
  else if ¬ s.hasShape s.n s.cs then raise .badOperand s
  else if s.ds * s.cs < s.arg0.toNat then raise .badOperand s
  else
    let w := s.shardRows s.n s.cs
    match rsData s.cfg.gfPoly s.ds s.ps s.cs w (s.available s.n) with
    | none => raise .reconstructionFailed s
    | some d =>
      let f := rsEncode s.cfg.gfPoly s.ds s.ps s.cs d
      let repaired := (List.range s.n).map fun i => if s.isPresent i then w.getD i [] else f.getD i []
      if ¬ rsVerify s.cfg.gfPoly s.ds s.ps s.cs repaired then raise .verificationFailed s
      else succeed (((s.fillRows s.cs f (s.erased s.n)).setPresence (lowmaskWord s.n) (maskOf (s.erased s.n))).putBytes
        (rsPayload s.ds s.cs s.arg0.toNat d))

/-- RSDECD (R197). -/
def execRsdecd (s : State) : Host.Outcome State Fault Refusal :=
  if ¬ s.codecParamsOK then raise .invalidParams s
  else if ¬ s.hasShape s.n s.cs then raise .badOperand s
  else if s.ds * s.cs < s.arg0.toNat then raise .badOperand s
  else
    match rsData s.cfg.gfPoly s.ds s.ps s.cs (s.shardRows s.n s.cs) (s.available s.n) with
    | none => raise .reconstructionFailed s
    | some d =>
      succeed (((s.fillRows s.cs d (s.erased s.ds)).setPresence (s.present ||| maskOf (s.erased s.ds))
        (maskOf (s.erased s.ds))).putBytes (rsPayload s.ds s.cs s.arg0.toNat d))

end Sys2Proof.Machine
end

