-- ==== Sys2Proof/Machine/Search.lean ====
section
/-! DEFINITION. The erasure-pattern search decoder (45_search_decoder.md): the pattern list, PATGEN and SEARCH. -/

namespace Sys2Proof.Machine

/-- `PAT(n)[j] = 2^n - 1 - j`, the keep mask of attempt `j` (R231). -/
def keepMask (n j : Nat) : Nat := 2 ^ n - 1 - j

/-- `A_j = { i < n : present(i) and PAT(n)[j][i] = 1 }`, in rising order (R232). -/
def State.attemptSet (s : State) (n j : Nat) : List Nat :=
  (List.range n).filter fun i => s.isPresent i && (keepMask n j).testBit i

/-- One attempt (the loop body of R234): reconstruct the data from `A_j`, take the candidate envelope, and answer its payload
when its CRC verifies. -/
def State.attempt (s : State) (w : CrcWidth) (pos : EnvPos) (j : Nat) : Option (List Byte) :=
  match rsData s.cfg.gfPoly s.ds s.ps s.cs (s.shardRows s.n s.cs) (s.attemptSet s.n j) with
  | none => none
  | some d => envOpen s.cfg w pos (rsPayload s.ds s.cs s.arg0.toNat d)

/-- The first index from `j` upward, of at most `k` of them, at which `f` answers, with its answer ("the first satisfying mask
in enumeration order wins", R234). -/
def firstFrom {α : Type} (f : Nat → Option α) : (k j : Nat) → Option (Nat × α)
  | 0, _ => none
  | k + 1, j =>
    match f j with
    | some a => some (j, a)
    | none => firstFrom f k (j + 1)

/-- PATGEN (R233). -/
def execPatgen (s : State) : Host.Outcome State Fault Refusal :=
  if ¬ s.codecParamsOK then raise .invalidParams s
  else succeed (s.markPattern s.n)

/-- SEARCH with CRC width `w` at position `pos` (R234). On exhaustion PCACHE, ATTEMPTS and MASK are written all the same
(60_exceptions.md R304). -/
def searchDecode (w : CrcWidth) (pos : EnvPos) (s : State) : Host.Outcome State Fault Refusal :=
  if ¬ s.codecParamsOK then raise .invalidParams s
  else if ¬ s.hasShape s.n s.cs then raise .badOperand s
  else if s.ds * s.cs < s.arg0.toNat + crcLen w then raise .badOperand s
  else
    match firstFrom (s.attempt w pos) (2 ^ s.n) 0 with
    | some (j, p) => succeed (((s.markPattern s.n).putBytes p).setAttempts j (keepMask s.n j))
    | none => raise .decodeExhausted ((s.markPattern s.n).setAttempts (2 ^ s.n) 0)

/-- SEARCH.8.SUF (R234). -/
def execSearch8Suf (s : State) : Host.Outcome State Fault Refusal := searchDecode .w8 .suf s
/-- SEARCH.16.SUF (R234). -/
def execSearch16Suf (s : State) : Host.Outcome State Fault Refusal := searchDecode .w16 .suf s
/-- SEARCH.32.SUF (R234). -/
def execSearch32Suf (s : State) : Host.Outcome State Fault Refusal := searchDecode .w32 .suf s
/-- SEARCH.8.PRE (R234). -/
def execSearch8Pre (s : State) : Host.Outcome State Fault Refusal := searchDecode .w8 .pre s
/-- SEARCH.16.PRE (R234). -/
def execSearch16Pre (s : State) : Host.Outcome State Fault Refusal := searchDecode .w16 .pre s
/-- SEARCH.32.PRE (R234). -/
def execSearch32Pre (s : State) : Host.Outcome State Fault Refusal := searchDecode .w32 .pre s

end Sys2Proof.Machine
end

