-- ==== Sys2Proof/Machine/Viterbi.lean ====
section
/-! DEFINITION. The convolutional codec (46_viterbi.md): validity and latching of a codec, the encoder, the trellis, the Viterbi
decoder, and VINIT, VENC, VDEC. A trellis state is a number below `2^(K-1)` (R252). -/

namespace Sys2Proof.Machine

/-! ## The code (R251 to R254) -/

/-- `ConvValid(K, m, g)` on the ConvolutionalParams registers; `m` is compared before any POLY entry is read (R251, R258). -/
def State.convValid (s : State) : Bool :=
  let k := s.constraintLen.toNat
  let m := s.nPoly.toNat
  decide (2 ≤ k) && decide (k ≤ s.cfg.kMax) && decide (1 ≤ m) && decide (m ≤ s.cfg.npolyMax) &&
    (List.range m).all fun j =>
      decide (1 ≤ (s.poly.getD j 0).toNat) && decide ((s.poly.getD j 0).toNat < 2 ^ k)

/-- `reversePolynomials`, bit 0 of CONV_FLAGS (10_state.md R28). -/
def State.reversePolys (s : State) : Bool := s.convFlags.getLsbD 0

/-- The effective polynomial of `g`: its `K`-bit reversal when the flag is set (R253). -/
def effectivePoly (k : Nat) (rev : Bool) (g : Word) : Word :=
  if rev then BitVec.ofNat 32 (bitrev k g.toNat) else g

/-- The codec that VINIT latches from the registers (R258). -/
def State.codecFromRegs (s : State) : Codec :=
  { k := s.constraintLen.toNat
    polys := (List.range s.nPoly.toNat).map fun j =>
      effectivePoly s.constraintLen.toNat s.reversePolys (s.poly.getD j 0) }

/-- `m`, the number of generator polynomials of a codec (R250). -/
def Codec.m (c : Codec) : Nat := c.polys.length

/-- `out_0(s,u), ..., out_{m-1}(s,u)` with `R = s + u * 2^(K-1)` (R252). -/
def Codec.outputs (c : Codec) (st : Nat) (u : Bool) : List Bool :=
  c.polys.map fun e => parity c.k ((st + u.toNat * 2 ^ (c.k - 1)) &&& e.toNat)

/-- `next(s,u) = (s >> 1) + u * 2^(K-2)` (R252). -/
def Codec.next (c : Codec) (st : Nat) (u : Bool) : Nat := st / 2 + u.toNat * 2 ^ (c.k - 2)

/-- The output bits of the encoder from state `st` on the input bits listed, step by step (R254). -/
def Codec.run (c : Codec) : Nat → List Bool → List Bool
  | _, [] => []
  | st, u :: us => c.outputs st u ++ Codec.run c (c.next st u) us

/-- `conv_encode(c, u)`: the message, then `K-1` zero flush bits (R254). -/
def convEncode (c : Codec) (u : List Bool) : List Bool := c.run 0 (u ++ List.replicate (c.k - 1) false)

/-! ## The trellis and the decoder (R255, R256) -/

/-- `pred_b(s') = ((s' & lowmask(K-2)) << 1) + b` (R255). -/
def Codec.pred (c : Codec) (st : Nat) (b : Bool) : Nat := (st &&& lowmask (c.k - 2)) * 2 + b.toNat

/-- `in(s') = s' >> (K-2)`, the input bit on both branches into `s'` (R255). -/
def Codec.input (c : Codec) (st : Nat) : Bool := decide (st / 2 ^ (c.k - 2) = 1)

/-- The number of places in which two bit sequences of one length differ. -/
def hamming (x y : List Bool) : Nat := (List.zipWith (fun a b => (a ^^ b).toNat) x y).sum

/-- `c_b` of R256: the metric of the branch from `p_b` into `s'`, `none` for `inf`. -/
def Codec.branch (c : Codec) (pm : List (Option Nat)) (block : List Bool) (st : Nat) (b : Bool) : Option Nat :=
  (pm.getD (c.pred st b) none).map fun d => d + hamming (c.outputs (c.pred st b) (c.input st)) block

/-- `x ≤ y` where `none` is `inf` (R256). -/
def metricLe : Option Nat → Option Nat → Bool
  | _, none => true
  | none, some _ => false
  | some x, some y => decide (x ≤ y)

/-- The chosen branch into `s'`: its metric and the state it comes from; a tie goes to `b = 0` (R256). -/
def Codec.choose (c : Codec) (pm : List (Option Nat)) (block : List Bool) (st : Nat) : Option Nat × Nat :=
  if metricLe (c.branch pm block st false) (c.branch pm block st true)
  then (c.branch pm block st false, c.pred st false)
  else (c.branch pm block st true, c.pred st true)

/-- One step of the recursion of R256, for every state `s'` in order. -/
def Codec.trellisStep (c : Codec) (pm : List (Option Nat)) (block : List Bool) : List (Option Nat × Nat) :=
  (List.range (2 ^ (c.k - 1))).map (c.choose pm block)

/-- The recursion of R256 over the blocks of received bits: the `from` rows, the last step's first. -/
def Codec.survivors (c : Codec) : List (Option Nat) → List (List Bool) → List (List Nat) → List (List Nat)
  | _, [], rows => rows
  | pm, block :: blocks, rows =>
    let column := c.trellisStep pm block
    Codec.survivors c (column.map Prod.fst) blocks (column.map Prod.snd :: rows)

/-- The metrics before the first step: the encoder starts in state 0 (R256). -/
def Codec.startMetrics (c : Codec) : List (Option Nat) :=
  (List.range (2 ^ (c.k - 1))).map fun st => if st = 0 then some 0 else none

/-- The traceback of R256 from state `st` through the `from` rows, the last step's first; `acc` holds the bits of the later
steps. -/
def Codec.traceback (c : Codec) : Nat → List (List Nat) → List Bool → List Bool
  | _, [], acc => acc
  | st, row :: rows, acc => Codec.traceback c (row.getD st 0) rows (c.input st :: acc)

/-- `T = ceil(B / m)` (R256). -/
def Codec.steps (c : Codec) (b : Nat) : Nat := (b + c.m - 1) / c.m

/-- The received bits, padded with zeros to whole steps, as one block of `m` bits per step (R256). -/
def Codec.blocks (c : Codec) (r : List Bool) : List (List Bool) :=
  let t := c.steps r.length
  let r' := r ++ List.replicate (c.m * t - r.length) false
  (List.range t).map fun i => (r'.drop (c.m * i)).take c.m

/-- `viterbi(c, r)` (R256). -/
def viterbi (c : Codec) (r : List Bool) : List Bool :=
  let d := c.traceback 0 (c.survivors c.startMetrics (c.blocks r) []) []
  d.take (c.steps r.length - (c.k - 1))

/-! ## The commands -/

/-- VINIT (R258): on InvalidParams the latched codec is dropped. -/
def execVinit (s : State) : Host.Outcome State Fault Refusal :=
  if ¬ s.convValid then raise .invalidParams (s.latch none)
  else succeed (s.latch (some s.codecFromRegs))

/-- VENC (R259). -/
def execVenc (s : State) : Host.Outcome State Fault Refusal :=
  match s.codec with
  | none => raise .invalidParams s
  | some c =>
    if ¬ s.byteBufOK then raise .badOperand s
    else if s.cfg.bitCap < c.m * (8 * (s.byteLen.toNat + 2) + c.k - 1) then raise .badOperand s
    else succeed (s.putBits (convEncode c (bitsOfBytes (envMake s.cfg .w16 .suf (s.bytes s.byteLen.toNat)))))

/-- VDEC (R260). -/
def execVdec (s : State) : Host.Outcome State Fault Refusal :=
  match s.codec with
  | none => raise .invalidParams s
  | some c =>
    if ¬ s.bitBufOK then raise .badOperand s
    else
      let lm := c.steps s.bitLen.toNat - (c.k - 1)
      if lm % 8 = 0 ∧ s.cfg.byteCap + 2 < lm / 8 then raise .badOperand s
      else if lm < 16 ∨ lm % 8 ≠ 0 then raise .crcMismatch s
      else
        match envOpen s.cfg .w16 .suf (bytesOfBits (viterbi c (s.bits s.bitLen.toNat))) with
        | none => raise .crcMismatch s
        | some p => succeed (s.putBytes p)

end Sys2Proof.Machine
end

