-- ==== Sys2Proof/Syntax.lean ====
section
/-! DEFINITION. The 42 legal command words as one inductive type, one constructor per row of
spec/opcode_table.json (30_encoding.md R111). A command word has no operand fields (R100, R104): every operand
is a register, so no constructor has an argument. -/

namespace Sys2Proof

/-- A command (30_encoding.md R111). -/
inductive Instr
  | nop
  | b2bit
  | bit2b
  | bsetBit
  | bsetByte
  | bclrBit
  | bclrByte
  | bflipBit
  | bflipByte
  | crcgen8
  | crcgen16
  | crcgen32
  | crcenc8Suf
  | crcenc16Suf
  | crcenc32Suf
  | crcenc8Pre
  | crcenc16Pre
  | crcenc32Pre
  | crcchk8Suf
  | crcchk16Suf
  | crcchk32Suf
  | crcchk8Pre
  | crcchk16Pre
  | crcchk32Pre
  | chunk
  | flat
  | unflat
  | rsenc
  | rsdecf
  | rsdecd
  | ilv
  | dilv
  | patgen
  | search8Suf
  | search16Suf
  | search32Suf
  | search8Pre
  | search16Pre
  | search32Pre
  | vinit
  | venc
  | vdec
  deriving DecidableEq, Repr

end Sys2Proof
end

