-- ==== Sys2Proof/Machine/Dispatch.lean ====
section
/-! DEFINITION. What each command does from its acceptance to its completion: one arm per row of the opcode table
(30_encoding.md R111), each a direct call of the command's meaning. -/

namespace Sys2Proof.Machine

/-- The core executes one accepted command (00_scope.md R17). -/
def exec (i : Instr) (s : State) : Host.Outcome State Fault Refusal :=
  match i with
  | .nop => Sys2Proof.Machine.execNop s
  | .b2bit => Sys2Proof.Machine.execB2bit s
  | .bit2b => Sys2Proof.Machine.execBit2b s
  | .bsetBit => Sys2Proof.Machine.execBsetBit s
  | .bsetByte => Sys2Proof.Machine.execBsetByte s
  | .bclrBit => Sys2Proof.Machine.execBclrBit s
  | .bclrByte => Sys2Proof.Machine.execBclrByte s
  | .bflipBit => Sys2Proof.Machine.execBflipBit s
  | .bflipByte => Sys2Proof.Machine.execBflipByte s
  | .crcgen8 => Sys2Proof.Machine.execCrcgen8 s
  | .crcgen16 => Sys2Proof.Machine.execCrcgen16 s
  | .crcgen32 => Sys2Proof.Machine.execCrcgen32 s
  | .crcenc8Suf => Sys2Proof.Machine.execCrcenc8Suf s
  | .crcenc16Suf => Sys2Proof.Machine.execCrcenc16Suf s
  | .crcenc32Suf => Sys2Proof.Machine.execCrcenc32Suf s
  | .crcenc8Pre => Sys2Proof.Machine.execCrcenc8Pre s
  | .crcenc16Pre => Sys2Proof.Machine.execCrcenc16Pre s
  | .crcenc32Pre => Sys2Proof.Machine.execCrcenc32Pre s
  | .crcchk8Suf => Sys2Proof.Machine.execCrcchk8Suf s
  | .crcchk16Suf => Sys2Proof.Machine.execCrcchk16Suf s
  | .crcchk32Suf => Sys2Proof.Machine.execCrcchk32Suf s
  | .crcchk8Pre => Sys2Proof.Machine.execCrcchk8Pre s
  | .crcchk16Pre => Sys2Proof.Machine.execCrcchk16Pre s
  | .crcchk32Pre => Sys2Proof.Machine.execCrcchk32Pre s
  | .chunk => Sys2Proof.Machine.execChunk s
  | .flat => Sys2Proof.Machine.execFlat s
  | .unflat => Sys2Proof.Machine.execUnflat s
  | .rsenc => Sys2Proof.Machine.execRsenc s
  | .rsdecf => Sys2Proof.Machine.execRsdecf s
  | .rsdecd => Sys2Proof.Machine.execRsdecd s
  | .ilv => Sys2Proof.Machine.execIlv s
  | .dilv => Sys2Proof.Machine.execDilv s
  | .patgen => Sys2Proof.Machine.execPatgen s
  | .search8Suf => Sys2Proof.Machine.execSearch8Suf s
  | .search16Suf => Sys2Proof.Machine.execSearch16Suf s
  | .search32Suf => Sys2Proof.Machine.execSearch32Suf s
  | .search8Pre => Sys2Proof.Machine.execSearch8Pre s
  | .search16Pre => Sys2Proof.Machine.execSearch16Pre s
  | .search32Pre => Sys2Proof.Machine.execSearch32Pre s
  | .vinit => Sys2Proof.Machine.execVinit s
  | .venc => Sys2Proof.Machine.execVenc s
  | .vdec => Sys2Proof.Machine.execVdec s

end Sys2Proof.Machine
end

