-- ==== Sys2Proof/WellFormed.lean ====
section
/-! DEFINITION. What is well formed before a machine runs: an instruction, and the parameters of an instance
(the constraints of 00_scope.md R8). Which command words are legal is in Decode.lean. -/

namespace Sys2Proof

/-- Every command is well formed: a command word has no operand field that could be out of range (30_encoding.md
R100, R104, R108), and the words that are no command are refused by `decode`. -/
def Instr.wellFormed (_ : Instr) : Bool := true

/-- The remainder of the polynomial `p`, of degree at most 8, by the polynomial `d` of degree `e`, both as numbers whose
bit `i` is the coefficient of `X^i`: long division over GF(2), from the highest power down. -/
def polyRemainder (p e d : Nat) : Nat :=
  (List.range (9 - e)).foldl (fun r k => if r.testBit (8 - k) then r ^^^ (d <<< (8 - e - k)) else r) p

/-- The constraint on GF_POLY (00_scope.md R8): degree 8 and irreducible, that is, no polynomial of degree 1 to 4
divides it. -/
def GfPoly.isFieldPoly (p : GfPoly) : Bool :=
  p.msb && [1, 2, 3, 4].all fun e => (List.range (2 ^ e)).all fun j => decide (polyRemainder p.toNat e (2 ^ e + j) ≠ 0)

/-- The windows of the address map, each its first offset and its size: the registers, BYTEBUF, SHARDMEM, and the two views
of BITBUF (20_memory.md R72). -/
def Config.windows (c : Config) : List (Nat × Nat) :=
  [(c.map.regs, 0x100), (c.map.byteBuf, c.byteCap), (c.map.shardMem, c.shardCap), (c.map.bitInt, c.bitCap),
   (c.map.bitChr, c.bitCap)]

/-- Two windows share no offset. -/
def apart (x y : Nat × Nat) : Bool := decide (x.1 + x.2 ≤ y.1) || decide (y.1 + y.2 ≤ x.1)

/-- The constraints on the parameters, one conjunct per constraint of the table of 00_scope.md R8, the alignment of BASE
(20_memory.md R72), and what a map must be for each access to have one target: the registers aligned, the windows within
the block's span and apart (DEDUCED, notes/assumptions/26.md). -/
def Config.wellFormed (c : Config) : Bool :=
  decide (1 ≤ c.nMax) && decide (c.nMax ≤ 31) &&
  decide (1 ≤ c.chunkMax) && decide (c.nMax * c.chunkMax ≤ c.shardCap) &&
  decide (2 ≤ c.kMax) && decide (c.kMax ≤ 24) &&
  decide (1 ≤ c.npolyMax) && decide (c.npolyMax ≤ 32) &&
  decide (c.nMax * c.chunkMax ≤ c.byteCap) && decide (c.byteCap ≤ 65536) &&
  decide (c.shardCap ≤ c.byteCap) && decide (c.shardCap ≤ 65536) &&
  decide (8 * c.byteCap ≤ c.bitCap) && decide (c.bitCap ≤ 1048576) &&
  c.gfPoly.isFieldPoly && decide (c.base % 0x400000 = 0) && decide (c.map.regs % 4 = 0) &&
  c.windows.all (fun x => decide (x.1 + x.2 ≤ c.map.span)) && decide (c.windows.Pairwise fun x y => apart x y = true)

end Sys2Proof
end

