-- ==== Sys2Proof/Decode.lean ====
section
/-! DEFINITION. The command encoding (30_encoding.md): the fields of a word (R100), the table of the 42 legal words
(R111), the decoder, total and rejecting by name (R105, R106), and after it the encoder, written from the fields
(R101 to R103) and not from the table. -/

namespace Sys2Proof

/-- Field OPCODE, bits 7:0 (R100). -/
def opcodeField (w : Word) : Nat := (w.extractLsb' 0 8).toNat

/-- Field SEL, bits 11:8 (R100). -/
def selField (w : Word) : Nat := (w.extractLsb' 8 4).toNat

/-- Field ZERO, bits 31:12 (R100). -/
def zeroField (w : Word) : Nat := (w.extractLsb' 12 20).toNat

/-- Why a word is no command (R106). -/
inductive Illegal
  /-- Bits 31:12 are not 0. -/
  | zeroNotZero
  /-- The OPCODE is not one of the 22 of R102. -/
  | unassignedOpcode
  /-- The SEL field is one that R103 forbids for this OPCODE. -/
  | forbiddenSelector
  deriving DecidableEq, Repr

/-- The 22 assigned OPCODE values (R102). -/
def assignedOpcodes : List Nat :=
  [0x00, 0x01, 0x02, 0x03, 0x04, 0x05, 0x10, 0x11, 0x12, 0x20, 0x21, 0x22, 0x30, 0x31, 0x32, 0x40, 0x41,
    0x50, 0x51, 0x60, 0x61, 0x62]

/-- What R103 says of SEL, by OPCODE: CRCGEN has a width code and `SEL[3:2] = 0`; CRCENC, CRCCHK and SEARCH have a width
code, a position in `SEL[2]` and `SEL[3] = 0`; BSET, BCLR and BFLIP have a target in `SEL[0]` and `SEL[3:1] = 0`; every
other opcode has `SEL = 0`. Width code 3 is illegal. -/
def selectorAllowed (opcode sel : Nat) : Bool :=
  if opcode = 0x10 then decide (sel / 4 = 0) && decide (sel % 4 ≠ 3)
  else if opcode = 0x11 ∨ opcode = 0x12 ∨ opcode = 0x51 then decide (sel / 8 = 0) && decide (sel % 4 ≠ 3)
  else if opcode = 0x03 ∨ opcode = 0x04 ∨ opcode = 0x05 then decide (sel / 2 = 0)
  else decide (sel = 0)

/-- The legal words by their fields: ZERO is 0, the OPCODE is assigned, SEL is allowed (R103, R106). -/
def wordLegal (w : Word) : Bool :=
  decide (zeroField w = 0) && assignedOpcodes.contains (opcodeField w) &&
    selectorAllowed (opcodeField w) (selField w)

/-- Which rule a word that is no command breaks. -/
def illegalReason (w : Word) : Illegal :=
  if zeroField w ≠ 0 then .zeroNotZero
  else if ¬ assignedOpcodes.contains (opcodeField w) then .unassignedOpcode
  else .forbiddenSelector

/-- The 42 legal command words (R111), the spec's table line by line. -/
def commandTable : List (Word × Instr) :=
  [(0x00000000, .nop), (0x00000001, .b2bit), (0x00000002, .bit2b),
   (0x00000003, .bsetBit), (0x00000103, .bsetByte), (0x00000004, .bclrBit), (0x00000104, .bclrByte),
   (0x00000005, .bflipBit), (0x00000105, .bflipByte),
   (0x00000010, .crcgen8), (0x00000110, .crcgen16), (0x00000210, .crcgen32),
   (0x00000011, .crcenc8Suf), (0x00000111, .crcenc16Suf), (0x00000211, .crcenc32Suf),
   (0x00000411, .crcenc8Pre), (0x00000511, .crcenc16Pre), (0x00000611, .crcenc32Pre),
   (0x00000012, .crcchk8Suf), (0x00000112, .crcchk16Suf), (0x00000212, .crcchk32Suf),
   (0x00000412, .crcchk8Pre), (0x00000512, .crcchk16Pre), (0x00000612, .crcchk32Pre),
   (0x00000020, .chunk), (0x00000021, .flat), (0x00000022, .unflat),
   (0x00000030, .rsenc), (0x00000031, .rsdecf), (0x00000032, .rsdecd),
   (0x00000040, .ilv), (0x00000041, .dilv),
   (0x00000050, .patgen),
   (0x00000051, .search8Suf), (0x00000151, .search16Suf), (0x00000251, .search32Suf),
   (0x00000451, .search8Pre), (0x00000551, .search16Pre), (0x00000651, .search32Pre),
   (0x00000060, .vinit), (0x00000061, .venc), (0x00000062, .vdec)]

/-- Decoding is a total function: a word decodes to the command of the row whose value equals the word, and a word equal
to no row is illegal (R105); the reason names the rule it breaks (R106). -/
def decode (w : Word) : Except Illegal Instr :=
  match commandTable.find? (fun row => row.1 == w) with
  | some row => .ok row.2
  | none => .error (illegalReason w)

/-- The instruction whose bits are `w`, for the host's table: one 32-bit word (R100, R108), which the host writes to
CMD as it is, so there is no byte order to undo. -/
def decodeTableWord (nbits w : Nat) : Option Instr :=
  if nbits ≤ 32 then (decode (BitVec.ofNat 32 (w % 2 ^ nbits))).toOption else none

/-- The OPCODE of each command (R102). -/
def opcodeOf : Instr → Nat
  | .nop => 0x00
  | .b2bit => 0x01
  | .bit2b => 0x02
  | .bsetBit | .bsetByte => 0x03
  | .bclrBit | .bclrByte => 0x04
  | .bflipBit | .bflipByte => 0x05
  | .crcgen8 | .crcgen16 | .crcgen32 => 0x10
  | .crcenc8Suf | .crcenc16Suf | .crcenc32Suf | .crcenc8Pre | .crcenc16Pre | .crcenc32Pre => 0x11
  | .crcchk8Suf | .crcchk16Suf | .crcchk32Suf | .crcchk8Pre | .crcchk16Pre | .crcchk32Pre => 0x12
  | .chunk => 0x20
  | .flat => 0x21
  | .unflat => 0x22
  | .rsenc => 0x30
  | .rsdecf => 0x31
  | .rsdecd => 0x32
  | .ilv => 0x40
  | .dilv => 0x41
  | .patgen => 0x50
  | .search8Suf | .search16Suf | .search32Suf | .search8Pre | .search16Pre | .search32Pre => 0x51
  | .vinit => 0x60
  | .venc => 0x61
  | .vdec => 0x62

/-- The width code `wc` of a CRC width (R103). -/
def CrcWidth.code : CrcWidth → Nat
  | .w8 => 0
  | .w16 => 1
  | .w32 => 2

/-- The value of the position bit `SEL[2]` (R103). -/
def EnvPos.code : EnvPos → Nat
  | .suf => 0
  | .pre => 1

/-- The SEL field of a command with a CRC width and an envelope position (R103). -/
def envSelector (w : CrcWidth) (pos : EnvPos) : Nat := w.code + 4 * pos.code

/-- The SEL field of each command (R103). -/
def selectorOf : Instr → Nat
  | .bsetByte | .bclrByte | .bflipByte => 1
  | .crcgen8 => CrcWidth.w8.code
  | .crcgen16 => CrcWidth.w16.code
  | .crcgen32 => CrcWidth.w32.code
  | .crcenc8Suf | .crcchk8Suf | .search8Suf => envSelector .w8 .suf
  | .crcenc16Suf | .crcchk16Suf | .search16Suf => envSelector .w16 .suf
  | .crcenc32Suf | .crcchk32Suf | .search32Suf => envSelector .w32 .suf
  | .crcenc8Pre | .crcchk8Pre | .search8Pre => envSelector .w8 .pre
  | .crcenc16Pre | .crcchk16Pre | .search16Pre => envSelector .w16 .pre
  | .crcenc32Pre | .crcchk32Pre | .search32Pre => envSelector .w32 .pre
  | .nop | .b2bit | .bit2b | .bsetBit | .bclrBit | .bflipBit | .chunk | .flat | .unflat | .rsenc | .rsdecf
  | .rsdecd | .ilv | .dilv | .patgen | .vinit | .venc | .vdec => 0

/-- The word of a command: `OPCODE + 256 * SEL`, with ZERO = 0 (R101). -/
def encode (i : Instr) : Word := BitVec.ofNat 32 (opcodeOf i + 256 * selectorOf i)

end Sys2Proof
end

