-- ==== Sys2Proof/Machine/Fetch.lean ====
section
/-! DEFINITION. What the core runs next: the accepted command word is the contents of CMD (10_state.md R23, R27; 20_memory.md
R84), and what an accepted word that is no command does (60_exceptions.md R312). -/

namespace Sys2Proof.Machine

/-- The command the core executes while BUSY: the decoded contents of CMD (R23). -/
def State.fetch (s : State) : Except Illegal Instr := decode s.cmd

/-- What the core does while BUSY with a word that decodes to no command: it completes with IllegalCommand, and nothing is
written but STATUS and ERR (R312). Such a state is not reached from a host write, which `State.acceptWord` completes at
once. -/
def illegalCompletion (s : State) : Host.Outcome State Fault Refusal := raise .illegalCommand s

/-- A host write of `w` to CMD while the block is idle (10_state.md R23): the word is accepted, and a word that is no command
"ends at once" (30_encoding.md R106), so that its acceptance and its completion are one step (notes/assumptions/2.md). -/
def State.acceptWord (s : State) (w : Word) : State :=
  match decode w with
  | .ok _ => s.accept w
  | .error _ => (s.accept w).complete Err.illegalCommand.code

/-- CMD holds `w` as the accepted command, and nothing comes before the core's turn (see `State.withFetchWord`). -/
def State.withAccepted (s : State) (w : Word) : State := (s.accept w).withSchedule []

end Sys2Proof.Machine
end

