-- ==== Sys2Proof/Machine/HostPort.lean ====
section
/-! DEFINITION. The host port (20_memory.md R71 to R80): what an access is aimed at, what a read returns, what a write stores,
and the host protocol violations. -/

namespace Sys2Proof.Machine

/-! ## What an access is aimed at -/

/-- A register that exists; POLY has NPOLY_MAX entries (10_state.md R29). -/
def regTarget (c : Config) (r : Reg) : Target :=
  match r with
  | .poly j => if j < c.npolyMax then .reg (.poly j) else .unmapped
  | _ => .reg r

/-- A byte below the capacity of its buffer (R71, R73). -/
def byteTarget (c : Config) (sp : ByteSpace) (i : Nat) : Target :=
  if i < (match sp with | .byteBuf => c.byteCap | .shardMem => c.shardCap) then .byte sp i else .unmapped

/-- A bit below BIT_CAP, through a view (R71, R73). -/
def bitTarget (c : Config) (view : BitView) (i : Nat) : Target :=
  if i < c.bitCap then .bit view i else .unmapped

/-- The registers at offsets 0x00, 0x04, ..., 0x5C (10_state.md R22). -/
def regsInOrder : List Reg :=
  [.cmd, .status, .err, .dataShards, .parityShards, .chunkSize, .constraintLen, .nPoly, .convFlags, .arg0,
   .byteLen, .bitLen, .rows, .cols, .present, .recon, .bytesPadded, .attempts, .result, .mask, .pcache, .codec,
   .ident, .caps]

/-- The register at an offset below 0x100 that is a multiple of 4: the table of R22, and POLY[j] at 0x80 + 4j. -/
def regAtOffset (c : Config) (off : Nat) : Target :=
  if off < 0x80 then
    match regsInOrder[off / 4]? with
    | some r => .reg r
    | none => .unmapped
  else regTarget c (.poly ((off - 0x80) / 4))

/-- The place of an offset in the window of `size` elements that begins at `start`, if it lies in it (R72). -/
def inWindow (start size off : Nat) : Option Nat :=
  if start ≤ off ∧ off < start + size then some (off - start) else none

/-- The buffer element at an offset, by the windows of the map (R72). -/
def bufferAtOffset (c : Config) (off : Nat) : Target :=
  match inWindow c.map.byteBuf c.byteCap off with
  | some k => .byte .byteBuf k
  | none =>
    match inWindow c.map.shardMem c.shardCap off with
    | some k => .byte .shardMem k
    | none =>
      match inWindow c.map.bitInt c.bitCap off with
      | some k => .bit .int k
      | none =>
        match inWindow c.map.bitChr c.bitCap off with
        | some k => .bit .chr k
        | none => .unmapped

/-- What an access of `width` bits at byte offset `off` is aimed at (the map of R72, the widths of R77). -/
def offsetTarget (c : Config) (off width : Nat) : Target :=
  match inWindow c.map.regs 0x100 off with
  | some k => if width = 32 ∧ k % 4 = 0 then regAtOffset c k else .unmapped
  | none => if width = 8 then bufferAtOffset c off else .unmapped

/-- What an access at an address is aimed at: the block answers the offsets below the map's span from BASE (R72); any other
address is not the block's (DESIGN CHOICE, notes/assumptions/9.md). -/
def busTarget (c : Config) (addr width : Nat) : Target :=
  if addr < c.base ∨ c.base + c.map.span ≤ addr then .outside else offsetTarget c (addr - c.base) width

/-! ## Reads -/

/-- The host reads a value (R78: no read has a side effect on the block). -/
def State.returns (s : State) (v : Word) : State := { s with readData := v }

/-- The host reads an unspecified value of `width` bits, a fresh free value each time (R71, R77, R79, R80). -/
def State.returnsUnspecified (s : State) (width : Nat) : State :=
  { s with readData := Config.unspecifiedRead s.draws &&& lowmaskWord width, draws := s.draws + 1 }

/-- Element `i` of SHARDMEM lies in a row of the current shape that is erased: its byte has no meaning (10_state.md R33). -/
def State.inErasedRow (s : State) (i : Nat) : Bool :=
  decide (0 < s.cols.toNat) && decide (i / s.cols.toNat < s.rows.toNat) && !s.isPresent (i / s.cols.toNat)

/-- How a bit reads through a view: 0x00 or 0x01, 0x30 or 0x31 (R76). -/
def bitSymbol (view : BitView) (b : Bool) : Byte :=
  match view with
  | .int => if b then 0x01 else 0x00
  | .chr => if b then 0x31 else 0x30

/-- A host read `width` bits wide (R71): of STATUS at any time, of anything else while the block is idle; while BUSY anything else returns an
unspecified value (R80). An access that is aimed at nothing sets HERR (R79), also while BUSY (notes/assumptions/10.md). -/
def State.hostRead (s : State) (t : Target) (width : Nat) : State :=
  match t with
  | .outside => s.returnsUnspecified width
  | .unmapped => s.violation.returnsUnspecified width
  | .reg .status => s.returns s.status
  | .reg r => if s.busy then s.returnsUnspecified width else s.returns (s.reg r)
  | .byte .byteBuf i => if s.busy then s.returnsUnspecified width else s.returns ((s.byteAt i).setWidth 32)
  | .byte .shardMem i =>
    if s.busy || s.inErasedRow i then s.returnsUnspecified width else s.returns ((s.shardAt i).setWidth 32)
  | .bit view i => if s.busy then s.returnsUnspecified width else s.returns ((bitSymbol view (s.bitAt i)).setWidth 32)

/-! ## Writes -/

/-- A write to a register while the block is idle (10_state.md R21 to R35). A write to CMD is the acceptance of a command word; CONV_FLAGS
keeps bit 0 only; a write to ROWS, COLS or PRESENT clears RECON (R34); a write to a read-only register is a violation. -/
def State.writeReg (s : State) (r : Reg) (v : Word) : State :=
  match r with
  | .cmd => s.acceptWord v
  | .dataShards => { s with dataShards := v }
  | .parityShards => { s with parityShards := v }
  | .chunkSize => { s with chunkSize := v }
  | .constraintLen => { s with constraintLen := v }
  | .nPoly => { s with nPoly := v }
  | .convFlags => { s with convFlags := v &&& 1 }
  | .arg0 => { s with arg0 := v }
  | .byteLen => { s with byteLen := v }
  | .bitLen => { s with bitLen := v }
  | .rows => { s with rows := v, recon := 0 }
  | .cols => { s with cols := v, recon := 0 }
  | .present => { s with present := v, recon := 0 }
  | .poly j => { s with poly := s.poly.set j v }
  | .status | .err | .recon | .bytesPadded | .attempts | .result | .mask | .pcache | .codec | .ident | .caps =>
    s.violation

/-- The bit a byte written through a view stands for, if it is one of the two legal symbols (R76). -/
def symbolBit (view : BitView) (v : Byte) : Option Bool :=
  if v = bitSymbol view false then some false
  else if v = bitSymbol view true then some true
  else none

/-- A host write (R71, R79): ignored with HERR set while BUSY, or where nothing is mapped. -/
def State.hostWrite (s : State) (t : Target) (v : Word) : State :=
  match t with
  | .outside => s
  | .unmapped => s.violation
  | .reg r => if s.busy then s.violation else s.writeReg r v
  | .byte .byteBuf i => if s.busy then s.violation else s.setByte i (v.setWidth 8)
  | .byte .shardMem i => if s.busy then s.violation else s.setShards i [v.setWidth 8]
  | .bit view i =>
    if s.busy then s.violation
    else match symbolBit view (v.setWidth 8) with
      | some b => s.setBit i b
      | none => s.violation

/-- One host move (R71): a named read of a register is 32 bits wide, of a byte or a bit 8. -/
def State.hostMove (s : State) (m : HostMove) : State :=
  match m with
  | .readReg r => s.hostRead (regTarget s.cfg r) 32
  | .writeReg r v => s.hostWrite (regTarget s.cfg r) v
  | .readByte sp i => s.hostRead (byteTarget s.cfg sp i) 8
  | .writeByte sp i v => s.hostWrite (byteTarget s.cfg sp i) (v.setWidth 32)
  | .readBit view i => s.hostRead (bitTarget s.cfg view i) 8
  | .writeBit view i v => s.hostWrite (bitTarget s.cfg view i) (v.setWidth 32)
  | .busRead addr width => s.hostRead (busTarget s.cfg addr width) width
  | .busWrite addr width data => s.hostWrite (busTarget s.cfg addr width) data

end Sys2Proof.Machine
end

