-- ==== Sys2Proof/Machine/Step.lean ====
section
/-! DEFINITION. One step of the machine: the oldest event of the schedule happens, and with an empty schedule the core has
its turn (00_scope.md R17, 20_memory.md R80, R81; notes/assumptions/1.md, 2.md, 3.md). -/

namespace Sys2Proof.Machine

/-- The core's turn: while BUSY it executes the accepted command to completion; otherwise it does nothing (00_scope.md R17). -/
def coreTurn (s : State) : Host.Outcome State Fault Refusal :=
  if s.busy then
    match s.fetch with
    | .ok i => exec i s
    | .error _ => illegalCompletion s
  else .next s

/-- One step. -/
def step (s : State) : Host.Outcome State Fault Refusal :=
  match s.schedule with
  | [] => coreTurn s
  | .core :: es => coreTurn (s.withSchedule es)
  | .host m :: es => .next ((s.withSchedule es).hostMove m)
  | .reset :: es => .next ((s.withSchedule es).afterReset)

/-- The state in which the very next step runs the command word `w`: the word has been accepted (10_state.md R23) and nothing
is scheduled before the core's turn. A command word is 32 bits (30_encoding.md R100). -/
def State.withFetchWord (s : State) (nbits w : Nat) : State :=
  s.withAccepted (BitVec.ofNat 32 (w % 2 ^ nbits))

end Sys2Proof.Machine
end

