-- ==== Sys2Proof/Machine/HostSide.lean ====
section
/-! DEFINITION. What the spec describes outside the block: host programs and pseudo-instructions (30_encoding.md R109, R110) as
schedules for the machine, and the host-side functions `corrupt`, `softDecode` and RunStats (49_host_side_units.md). The
block has no state and no command for any of them (00_scope.md R6), and nothing before this file uses it. -/

namespace Sys2Proof.Machine

/-! ## Host programs (R109) -/

/-- The assembler's mnemonics (R109, R111). -/
def mnemonic : Instr → String
  | .nop => "NOP"
  | .b2bit => "B2BIT"
  | .bit2b => "BIT2B"
  | .bsetBit => "BSET.BIT"
  | .bsetByte => "BSET.BYTE"
  | .bclrBit => "BCLR.BIT"
  | .bclrByte => "BCLR.BYTE"
  | .bflipBit => "BFLIP.BIT"
  | .bflipByte => "BFLIP.BYTE"
  | .crcgen8 => "CRCGEN.8"
  | .crcgen16 => "CRCGEN.16"
  | .crcgen32 => "CRCGEN.32"
  | .crcenc8Suf => "CRCENC.8.SUF"
  | .crcenc16Suf => "CRCENC.16.SUF"
  | .crcenc32Suf => "CRCENC.32.SUF"
  | .crcenc8Pre => "CRCENC.8.PRE"
  | .crcenc16Pre => "CRCENC.16.PRE"
  | .crcenc32Pre => "CRCENC.32.PRE"
  | .crcchk8Suf => "CRCCHK.8.SUF"
  | .crcchk16Suf => "CRCCHK.16.SUF"
  | .crcchk32Suf => "CRCCHK.32.SUF"
  | .crcchk8Pre => "CRCCHK.8.PRE"
  | .crcchk16Pre => "CRCCHK.16.PRE"
  | .crcchk32Pre => "CRCCHK.32.PRE"
  | .chunk => "CHUNK"
  | .flat => "FLAT"
  | .unflat => "UNFLAT"
  | .rsenc => "RSENC"
  | .rsdecf => "RSDECF"
  | .rsdecd => "RSDECD"
  | .ilv => "ILV"
  | .dilv => "DILV"
  | .patgen => "PATGEN"
  | .search8Suf => "SEARCH.8.SUF"
  | .search16Suf => "SEARCH.16.SUF"
  | .search32Suf => "SEARCH.32.SUF"
  | .search8Pre => "SEARCH.8.PRE"
  | .search16Pre => "SEARCH.16.PRE"
  | .search32Pre => "SEARCH.32.PRE"
  | .vinit => "VINIT"
  | .venc => "VENC"
  | .vdec => "VDEC"

/-- The command a mnemonic stands for; a mnemonic with a missing or extra suffix is an assembly error, not a command (R109). -/
def assemble (name : String) : Option Instr :=
  (commandTable.map Prod.snd).find? fun i => mnemonic i == name

/-- One line of a host program (R109). -/
inductive Line
  | wr (r : Reg) (v : Word)
  | rd (r : Reg)
  | ldb (sp : ByteSpace) (bytes : List Byte)
  | ldbits (bits : List Bool)
  | command (i : Instr)
  deriving DecidableEq, Repr

/-- The events of a line: a command is written to CMD, the core finishes it, and the host reads STATUS (R109). -/
def lineEvents : Line → List Event
  | .wr r v => [.host (.writeReg r v)]
  | .rd r => [.host (.readReg r)]
  | .ldb sp bytes => bytes.mapIdx fun i b => .host (.writeByte sp i b)
  | .ldbits bits => bits.mapIdx fun i b => .host (.writeBit .chr i (bitSymbol .chr b))
  | .command i => [.host (.writeReg .cmd (encode i)), .core, .host (.readReg .status)]

/-- The events happen one after another. -/
def play : List Event → State → Host.Outcome State Fault Refusal
  | [], s => .next s
  | e :: es, s =>
    match step { s with schedule := [e] } with
    | .next t => play es t
    | .fault r => .fault r
    | .refused r => .refused r

/-- A program stops at the first command that completes with `ERR ≠ 0`, "leaving that ERR for the host" (R110). -/
def playScript : List Line → State → Host.Outcome State Fault Refusal
  | [], s => .next s
  | l :: ls, s =>
    match play (lineEvents l) s with
    | .next t =>
      match l with
      | .command _ => if t.err = 0 then playScript ls t else .next t
      | _ => playScript ls t
    | .fault r => .fault r
    | .refused r => .refused r

/-- The command `CRCENC.<w>.<pos>`. -/
def crcencOf : CrcWidth → EnvPos → Instr
  | .w8, .suf => .crcenc8Suf
  | .w16, .suf => .crcenc16Suf
  | .w32, .suf => .crcenc32Suf
  | .w8, .pre => .crcenc8Pre
  | .w16, .pre => .crcenc16Pre
  | .w32, .pre => .crcenc32Pre

/-- The command `SEARCH.<w>.<pos>`. -/
def searchOf : CrcWidth → EnvPos → Instr
  | .w8, .suf => .search8Suf
  | .w16, .suf => .search16Suf
  | .w32, .suf => .search32Suf
  | .w8, .pre => .search8Pre
  | .w16, .pre => .search16Pre
  | .w32, .pre => .search32Pre

/-- The lines TX and TXV share; `last` is B2BIT or VENC (R110). -/
def txLines (last : Instr) (w : CrcWidth) (pos : EnvPos) (ds ps cs : Word) : List Line :=
  [.wr .dataShards ds, .wr .parityShards ps, .wr .chunkSize cs, .command (crcencOf w pos), .command .chunk,
   .command .rsenc, .command .ilv, .command .flat, .command last]

/-- The lines RX and RXV share; `first` is BIT2B or VDEC (R110). -/
def rxLines (first : Instr) (w : CrcWidth) (pos : EnvPos) (ds ps cs pad : Word) : List Line :=
  [.command first, .wr .dataShards ds, .wr .parityShards ps, .wr .chunkSize cs, .wr .arg0 pad, .wr .rows cs,
   .wr .cols (ds + ps), .command .unflat, .command .dilv, .command (searchOf w pos)]

/-- `TX.<w>.<pos> ds, ps, cs` (R110). -/
def pseudoTx : CrcWidth → EnvPos → Word → Word → Word → List Line := txLines .b2bit

/-- `TXV.<w>.<pos> ds, ps, cs` (R110). -/
def pseudoTxv : CrcWidth → EnvPos → Word → Word → Word → List Line := txLines .venc

/-- `RX.<w>.<pos> ds, ps, cs, pad` (R110). -/
def pseudoRx : CrcWidth → EnvPos → Word → Word → Word → Word → List Line := rxLines .bit2b

/-- `RXV.<w>.<pos> ds, ps, cs, pad` (R110). -/
def pseudoRxv : CrcWidth → EnvPos → Word → Word → Word → Word → List Line := rxLines .vdec

/-! ## Host-side functions (49_host_side_units.md) -/

/-- `corrupt(x, k, S)`: the bits at the `k` distinct positions of `S` are inverted; undefined for a set of positions that is
not such a set, in particular for `k > len(x)` (R280). -/
def corrupt (x : List Bool) (k : Nat) (positions : List Nat) : Option (List Bool) :=
  if positions.length = k ∧ positions.Nodup ∧ ∀ i ∈ positions, i < x.length then
    some (x.mapIdx fun i b => if i ∈ positions then !b else b)
  else none

/-- `corrupt` on a byte sequence: bit position `8q + r` is bit `7 - r` of byte `q` (R280). -/
def corruptBytes (x : List Byte) (k : Nat) (positions : List Nat) : Option (List Byte) :=
  (corrupt (bitsOfBytes x) k positions).map bytesOfBits

/-- Why `softDecode` fails (R283). -/
inductive SoftFailure
  /-- `constraint > len(samples)`, the document's ConstraintExceedsData. -/
  | constraintExceedsData
  /-- `constraint = 0`, refused as a configuration error. -/
  | zeroConstraint
  deriving DecidableEq, Repr

/-- The codeword of `c` bits for the data value `v`: `c-1` data bits, the first most significant, and their even parity
(R283). -/
def parityCodeword (c v : Nat) : List Bool :=
  let d := (List.range (c - 1)).map fun i => v.testBit (c - 2 - i)
  d ++ [d.foldl (fun a b => a ^^ b) false]

/-- The sum of squared differences between a sample block and a codeword, in exact arithmetic (R283). -/
def squaredDistance (y : List ℚ) (w : List Bool) : ℚ :=
  (List.zipWith (fun a b => (a - (if b then 1 else 0)) * (a - (if b then 1 else 0))) y w).sum

/-- The nearest codeword of one block: the first minimum in ascending order of the data value (R283). -/
def nearestCodeword (c : Nat) (y : List ℚ) : List Bool :=
  ((List.range (2 ^ (c - 1))).foldl (fun best v =>
    let w := parityCodeword c v
    match best with
    | none => some w
    | some b => if squaredDistance y w < squaredDistance y b then some w else some b) none).getD []

/-- `softDecode(constraint, samples)` over rational samples: whole blocks only (R283). -/
def softDecode (c : Nat) (samples : List ℚ) : Except SoftFailure (List Bool) :=
  if c = 0 then .error .zeroConstraint
  else if samples.length < c then .error .constraintExceedsData
  else .ok ((List.range (samples.length / c)).flatMap fun q => nearestCodeword c ((samples.drop (c * q)).take c))

/-- The result of one decode trial (R286); `runStats` says where its fields come from. -/
structure RunStats where
  pass : Bool
  totalBits : Nat
  corruptedBits : Nat
  dataShards : Nat
  parityShards : Nat
  rows : Nat
  cols : Nat
  attempts : Nat
  payload : List Byte
  deriving DecidableEq, Repr

/-- Where the fields of RunStats come from when a trial runs on the block: `tx` is the transmitting side after B2BIT or VENC,
`rx` the receiving side after its final decode command, `k` the Corruptor's count (R286). DESIGN CHOICE, R286 does not say
on which side the shard and block counts are sampled: `rx` gives DATA_SHARDS, PARITY_SHARDS, ROWS and COLS
(notes/assumptions/27.md). DESIGN CHOICE, R286 gives the payload only after success and ATTEMPTS only after SEARCH: for a
failed trial, and for one without SEARCH, the fields are what BYTEBUF up to BYTELEN and ATTEMPTS then hold
(notes/assumptions/28.md). -/
def runStats (k : Nat) (tx rx : State) : RunStats :=
  { pass := decide (rx.err = 0), totalBits := tx.bitLen.toNat, corruptedBits := k, dataShards := rx.ds,
    parityShards := rx.ps, rows := rx.rows.toNat, cols := rx.cols.toNat, attempts := rx.attempts.toNat,
    payload := rx.bytes rx.byteLen.toNat }

end Sys2Proof.Machine
end

