-- ==== Sys2Proof/Safety.lean ====
section
/-! DEFINITION. The terms the claims use: the invariant of the block, the operand conditions in the spec's words, what a command
leaves unchanged, how it completes, and which error codes it can complete with. -/

namespace Sys2Proof.Machine

/-! ## The invariant -/

/-- The three buffers keep their canonical form and stay within their capacities (10_state.md R39). -/
def State.buffersOK (s : State) : Prop :=
  Memory.wf s.byteBuf ∧ Memory.within s.cfg.byteCap s.byteBuf ∧
  Memory.wf s.shardMem ∧ Memory.within s.cfg.shardCap s.shardMem ∧
  Memory.wf s.bitBuf ∧ Memory.within s.cfg.bitCap s.bitBuf

/-- STATUS and ERR fit together: bits 31:4 of STATUS are zero, ERRF equals `ERR ≠ 0` at all times (10_state.md R24), while BUSY
DONE is 0 and ERR is 0 (R23), and ERR is 0 or one of the codes 1 to 6 and 8 to 10 (60_exceptions.md R301). -/
def State.statusOK (s : State) : Prop :=
  s.status.toNat < 16 ∧ (s.errf = true ↔ s.err ≠ 0) ∧ (s.busy = true → s.done = false ∧ s.err = 0) ∧
  s.err.toNat ≤ 10 ∧ s.err ≠ 7

/-- While BUSY the accepted word in CMD is a command: an illegal word ends at once (30_encoding.md R106). -/
def State.commandOK (s : State) : Prop := s.busy = true → ∃ i, decode s.cmd = .ok i

/-- A latched codec is valid: `2 ≤ K ≤ K_MAX`, `1 ≤ m ≤ NPOLY_MAX`, and every effective polynomial is a non-zero `K`-bit value
(46_viterbi.md R250, R251, R253). -/
def Codec.valid (cfg : Config) (c : Codec) : Prop :=
  2 ≤ c.k ∧ c.k ≤ cfg.kMax ∧ 1 ≤ c.m ∧ c.m ≤ cfg.npolyMax ∧ ∀ e ∈ c.polys, 1 ≤ e.toNat ∧ e.toNat < 2 ^ c.k

/-- The invariant of the block: well-formed parameters, the buffers, STATUS and ERR, a command in CMD while BUSY (R106), the
POLY file has NPOLY_MAX entries (R29), CONV_FLAGS bits 31:1 read as zero (R22), RECON is contained in PRESENT (R34), PCACHE
bits above N_MAX are 0 (R36), and a latched codec is valid (R41). -/
def State.Inv (s : State) : Prop :=
  s.cfg.wellFormed = true ∧ s.buffersOK ∧ s.statusOK ∧ s.commandOK ∧ s.poly.length = s.cfg.npolyMax ∧
  s.convFlags.toNat ≤ 1 ∧ s.recon &&& s.present = s.recon ∧ s.pcache.toNat < 2 ^ (s.cfg.nMax + 1) ∧
  (∀ c, s.codec = some c → c.valid s.cfg)

/-! ## The commands of a CRC width and an envelope position -/

/-- The command `CRCGEN.<w>`. -/
def crcgenOf : CrcWidth → Instr
  | .w8 => .crcgen8
  | .w16 => .crcgen16
  | .w32 => .crcgen32

/-- The command `CRCCHK.<w>.<pos>`. -/
def crcchkOf : CrcWidth → EnvPos → Instr
  | .w8, .suf => .crcchk8Suf
  | .w16, .suf => .crcchk16Suf
  | .w32, .suf => .crcchk32Suf
  | .w8, .pre => .crcchk8Pre
  | .w16, .pre => .crcchk16Pre
  | .w32, .pre => .crcchk32Pre

/-! ## Conditions on the operands, in the spec's words -/

/-- `ds >= 1 and cs >= 1 and ds + ps <= N_MAX and cs <= CHUNK_MAX` (42_chunker.md R170). -/
def State.paramsFit (s : State) : Prop :=
  1 ≤ s.dataShards.toNat ∧ 1 ≤ s.chunkSize.toNat ∧
  s.dataShards.toNat + s.parityShards.toNat ≤ s.cfg.nMax ∧ s.chunkSize.toNat ≤ s.cfg.chunkMax

/-- Row `i` is erased: `i < 32` and `PRESENT[i] = 0` (10_state.md R33). -/
def State.rowErased (s : State) (i : Nat) : Prop := i < 32 ∧ s.present.getLsbD i = false

/-- Byte `i` of SHARDMEM lies in a row of the current shape that is erased (10_state.md R32, R33). -/
def State.liesInErasedRow (s : State) (i : Nat) : Prop :=
  0 < s.cols.toNat ∧ i / s.cols.toNat < s.rows.toNat ∧ s.rowErased (i / s.cols.toNat)

/-- The rows below `n` that are not erased, in rising order. -/
def State.rowsKept (s : State) (n : Nat) : List Nat :=
  (List.range n).filter fun i => decide (32 ≤ i) || s.present.getLsbD i

/-- `2 <= K <= K_MAX and 1 <= m <= NPOLY_MAX and for all j < m: 1 <= g[j] < 2^K`, on the ConvolutionalParams registers
(46_viterbi.md R251). -/
def State.convFits (s : State) : Prop :=
  2 ≤ s.constraintLen.toNat ∧ s.constraintLen.toNat ≤ s.cfg.kMax ∧
  1 ≤ s.nPoly.toNat ∧ s.nPoly.toNat ≤ s.cfg.npolyMax ∧
  ∀ j < s.nPoly.toNat, 1 ≤ (s.reg (.poly j)).toNat ∧ (s.reg (.poly j)).toNat < 2 ^ s.constraintLen.toNat

/-- The rows available in attempt `j` of SEARCH: `{ i < n : present(i) and j[i] = 0 }` (45_search_decoder.md R232). -/
def State.trialRows (s : State) (j : Nat) : List Nat :=
  (s.rowsKept s.n).filter fun i => !j.testBit i

/-- The candidate envelope of attempt `j` of SEARCH, nothing where the reconstruction fails (R234). -/
def State.candidate (s : State) (j : Nat) : Option (List Byte) :=
  (rsData s.cfg.gfPoly s.ds s.ps s.cs (s.shardRows s.n s.cs) (s.trialRows j)).map (rsPayload s.ds s.cs s.arg0.toNat)

/-! ## What the functions of the code are, entry by entry, over any field polynomial -/

/-- `w` is a matrix of `n` rows and `cs` columns. -/
def isMatrix (n cs : Nat) (w : List (List Byte)) : Prop := w.length = n ∧ ∀ row ∈ w, row.length = cs

/-- R192: with fewer than `ds` rows available `rs_data` fails; otherwise each available data row is taken as it is, and each
other one is rebuilt from the `ds` lowest-numbered available rows, by the inverse of the matrix of these rows of `M(ds, ps)`. The
available rows are listed in rising order. -/
def rsDataReconstructs : Prop :=
  ∀ (g : GfPoly) (ds ps cs : Nat) (w : List (List Byte)) (a : List Nat), 1 ≤ ds → ds + ps ≤ 256 →
    isMatrix (ds + ps) cs w → a.Pairwise (· < ·) → (∀ i ∈ a, i < ds + ps) →
    let used := a.take ds
    let inverse := matInv g ds (used.map fun i => (genMatrix g ds ps).getD i [])
    (a.length < ds → rsData g ds ps cs w a = none) ∧
    (ds ≤ a.length → ∃ d, rsData g ds ps cs w a = some d ∧ isMatrix ds cs d ∧
      ∀ i b, i < ds → b < cs → entry d i b =
        if i ∈ a then entry w i b
        else dot g ds (fun j => entry inverse i j) (fun j => entry w (used.getD j 0) b))

/-- R191: `rs_encode` is the data rows, then for each parity row the products of its row of `M(ds, ps)` with the columns of the
data. -/
def rsEncodeAppendsParity : Prop :=
  ∀ (g : GfPoly) (ds ps cs : Nat) (d : List (List Byte)), 1 ≤ ds → ds + ps ≤ 256 → isMatrix ds cs d →
    isMatrix (ds + ps) cs (rsEncode g ds ps cs d) ∧
    (∀ i b, i < ds → b < cs → entry (rsEncode g ds ps cs d) i b = entry d i b) ∧
    ∀ p b, p < ps → b < cs → entry (rsEncode g ds ps cs d) (ds + p) b =
      dot g ds (fun j => entry (genMatrix g ds ps) (ds + p) j) (fun j => entry d j b)

/-- R193: `rs_verify` is true exactly when every byte of every parity row is the one the data rows give. -/
def rsVerifyComparesParity : Prop :=
  ∀ (g : GfPoly) (ds ps cs : Nat) (w : List (List Byte)), 1 ≤ ds → ds + ps ≤ 256 → isMatrix (ds + ps) cs w →
    (rsVerify g ds ps cs w = true ↔
      ∀ p b, p < ps → b < cs → entry w (ds + p) b =
        dot g ds (fun j => entry (genMatrix g ds ps) (ds + p) j) (fun j => entry w j b))

/-- Byte `k` of a stored CRC, most significant byte first (41_crc.md R153). -/
def crcStored {w : Nat} (v : BitVec w) (k : Nat) : Byte := (v >>> (w - 8 - 8 * k)).setWidth 8

/-- Where the stored CRC begins in an envelope with a payload of `l` bytes (41_crc.md R154). -/
def crcPlace (pos : EnvPos) (l : Nat) : Nat :=
  match pos with
  | .pre => 0
  | .suf => l

/-- Where the payload begins in an envelope with a CRC of width `w` (R154). -/
def payloadPlace (w : CrcWidth) (pos : EnvPos) : Nat :=
  match pos with
  | .pre => crcBits w / 8
  | .suf => 0

/-! ## What is unchanged -/

/-- Every register but those listed reads as before. -/
def sameRegs (except_ : List Reg) (s t : State) : Prop := ∀ r, r ∉ except_ → t.reg r = s.reg r

/-- Every byte of BYTEBUF reads as before. -/
def sameBytes (s t : State) : Prop := ∀ i, t.byteAt i = s.byteAt i

/-- Every byte of SHARDMEM reads as before. -/
def sameShards (s t : State) : Prop := ∀ i, t.shardAt i = s.shardAt i

/-- Every bit of BITBUF reads as before. -/
def sameBits (s t : State) : Prop := ∀ i, t.bitAt i = s.bitAt i

/-- What is no register and no buffer and is touched by no command: the parameters and the model's own fields. -/
def sameOwn (s t : State) : Prop :=
  t.cfg = s.cfg ∧ t.schedule = s.schedule ∧ t.readData = s.readData ∧ t.draws = s.draws ∧ t.epoch = s.epoch

/-- The same, and the latched codec: all that is no register and no buffer. -/
def sameRest (s t : State) : Prop := t.codec = s.codec ∧ sameOwn s t

/-- Nothing but STATUS and ERR has changed (60_exceptions.md R304). -/
def sameButStatus (s t : State) : Prop :=
  t = { s with status := t.status, err := t.err }

/-! ## How a command completes -/

/-- The command has completed without error: ERR 0, BUSY 0, DONE 1, ERRF 0, every other bit of STATUS as before
(60_exceptions.md R303). -/
def completedOk (s t : State) : Prop :=
  t.err = 0 ∧ t.busy = false ∧ t.done = true ∧ t.errf = false ∧
  ∀ i, 3 ≤ i → t.status.getLsbD i = s.status.getLsbD i

/-- The command has completed with error `e`: ERR its code, BUSY 0, DONE 1, ERRF 1, every other bit of STATUS as before
(R303). -/
def completedWith (e : Err) (s t : State) : Prop :=
  t.err = e.code ∧ t.busy = false ∧ t.done = true ∧ t.errf = true ∧
  ∀ i, 3 ≤ i → t.status.getLsbD i = s.status.getLsbD i

/-- The command `i` completes with error `e` in state `s`, and nothing but STATUS and ERR changes (R303, R304). -/
def failsWith (e : Err) (i : Instr) (s : State) : Prop :=
  ∃ t, exec i s = .next t ∧ completedWith e s t ∧ sameButStatus s t

/-- What BSET, BCLR and BFLIP share (40_bitops.md R133 to R135): `iBit` applies `f` to bit ARG0 of BITBUF, `iByte` to the bit of
BYTEBUF at bit index ARG0, most significant bit of a byte first; an index beyond the data, or a length beyond the buffer, is
BadOperand; nothing else changes. -/
def singleBitCommand (iBit iByte : Instr) (f : Bool → Bool) : Prop :=
  ∀ s : State,
    ((s.cfg.bitCap < s.bitLen.toNat ∨ s.bitLen.toNat ≤ s.arg0.toNat) → failsWith .badOperand iBit s) ∧
    (s.bitLen.toNat ≤ s.cfg.bitCap → s.arg0.toNat < s.bitLen.toNat →
      ∃ t, exec iBit s = .next t ∧ completedOk s t ∧
        t.bitAt s.arg0.toNat = f (s.bitAt s.arg0.toNat) ∧ (∀ k, k ≠ s.arg0.toNat → t.bitAt k = s.bitAt k) ∧
        sameBytes s t ∧ sameShards s t ∧ sameRegs [.status, .err] s t ∧ sameRest s t) ∧
    ((s.cfg.byteCap < s.byteLen.toNat ∨ 8 * s.byteLen.toNat ≤ s.arg0.toNat) → failsWith .badOperand iByte s) ∧
    (s.byteLen.toNat ≤ s.cfg.byteCap → s.arg0.toNat < 8 * s.byteLen.toNat →
      ∃ t, exec iByte s = .next t ∧ completedOk s t ∧
        (∀ q r, r < 8 → (t.byteAt q).getLsbD (7 - r) =
          if 8 * q + r = s.arg0.toNat then f ((s.byteAt q).getLsbD (7 - r)) else (s.byteAt q).getLsbD (7 - r)) ∧
        sameBits s t ∧ sameShards s t ∧ sameRegs [.status, .err] s t ∧ sameRest s t)

/-! ## Which error codes a command can complete with -/

/-- The codes of the table of 60_exceptions.md R302, 0 among them. -/
def possibleCodes : Instr → List Nat
  | .nop => [0]
  | .b2bit | .bit2b | .bsetBit | .bsetByte | .bclrBit | .bclrByte | .bflipBit | .bflipByte => [0, 9]
  | .crcgen8 | .crcgen16 | .crcgen32 => [0, 9]
  | .crcenc8Suf | .crcenc16Suf | .crcenc32Suf | .crcenc8Pre | .crcenc16Pre | .crcenc32Pre => [0, 9]
  | .crcchk8Suf | .crcchk16Suf | .crcchk32Suf | .crcchk8Pre | .crcchk16Pre | .crcchk32Pre => [0, 9]
  | .chunk => [0, 1, 2, 8, 9]
  | .flat | .unflat => [0, 9]
  | .rsenc => [0, 3, 8, 9]
  | .rsdecf => [0, 3, 4, 8, 9]
  | .rsdecd => [0, 4, 8, 9]
  | .ilv | .dilv => [0, 9]
  | .patgen => [0, 8]
  | .search8Suf | .search16Suf | .search32Suf | .search8Pre | .search16Pre | .search32Pre => [0, 5, 8, 9]
  | .vinit => [0, 8]
  | .venc => [0, 8, 9]
  | .vdec => [0, 6, 8, 9]

end Sys2Proof.Machine
end

