-- ==== Sys2Proof/Certificates/Slice0/Obligations.lean ====
section
/-! DEFINITION. The statements for the provers. Each says what a rule of spec/ says, in terms of what a read of a register or
of one buffer element gives; the words of Safety.lean are used throughout. -/

open Sys2Proof Sys2Proof.Machine

/-! ## Encoding and decoding (30_encoding.md) -/

/-- Words written out from the fields of R100 to R103 decode to the commands they stand for, one or more per family. -/
def Obligations.WrittenOutWordsDecode : Prop :=
  decode 0b00000000000000000000_0000_00000000 = .ok .nop ∧
  decode 0b00000000000000000000_0001_00000101 = .ok .bflipByte ∧
  decode 0b00000000000000000000_0001_00010000 = .ok .crcgen16 ∧
  decode 0b00000000000000000000_0101_00010001 = .ok .crcenc16Pre ∧
  decode 0b00000000000000000000_0010_00010010 = .ok .crcchk32Suf ∧
  decode 0b00000000000000000000_0000_00100000 = .ok .chunk ∧
  decode 0b00000000000000000000_0000_00110010 = .ok .rsdecd ∧
  decode 0b00000000000000000000_0000_01000001 = .ok .dilv ∧
  decode 0b00000000000000000000_0110_01010001 = .ok .search32Pre ∧
  decode 0b00000000000000000000_0000_01100010 = .ok .vdec

/-- Decoding what `encode` writes gives the command back, for every command. -/
def Obligations.DecodeOfEncodeIsTheCommand : Prop := ∀ i : Instr, decode (encode i) = .ok i

/-- R105: a word decodes to a command exactly when it is that command's row of the table, every other word is illegal; and the
rows are the words `OPCODE + 256 * SEL` of R101. -/
def Obligations.DecodeIsTheTableLookup : Prop :=
  (∀ w i, decode w = .ok i ↔ (w, i) ∈ commandTable) ∧
  (∀ w, (∀ i, (w, i) ∉ commandTable) ↔ ∃ e, decode w = .error e) ∧
  ∀ w i, decode w = .ok i ↔ w = encode i

/-- R106, R111: the legal words are those whose fields obey R102 and R103, and there are 42 of them. -/
def Obligations.LegalWordsAreTheFortyTwoOfTheFields : Prop :=
  (∀ w : Word, (∃ i, decode w = .ok i) ↔
    (w >>> 12 = 0 ∧
      let opcode := w &&& 0xFF
      let sel := (w >>> 8) &&& 0xF
      let wc := sel &&& 3
      ((opcode = 0x10 ∧ wc ≠ 3 ∧ sel < 4) ∨
       (opcode ∈ [(0x11 : Word), 0x12, 0x51] ∧ wc ≠ 3 ∧ sel < 8) ∨
       (opcode ∈ [(0x03 : Word), 0x04, 0x05] ∧ sel < 2) ∨
       (opcode ∈ [(0x00 : Word), 0x01, 0x02, 0x20, 0x21, 0x22, 0x30, 0x31, 0x32, 0x40, 0x41, 0x50, 0x60, 0x61, 0x62] ∧
         sel = 0)))) ∧
  ∃ l : List Word, l.length = 42 ∧ l.Nodup ∧ ∀ w, w ∈ l ↔ ∃ i, decode w = .ok i

/-! ## The step, acceptance, illegal words -/

/-- The core's turn runs the command that CMD decodes to while BUSY, and "does nothing when no command is pending" (R17): with
nothing scheduled, and when the schedule says it is the core's turn; when the schedule says it is the host's, the step is
that host move (the schedule is the model's, notes/assumptions/3.md). -/
def Obligations.StepRunsTheAcceptedCommand : Prop :=
  (∀ (s : State) (i : Instr), s.busy = true → decode s.cmd = .ok i →
    (s.schedule = [] → step s = exec i s) ∧
    ∀ es, s.schedule = .core :: es → step s = exec i (s.withSchedule es)) ∧
  (∀ s : State, s.busy = false →
    (s.schedule = [] → step s = .next s) ∧
    ∀ es, s.schedule = .core :: es → step s = .next (s.withSchedule es)) ∧
  ∀ (s : State) (m : HostMove) (es : List Event), s.schedule = .host m :: es →
    step s = .next ((s.withSchedule es).hostMove m)

/-- R23: what a write of a command to CMD does, idle and busy, what runs afterwards, and what a read of CMD gives (a word that
is no command is IllegalWordCompletesWithIllegalCommand). -/
def Obligations.CmdWriteAcceptsACommand : Prop :=
  (∀ (s : State) (w : Word) (i : Instr) (es : List Event), s.busy = false → decode w = .ok i →
    s.schedule = .host (.writeReg .cmd w) :: es →
    ∃ t, step s = .next t ∧ t.cmd = w ∧ t.err = 0 ∧ t.busy = true ∧ t.done = false ∧ t.errf = false ∧
      t = { s with schedule := es, cmd := w, err := 0, status := t.status } ∧
      (∀ k, 3 ≤ k → t.status.getLsbD k = s.status.getLsbD k) ∧
      ∀ es', es = .core :: es' → step t = exec i (t.withSchedule es')) ∧
  (∀ (s : State) (w : Word), s.busy = true →
    s.hostMove (.writeReg .cmd w) = { s with status := s.status ||| 0x8 }) ∧
  (∀ s : State, s.busy = false → s.hostMove (.readReg .cmd) = { s with readData := s.cmd }) ∧
  State.reset.cmd = 0

/-- R312: a word that is no command, written to CMD while idle, is accepted and completes at once with `ERR = 10`, whatever the
operand registers hold; the block is idle again, CMD holds the word, and nothing is written but CMD, STATUS and ERR. -/
def Obligations.IllegalWordCompletesWithIllegalCommand : Prop :=
  ∀ (s : State) (w : Word), (∀ i, decode w ≠ .ok i) → s.busy = false →
    let t := s.hostMove (.writeReg .cmd w)
    t.cmd = w ∧ t.err = 10 ∧ completedWith .illegalCommand s t ∧
      t = { s with cmd := w, status := t.status, err := t.err }

/-! ## BitOps (40_bitops.md) -/

/-- R136. -/
def Obligations.NopOnlyCompletes : Prop :=
  encode .nop = 0x00000000 ∧
  ∀ s : State, ∃ t, exec .nop s = .next t ∧ completedOk s t ∧ sameButStatus s t ∧
    sameBytes s t ∧ sameShards s t ∧ sameBits s t ∧ sameRegs [.status, .err] s t ∧ sameRest s t

/-- R131: position `8q + r` of BITBUF becomes bit `7 - r` of byte `q`. -/
def Obligations.B2bitWritesBytesMostSignificantBitFirst : Prop :=
  encode .b2bit = 0x00000001 ∧
  ∀ s : State, s.cfg.wellFormed = true →
    ((s.cfg.byteCap < s.byteLen.toNat ∨ s.cfg.bitCap < 8 * s.byteLen.toNat) → failsWith .badOperand .b2bit s) ∧
    (s.byteLen.toNat ≤ s.cfg.byteCap → 8 * s.byteLen.toNat ≤ s.cfg.bitCap →
      ∃ t, exec .b2bit s = .next t ∧ completedOk s t ∧ t.bitLen.toNat = 8 * s.byteLen.toNat ∧
        (∀ q r, q < s.byteLen.toNat → r < 8 → t.bitAt (8 * q + r) = (s.byteAt q).getLsbD (7 - r)) ∧
        (∀ k, 8 * s.byteLen.toNat ≤ k → t.bitAt k = s.bitAt k) ∧
        sameBytes s t ∧ sameShards s t ∧ sameRegs [.status, .err, .bitLen] s t ∧ sameRest s t)

/-- R132: bit `7 - r` of byte `q` of BYTEBUF becomes position `8q + r` of BITBUF. -/
def Obligations.Bit2bWritesBytesMostSignificantBitFirst : Prop :=
  encode .bit2b = 0x00000002 ∧
  ∀ s : State, s.cfg.wellFormed = true →
    ((s.cfg.bitCap < s.bitLen.toNat ∨ s.bitLen.toNat % 8 ≠ 0 ∨ s.cfg.byteCap < s.bitLen.toNat / 8) →
      failsWith .badOperand .bit2b s) ∧
    (s.bitLen.toNat ≤ s.cfg.bitCap → s.bitLen.toNat % 8 = 0 → s.bitLen.toNat / 8 ≤ s.cfg.byteCap →
      ∃ t, exec .bit2b s = .next t ∧ completedOk s t ∧ t.byteLen.toNat = s.bitLen.toNat / 8 ∧
        (∀ q r, q < s.bitLen.toNat / 8 → r < 8 → (t.byteAt q).getLsbD (7 - r) = s.bitAt (8 * q + r)) ∧
        (∀ k, s.bitLen.toNat / 8 ≤ k → t.byteAt k = s.byteAt k) ∧
        sameBits s t ∧ sameShards s t ∧ sameRegs [.status, .err, .byteLen] s t ∧ sameRest s t)

/-- R133: BSET on both targets; and `BSET.BYTE` has on the bytes the effect of `B2BIT`, `BSET.BIT`, `BIT2B`. -/
def Obligations.BsetSetsTheOneBit : Prop :=
  (encode .bsetBit = 0x00000003 ∧ encode .bsetByte = 0x00000103) ∧
  singleBitCommand .bsetBit .bsetByte (fun _ => true) ∧
  ∀ s : State, s.cfg.wellFormed = true → s.byteLen.toNat ≤ s.cfg.byteCap → s.arg0.toNat < 8 * s.byteLen.toNat →
    ∃ a b c t, exec .b2bit s = .next a ∧ exec .bsetBit a = .next b ∧ exec .bit2b b = .next c ∧
      exec .bsetByte s = .next t ∧ c.err = 0 ∧ t.err = 0 ∧ sameBytes t c

/-- R134: BCLR on both targets. -/
def Obligations.BclrClearsTheOneBit : Prop :=
  (encode .bclrBit = 0x00000004 ∧ encode .bclrByte = 0x00000104) ∧
  singleBitCommand .bclrBit .bclrByte (fun _ => false)

/-- R135: BFLIP on both targets; two BFLIP with the same index restore the buffer. -/
def Obligations.BflipInvertsTheOneBit : Prop :=
  (encode .bflipBit = 0x00000005 ∧ encode .bflipByte = 0x00000105) ∧
  singleBitCommand .bflipBit .bflipByte (fun b => !b) ∧
  ∀ i ∈ [Instr.bflipBit, Instr.bflipByte], ∀ s t u : State, exec i s = .next t → exec i t = .next u →
    sameBits s u ∧ sameBytes s u

/-- R137 (a), (b): the two conversions undo each other, as commands. -/
def Obligations.ByteBitConversionsAreLossless : Prop :=
  (∀ s : State, s.cfg.wellFormed = true → s.byteLen.toNat ≤ s.cfg.byteCap → 8 * s.byteLen.toNat ≤ s.cfg.bitCap →
    ∃ t u, exec .b2bit s = .next t ∧ exec .bit2b t = .next u ∧ t.err = 0 ∧ u.err = 0 ∧
      sameBytes s u ∧ u.byteLen = s.byteLen) ∧
  (∀ s : State, s.cfg.wellFormed = true → s.bitLen.toNat ≤ s.cfg.bitCap → s.bitLen.toNat % 8 = 0 →
    s.bitLen.toNat / 8 ≤ s.cfg.byteCap →
    ∃ t u, exec .bit2b s = .next t ∧ exec .b2bit t = .next u ∧ t.err = 0 ∧ u.err = 0 ∧
      sameBits s u ∧ u.bitLen = s.bitLen)

/-! ## CRC (41_crc.md) -/

/-- R152: the three default parameter sets, that an instance takes them by default, and the check values of ASCII "123456789",
the empty sequence and the one byte 00. -/
def Obligations.CrcCheckValues : Prop :=
  (defaultCrc8 = { poly := 0x07, init := 0x00, refin := false, refout := false, xorout := 0x00 } ∧
    defaultCrc16 = { poly := 0x1021, init := 0xFFFF, refin := false, refout := false, xorout := 0x0000 } ∧
    defaultCrc32 =
      { poly := 0x04C11DB7, init := 0xFFFFFFFF, refin := true, refout := true, xorout := 0xFFFFFFFF } ∧
    defaultConfig.crc8 = defaultCrc8 ∧ defaultConfig.crc16 = defaultCrc16 ∧ defaultConfig.crc32 = defaultCrc32) ∧
  let digits : List Byte := [0x31, 0x32, 0x33, 0x34, 0x35, 0x36, 0x37, 0x38, 0x39]
  (crc defaultCrc8 digits = 0xF4 ∧ crc defaultCrc8 [] = 0x00 ∧ crc defaultCrc8 [0x00] = 0x00) ∧
  (crc defaultCrc16 digits = 0x29B1 ∧ crc defaultCrc16 [] = 0xFFFF ∧ crc defaultCrc16 [0x00] = 0xE1F0) ∧
  (crc defaultCrc32 digits = 0xCBF43926 ∧ crc defaultCrc32 [] = 0x00000000 ∧ crc defaultCrc32 [0x00] = 0xD202EF8D)

/-- R151, bit by bit, for every parameter set: the CRC is a shift register fed one bit after another, the bits of each byte most
significant first, or least significant first with `refin`; with `refout` the register is read in reverse. -/
def Obligations.CrcIsABitSerialDivision : Prop :=
  ∀ (w : CrcWidth) (p : CrcParams (crcBits w)) (d : List Byte),
    let fed : List Bool := d.flatMap fun b => (List.range 8).map fun r => b.getLsbD (if p.refin then r else 7 - r)
    let reg := fed.foldl
      (fun (r : BitVec (crcBits w)) b => if (r.msb ^^ b) = true then (r <<< 1) ^^^ p.poly else r <<< 1) p.init
    crc p d = (if p.refout then reg.reverse else reg) ^^^ p.xorout

/-- R155. -/
def Obligations.CrcgenWritesTheCrc : Prop :=
  (encode .crcgen8 = 0x00000010 ∧ encode .crcgen16 = 0x00000110 ∧ encode .crcgen32 = 0x00000210) ∧
  ∀ (w : CrcWidth) (s : State),
    (s.cfg.byteCap < s.byteLen.toNat → failsWith .badOperand (crcgenOf w) s) ∧
    (s.byteLen.toNat ≤ s.cfg.byteCap →
      ∃ t, exec (crcgenOf w) s = .next t ∧ completedOk s t ∧
        t.result.toNat = (crcOf s.cfg w (s.bytes s.byteLen.toNat)).toNat ∧
        sameBytes s t ∧ sameShards s t ∧ sameBits s t ∧ sameRegs [.status, .err, .result] s t ∧ sameRest s t)

/-- R156: the six CRCENC commands. -/
def Obligations.CrcencBuildsTheEnvelope : Prop :=
  (encode .crcenc8Suf = 0x00000011 ∧ encode .crcenc16Suf = 0x00000111 ∧ encode .crcenc32Suf = 0x00000211 ∧
    encode .crcenc8Pre = 0x00000411 ∧ encode .crcenc16Pre = 0x00000511 ∧ encode .crcenc32Pre = 0x00000611) ∧
  ∀ (w : CrcWidth) (pos : EnvPos) (s : State), s.cfg.wellFormed = true →
    let l := s.byteLen.toNat
    let c := crcBits w / 8
    let v := crcOf s.cfg w (s.bytes l)
    ((s.cfg.byteCap < l ∨ s.cfg.byteCap < l + c) → failsWith .badOperand (crcencOf w pos) s) ∧
    (l + c ≤ s.cfg.byteCap →
      ∃ t, exec (crcencOf w pos) s = .next t ∧ completedOk s t ∧ t.byteLen.toNat = l + c ∧
        t.result.toNat = v.toNat ∧
        (∀ k < c, t.byteAt (crcPlace pos l + k) = crcStored v k) ∧
        (∀ k < l, t.byteAt (payloadPlace w pos + k) = s.byteAt k) ∧
        (∀ k, l + c ≤ k → t.byteAt k = s.byteAt k) ∧
        sameShards s t ∧ sameBits s t ∧ sameRegs [.status, .err, .byteLen, .result] s t ∧ sameRest s t)

/-- R157: the six CRCCHK commands. A mismatch, and a buffer shorter than a CRC, is RESULT 0 and no error. -/
def Obligations.CrcchkReportsWhetherTheCrcMatches : Prop :=
  (encode .crcchk8Suf = 0x00000012 ∧ encode .crcchk16Suf = 0x00000112 ∧ encode .crcchk32Suf = 0x00000212 ∧
    encode .crcchk8Pre = 0x00000412 ∧ encode .crcchk16Pre = 0x00000512 ∧ encode .crcchk32Pre = 0x00000612) ∧
  ∀ (w : CrcWidth) (pos : EnvPos) (s : State),
    let l := s.byteLen.toNat
    let c := crcBits w / 8
    let payload : List Byte := (List.range (l - c)).map fun k => s.byteAt (payloadPlace w pos + k)
    let matching : Prop :=
      c ≤ l ∧ ∀ k < c, s.byteAt (crcPlace pos (l - c) + k) = crcStored (crcOf s.cfg w payload) k
    (s.cfg.byteCap < l → failsWith .badOperand (crcchkOf w pos) s) ∧
    (l ≤ s.cfg.byteCap →
      ∃ t, exec (crcchkOf w pos) s = .next t ∧ completedOk s t ∧
        (matching → t.result = 1) ∧ (¬ matching → t.result = 0) ∧
        sameBytes s t ∧ sameShards s t ∧ sameBits s t ∧ sameRegs [.status, .err, .result] s t ∧ sameRest s t)

/-- R158: a made envelope verifies, and one with exactly one bit of the stored CRC inverted does not, for any parameter
sets. -/
def Obligations.OneFlippedChecksumBitNeverVerifies : Prop :=
  ∀ (cfg : Config) (w : CrcWidth) (pos : EnvPos) (p : List Byte),
    envOk cfg w pos (envMake cfg w pos p) = true ∧
    ∀ (k : Nat) (e : List Byte), k < 8 * (crcBits w / 8) →
      corruptBytes (envMake cfg w pos p) 1 [8 * crcPlace pos p.length + k] = some e →
      envOk cfg w pos e = false

/-- R158 on the machine: CRCENC then CRCCHK answers 1; CRCENC, one BFLIP.BYTE inside the stored CRC, CRCCHK answers 0. -/
def Obligations.CrcchkCatchesAFlippedChecksumBit : Prop :=
  ∀ (w : CrcWidth) (pos : EnvPos) (s : State), s.cfg.wellFormed = true →
    let l := s.byteLen.toNat
    let c := crcBits w / 8
    l + c ≤ s.cfg.byteCap →
    8 * crcPlace pos l ≤ s.arg0.toNat → s.arg0.toNat < 8 * (crcPlace pos l + c) →
    ∃ t t' u u', exec (crcencOf w pos) s = .next t ∧ exec (crcchkOf w pos) t = .next t' ∧ t'.result = 1 ∧
      exec .bflipByte t = .next u ∧ exec (crcchkOf w pos) u = .next u' ∧ u'.err = 0 ∧ u'.result = 0

/-! ## Chunker (42_chunker.md) -/

/-- R171: the payload row after row, then zero bytes. -/
def Obligations.ChunkSplitsAndPads : Prop :=
  encode .chunk = 0x00000020 ∧
  ∀ s : State, s.cfg.wellFormed = true →
    let l := s.byteLen.toNat
    let ds := s.dataShards.toNat
    let cs := s.chunkSize.toNat
    (¬ s.paramsFit → failsWith .invalidParams .chunk s) ∧
    (s.paramsFit → s.cfg.byteCap < l → failsWith .badOperand .chunk s) ∧
    (s.paramsFit → l ≤ s.cfg.byteCap → l = 0 → failsWith .emptyInput .chunk s) ∧
    (s.paramsFit → l ≤ s.cfg.byteCap → ds * cs < l → failsWith .payloadTooLarge .chunk s) ∧
    (s.paramsFit → l ≤ s.cfg.byteCap → l ≠ 0 → l ≤ ds * cs →
      ∃ t, exec .chunk s = .next t ∧ completedOk s t ∧
        (∀ k < l, t.shardAt k = s.byteAt k) ∧ (∀ k, l ≤ k → k < ds * cs → t.shardAt k = 0) ∧
        (∀ k, ds * cs ≤ k → t.shardAt k = s.shardAt k) ∧
        t.rows = s.dataShards ∧ t.cols = s.chunkSize ∧ (∀ k < 32, t.present.getLsbD k = decide (k < ds)) ∧
        t.recon = 0 ∧ t.bytesPadded.toNat = ds * cs - l ∧
        sameBytes s t ∧ sameBits s t ∧
        sameRegs [.status, .err, .rows, .cols, .present, .recon, .bytesPadded] s t ∧ sameRest s t)

/-- R172. -/
def Obligations.FlatCopiesTheRows : Prop :=
  encode .flat = 0x00000021 ∧
  ∀ s : State, s.cfg.wellFormed = true →
    let size := s.rows.toNat * s.cols.toNat
    ((s.cfg.shardCap < size ∨ ∃ i < s.rows.toNat, s.rowErased i) → failsWith .badOperand .flat s) ∧
    (size ≤ s.cfg.shardCap → (∀ i < s.rows.toNat, ¬ s.rowErased i) →
      ∃ t, exec .flat s = .next t ∧ completedOk s t ∧ t.byteLen.toNat = size ∧
        (∀ k < size, t.byteAt k = s.shardAt k) ∧ (∀ k, size ≤ k → t.byteAt k = s.byteAt k) ∧
        sameShards s t ∧ sameBits s t ∧ sameRegs [.status, .err, .byteLen] s t ∧ sameRest s t)

/-- R173. -/
def Obligations.UnflatCopiesTheBytes : Prop :=
  encode .unflat = 0x00000022 ∧
  ∀ s : State, s.cfg.wellFormed = true →
    let size := s.rows.toNat * s.cols.toNat
    ((s.cfg.byteCap < s.byteLen.toNat ∨ s.cfg.shardCap < size ∨ s.byteLen.toNat ≠ size) →
      failsWith .badOperand .unflat s) ∧
    (s.byteLen.toNat ≤ s.cfg.byteCap → size ≤ s.cfg.shardCap → s.byteLen.toNat = size →
      ∃ t, exec .unflat s = .next t ∧ completedOk s t ∧
        (∀ k < size, t.shardAt k = s.byteAt k) ∧ (∀ k, size ≤ k → t.shardAt k = s.shardAt k) ∧
        (∀ k < 32, t.present.getLsbD k = decide (k < s.rows.toNat)) ∧ t.recon = 0 ∧
        sameBytes s t ∧ sameBits s t ∧ sameRegs [.status, .err, .present, .recon] s t ∧ sameRest s t)

/-- R174 (a) to (d). -/
def Obligations.ChunkerLaws : Prop :=
  (∀ s t : State, s.cfg.wellFormed = true → exec .chunk s = .next t → t.err = 0 →
    ∃ u, exec .flat t = .next u ∧ u.err = 0 ∧ u.byteLen.toNat = s.dataShards.toNat * s.chunkSize.toNat ∧
      (∀ k < s.byteLen.toNat, u.byteAt k = s.byteAt k) ∧
      s.byteLen.toNat + t.bytesPadded.toNat = u.byteLen.toNat ∧
      ∀ k, s.byteLen.toNat ≤ k → k < s.byteLen.toNat + t.bytesPadded.toNat → u.byteAt k = 0) ∧
  (∀ s t : State, s.cfg.wellFormed = true → exec .chunk s = .next t → t.err = 0 →
    t.bytesPadded.toNat < s.dataShards.toNat * s.chunkSize.toNat) ∧
  (∀ s s' t t' : State, s.cfg.wellFormed = true → s'.cfg.wellFormed = true →
    s'.dataShards = s.dataShards → s'.chunkSize = s.chunkSize → s'.byteLen = s.byteLen →
    (∀ k < s.byteLen.toNat, s'.byteAt k = s.byteAt k) →
    exec .chunk s = .next t → exec .chunk s' = .next t' → t.err = 0 → t'.err = 0 →
    (∀ k < s.dataShards.toNat * s.chunkSize.toNat, t'.shardAt k = t.shardAt k) ∧ t'.rows = t.rows ∧
      t'.cols = t.cols ∧ t'.present = t.present ∧ t'.recon = t.recon ∧ t'.bytesPadded = t.bytesPadded) ∧
  (∀ s t : State, s.cfg.wellFormed = true → exec .flat s = .next t → t.err = 0 →
    ∃ u, exec .unflat t = .next u ∧ u.err = 0 ∧ sameShards s u ∧ u.rows = s.rows ∧ u.cols = s.cols ∧
      ∀ k < 32, u.present.getLsbD k = decide (k < s.rows.toNat))

/-! ## The erasure codec (43_reed_solomon.md) -/

/-- The worked values of R186, R187 and R190, for the field polynomial of R185, which is the default one (R8). -/
def Obligations.FieldAndGeneratorExamples : Prop :=
  let g : GfPoly := 0x11D
  defaultConfig.gfPoly = g ∧
  (gmul g 0x02 0x80 = 0x1D ∧ gmul g 0x03 0x07 = 0x09 ∧ gmul g 0x53 0xCA = 0x8F ∧ gmul g 0xFF 0xFF = 0xE2 ∧
    gmul g 0x0F 0x75 = 0xD9 ∧ gmul g 0x08 0x70 = 0xA7) ∧
  (ginv g 0x02 = 0x8E ∧ ginv g 0x53 = 0x8C ∧ gpow g 2 8 = 0x1D ∧ gpow g 2 254 = 0x8E ∧ gpow g 2 255 = 0x01) ∧
  ((genMatrix g 1 2).drop 1 = [[0x01], [0x01]] ∧ (genMatrix g 2 1).drop 2 = [[0x03, 0x02]] ∧
    (genMatrix g 2 2).drop 2 = [[0x03, 0x02], [0x02, 0x03]] ∧
    (genMatrix g 3 2).drop 3 = [[0x01, 0x01, 0x01], [0x0F, 0x08, 0x06]] ∧
    (genMatrix g 4 2).drop 4 = [[0x1B, 0x1C, 0x12, 0x14], [0x1C, 0x1B, 0x14, 0x12]])

/-- R186, R187: over any field polynomial that meets the constraint of R8 (notes/assumptions/13.md) the product and the inverse
are those of a field with 256 elements; over 0x11D, R185's, 2 generates its multiplicative group. -/
def Obligations.BytesAreAField : Prop :=
  (∀ g : GfPoly, g.isFieldPoly = true →
    (∀ a b : Byte, gmul g a b = gmul g b a) ∧
    (∀ a b c : Byte, gmul g (gmul g a b) c = gmul g a (gmul g b c)) ∧
    (∀ a b c : Byte, gmul g a (b ^^^ c) = gmul g a b ^^^ gmul g a c) ∧
    (∀ a : Byte, gmul g a 0 = 0 ∧ gmul g a 1 = a) ∧
    ∀ a : Byte, a ≠ 0 → gmul g a (ginv g a) = 1 ∧ ∀ b, gmul g a b = 1 → b = ginv g a) ∧
  GfPoly.isFieldPoly 0x11D = true ∧
  ∀ a : Byte, a ≠ 0 → ∃ e, e < 255 ∧ gpow 0x11D 2 e = a ∧ ∀ e', e' < 255 → gpow 0x11D 2 e' = a → e' = e

/-- R190: the first `ds` rows of the generator matrix are the identity, and `matInv` inverts the matrix of any `ds` distinct
rows of it (taken in rising order, as R192 takes them), over any field polynomial that meets the constraint of R8
(notes/assumptions/13.md). That `matInv` computes the inverse by Gauss-Jordan elimination is the model's way
(notes/assumptions/12.md). -/
def Obligations.AnyRowsOfTheGeneratorAreInvertible : Prop :=
  ∀ (g : GfPoly) (ds ps : Nat), g.isFieldPoly = true → 1 ≤ ds → ds + ps ≤ 256 →
    (genMatrix g ds ps).take ds = identityRows ds ∧
    ∀ rows : List Nat, rows.Pairwise (· < ·) → rows.length = ds → (∀ r ∈ rows, r < ds + ps) →
      let sub := rows.map fun r => (genMatrix g ds ps).getD r []
      matMul g ds ds sub (matInv g ds sub) = identityRows ds ∧ matMul g ds ds (matInv g ds sub) sub = identityRows ds

/-- R195: the parity rows, byte by byte, and that RSENC has no other ending than InvalidParams, BadOperand and this one (so
VerificationFailed does not occur, R307). -/
def Obligations.RsencAppendsTheParityRows : Prop :=
  encode .rsenc = 0x00000030 ∧
  ∀ s : State, s.cfg.wellFormed = true →
    let ds := s.dataShards.toNat
    let ps := s.parityShards.toNat
    let cs := s.chunkSize.toNat
    (¬ s.paramsFit → failsWith .invalidParams .rsenc s) ∧
    (s.paramsFit → (s.rows.toNat ≠ ds ∨ s.cols.toNat ≠ cs ∨ ∃ i < ds, s.rowErased i) →
      failsWith .badOperand .rsenc s) ∧
    (s.paramsFit → s.rows.toNat = ds → s.cols.toNat = cs → (∀ i < ds, ¬ s.rowErased i) →
      ∃ t, exec .rsenc s = .next t ∧ completedOk s t ∧
        (∀ p b, p < ps → b < cs → t.shardAt ((ds + p) * cs + b) =
          dot s.cfg.gfPoly ds (fun d => entry (genMatrix s.cfg.gfPoly ds ps) (ds + p) d)
            (fun d => s.shardAt (d * cs + b))) ∧
        (∀ k, (k < ds * cs ∨ (ds + ps) * cs ≤ k) → t.shardAt k = s.shardAt k) ∧
        t.rows.toNat = ds + ps ∧ (∀ k < 32, t.present.getLsbD k = decide (k < ds + ps)) ∧ t.recon = 0 ∧
        sameBytes s t ∧ sameBits s t ∧ sameRegs [.status, .err, .rows, .present, .recon] s t ∧ sameRest s t)

/-- R196, with `rs_data`, `rs_encode` and `rs_verify` the functions of R191 to R193, which are what these rules say entry by
entry. -/
def Obligations.RsdecfRepairsEveryErasedRow : Prop :=
  encode .rsdecf = 0x00000031 ∧ rsDataReconstructs ∧ rsEncodeAppendsParity ∧ rsVerifyComparesParity ∧
  ∀ s : State, s.cfg.wellFormed = true →
    let ds := s.dataShards.toNat
    let ps := s.parityShards.toNat
    let cs := s.chunkSize.toNat
    let w := s.shardRows (ds + ps) cs
    let kept := s.rowsKept (ds + ps)
    let ready := s.paramsFit ∧ s.rows.toNat = ds + ps ∧ s.cols.toNat = cs ∧ s.arg0.toNat ≤ ds * cs
    (¬ s.paramsFit → failsWith .invalidParams .rsdecf s) ∧
    (s.paramsFit → (s.rows.toNat ≠ ds + ps ∨ s.cols.toNat ≠ cs ∨ ds * cs < s.arg0.toNat) →
      failsWith .badOperand .rsdecf s) ∧
    (ready → rsData s.cfg.gfPoly ds ps cs w kept = none → failsWith .reconstructionFailed .rsdecf s) ∧
    (∀ d, ready → rsData s.cfg.gfPoly ds ps cs w kept = some d →
      let f := rsEncode s.cfg.gfPoly ds ps cs d
      let repaired := (List.range (ds + ps)).map fun i => if i ∈ kept then w.getD i [] else f.getD i []
      (rsVerify s.cfg.gfPoly ds ps cs repaired = false → failsWith .verificationFailed .rsdecf s) ∧
      (rsVerify s.cfg.gfPoly ds ps cs repaired = true →
        ∃ t, exec .rsdecf s = .next t ∧ completedOk s t ∧
          (∀ i b, i < ds + ps → s.rowErased i → b < cs → t.shardAt (i * cs + b) = entry f i b) ∧
          (∀ i b, i < ds + ps → ¬ s.rowErased i → b < cs → t.shardAt (i * cs + b) = s.shardAt (i * cs + b)) ∧
          (∀ k, (ds + ps) * cs ≤ k → t.shardAt k = s.shardAt k) ∧
          (∀ k < 32, t.present.getLsbD k = decide (k < ds + ps)) ∧
          (∀ k < 32, (t.recon.getLsbD k = true ↔ k < ds + ps ∧ s.rowErased k)) ∧
          t.byteLen.toNat = ds * cs - s.arg0.toNat ∧
          (∀ k < ds * cs - s.arg0.toNat, t.byteAt k = entry d (k / cs) (k % cs)) ∧
          (∀ k, ds * cs - s.arg0.toNat ≤ k → t.byteAt k = s.byteAt k) ∧
          sameBits s t ∧ sameRegs [.status, .err, .present, .recon, .byteLen] s t ∧ sameRest s t))

/-- R197: as RSDECF, without the verification, and erased parity rows stay as they are; `rs_data` is what R192 says entry by
entry. -/
def Obligations.RsdecdRepairsTheErasedDataRows : Prop :=
  encode .rsdecd = 0x00000032 ∧ rsDataReconstructs ∧
  ∀ s : State, s.cfg.wellFormed = true →
    let ds := s.dataShards.toNat
    let ps := s.parityShards.toNat
    let cs := s.chunkSize.toNat
    let w := s.shardRows (ds + ps) cs
    let kept := s.rowsKept (ds + ps)
    let ready := s.paramsFit ∧ s.rows.toNat = ds + ps ∧ s.cols.toNat = cs ∧ s.arg0.toNat ≤ ds * cs
    (¬ s.paramsFit → failsWith .invalidParams .rsdecd s) ∧
    (s.paramsFit → (s.rows.toNat ≠ ds + ps ∨ s.cols.toNat ≠ cs ∨ ds * cs < s.arg0.toNat) →
      failsWith .badOperand .rsdecd s) ∧
    (ready → rsData s.cfg.gfPoly ds ps cs w kept = none → failsWith .reconstructionFailed .rsdecd s) ∧
    (∀ d, ready → rsData s.cfg.gfPoly ds ps cs w kept = some d →
      ∃ t, exec .rsdecd s = .next t ∧ completedOk s t ∧
        (∀ i b, i < ds → s.rowErased i → b < cs → t.shardAt (i * cs + b) = entry d i b) ∧
        (∀ i b, i < ds → ¬ s.rowErased i → b < cs → t.shardAt (i * cs + b) = s.shardAt (i * cs + b)) ∧
        (∀ k, ds * cs ≤ k → t.shardAt k = s.shardAt k) ∧
        (∀ k < 32, t.present.getLsbD k = (s.present.getLsbD k || decide (k < ds))) ∧
        (∀ k < 32, (t.recon.getLsbD k = true ↔ k < ds ∧ s.rowErased k)) ∧
        t.byteLen.toNat = ds * cs - s.arg0.toNat ∧
        (∀ k < ds * cs - s.arg0.toNat, t.byteAt k = entry d (k / cs) (k % cs)) ∧
        (∀ k, ds * cs - s.arg0.toNat ≤ k → t.byteAt k = s.byteAt k) ∧
        sameBits s t ∧ sameRegs [.status, .err, .present, .recon, .byteLen] s t ∧ sameRest s t)

/-- R308: for both decode commands, once the parameters and operands are accepted, ReconstructionFailed is the code exactly
when fewer than `ds` of the `n` rows are available, that is when more than `ps` are erased. -/
def Obligations.ReconstructionFailsExactlyOnTooManyErasures : Prop :=
  ∀ (i : Instr) (s : State), i = .rsdecf ∨ i = .rsdecd → s.cfg.wellFormed = true → s.paramsFit →
    s.rows.toNat = s.n → s.cols.toNat = s.cs → s.arg0.toNat ≤ s.ds * s.cs →
    ∃ t, exec i s = .next t ∧
      (t.err = Err.reconstructionFailed.code ↔ (s.rowsKept s.n).length < s.ds) ∧
      ((s.rowsKept s.n).length < s.ds ↔
        s.ps < ((List.range s.n).filter fun k => !s.present.getLsbD k).length)

/-- R198 (a): CHUNK, RSENC, a host write of BYTES_PADDED to ARG0, RSDECD give the payload back. -/
def Obligations.ChunkEncodeDecodeRoundTrip : Prop :=
  ∀ s : State, s.cfg.wellFormed = true → s.paramsFit → 0 < s.byteLen.toNat → s.byteLen.toNat ≤ s.ds * s.cs →
    ∃ t u v, exec .chunk s = .next t ∧ exec .rsenc t = .next u ∧
      exec .rsdecd (u.hostMove (.writeReg .arg0 u.bytesPadded)) = .next v ∧
      t.err = 0 ∧ u.err = 0 ∧ v.err = 0 ∧ v.byteLen = s.byteLen ∧
      ∀ k < s.byteLen.toNat, v.byteAt k = s.byteAt k

/-- R198 (b): from a code word with at most `ps` rows erased and the others unmodified, RSDECF and RSDECD both succeed and
return the payload (RSDECF restores every row); with more than `ps` rows erased both raise ReconstructionFailed. -/
def Obligations.ErasuresUpToTheParityAreTolerated : Prop :=
  ∀ (s : State) (d : List (List Byte)), s.cfg.wellFormed = true → s.paramsFit →
    s.rows.toNat = s.n → s.cols.toNat = s.cs → s.arg0.toNat ≤ s.ds * s.cs →
    d.length = s.ds → (∀ row ∈ d, row.length = s.cs) →
    (∀ i b, i < s.n → ¬ s.rowErased i → b < s.cs →
      s.shardAt (i * s.cs + b) = entry (rsEncode s.cfg.gfPoly s.ds s.ps s.cs d) i b) →
    let erasures := ((List.range s.n).filter fun k => !s.present.getLsbD k).length
    (erasures ≤ s.ps →
      (∃ t, exec .rsdecf s = .next t ∧ completedOk s t ∧ t.byteLen.toNat = s.ds * s.cs - s.arg0.toNat ∧
        (∀ k < s.ds * s.cs - s.arg0.toNat, t.byteAt k = entry d (k / s.cs) (k % s.cs)) ∧
        ∀ i b, i < s.n → b < s.cs →
          t.shardAt (i * s.cs + b) = entry (rsEncode s.cfg.gfPoly s.ds s.ps s.cs d) i b) ∧
      (∃ t, exec .rsdecd s = .next t ∧ completedOk s t ∧ t.byteLen.toNat = s.ds * s.cs - s.arg0.toNat ∧
        (∀ k < s.ds * s.cs - s.arg0.toNat, t.byteAt k = entry d (k / s.cs) (k % s.cs)) ∧
        ∀ i b, i < s.ds → b < s.cs → t.shardAt (i * s.cs + b) = entry d i b)) ∧
    (s.ps < erasures → failsWith .reconstructionFailed .rsdecf s ∧ failsWith .reconstructionFailed .rsdecd s)

/-! ## The interleaver (44_interleaver.md) -/

/-- R221, R222: both opcodes transpose the matrix: new element `i*N + r` is old element `r*M + i`. -/
def Obligations.InterleavingTransposes : Prop :=
  (encode .ilv = 0x00000040 ∧ encode .dilv = 0x00000041) ∧
  ∀ (i : Instr) (s : State), i = .ilv ∨ i = .dilv → s.cfg.wellFormed = true →
    let nn := s.rows.toNat
    let mm := s.cols.toNat
    ((s.cfg.shardCap < nn * mm ∨ ∃ r < nn, s.rowErased r) → failsWith .badOperand i s) ∧
    (nn * mm ≤ s.cfg.shardCap → (∀ r < nn, ¬ s.rowErased r) →
      ∃ t, exec i s = .next t ∧ completedOk s t ∧
        (∀ c r, c < mm → r < nn → t.shardAt (c * nn + r) = s.shardAt (r * mm + c)) ∧
        (∀ k, nn * mm ≤ k → t.shardAt k = s.shardAt k) ∧
        t.rows = s.cols ∧ t.cols = s.rows ∧ (∀ k < 32, t.present.getLsbD k = decide (k < mm)) ∧ t.recon = 0 ∧
        sameBytes s t ∧ sameBits s t ∧ sameRegs [.status, .err, .rows, .cols, .present, .recon] s t ∧ sameRest s t)

/-- R223: any two of ILV and DILV in a row restore the matrix and its shape. -/
def Obligations.InterleavingTwiceRestoresTheMatrix : Prop :=
  ∀ (i j : Instr) (s : State), (i = .ilv ∨ i = .dilv) → (j = .ilv ∨ j = .dilv) → s.cfg.wellFormed = true →
    s.rows.toNat * s.cols.toNat ≤ s.cfg.shardCap → (∀ r < s.rows.toNat, ¬ s.rowErased r) →
    ∃ t u, exec i s = .next t ∧ exec j t = .next u ∧ t.err = 0 ∧ u.err = 0 ∧ sameShards s u ∧
      u.rows = s.rows ∧ u.cols = s.cols ∧ (∀ k < 32, u.present.getLsbD k = decide (k < s.rows.toNat)) ∧ u.recon = 0

/-! ## The search decoder (45_search_decoder.md) -/

/-- R231: bit `i` of mask `j` says that shard `i` is kept, that is, that bit `i` of `j` is 0; and every `n`-bit mask occurs
exactly once. -/
def Obligations.EveryKeepMaskOccursOnce : Prop :=
  ∀ n : Nat,
    (∀ j < 2 ^ n, keepMask n j < 2 ^ n ∧ ∀ i < n, (keepMask n j).testBit i = !j.testBit i) ∧
    ∀ k < 2 ^ n, ∃ j, j < 2 ^ n ∧ keepMask n j = k ∧ ∀ j', j' < 2 ^ n → keepMask n j' = k → j' = j

/-- R233. -/
def Obligations.PatgenSetsTheCacheBit : Prop :=
  encode .patgen = 0x00000050 ∧
  ∀ s : State, s.cfg.wellFormed = true →
    (¬ s.paramsFit → failsWith .invalidParams .patgen s) ∧
    (s.paramsFit →
      ∃ t, exec .patgen s = .next t ∧ completedOk s t ∧
        (∀ k < 32, t.pcache.getLsbD k = (s.pcache.getLsbD k || decide (k = s.n))) ∧
        (s.pcache.getLsbD s.n = true → t.pcache = s.pcache) ∧
        sameBytes s t ∧ sameShards s t ∧ sameBits s t ∧ sameRegs [.status, .err, .pcache] s t ∧ sameRest s t)

/-- R234: the six SEARCH commands. The first attempt whose candidate is an envelope wins; with none, DecodeExhausted with
`ATTEMPTS = 2^n`. -/
def Obligations.SearchAcceptsTheFirstVerifyingAttempt : Prop :=
  (encode .search8Suf = 0x00000051 ∧ encode .search16Suf = 0x00000151 ∧ encode .search32Suf = 0x00000251 ∧
    encode .search8Pre = 0x00000451 ∧ encode .search16Pre = 0x00000551 ∧ encode .search32Pre = 0x00000651) ∧
  ∀ (w : CrcWidth) (pos : EnvPos) (s : State), s.cfg.wellFormed = true →
    let c := crcBits w / 8
    let ready := s.paramsFit ∧ s.rows.toNat = s.n ∧ s.cols.toNat = s.cs ∧ s.arg0.toNat + c ≤ s.ds * s.cs
    let verifies : Nat → List Byte → Prop := fun j p => s.candidate j = some (envMake s.cfg w pos p)
    let cacheBit : State → Prop := fun t =>
      ∀ k < 32, t.pcache.getLsbD k = (s.pcache.getLsbD k || decide (k = s.n))
    (¬ s.paramsFit → failsWith .invalidParams (searchOf w pos) s) ∧
    (s.paramsFit → (s.rows.toNat ≠ s.n ∨ s.cols.toNat ≠ s.cs ∨ s.ds * s.cs < s.arg0.toNat + c) →
      failsWith .badOperand (searchOf w pos) s) ∧
    (ready → (∀ j < 2 ^ s.n, ∀ p, ¬ verifies j p) →
      ∃ t, exec (searchOf w pos) s = .next t ∧ completedWith .decodeExhausted s t ∧
        t.attempts.toNat = 2 ^ s.n ∧ t.mask = 0 ∧ cacheBit t ∧
        sameBytes s t ∧ sameShards s t ∧ sameBits s t ∧
        sameRegs [.status, .err, .pcache, .attempts, .mask] s t ∧ sameRest s t) ∧
    (∀ j p, ready → j < 2 ^ s.n → verifies j p → (∀ j' < j, ∀ p', ¬ verifies j' p') →
      ∃ t, exec (searchOf w pos) s = .next t ∧ completedOk s t ∧
        t.byteLen.toNat = s.ds * s.cs - s.arg0.toNat - c ∧ p.length = s.ds * s.cs - s.arg0.toNat - c ∧
        (∀ k < p.length, t.byteAt k = p.getD k 0) ∧ (∀ k, p.length ≤ k → t.byteAt k = s.byteAt k) ∧
        t.attempts.toNat = j ∧ (∀ k < 32, t.mask.getLsbD k = (decide (k < s.n) && !j.testBit k)) ∧ cacheBit t ∧
        sameShards s t ∧ sameBits s t ∧
        sameRegs [.status, .err, .pcache, .attempts, .mask, .byteLen] s t ∧ sameRest s t)

/-- R235: SEARCH depends on nothing but the CodecParams registers, ARG0, ROWS, COLS, PRESENT, the first `n * cs` bytes of
SHARDMEM and the parameters of the instance: two states that agree on these give the same outcome. -/
def Obligations.SearchIsAFunctionOfItsOperands : Prop :=
  ∀ (w : CrcWidth) (pos : EnvPos) (s s' : State), s'.cfg = s.cfg →
    s'.dataShards = s.dataShards → s'.parityShards = s.parityShards → s'.chunkSize = s.chunkSize →
    s'.arg0 = s.arg0 → s'.rows = s.rows → s'.cols = s.cols → s'.present = s.present →
    (∀ k < s.n * s.cs, s'.shardAt k = s.shardAt k) →
    ∃ t t', exec (searchOf w pos) s = .next t ∧ exec (searchOf w pos) s' = .next t' ∧ t'.err = t.err ∧
      (t.err = 0 ∨ t.err = Err.decodeExhausted.code → t'.attempts = t.attempts ∧ t'.mask = t.mask) ∧
      (t.err = 0 → t'.byteLen = t.byteLen ∧ ∀ k < t.byteLen.toNat, t'.byteAt k = t.byteAt k)

/-! ## The convolutional codec (46_viterbi.md) -/

/-- R258: VINIT latches the effective polynomials or drops the codec. -/
def Obligations.VinitLatchesOrDropsTheCodec : Prop :=
  encode .vinit = 0x00000060 ∧
  ∀ s : State, s.cfg.wellFormed = true →
    let kk := s.constraintLen.toNat
    (¬ s.convFits →
      ∃ t, exec .vinit s = .next t ∧ completedWith .invalidParams s t ∧ t.codec = none ∧ t.reg .codec = 0 ∧
        sameBytes s t ∧ sameShards s t ∧ sameBits s t ∧ sameRegs [.status, .err, .codec] s t ∧ sameOwn s t) ∧
    (s.convFits →
      ∃ t c, exec .vinit s = .next t ∧ completedOk s t ∧ t.codec = some c ∧ t.reg .codec = 1 ∧
        c.k = kk ∧ c.m = s.nPoly.toNat ∧
        (∀ j < s.nPoly.toNat, ∀ i < 32, (c.polys.getD j 0).getLsbD i =
          if s.convFlags.getLsbD 0 then decide (i < kk) && (s.reg (.poly j)).getLsbD (kk - 1 - i)
          else (s.reg (.poly j)).getLsbD i) ∧
        sameBytes s t ∧ sameShards s t ∧ sameBits s t ∧ sameRegs [.status, .err, .codec] s t ∧ sameOwn s t)

/-- R252 to R254: output bit `j` of step `t` of `conv_encode` is the parity of the message bits `t - d` over the taps
`K-1-d` of `e[j]`, and the length is `m * (L + K - 1)`. -/
def Obligations.ConvEncodeIsAConvolution : Prop :=
  ∀ (cfg : Config) (c : Codec) (u : List Bool), cfg.wellFormed = true → c.valid cfg →
    (convEncode c u).length = c.m * (u.length + c.k - 1) ∧
    ∀ t j, t < u.length + c.k - 1 → j < c.m →
      (convEncode c u).getD (c.m * t + j) false =
        decide (((List.range c.k).filter fun d =>
          (c.polys.getD j 0).getLsbD (c.k - 1 - d) && decide (d ≤ t) && u.getD (t - d) false).length % 2 = 1)

/-- R255: `pred_0` and `pred_1`, given by the formula of the rule, are the two predecessors of a state (`pred_b` the one whose
bit 0, which the shift drops, is `b`), and `in` the input bit on both branches. -/
def Obligations.TrellisHasTwoPredecessorsPerState : Prop :=
  ∀ (c : Codec) (s' : Nat), 2 ≤ c.k → s' < 2 ^ (c.k - 1) →
    (∀ b, c.pred s' b = ((s' &&& (2 ^ (c.k - 2) - 1)) <<< 1) + b.toNat ∧ (c.pred s' b).testBit 0 = b ∧
      c.pred s' b < 2 ^ (c.k - 1) ∧ c.next (c.pred s' b) (c.input s') = s') ∧
    (c.input s').toNat = s' >>> (c.k - 2) ∧
    ∀ p u, p < 2 ^ (c.k - 1) → c.next p u = s' → u = c.input s' ∧ ∃ b, p = c.pred s' b

/-- R259: BITBUF becomes the convolutional code of the envelope with its CRC-16 after the payload. -/
def Obligations.VencEncodesTheEnvelope : Prop :=
  encode .venc = 0x00000061 ∧
  ∀ s : State, s.cfg.wellFormed = true →
    (s.codec = none → failsWith .invalidParams .venc s) ∧
    ∀ c, s.codec = some c → c.valid s.cfg →
      let l := s.byteLen.toNat
      let size := c.m * (8 * (l + 2) + c.k - 1)
      ((s.cfg.byteCap < l ∨ s.cfg.bitCap < size) → failsWith .badOperand .venc s) ∧
      (l ≤ s.cfg.byteCap → size ≤ s.cfg.bitCap →
        ∃ t, exec .venc s = .next t ∧ completedOk s t ∧ t.bitLen.toNat = size ∧
          (∀ k < size, t.bitAt k =
            (convEncode c (bitsOfBytes (envMake s.cfg .w16 .suf (s.bytes l)))).getD k false) ∧
          (∀ k, size ≤ k → t.bitAt k = s.bitAt k) ∧
          sameBytes s t ∧ sameShards s t ∧ sameRegs [.status, .err, .bitLen] s t ∧ sameRest s t)

/-- R260: VDEC, its four endings. -/
def Obligations.VdecDecodesAndChecksTheCrc : Prop :=
  encode .vdec = 0x00000062 ∧
  ∀ s : State, s.cfg.wellFormed = true →
    (s.codec = none → failsWith .invalidParams .vdec s) ∧
    ∀ c, s.codec = some c → c.valid s.cfg →
      let b := s.bitLen.toNat
      let steps := (b + c.m - 1) / c.m
      let lm := steps - (c.k - 1)
      let tooLong := lm % 8 = 0 ∧ s.cfg.byteCap + 2 < lm / 8
      let decoded := bytesOfBits (viterbi c (s.bits b))
      ((s.cfg.bitCap < b ∨ tooLong) → failsWith .badOperand .vdec s) ∧
      (b ≤ s.cfg.bitCap → ¬ tooLong →
        (lm < 16 ∨ lm % 8 ≠ 0 ∨ ∀ p, decoded ≠ envMake s.cfg .w16 .suf p) → failsWith .crcMismatch .vdec s) ∧
      (∀ p, b ≤ s.cfg.bitCap → ¬ tooLong → 16 ≤ lm → lm % 8 = 0 → decoded = envMake s.cfg .w16 .suf p →
        ∃ t, exec .vdec s = .next t ∧ completedOk s t ∧ t.byteLen.toNat = lm / 8 - 2 ∧ p.length = lm / 8 - 2 ∧
          (∀ k < p.length, t.byteAt k = p.getD k 0) ∧ (∀ k, p.length ≤ k → t.byteAt k = s.byteAt k) ∧
          sameBits s t ∧ sameShards s t ∧ sameRegs [.status, .err, .byteLen] s t ∧ sameRest s t)

/-- R257, first half: among all messages of its length, `viterbi` answers one whose code is nearest to the received bits. And
which one, the tie rule of R256: a tie between the two branches into a state is broken toward the predecessor whose oldest
bit is 0, and the traceback begins at the end, so of two nearest messages the answer is the one with 0 at the last place
where they differ. -/
def Obligations.ViterbiIsMaximumLikelihood : Prop :=
  ∀ (cfg : Config) (c : Codec) (r : List Bool), cfg.wellFormed = true → c.valid cfg →
    let steps := (r.length + c.m - 1) / c.m
    let padded := r ++ List.replicate (c.m * steps - r.length) false
    c.k - 1 ≤ steps →
    (viterbi c r).length = steps - (c.k - 1) ∧
    (∀ d : List Bool, d.length = steps - (c.k - 1) →
      hamming (convEncode c (viterbi c r)) padded ≤ hamming (convEncode c d) padded) ∧
    ∀ d : List Bool, d.length = steps - (c.k - 1) → d ≠ viterbi c r →
      hamming (convEncode c d) padded = hamming (convEncode c (viterbi c r)) padded →
      ∃ p < d.length, (viterbi c r).getD p false = false ∧ d.getD p false = true ∧
        ∀ q, p < q → q < d.length → d.getD q false = (viterbi c r).getD q false

/-- R261, and R257's second half: VENC then VDEC give the payload back. -/
def Obligations.ConvolutionalRoundTrip : Prop :=
  (∀ (cfg : Config) (c : Codec) (u : List Bool), cfg.wellFormed = true → c.valid cfg →
    viterbi c (convEncode c u) = u) ∧
  ∀ (s t : State) (c : Codec), s.cfg.wellFormed = true → s.codec = some c → c.valid s.cfg →
    exec .venc s = .next t → t.err = 0 →
    ∃ u, exec .vdec t = .next u ∧ u.err = 0 ∧ u.byteLen = s.byteLen ∧ ∀ k < s.byteLen.toNat, u.byteAt k = s.byteAt k

/-! ## Errors and completion (60_exceptions.md) -/

/-- R300, R302: every command completes, in every state, with one of the codes of the table, and the flags say so. -/
def Obligations.EveryCommandCompletesWithACodeOfTheTable : Prop :=
  ∀ (i : Instr) (s : State), ∃ t, exec i s = .next t ∧ t.err.toNat ∈ possibleCodes i ∧ t.busy = false ∧
    t.done = true ∧ (t.errf = true ↔ t.err ≠ 0)

/-- R304: what an erroring command changes. -/
def Obligations.ErroringCommandsChangeNothingElse : Prop :=
  (∀ (i : Instr) (s t : State), exec i s = .next t → t.err ≠ 0 →
    (i ≠ .vinit → (∀ w pos, i ≠ searchOf w pos) → sameButStatus s t) ∧
    (i = .vinit → t = { s with status := t.status, err := t.err, codec := none }) ∧
    (∀ w pos, i = searchOf w pos → t.err ≠ Err.decodeExhausted.code → sameButStatus s t) ∧
    (∀ w pos, i = searchOf w pos → t.err = Err.decodeExhausted.code →
      t = { s with
        status := t.status, err := t.err, mask := 0, attempts := BitVec.ofNat 32 (2 ^ s.n)
        pcache := s.pcache ||| BitVec.ofNat 32 (2 ^ s.n) })) ∧
  ∀ s t : State, illegalCompletion s = .next t → sameButStatus s t

/-- R24: "No command reads HERR and HERR changes no command's result": a command run with HERR set does what it does without,
and leaves HERR set. -/
def Obligations.HerrChangesNoResult : Prop :=
  ∀ (i : Instr) (s t : State), exec i s = .next t →
    exec i { s with status := s.status ||| 0x8 } = .next { t with status := t.status ||| 0x8 }

/-- Every step of the machine answers a next state, of the same instance (R300: "no trap, no abort, no lock-up"). -/
def Obligations.EveryStepAnswersANextState : Prop :=
  ∀ s : State, ∃ t, step s = .next t ∧ t.cfg = s.cfg

/-! ## Reset and the invariant (10_state.md, 70_reset_and_hazards.md) -/

/-- R44: the state after reset. -/
def Obligations.ResetStateIsTheSpecs : Prop :=
  (∀ r, r ≠ .ident → r ≠ .caps → State.reset.reg r = 0) ∧
  State.reset.reg .ident = 0x46454307 ∧ State.reset.reg .caps = 0x00081014 ∧ State.reset.codec = none ∧
  ∀ k, State.reset.byteAt k = Config.unwrittenByte 0 k ∧ State.reset.shardAt k = Config.unwrittenShard 0 k ∧
    State.reset.bitAt k = Config.unwrittenBit 0 k

/-- R340: the reset event, at any time, and that it is the only event that clears HERR, empties the pattern cache or stops a
running command; after it the core executes nothing until the host writes CMD. The unspecified contents of the buffers are
the free values of a new epoch (notes/assumptions/4.md). -/
def Obligations.ResetEventAndWhatOnlyItDoes : Prop :=
  (∀ (s : State) (es : List Event), s.schedule = .reset :: es →
    ∃ t, step s = .next t ∧ (∀ r, r ≠ .ident → r ≠ .caps → t.reg r = 0) ∧
      t.reg .ident = 0x46454307 ∧ t.reg .caps = s.reg .caps ∧ t.codec = none ∧ t.cfg = s.cfg ∧
      t.schedule = es ∧
      (∀ k, t.byteAt k = Config.unwrittenByte (s.epoch + 1) k ∧
        t.shardAt k = Config.unwrittenShard (s.epoch + 1) k ∧ t.bitAt k = Config.unwrittenBit (s.epoch + 1) k) ∧
      ∀ es', es = .core :: es' → step t = .next (t.withSchedule es')) ∧
  ∀ s t : State, s.schedule.head? ≠ some .reset → step s = .next t →
    (s.herr = true → t.herr = true) ∧ (∀ k, s.pcache.getLsbD k = true → t.pcache.getLsbD k = true) ∧
    (s.busy = true → t.busy = true ∨ t.done = true)

/-- The invariant holds of the state after reset. -/
def Obligations.InvariantHoldsAtReset : Prop := State.reset.Inv

/-- Every step keeps the invariant: the buffers stay canonical and within their capacities, STATUS and ERR fit together,
CMD holds a command while BUSY, CONV_FLAGS, PCACHE and RECON keep their read-as-zero and containment rules, a latched codec stays valid. -/
def Obligations.EveryStepKeepsTheInvariant : Prop :=
  ∀ s t : State, s.Inv → step s = .next t → t.Inv

/-! ## The host port (20_memory.md) -/

/-- R79: each host protocol violation sets HERR, stores nothing and changes no other state of the block; a read returns an
unspecified value of the access's width. The offsets are those of the instance's address map (R72). -/
def Obligations.HostViolationsOnlySetHerr : Prop :=
  ∀ s : State, s.cfg.wellFormed = true →
    let violated : State := { s with status := s.status ||| 0x8 }
    let violatedRead : Nat → State := fun width =>
      { s with
        status := s.status ||| 0x8, readData := Config.unspecifiedRead s.draws &&& BitVec.ofNat 32 (2 ^ width - 1)
        draws := s.draws + 1 }
    let notIn : Nat → Nat → Nat → Prop := fun start size off => off < start ∨ start + size ≤ off
    (s.busy = true → ∀ r v sp view i b, s.hostMove (.writeReg r v) = violated ∧
      s.hostMove (.writeByte sp i b) = violated ∧ s.hostMove (.writeBit view i b) = violated) ∧
    (∀ r ∈ [Reg.status, .err, .recon, .bytesPadded, .attempts, .result, .mask, .pcache, .codec, .ident, .caps],
      ∀ v, s.hostMove (.writeReg r v) = violated) ∧
    (∀ view i b, b ≠ bitSymbol view false → b ≠ bitSymbol view true → s.hostMove (.writeBit view i b) = violated) ∧
    (∀ off width, off < s.cfg.map.span →
      ((∃ k < 0x100, off = s.cfg.map.regs + k ∧
          (width ≠ 32 ∨ k % 4 ≠ 0 ∨ (0x60 ≤ k ∧ k < 0x80) ∨ 0x80 + 4 * s.cfg.npolyMax ≤ k)) ∨
        (notIn s.cfg.map.regs 0x100 off ∧
          (width ≠ 8 ∨
            (notIn s.cfg.map.byteBuf s.cfg.byteCap off ∧ notIn s.cfg.map.shardMem s.cfg.shardCap off ∧
              notIn s.cfg.map.bitInt s.cfg.bitCap off ∧ notIn s.cfg.map.bitChr s.cfg.bitCap off)))) →
      (∀ v, s.hostMove (.busWrite (s.cfg.base + off) width v) = violated) ∧
      s.hostMove (.busRead (s.cfg.base + off) width) = violatedRead width)

/-- R78, R80: a read changes nothing of the block but, in a violation, HERR; while idle a read of a register, a byte or a bit
that exists returns it and changes nothing else (a byte of an erased row: an unspecified value, notes/assumptions/7.md),
and after a write of a byte (R71, R73) it returns the byte written; while BUSY, STATUS reads as it is and every other
mapped read gives an unspecified value of its width. -/
def Obligations.ReadsHaveNoSideEffect : Prop :=
  (∀ (s : State) (m : HostMove),
    ((∃ r, m = .readReg r) ∨ (∃ sp i, m = .readByte sp i) ∨ (∃ view i, m = .readBit view i) ∨
      ∃ addr width, m = .busRead addr width) →
    let t := s.hostMove m
    t = { s with readData := t.readData, draws := t.draws, status := t.status } ∧
    (t.status = s.status ∨ t.status = s.status ||| 0x8)) ∧
  (∀ s : State, s.hostMove (.readReg .status) = { s with readData := s.status }) ∧
  (∀ s : State, s.busy = false →
    let reads : Word → State := fun v => { s with readData := v }
    (∀ r, (∀ j, r ≠ .poly j) → s.hostMove (.readReg r) = reads (s.reg r)) ∧
    (∀ j < s.cfg.npolyMax, s.hostMove (.readReg (.poly j)) = reads (s.reg (.poly j))) ∧
    (∀ i < s.cfg.byteCap, s.hostMove (.readByte .byteBuf i) = reads ((s.byteAt i).setWidth 32)) ∧
    (∀ i < s.cfg.shardCap,
      (¬ s.liesInErasedRow i → s.hostMove (.readByte .shardMem i) = reads ((s.shardAt i).setWidth 32)) ∧
      (s.liesInErasedRow i → s.hostMove (.readByte .shardMem i) =
        { s with readData := Config.unspecifiedRead s.draws &&& 0xFF, draws := s.draws + 1 })) ∧
    (∀ i < s.cfg.bitCap, s.hostMove (.readBit .int i) = reads (if s.bitAt i then 0x01 else 0x00) ∧
      s.hostMove (.readBit .chr i) = reads (if s.bitAt i then 0x31 else 0x30))) ∧
  (∀ s : State, s.busy = true →
    let drawn : Word → State := fun mask =>
      { s with readData := Config.unspecifiedRead s.draws &&& mask, draws := s.draws + 1 }
    (∀ r, r ≠ .status → (∀ j, r ≠ .poly j) → s.hostMove (.readReg r) = drawn 0xFFFFFFFF) ∧
    (∀ j < s.cfg.npolyMax, s.hostMove (.readReg (.poly j)) = drawn 0xFFFFFFFF) ∧
    (∀ i < s.cfg.byteCap, s.hostMove (.readByte .byteBuf i) = drawn 0xFF) ∧
    (∀ i < s.cfg.shardCap, s.hostMove (.readByte .shardMem i) = drawn 0xFF) ∧
    ∀ view, ∀ i < s.cfg.bitCap, s.hostMove (.readBit view i) = drawn 0xFF) ∧
  ∀ (s : State) (i : Nat) (v : Byte), s.busy = false →
    (i < s.cfg.byteCap →
      let t := s.hostMove (.writeByte .byteBuf i v)
      t.byteAt i = v ∧ (∀ k, k ≠ i → t.byteAt k = s.byteAt k) ∧ sameShards s t ∧ sameBits s t ∧ sameRegs [] s t ∧
        sameRest s t ∧ t.hostMove (.readByte .byteBuf i) = { t with readData := v.setWidth 32 }) ∧
    (i < s.cfg.shardCap →
      let t := s.hostMove (.writeByte .shardMem i v)
      t.shardAt i = v ∧ (∀ k, k ≠ i → t.shardAt k = s.shardAt k) ∧ sameBytes s t ∧ sameBits s t ∧ sameRegs [] s t ∧
        sameRest s t ∧
        (¬ s.liesInErasedRow i → t.hostMove (.readByte .shardMem i) = { t with readData := v.setWidth 32 }))

/-- R72, R77: the default map, and that through any map an access of the right width does what the named operation of R71
does: each register at its offset of R22, POLY[j] at 0x80 + 4j, each element at its place in its window. That a byte is in
the low 8 bits of the data is the model's bus (notes/assumptions/18.md). -/
def Obligations.AddressMapReachesTheNamedElements : Prop :=
  defaultConfig.map =
    { regs := 0x000000, byteBuf := 0x010000, shardMem := 0x020000, bitInt := 0x100000, bitChr := 0x200000,
      span := 0x300000 } ∧
  ∀ s : State, s.cfg.wellFormed = true →
    let base := s.cfg.base
    let map := s.cfg.map
    (∀ k r,
      (k, r) ∈ [(0x00, Reg.cmd), (0x04, .status), (0x08, .err), (0x0C, .dataShards), (0x10, .parityShards),
        (0x14, .chunkSize), (0x18, .constraintLen), (0x1C, .nPoly), (0x20, .convFlags), (0x24, .arg0), (0x28, .byteLen),
        (0x2C, .bitLen), (0x30, .rows), (0x34, .cols), (0x38, .present), (0x3C, .recon), (0x40, .bytesPadded),
        (0x44, .attempts), (0x48, .result), (0x4C, .mask), (0x50, .pcache), (0x54, .codec), (0x58, .ident),
        (0x5C, .caps)] →
      s.hostMove (.busRead (base + (map.regs + k)) 32) = s.hostMove (.readReg r) ∧
      ∀ v, s.hostMove (.busWrite (base + (map.regs + k)) 32 v) = s.hostMove (.writeReg r v)) ∧
    (∀ j < s.cfg.npolyMax,
      s.hostMove (.busRead (base + (map.regs + (0x80 + 4 * j))) 32) = s.hostMove (.readReg (.poly j)) ∧
      ∀ v, s.hostMove (.busWrite (base + (map.regs + (0x80 + 4 * j))) 32 v) = s.hostMove (.writeReg (.poly j) v)) ∧
    (∀ i < s.cfg.byteCap,
      s.hostMove (.busRead (base + (map.byteBuf + i)) 8) = s.hostMove (.readByte .byteBuf i) ∧
      ∀ v : Byte, s.hostMove (.busWrite (base + (map.byteBuf + i)) 8 (v.setWidth 32)) =
        s.hostMove (.writeByte .byteBuf i v)) ∧
    (∀ i < s.cfg.shardCap,
      s.hostMove (.busRead (base + (map.shardMem + i)) 8) = s.hostMove (.readByte .shardMem i) ∧
      ∀ v : Byte, s.hostMove (.busWrite (base + (map.shardMem + i)) 8 (v.setWidth 32)) =
        s.hostMove (.writeByte .shardMem i v)) ∧
    ∀ i < s.cfg.bitCap,
      (s.hostMove (.busRead (base + (map.bitInt + i)) 8) = s.hostMove (.readBit .int i) ∧
        s.hostMove (.busRead (base + (map.bitChr + i)) 8) = s.hostMove (.readBit .chr i)) ∧
      ∀ v : Byte, s.hostMove (.busWrite (base + (map.bitInt + i)) 8 (v.setWidth 32)) =
          s.hostMove (.writeBit .int i v) ∧
        s.hostMove (.busWrite (base + (map.bitChr + i)) 8 (v.setWidth 32)) = s.hostMove (.writeBit .chr i v)

/-- R21, R22, R28, R34: while idle a write to a read-write register other than CMD stores the value (CONV_FLAGS bit 0 only), a
write to ROWS, COLS or PRESENT also clears RECON, and nothing else changes. -/
def Obligations.RegisterWritesStoreTheValue : Prop :=
  ∀ (s : State) (r : Reg) (v : Word), s.busy = false → s.poly.length = s.cfg.npolyMax →
    (r ∈ [Reg.dataShards, .parityShards, .chunkSize, .constraintLen, .nPoly, .convFlags, .arg0, .byteLen, .bitLen,
      .rows, .cols, .present] ∨ ∃ j < s.cfg.npolyMax, r = .poly j) →
    let t := s.hostMove (.writeReg r v)
    t.reg r = (if r = .convFlags then v &&& 1 else v) ∧
    (r = .rows ∨ r = .cols ∨ r = .present → t.recon = 0 ∧ sameRegs [r, .recon] s t) ∧
    (r ≠ .rows → r ≠ .cols → r ≠ .present → sameRegs [r] s t) ∧
    sameBytes s t ∧ sameShards s t ∧ sameBits s t ∧ sameRest s t ∧
    t.hostMove (.readReg r) = { t with readData := t.reg r }

/-- R76: the two views of BITBUF: what a write of a legal symbol stores, and how the stored bit reads through each view. -/
def Obligations.BitbufHasTwoViewsOfOneSequence : Prop :=
  ∀ (s : State) (i : Nat), s.busy = false → i < s.cfg.bitCap →
    (∀ (view : BitView) (b : Bool),
      let t := s.hostMove (.writeBit view i
        (if view = .int then (if b then 0x01 else 0x00) else (if b then 0x31 else 0x30)))
      t.bitAt i = b ∧ (∀ k, k ≠ i → t.bitAt k = s.bitAt k) ∧ sameBytes s t ∧ sameShards s t ∧
        sameRegs [] s t ∧ sameRest s t) ∧
    (s.hostMove (.readBit .int i)).readData = (if s.bitAt i then 0x01 else 0x00) ∧
    (s.hostMove (.readBit .chr i)).readData = (if s.bitAt i then 0x31 else 0x30) ∧
    ∀ (view : BitView) (v : Byte), v ≠ bitSymbol view false → v ≠ bitSymbol view true →
      s.hostMove (.writeBit view i v) = { s with status := s.status ||| 0x8 }
end

