-- ==== Sys2Proof/Laws/Bits.lean ====
section
/-! SUPPORT. The laws of the conversion functions (40_bitops.md R130): lengths, elements, and that they are inverse to each
other; the bits of a reversed value and of a mask. -/

namespace Sys2Proof.Machine

@[simp] theorem byteBits_length (b : Byte) : (byteBits b).length = 8 := by simp [byteBits]

@[simp] theorem bitsOfBytes_length (b : List Byte) : (bitsOfBytes b).length = 8 * b.length := by
  induction b with
  | nil => rfl
  | cons x xs ih =>
    simp only [bitsOfBytes, List.flatMap_cons, List.length_append, byteBits_length, List.length_cons] at *
    omega

@[simp] theorem bytesOfBits_length (t : List Bool) : (bytesOfBits t).length = t.length / 8 := by simp [bytesOfBits]

theorem bitsOfBytes_cons (x : Byte) (xs : List Byte) : bitsOfBytes (x :: xs) = byteBits x ++ bitsOfBytes xs := rfl

/-- Position `8q + r` of `bits_of_bytes(b)` is bit `7 - r` of byte `q` (R130). -/
theorem bitsOfBytes_getElem? (b : List Byte) (q r : Nat) (hr : r < 8) :
    (bitsOfBytes b)[8 * q + r]? = (b[q]?).map fun x => x.getLsbD (7 - r) := by
  induction b generalizing q with
  | nil => simp [bitsOfBytes]
  | cons x xs ih =>
    rw [bitsOfBytes_cons]
    cases q with
    | zero => rw [List.getElem?_append_left (by simpa using hr)]; simp [byteBits, hr]
    | succ q =>
      rw [List.getElem?_append_right (by simp; omega)]
      have : 8 * (q + 1) + r - (byteBits x).length = 8 * q + r := by simp; omega
      rw [this, ih]; simp

/-- The bits of a byte made from 8 bits are those bits. -/
theorem byteOfBits_getLsbD (t : List Bool) (r : Nat) (hr : r < 8) :
    (byteOfBits t).getLsbD (7 - r) = t.getD r false := by
  have key : ∀ b0 b1 b2 b3 b4 b5 b6 b7 : Bool, ∀ r : Fin 8,
      (BitVec.ofNat 8 (b0.toNat * 2 ^ 7 + (b1.toNat * 2 ^ 6 + (b2.toNat * 2 ^ 5 + (b3.toNat * 2 ^ 4 +
        (b4.toNat * 2 ^ 3 + (b5.toNat * 2 ^ 2 + (b6.toNat * 2 ^ 1 + (b7.toNat * 2 ^ 0 + 0)))))))) : Byte).getLsbD
        (7 - r) = ([b0, b1, b2, b3, b4, b5, b6, b7].getD r false) := by decide +kernel
  have h := key (t.getD 0 false) (t.getD 1 false) (t.getD 2 false) (t.getD 3 false) (t.getD 4 false)
    (t.getD 5 false) (t.getD 6 false) (t.getD 7 false) ⟨r, hr⟩
  have e : byteOfBits t = BitVec.ofNat 8 ((t.getD 0 false).toNat * 2 ^ 7 + ((t.getD 1 false).toNat * 2 ^ 6 +
      ((t.getD 2 false).toNat * 2 ^ 5 + ((t.getD 3 false).toNat * 2 ^ 4 + ((t.getD 4 false).toNat * 2 ^ 3 +
      ((t.getD 5 false).toNat * 2 ^ 2 + ((t.getD 6 false).toNat * 2 ^ 1 + ((t.getD 7 false).toNat * 2 ^ 0 + 0)))))))) :=
    rfl
  rw [e, h]
  interval_cases r <;> rfl

/-- Bit `7 - r` of byte `q` of `bytes_of_bits(t)` is position `8q + r` of `t` (R130). -/
theorem bytesOfBits_getLsbD (t : List Bool) (q r : Nat) (hq : q < (bytesOfBits t).length) (hr : r < 8) :
    ((bytesOfBits t)[q]).getLsbD (7 - r) = t.getD (8 * q + r) false := by
  have : (bytesOfBits t)[q] = byteOfBits (t.drop (8 * q)) := by simp [bytesOfBits]
  rw [this, byteOfBits_getLsbD _ _ hr]
  simp [List.getD_eq_getElem?_getD, List.getElem?_drop]

theorem byte_ext {a b : Byte} (h : ∀ r, r < 8 → a.getLsbD (7 - r) = b.getLsbD (7 - r)) : a = b := by
  apply BitVec.eq_of_getLsbD_eq
  intro i hi
  have := h (7 - i) (by omega)
  rwa [show 7 - (7 - i) = i by omega] at this

/-- `bytes_of_bits(bits_of_bytes(b)) = b` (R130). -/
theorem bytesOfBits_bitsOfBytes (b : List Byte) : bytesOfBits (bitsOfBytes b) = b := by
  refine List.ext_getElem (by simp) fun q h1 h2 => byte_ext fun r hr => ?_
  rw [bytesOfBits_getLsbD _ _ _ h1 hr, List.getD_eq_getElem?_getD, bitsOfBytes_getElem? _ _ _ hr]
  simp [List.getElem?_eq_getElem h2]

/-- `bits_of_bytes(bytes_of_bits(t)) = t` for a length that is a multiple of 8 (R130). -/
theorem bitsOfBytes_bytesOfBits (t : List Bool) (h : t.length % 8 = 0) : bitsOfBytes (bytesOfBits t) = t := by
  refine List.ext_getElem? fun i => ?_
  have hi : i = 8 * (i / 8) + i % 8 := by omega
  rw [hi, bitsOfBytes_getElem? _ _ _ (by omega)]
  by_cases hlt : i / 8 < (bytesOfBits t).length
  · rw [List.getElem?_eq_getElem hlt, Option.map_some, bytesOfBits_getLsbD _ _ _ hlt (by omega), ← hi]
    have : i < t.length := by simp at hlt; omega
    simp [List.getD_eq_getElem?_getD, List.getElem?_eq_getElem this]
  · rw [List.getElem?_eq_none (by omega), Option.map_none, ← hi, List.getElem?_eq_none]
    simp at hlt; omega

/-! ## Values built bit by bit -/

theorem sum_bits_testBit (k : Nat) (f : Nat → Bool) (i : Nat) :
    (((List.range k).map fun i => (f i).toNat * 2 ^ i).sum).testBit i = (decide (i < k) && f i) ∧
    ((List.range k).map fun i => (f i).toNat * 2 ^ i).sum < 2 ^ k := by
  induction k generalizing i with
  | zero => simp
  | succ k ih =>
    rw [List.range_succ, List.map_append, List.sum_append]
    simp only [List.map_cons, List.map_nil, List.sum_cons, List.sum_nil, Nat.add_zero]
    have hlt := (ih 0).2
    constructor
    · rw [Nat.add_comm]
      have : (f k).toNat * 2 ^ k = 2 ^ k * (f k).toNat := Nat.mul_comm _ _
      rw [this, Nat.testBit_two_pow_mul_add _ hlt]
      split
      · rename_i h; rw [(ih i).1]; simp [h, show i < k + 1 by omega]
      · rename_i h
        rcases Nat.lt_or_ge k i with h2 | h2
        · rw [show decide (i < k + 1) = false by simp; omega, Bool.false_and]
          refine Nat.testBit_lt_two_pow ?_
          have h3 : (f k).toNat ≤ 1 := Bool.toNat_le _
          have h4 : 2 ^ 1 ≤ 2 ^ (i - k) := Nat.pow_le_pow_right (by omega) (by omega)
          omega
        · have : i = k := by omega
          subst this
          simp; cases f i <;> simp
    · rw [Nat.pow_succ]
      cases f k <;> simp <;> omega

theorem bitrev_testBit (k v i : Nat) : (bitrev k v).testBit i = (decide (i < k) && v.testBit (k - 1 - i)) :=
  (sum_bits_testBit k (fun i => v.testBit (k - 1 - i)) i).1

theorem bitrev_lt (k v : Nat) : bitrev k v < 2 ^ k := (sum_bits_testBit k (fun i => v.testBit (k - 1 - i)) 0).2

theorem bitrev_pos {k v : Nat} (h : 1 ≤ v) (hv : v < 2 ^ k) : 1 ≤ bitrev k v := by
  obtain ⟨i, hi⟩ := Nat.exists_testBit_of_ne_zero (show v ≠ 0 by omega)
  have hik : i < k := by
    by_contra hc
    have : v < 2 ^ i := lt_of_lt_of_le hv (Nat.pow_le_pow_right (by omega) (by omega))
    rw [Nat.testBit_lt_two_pow this] at hi
    cases hi
  by_contra hc
  have h0 : bitrev k v = 0 := by omega
  have := bitrev_testBit k v (k - 1 - i)
  rw [h0, show k - 1 - (k - 1 - i) = i by omega, hi] at this
  simp at this; omega

theorem maskOf_getLsbD (l : List Nat) (i : Nat) (hi : i < 32) : (maskOf l).getLsbD i = decide (i ∈ l) := by
  have key : ∀ (l : List Nat) (a : Word), (l.foldl (fun acc i => acc ||| BitVec.ofNat 32 (2 ^ i)) a).getLsbD i =
      (a.getLsbD i || decide (i ∈ l)) := by
    intro l
    induction l with
    | nil => intro a; simp
    | cons x xs ih =>
      intro a
      rw [List.foldl_cons, ih, BitVec.getLsbD_or, BitVec.getLsbD_ofNat, Nat.testBit_two_pow]
      simp only [hi, decide_true, Bool.true_and, List.mem_cons, Bool.decide_or, Bool.or_assoc]
      simp [eq_comm]
  rw [maskOf, key]; simp

end Sys2Proof.Machine
end

