-- ==== Sys2Proof/Laws/State.lean ====
section
/-! SUPPORT. One lemma per field per update of State, each true by rfl: what an update writes, and that it writes nothing
else. -/

namespace Sys2Proof.Machine

variable (s : State)

/-! `State.complete` -/

@[simp] theorem complete_cmd (c : Word) : (s.complete c).cmd = s.cmd := rfl
@[simp] theorem complete_status (c : Word) : (s.complete c).status = completedStatus s.status c := rfl
@[simp] theorem complete_err (c : Word) : (s.complete c).err = c := rfl
@[simp] theorem complete_dataShards (c : Word) : (s.complete c).dataShards = s.dataShards := rfl
@[simp] theorem complete_parityShards (c : Word) : (s.complete c).parityShards = s.parityShards := rfl
@[simp] theorem complete_chunkSize (c : Word) : (s.complete c).chunkSize = s.chunkSize := rfl
@[simp] theorem complete_constraintLen (c : Word) : (s.complete c).constraintLen = s.constraintLen := rfl
@[simp] theorem complete_nPoly (c : Word) : (s.complete c).nPoly = s.nPoly := rfl
@[simp] theorem complete_convFlags (c : Word) : (s.complete c).convFlags = s.convFlags := rfl
@[simp] theorem complete_arg0 (c : Word) : (s.complete c).arg0 = s.arg0 := rfl
@[simp] theorem complete_byteLen (c : Word) : (s.complete c).byteLen = s.byteLen := rfl
@[simp] theorem complete_bitLen (c : Word) : (s.complete c).bitLen = s.bitLen := rfl
@[simp] theorem complete_rows (c : Word) : (s.complete c).rows = s.rows := rfl
@[simp] theorem complete_cols (c : Word) : (s.complete c).cols = s.cols := rfl
@[simp] theorem complete_present (c : Word) : (s.complete c).present = s.present := rfl
@[simp] theorem complete_recon (c : Word) : (s.complete c).recon = s.recon := rfl
@[simp] theorem complete_bytesPadded (c : Word) : (s.complete c).bytesPadded = s.bytesPadded := rfl
@[simp] theorem complete_attempts (c : Word) : (s.complete c).attempts = s.attempts := rfl
@[simp] theorem complete_result (c : Word) : (s.complete c).result = s.result := rfl
@[simp] theorem complete_mask (c : Word) : (s.complete c).mask = s.mask := rfl
@[simp] theorem complete_pcache (c : Word) : (s.complete c).pcache = s.pcache := rfl
@[simp] theorem complete_poly (c : Word) : (s.complete c).poly = s.poly := rfl
@[simp] theorem complete_codec (c : Word) : (s.complete c).codec = s.codec := rfl
@[simp] theorem complete_byteBuf (c : Word) : (s.complete c).byteBuf = s.byteBuf := rfl
@[simp] theorem complete_shardMem (c : Word) : (s.complete c).shardMem = s.shardMem := rfl
@[simp] theorem complete_bitBuf (c : Word) : (s.complete c).bitBuf = s.bitBuf := rfl
@[simp] theorem complete_cfg (c : Word) : (s.complete c).cfg = s.cfg := rfl
@[simp] theorem complete_schedule (c : Word) : (s.complete c).schedule = s.schedule := rfl
@[simp] theorem complete_readData (c : Word) : (s.complete c).readData = s.readData := rfl
@[simp] theorem complete_draws (c : Word) : (s.complete c).draws = s.draws := rfl
@[simp] theorem complete_epoch (c : Word) : (s.complete c).epoch = s.epoch := rfl

/-! `State.accept` -/

@[simp] theorem accept_cmd (w : Word) : (s.accept w).cmd = w := rfl
@[simp] theorem accept_status (w : Word) : (s.accept w).status = acceptedStatus s.status := rfl
@[simp] theorem accept_err (w : Word) : (s.accept w).err = 0 := rfl
@[simp] theorem accept_dataShards (w : Word) : (s.accept w).dataShards = s.dataShards := rfl
@[simp] theorem accept_parityShards (w : Word) : (s.accept w).parityShards = s.parityShards := rfl
@[simp] theorem accept_chunkSize (w : Word) : (s.accept w).chunkSize = s.chunkSize := rfl
@[simp] theorem accept_constraintLen (w : Word) : (s.accept w).constraintLen = s.constraintLen := rfl
@[simp] theorem accept_nPoly (w : Word) : (s.accept w).nPoly = s.nPoly := rfl
@[simp] theorem accept_convFlags (w : Word) : (s.accept w).convFlags = s.convFlags := rfl
@[simp] theorem accept_arg0 (w : Word) : (s.accept w).arg0 = s.arg0 := rfl
@[simp] theorem accept_byteLen (w : Word) : (s.accept w).byteLen = s.byteLen := rfl
@[simp] theorem accept_bitLen (w : Word) : (s.accept w).bitLen = s.bitLen := rfl
@[simp] theorem accept_rows (w : Word) : (s.accept w).rows = s.rows := rfl
@[simp] theorem accept_cols (w : Word) : (s.accept w).cols = s.cols := rfl
@[simp] theorem accept_present (w : Word) : (s.accept w).present = s.present := rfl
@[simp] theorem accept_recon (w : Word) : (s.accept w).recon = s.recon := rfl
@[simp] theorem accept_bytesPadded (w : Word) : (s.accept w).bytesPadded = s.bytesPadded := rfl
@[simp] theorem accept_attempts (w : Word) : (s.accept w).attempts = s.attempts := rfl
@[simp] theorem accept_result (w : Word) : (s.accept w).result = s.result := rfl
@[simp] theorem accept_mask (w : Word) : (s.accept w).mask = s.mask := rfl
@[simp] theorem accept_pcache (w : Word) : (s.accept w).pcache = s.pcache := rfl
@[simp] theorem accept_poly (w : Word) : (s.accept w).poly = s.poly := rfl
@[simp] theorem accept_codec (w : Word) : (s.accept w).codec = s.codec := rfl
@[simp] theorem accept_byteBuf (w : Word) : (s.accept w).byteBuf = s.byteBuf := rfl
@[simp] theorem accept_shardMem (w : Word) : (s.accept w).shardMem = s.shardMem := rfl
@[simp] theorem accept_bitBuf (w : Word) : (s.accept w).bitBuf = s.bitBuf := rfl
@[simp] theorem accept_cfg (w : Word) : (s.accept w).cfg = s.cfg := rfl
@[simp] theorem accept_schedule (w : Word) : (s.accept w).schedule = s.schedule := rfl
@[simp] theorem accept_readData (w : Word) : (s.accept w).readData = s.readData := rfl
@[simp] theorem accept_draws (w : Word) : (s.accept w).draws = s.draws := rfl
@[simp] theorem accept_epoch (w : Word) : (s.accept w).epoch = s.epoch := rfl

/-! `State.violation` -/

@[simp] theorem violation_cmd : (s.violation).cmd = s.cmd := rfl
@[simp] theorem violation_status : (s.violation).status = violatedStatus s.status := rfl
@[simp] theorem violation_err : (s.violation).err = s.err := rfl
@[simp] theorem violation_dataShards : (s.violation).dataShards = s.dataShards := rfl
@[simp] theorem violation_parityShards : (s.violation).parityShards = s.parityShards := rfl
@[simp] theorem violation_chunkSize : (s.violation).chunkSize = s.chunkSize := rfl
@[simp] theorem violation_constraintLen : (s.violation).constraintLen = s.constraintLen := rfl
@[simp] theorem violation_nPoly : (s.violation).nPoly = s.nPoly := rfl
@[simp] theorem violation_convFlags : (s.violation).convFlags = s.convFlags := rfl
@[simp] theorem violation_arg0 : (s.violation).arg0 = s.arg0 := rfl
@[simp] theorem violation_byteLen : (s.violation).byteLen = s.byteLen := rfl
@[simp] theorem violation_bitLen : (s.violation).bitLen = s.bitLen := rfl
@[simp] theorem violation_rows : (s.violation).rows = s.rows := rfl
@[simp] theorem violation_cols : (s.violation).cols = s.cols := rfl
@[simp] theorem violation_present : (s.violation).present = s.present := rfl
@[simp] theorem violation_recon : (s.violation).recon = s.recon := rfl
@[simp] theorem violation_bytesPadded : (s.violation).bytesPadded = s.bytesPadded := rfl
@[simp] theorem violation_attempts : (s.violation).attempts = s.attempts := rfl
@[simp] theorem violation_result : (s.violation).result = s.result := rfl
@[simp] theorem violation_mask : (s.violation).mask = s.mask := rfl
@[simp] theorem violation_pcache : (s.violation).pcache = s.pcache := rfl
@[simp] theorem violation_poly : (s.violation).poly = s.poly := rfl
@[simp] theorem violation_codec : (s.violation).codec = s.codec := rfl
@[simp] theorem violation_byteBuf : (s.violation).byteBuf = s.byteBuf := rfl
@[simp] theorem violation_shardMem : (s.violation).shardMem = s.shardMem := rfl
@[simp] theorem violation_bitBuf : (s.violation).bitBuf = s.bitBuf := rfl
@[simp] theorem violation_cfg : (s.violation).cfg = s.cfg := rfl
@[simp] theorem violation_schedule : (s.violation).schedule = s.schedule := rfl
@[simp] theorem violation_readData : (s.violation).readData = s.readData := rfl
@[simp] theorem violation_draws : (s.violation).draws = s.draws := rfl
@[simp] theorem violation_epoch : (s.violation).epoch = s.epoch := rfl

/-! `State.setByte` -/

@[simp] theorem setByte_cmd (i : Nat) (v : Byte) : (s.setByte i v).cmd = s.cmd := rfl
@[simp] theorem setByte_status (i : Nat) (v : Byte) : (s.setByte i v).status = s.status := rfl
@[simp] theorem setByte_err (i : Nat) (v : Byte) : (s.setByte i v).err = s.err := rfl
@[simp] theorem setByte_dataShards (i : Nat) (v : Byte) : (s.setByte i v).dataShards = s.dataShards := rfl
@[simp] theorem setByte_parityShards (i : Nat) (v : Byte) : (s.setByte i v).parityShards = s.parityShards := rfl
@[simp] theorem setByte_chunkSize (i : Nat) (v : Byte) : (s.setByte i v).chunkSize = s.chunkSize := rfl
@[simp] theorem setByte_constraintLen (i : Nat) (v : Byte) : (s.setByte i v).constraintLen = s.constraintLen := rfl
@[simp] theorem setByte_nPoly (i : Nat) (v : Byte) : (s.setByte i v).nPoly = s.nPoly := rfl
@[simp] theorem setByte_convFlags (i : Nat) (v : Byte) : (s.setByte i v).convFlags = s.convFlags := rfl
@[simp] theorem setByte_arg0 (i : Nat) (v : Byte) : (s.setByte i v).arg0 = s.arg0 := rfl
@[simp] theorem setByte_byteLen (i : Nat) (v : Byte) : (s.setByte i v).byteLen = s.byteLen := rfl
@[simp] theorem setByte_bitLen (i : Nat) (v : Byte) : (s.setByte i v).bitLen = s.bitLen := rfl
@[simp] theorem setByte_rows (i : Nat) (v : Byte) : (s.setByte i v).rows = s.rows := rfl
@[simp] theorem setByte_cols (i : Nat) (v : Byte) : (s.setByte i v).cols = s.cols := rfl
@[simp] theorem setByte_present (i : Nat) (v : Byte) : (s.setByte i v).present = s.present := rfl
@[simp] theorem setByte_recon (i : Nat) (v : Byte) : (s.setByte i v).recon = s.recon := rfl
@[simp] theorem setByte_bytesPadded (i : Nat) (v : Byte) : (s.setByte i v).bytesPadded = s.bytesPadded := rfl
@[simp] theorem setByte_attempts (i : Nat) (v : Byte) : (s.setByte i v).attempts = s.attempts := rfl
@[simp] theorem setByte_result (i : Nat) (v : Byte) : (s.setByte i v).result = s.result := rfl
@[simp] theorem setByte_mask (i : Nat) (v : Byte) : (s.setByte i v).mask = s.mask := rfl
@[simp] theorem setByte_pcache (i : Nat) (v : Byte) : (s.setByte i v).pcache = s.pcache := rfl
@[simp] theorem setByte_poly (i : Nat) (v : Byte) : (s.setByte i v).poly = s.poly := rfl
@[simp] theorem setByte_codec (i : Nat) (v : Byte) : (s.setByte i v).codec = s.codec := rfl
@[simp] theorem setByte_byteBuf (i : Nat) (v : Byte) : (s.setByte i v).byteBuf = writeCells s.byteBuf i [v] := rfl
@[simp] theorem setByte_shardMem (i : Nat) (v : Byte) : (s.setByte i v).shardMem = s.shardMem := rfl
@[simp] theorem setByte_bitBuf (i : Nat) (v : Byte) : (s.setByte i v).bitBuf = s.bitBuf := rfl
@[simp] theorem setByte_cfg (i : Nat) (v : Byte) : (s.setByte i v).cfg = s.cfg := rfl
@[simp] theorem setByte_schedule (i : Nat) (v : Byte) : (s.setByte i v).schedule = s.schedule := rfl
@[simp] theorem setByte_readData (i : Nat) (v : Byte) : (s.setByte i v).readData = s.readData := rfl
@[simp] theorem setByte_draws (i : Nat) (v : Byte) : (s.setByte i v).draws = s.draws := rfl
@[simp] theorem setByte_epoch (i : Nat) (v : Byte) : (s.setByte i v).epoch = s.epoch := rfl

/-! `State.setBit` -/

@[simp] theorem setBit_cmd (i : Nat) (v : Bool) : (s.setBit i v).cmd = s.cmd := rfl
@[simp] theorem setBit_status (i : Nat) (v : Bool) : (s.setBit i v).status = s.status := rfl
@[simp] theorem setBit_err (i : Nat) (v : Bool) : (s.setBit i v).err = s.err := rfl
@[simp] theorem setBit_dataShards (i : Nat) (v : Bool) : (s.setBit i v).dataShards = s.dataShards := rfl
@[simp] theorem setBit_parityShards (i : Nat) (v : Bool) : (s.setBit i v).parityShards = s.parityShards := rfl
@[simp] theorem setBit_chunkSize (i : Nat) (v : Bool) : (s.setBit i v).chunkSize = s.chunkSize := rfl
@[simp] theorem setBit_constraintLen (i : Nat) (v : Bool) : (s.setBit i v).constraintLen = s.constraintLen := rfl
@[simp] theorem setBit_nPoly (i : Nat) (v : Bool) : (s.setBit i v).nPoly = s.nPoly := rfl
@[simp] theorem setBit_convFlags (i : Nat) (v : Bool) : (s.setBit i v).convFlags = s.convFlags := rfl
@[simp] theorem setBit_arg0 (i : Nat) (v : Bool) : (s.setBit i v).arg0 = s.arg0 := rfl
@[simp] theorem setBit_byteLen (i : Nat) (v : Bool) : (s.setBit i v).byteLen = s.byteLen := rfl
@[simp] theorem setBit_bitLen (i : Nat) (v : Bool) : (s.setBit i v).bitLen = s.bitLen := rfl
@[simp] theorem setBit_rows (i : Nat) (v : Bool) : (s.setBit i v).rows = s.rows := rfl
@[simp] theorem setBit_cols (i : Nat) (v : Bool) : (s.setBit i v).cols = s.cols := rfl
@[simp] theorem setBit_present (i : Nat) (v : Bool) : (s.setBit i v).present = s.present := rfl
@[simp] theorem setBit_recon (i : Nat) (v : Bool) : (s.setBit i v).recon = s.recon := rfl
@[simp] theorem setBit_bytesPadded (i : Nat) (v : Bool) : (s.setBit i v).bytesPadded = s.bytesPadded := rfl
@[simp] theorem setBit_attempts (i : Nat) (v : Bool) : (s.setBit i v).attempts = s.attempts := rfl
@[simp] theorem setBit_result (i : Nat) (v : Bool) : (s.setBit i v).result = s.result := rfl
@[simp] theorem setBit_mask (i : Nat) (v : Bool) : (s.setBit i v).mask = s.mask := rfl
@[simp] theorem setBit_pcache (i : Nat) (v : Bool) : (s.setBit i v).pcache = s.pcache := rfl
@[simp] theorem setBit_poly (i : Nat) (v : Bool) : (s.setBit i v).poly = s.poly := rfl
@[simp] theorem setBit_codec (i : Nat) (v : Bool) : (s.setBit i v).codec = s.codec := rfl
@[simp] theorem setBit_byteBuf (i : Nat) (v : Bool) : (s.setBit i v).byteBuf = s.byteBuf := rfl
@[simp] theorem setBit_shardMem (i : Nat) (v : Bool) : (s.setBit i v).shardMem = s.shardMem := rfl
@[simp] theorem setBit_bitBuf (i : Nat) (v : Bool) : (s.setBit i v).bitBuf = writeCells s.bitBuf i [v] := rfl
@[simp] theorem setBit_cfg (i : Nat) (v : Bool) : (s.setBit i v).cfg = s.cfg := rfl
@[simp] theorem setBit_schedule (i : Nat) (v : Bool) : (s.setBit i v).schedule = s.schedule := rfl
@[simp] theorem setBit_readData (i : Nat) (v : Bool) : (s.setBit i v).readData = s.readData := rfl
@[simp] theorem setBit_draws (i : Nat) (v : Bool) : (s.setBit i v).draws = s.draws := rfl
@[simp] theorem setBit_epoch (i : Nat) (v : Bool) : (s.setBit i v).epoch = s.epoch := rfl

/-! `State.setShards` -/

@[simp] theorem setShards_cmd (a : Nat) (vs : List Byte) : (s.setShards a vs).cmd = s.cmd := rfl
@[simp] theorem setShards_status (a : Nat) (vs : List Byte) : (s.setShards a vs).status = s.status := rfl
@[simp] theorem setShards_err (a : Nat) (vs : List Byte) : (s.setShards a vs).err = s.err := rfl
@[simp] theorem setShards_dataShards (a : Nat) (vs : List Byte) : (s.setShards a vs).dataShards = s.dataShards := rfl
@[simp] theorem setShards_parityShards (a : Nat) (vs : List Byte) : (s.setShards a vs).parityShards = s.parityShards := rfl
@[simp] theorem setShards_chunkSize (a : Nat) (vs : List Byte) : (s.setShards a vs).chunkSize = s.chunkSize := rfl
@[simp] theorem setShards_constraintLen (a : Nat) (vs : List Byte) : (s.setShards a vs).constraintLen = s.constraintLen := rfl
@[simp] theorem setShards_nPoly (a : Nat) (vs : List Byte) : (s.setShards a vs).nPoly = s.nPoly := rfl
@[simp] theorem setShards_convFlags (a : Nat) (vs : List Byte) : (s.setShards a vs).convFlags = s.convFlags := rfl
@[simp] theorem setShards_arg0 (a : Nat) (vs : List Byte) : (s.setShards a vs).arg0 = s.arg0 := rfl
@[simp] theorem setShards_byteLen (a : Nat) (vs : List Byte) : (s.setShards a vs).byteLen = s.byteLen := rfl
@[simp] theorem setShards_bitLen (a : Nat) (vs : List Byte) : (s.setShards a vs).bitLen = s.bitLen := rfl
@[simp] theorem setShards_rows (a : Nat) (vs : List Byte) : (s.setShards a vs).rows = s.rows := rfl
@[simp] theorem setShards_cols (a : Nat) (vs : List Byte) : (s.setShards a vs).cols = s.cols := rfl
@[simp] theorem setShards_present (a : Nat) (vs : List Byte) : (s.setShards a vs).present = s.present := rfl
@[simp] theorem setShards_recon (a : Nat) (vs : List Byte) : (s.setShards a vs).recon = s.recon := rfl
@[simp] theorem setShards_bytesPadded (a : Nat) (vs : List Byte) : (s.setShards a vs).bytesPadded = s.bytesPadded := rfl
@[simp] theorem setShards_attempts (a : Nat) (vs : List Byte) : (s.setShards a vs).attempts = s.attempts := rfl
@[simp] theorem setShards_result (a : Nat) (vs : List Byte) : (s.setShards a vs).result = s.result := rfl
@[simp] theorem setShards_mask (a : Nat) (vs : List Byte) : (s.setShards a vs).mask = s.mask := rfl
@[simp] theorem setShards_pcache (a : Nat) (vs : List Byte) : (s.setShards a vs).pcache = s.pcache := rfl
@[simp] theorem setShards_poly (a : Nat) (vs : List Byte) : (s.setShards a vs).poly = s.poly := rfl
@[simp] theorem setShards_codec (a : Nat) (vs : List Byte) : (s.setShards a vs).codec = s.codec := rfl
@[simp] theorem setShards_byteBuf (a : Nat) (vs : List Byte) : (s.setShards a vs).byteBuf = s.byteBuf := rfl
@[simp] theorem setShards_shardMem (a : Nat) (vs : List Byte) : (s.setShards a vs).shardMem = writeCells s.shardMem a vs := rfl
@[simp] theorem setShards_bitBuf (a : Nat) (vs : List Byte) : (s.setShards a vs).bitBuf = s.bitBuf := rfl
@[simp] theorem setShards_cfg (a : Nat) (vs : List Byte) : (s.setShards a vs).cfg = s.cfg := rfl
@[simp] theorem setShards_schedule (a : Nat) (vs : List Byte) : (s.setShards a vs).schedule = s.schedule := rfl
@[simp] theorem setShards_readData (a : Nat) (vs : List Byte) : (s.setShards a vs).readData = s.readData := rfl
@[simp] theorem setShards_draws (a : Nat) (vs : List Byte) : (s.setShards a vs).draws = s.draws := rfl
@[simp] theorem setShards_epoch (a : Nat) (vs : List Byte) : (s.setShards a vs).epoch = s.epoch := rfl

/-! `State.putBytes` -/

@[simp] theorem putBytes_cmd (b : List Byte) : (s.putBytes b).cmd = s.cmd := rfl
@[simp] theorem putBytes_status (b : List Byte) : (s.putBytes b).status = s.status := rfl
@[simp] theorem putBytes_err (b : List Byte) : (s.putBytes b).err = s.err := rfl
@[simp] theorem putBytes_dataShards (b : List Byte) : (s.putBytes b).dataShards = s.dataShards := rfl
@[simp] theorem putBytes_parityShards (b : List Byte) : (s.putBytes b).parityShards = s.parityShards := rfl
@[simp] theorem putBytes_chunkSize (b : List Byte) : (s.putBytes b).chunkSize = s.chunkSize := rfl
@[simp] theorem putBytes_constraintLen (b : List Byte) : (s.putBytes b).constraintLen = s.constraintLen := rfl
@[simp] theorem putBytes_nPoly (b : List Byte) : (s.putBytes b).nPoly = s.nPoly := rfl
@[simp] theorem putBytes_convFlags (b : List Byte) : (s.putBytes b).convFlags = s.convFlags := rfl
@[simp] theorem putBytes_arg0 (b : List Byte) : (s.putBytes b).arg0 = s.arg0 := rfl
@[simp] theorem putBytes_byteLen (b : List Byte) : (s.putBytes b).byteLen = BitVec.ofNat 32 b.length := rfl
@[simp] theorem putBytes_bitLen (b : List Byte) : (s.putBytes b).bitLen = s.bitLen := rfl
@[simp] theorem putBytes_rows (b : List Byte) : (s.putBytes b).rows = s.rows := rfl
@[simp] theorem putBytes_cols (b : List Byte) : (s.putBytes b).cols = s.cols := rfl
@[simp] theorem putBytes_present (b : List Byte) : (s.putBytes b).present = s.present := rfl
@[simp] theorem putBytes_recon (b : List Byte) : (s.putBytes b).recon = s.recon := rfl
@[simp] theorem putBytes_bytesPadded (b : List Byte) : (s.putBytes b).bytesPadded = s.bytesPadded := rfl
@[simp] theorem putBytes_attempts (b : List Byte) : (s.putBytes b).attempts = s.attempts := rfl
@[simp] theorem putBytes_result (b : List Byte) : (s.putBytes b).result = s.result := rfl
@[simp] theorem putBytes_mask (b : List Byte) : (s.putBytes b).mask = s.mask := rfl
@[simp] theorem putBytes_pcache (b : List Byte) : (s.putBytes b).pcache = s.pcache := rfl
@[simp] theorem putBytes_poly (b : List Byte) : (s.putBytes b).poly = s.poly := rfl
@[simp] theorem putBytes_codec (b : List Byte) : (s.putBytes b).codec = s.codec := rfl
@[simp] theorem putBytes_byteBuf (b : List Byte) : (s.putBytes b).byteBuf = writeCells s.byteBuf 0 b := rfl
@[simp] theorem putBytes_shardMem (b : List Byte) : (s.putBytes b).shardMem = s.shardMem := rfl
@[simp] theorem putBytes_bitBuf (b : List Byte) : (s.putBytes b).bitBuf = s.bitBuf := rfl
@[simp] theorem putBytes_cfg (b : List Byte) : (s.putBytes b).cfg = s.cfg := rfl
@[simp] theorem putBytes_schedule (b : List Byte) : (s.putBytes b).schedule = s.schedule := rfl
@[simp] theorem putBytes_readData (b : List Byte) : (s.putBytes b).readData = s.readData := rfl
@[simp] theorem putBytes_draws (b : List Byte) : (s.putBytes b).draws = s.draws := rfl
@[simp] theorem putBytes_epoch (b : List Byte) : (s.putBytes b).epoch = s.epoch := rfl

/-! `State.putBits` -/

@[simp] theorem putBits_cmd (t : List Bool) : (s.putBits t).cmd = s.cmd := rfl
@[simp] theorem putBits_status (t : List Bool) : (s.putBits t).status = s.status := rfl
@[simp] theorem putBits_err (t : List Bool) : (s.putBits t).err = s.err := rfl
@[simp] theorem putBits_dataShards (t : List Bool) : (s.putBits t).dataShards = s.dataShards := rfl
@[simp] theorem putBits_parityShards (t : List Bool) : (s.putBits t).parityShards = s.parityShards := rfl
@[simp] theorem putBits_chunkSize (t : List Bool) : (s.putBits t).chunkSize = s.chunkSize := rfl
@[simp] theorem putBits_constraintLen (t : List Bool) : (s.putBits t).constraintLen = s.constraintLen := rfl
@[simp] theorem putBits_nPoly (t : List Bool) : (s.putBits t).nPoly = s.nPoly := rfl
@[simp] theorem putBits_convFlags (t : List Bool) : (s.putBits t).convFlags = s.convFlags := rfl
@[simp] theorem putBits_arg0 (t : List Bool) : (s.putBits t).arg0 = s.arg0 := rfl
@[simp] theorem putBits_byteLen (t : List Bool) : (s.putBits t).byteLen = s.byteLen := rfl
@[simp] theorem putBits_bitLen (t : List Bool) : (s.putBits t).bitLen = BitVec.ofNat 32 t.length := rfl
@[simp] theorem putBits_rows (t : List Bool) : (s.putBits t).rows = s.rows := rfl
@[simp] theorem putBits_cols (t : List Bool) : (s.putBits t).cols = s.cols := rfl
@[simp] theorem putBits_present (t : List Bool) : (s.putBits t).present = s.present := rfl
@[simp] theorem putBits_recon (t : List Bool) : (s.putBits t).recon = s.recon := rfl
@[simp] theorem putBits_bytesPadded (t : List Bool) : (s.putBits t).bytesPadded = s.bytesPadded := rfl
@[simp] theorem putBits_attempts (t : List Bool) : (s.putBits t).attempts = s.attempts := rfl
@[simp] theorem putBits_result (t : List Bool) : (s.putBits t).result = s.result := rfl
@[simp] theorem putBits_mask (t : List Bool) : (s.putBits t).mask = s.mask := rfl
@[simp] theorem putBits_pcache (t : List Bool) : (s.putBits t).pcache = s.pcache := rfl
@[simp] theorem putBits_poly (t : List Bool) : (s.putBits t).poly = s.poly := rfl
@[simp] theorem putBits_codec (t : List Bool) : (s.putBits t).codec = s.codec := rfl
@[simp] theorem putBits_byteBuf (t : List Bool) : (s.putBits t).byteBuf = s.byteBuf := rfl
@[simp] theorem putBits_shardMem (t : List Bool) : (s.putBits t).shardMem = s.shardMem := rfl
@[simp] theorem putBits_bitBuf (t : List Bool) : (s.putBits t).bitBuf = writeCells s.bitBuf 0 t := rfl
@[simp] theorem putBits_cfg (t : List Bool) : (s.putBits t).cfg = s.cfg := rfl
@[simp] theorem putBits_schedule (t : List Bool) : (s.putBits t).schedule = s.schedule := rfl
@[simp] theorem putBits_readData (t : List Bool) : (s.putBits t).readData = s.readData := rfl
@[simp] theorem putBits_draws (t : List Bool) : (s.putBits t).draws = s.draws := rfl
@[simp] theorem putBits_epoch (t : List Bool) : (s.putBits t).epoch = s.epoch := rfl

/-! `State.fillRows` -/

@[simp] theorem fillRows_cmd (w : Nat) (m : List (List Byte)) (is : List Nat) : (s.fillRows w m is).cmd = s.cmd := rfl
@[simp] theorem fillRows_status (w : Nat) (m : List (List Byte)) (is : List Nat) : (s.fillRows w m is).status = s.status := rfl
@[simp] theorem fillRows_err (w : Nat) (m : List (List Byte)) (is : List Nat) : (s.fillRows w m is).err = s.err := rfl
@[simp] theorem fillRows_dataShards (w : Nat) (m : List (List Byte)) (is : List Nat) : (s.fillRows w m is).dataShards = s.dataShards := rfl
@[simp] theorem fillRows_parityShards (w : Nat) (m : List (List Byte)) (is : List Nat) : (s.fillRows w m is).parityShards = s.parityShards := rfl
@[simp] theorem fillRows_chunkSize (w : Nat) (m : List (List Byte)) (is : List Nat) : (s.fillRows w m is).chunkSize = s.chunkSize := rfl
@[simp] theorem fillRows_constraintLen (w : Nat) (m : List (List Byte)) (is : List Nat) : (s.fillRows w m is).constraintLen = s.constraintLen := rfl
@[simp] theorem fillRows_nPoly (w : Nat) (m : List (List Byte)) (is : List Nat) : (s.fillRows w m is).nPoly = s.nPoly := rfl
@[simp] theorem fillRows_convFlags (w : Nat) (m : List (List Byte)) (is : List Nat) : (s.fillRows w m is).convFlags = s.convFlags := rfl
@[simp] theorem fillRows_arg0 (w : Nat) (m : List (List Byte)) (is : List Nat) : (s.fillRows w m is).arg0 = s.arg0 := rfl
@[simp] theorem fillRows_byteLen (w : Nat) (m : List (List Byte)) (is : List Nat) : (s.fillRows w m is).byteLen = s.byteLen := rfl
@[simp] theorem fillRows_bitLen (w : Nat) (m : List (List Byte)) (is : List Nat) : (s.fillRows w m is).bitLen = s.bitLen := rfl
@[simp] theorem fillRows_rows (w : Nat) (m : List (List Byte)) (is : List Nat) : (s.fillRows w m is).rows = s.rows := rfl
@[simp] theorem fillRows_cols (w : Nat) (m : List (List Byte)) (is : List Nat) : (s.fillRows w m is).cols = s.cols := rfl
@[simp] theorem fillRows_present (w : Nat) (m : List (List Byte)) (is : List Nat) : (s.fillRows w m is).present = s.present := rfl
@[simp] theorem fillRows_recon (w : Nat) (m : List (List Byte)) (is : List Nat) : (s.fillRows w m is).recon = s.recon := rfl
@[simp] theorem fillRows_bytesPadded (w : Nat) (m : List (List Byte)) (is : List Nat) : (s.fillRows w m is).bytesPadded = s.bytesPadded := rfl
@[simp] theorem fillRows_attempts (w : Nat) (m : List (List Byte)) (is : List Nat) : (s.fillRows w m is).attempts = s.attempts := rfl
@[simp] theorem fillRows_result (w : Nat) (m : List (List Byte)) (is : List Nat) : (s.fillRows w m is).result = s.result := rfl
@[simp] theorem fillRows_mask (w : Nat) (m : List (List Byte)) (is : List Nat) : (s.fillRows w m is).mask = s.mask := rfl
@[simp] theorem fillRows_pcache (w : Nat) (m : List (List Byte)) (is : List Nat) : (s.fillRows w m is).pcache = s.pcache := rfl
@[simp] theorem fillRows_poly (w : Nat) (m : List (List Byte)) (is : List Nat) : (s.fillRows w m is).poly = s.poly := rfl
@[simp] theorem fillRows_codec (w : Nat) (m : List (List Byte)) (is : List Nat) : (s.fillRows w m is).codec = s.codec := rfl
@[simp] theorem fillRows_byteBuf (w : Nat) (m : List (List Byte)) (is : List Nat) : (s.fillRows w m is).byteBuf = s.byteBuf := rfl
@[simp] theorem fillRows_shardMem (w : Nat) (m : List (List Byte)) (is : List Nat) : (s.fillRows w m is).shardMem = is.foldl (fun mem i => writeCells mem (i * w) (m.getD i [])) s.shardMem := rfl
@[simp] theorem fillRows_bitBuf (w : Nat) (m : List (List Byte)) (is : List Nat) : (s.fillRows w m is).bitBuf = s.bitBuf := rfl
@[simp] theorem fillRows_cfg (w : Nat) (m : List (List Byte)) (is : List Nat) : (s.fillRows w m is).cfg = s.cfg := rfl
@[simp] theorem fillRows_schedule (w : Nat) (m : List (List Byte)) (is : List Nat) : (s.fillRows w m is).schedule = s.schedule := rfl
@[simp] theorem fillRows_readData (w : Nat) (m : List (List Byte)) (is : List Nat) : (s.fillRows w m is).readData = s.readData := rfl
@[simp] theorem fillRows_draws (w : Nat) (m : List (List Byte)) (is : List Nat) : (s.fillRows w m is).draws = s.draws := rfl
@[simp] theorem fillRows_epoch (w : Nat) (m : List (List Byte)) (is : List Nat) : (s.fillRows w m is).epoch = s.epoch := rfl

/-! `State.setShape` -/

@[simp] theorem setShape_cmd (r c : Nat) (p q : Word) : (s.setShape r c p q).cmd = s.cmd := rfl
@[simp] theorem setShape_status (r c : Nat) (p q : Word) : (s.setShape r c p q).status = s.status := rfl
@[simp] theorem setShape_err (r c : Nat) (p q : Word) : (s.setShape r c p q).err = s.err := rfl
@[simp] theorem setShape_dataShards (r c : Nat) (p q : Word) : (s.setShape r c p q).dataShards = s.dataShards := rfl
@[simp] theorem setShape_parityShards (r c : Nat) (p q : Word) : (s.setShape r c p q).parityShards = s.parityShards := rfl
@[simp] theorem setShape_chunkSize (r c : Nat) (p q : Word) : (s.setShape r c p q).chunkSize = s.chunkSize := rfl
@[simp] theorem setShape_constraintLen (r c : Nat) (p q : Word) : (s.setShape r c p q).constraintLen = s.constraintLen := rfl
@[simp] theorem setShape_nPoly (r c : Nat) (p q : Word) : (s.setShape r c p q).nPoly = s.nPoly := rfl
@[simp] theorem setShape_convFlags (r c : Nat) (p q : Word) : (s.setShape r c p q).convFlags = s.convFlags := rfl
@[simp] theorem setShape_arg0 (r c : Nat) (p q : Word) : (s.setShape r c p q).arg0 = s.arg0 := rfl
@[simp] theorem setShape_byteLen (r c : Nat) (p q : Word) : (s.setShape r c p q).byteLen = s.byteLen := rfl
@[simp] theorem setShape_bitLen (r c : Nat) (p q : Word) : (s.setShape r c p q).bitLen = s.bitLen := rfl
@[simp] theorem setShape_rows (r c : Nat) (p q : Word) : (s.setShape r c p q).rows = BitVec.ofNat 32 r := rfl
@[simp] theorem setShape_cols (r c : Nat) (p q : Word) : (s.setShape r c p q).cols = BitVec.ofNat 32 c := rfl
@[simp] theorem setShape_present (r c : Nat) (p q : Word) : (s.setShape r c p q).present = p := rfl
@[simp] theorem setShape_recon (r c : Nat) (p q : Word) : (s.setShape r c p q).recon = q := rfl
@[simp] theorem setShape_bytesPadded (r c : Nat) (p q : Word) : (s.setShape r c p q).bytesPadded = s.bytesPadded := rfl
@[simp] theorem setShape_attempts (r c : Nat) (p q : Word) : (s.setShape r c p q).attempts = s.attempts := rfl
@[simp] theorem setShape_result (r c : Nat) (p q : Word) : (s.setShape r c p q).result = s.result := rfl
@[simp] theorem setShape_mask (r c : Nat) (p q : Word) : (s.setShape r c p q).mask = s.mask := rfl
@[simp] theorem setShape_pcache (r c : Nat) (p q : Word) : (s.setShape r c p q).pcache = s.pcache := rfl
@[simp] theorem setShape_poly (r c : Nat) (p q : Word) : (s.setShape r c p q).poly = s.poly := rfl
@[simp] theorem setShape_codec (r c : Nat) (p q : Word) : (s.setShape r c p q).codec = s.codec := rfl
@[simp] theorem setShape_byteBuf (r c : Nat) (p q : Word) : (s.setShape r c p q).byteBuf = s.byteBuf := rfl
@[simp] theorem setShape_shardMem (r c : Nat) (p q : Word) : (s.setShape r c p q).shardMem = s.shardMem := rfl
@[simp] theorem setShape_bitBuf (r c : Nat) (p q : Word) : (s.setShape r c p q).bitBuf = s.bitBuf := rfl
@[simp] theorem setShape_cfg (r c : Nat) (p q : Word) : (s.setShape r c p q).cfg = s.cfg := rfl
@[simp] theorem setShape_schedule (r c : Nat) (p q : Word) : (s.setShape r c p q).schedule = s.schedule := rfl
@[simp] theorem setShape_readData (r c : Nat) (p q : Word) : (s.setShape r c p q).readData = s.readData := rfl
@[simp] theorem setShape_draws (r c : Nat) (p q : Word) : (s.setShape r c p q).draws = s.draws := rfl
@[simp] theorem setShape_epoch (r c : Nat) (p q : Word) : (s.setShape r c p q).epoch = s.epoch := rfl

/-! `State.setPresence` -/

@[simp] theorem setPresence_cmd (p q : Word) : (s.setPresence p q).cmd = s.cmd := rfl
@[simp] theorem setPresence_status (p q : Word) : (s.setPresence p q).status = s.status := rfl
@[simp] theorem setPresence_err (p q : Word) : (s.setPresence p q).err = s.err := rfl
@[simp] theorem setPresence_dataShards (p q : Word) : (s.setPresence p q).dataShards = s.dataShards := rfl
@[simp] theorem setPresence_parityShards (p q : Word) : (s.setPresence p q).parityShards = s.parityShards := rfl
@[simp] theorem setPresence_chunkSize (p q : Word) : (s.setPresence p q).chunkSize = s.chunkSize := rfl
@[simp] theorem setPresence_constraintLen (p q : Word) : (s.setPresence p q).constraintLen = s.constraintLen := rfl
@[simp] theorem setPresence_nPoly (p q : Word) : (s.setPresence p q).nPoly = s.nPoly := rfl
@[simp] theorem setPresence_convFlags (p q : Word) : (s.setPresence p q).convFlags = s.convFlags := rfl
@[simp] theorem setPresence_arg0 (p q : Word) : (s.setPresence p q).arg0 = s.arg0 := rfl
@[simp] theorem setPresence_byteLen (p q : Word) : (s.setPresence p q).byteLen = s.byteLen := rfl
@[simp] theorem setPresence_bitLen (p q : Word) : (s.setPresence p q).bitLen = s.bitLen := rfl
@[simp] theorem setPresence_rows (p q : Word) : (s.setPresence p q).rows = s.rows := rfl
@[simp] theorem setPresence_cols (p q : Word) : (s.setPresence p q).cols = s.cols := rfl
@[simp] theorem setPresence_present (p q : Word) : (s.setPresence p q).present = p := rfl
@[simp] theorem setPresence_recon (p q : Word) : (s.setPresence p q).recon = q := rfl
@[simp] theorem setPresence_bytesPadded (p q : Word) : (s.setPresence p q).bytesPadded = s.bytesPadded := rfl
@[simp] theorem setPresence_attempts (p q : Word) : (s.setPresence p q).attempts = s.attempts := rfl
@[simp] theorem setPresence_result (p q : Word) : (s.setPresence p q).result = s.result := rfl
@[simp] theorem setPresence_mask (p q : Word) : (s.setPresence p q).mask = s.mask := rfl
@[simp] theorem setPresence_pcache (p q : Word) : (s.setPresence p q).pcache = s.pcache := rfl
@[simp] theorem setPresence_poly (p q : Word) : (s.setPresence p q).poly = s.poly := rfl
@[simp] theorem setPresence_codec (p q : Word) : (s.setPresence p q).codec = s.codec := rfl
@[simp] theorem setPresence_byteBuf (p q : Word) : (s.setPresence p q).byteBuf = s.byteBuf := rfl
@[simp] theorem setPresence_shardMem (p q : Word) : (s.setPresence p q).shardMem = s.shardMem := rfl
@[simp] theorem setPresence_bitBuf (p q : Word) : (s.setPresence p q).bitBuf = s.bitBuf := rfl
@[simp] theorem setPresence_cfg (p q : Word) : (s.setPresence p q).cfg = s.cfg := rfl
@[simp] theorem setPresence_schedule (p q : Word) : (s.setPresence p q).schedule = s.schedule := rfl
@[simp] theorem setPresence_readData (p q : Word) : (s.setPresence p q).readData = s.readData := rfl
@[simp] theorem setPresence_draws (p q : Word) : (s.setPresence p q).draws = s.draws := rfl
@[simp] theorem setPresence_epoch (p q : Word) : (s.setPresence p q).epoch = s.epoch := rfl

/-! `State.setResult` -/

@[simp] theorem setResult_cmd (v : Word) : (s.setResult v).cmd = s.cmd := rfl
@[simp] theorem setResult_status (v : Word) : (s.setResult v).status = s.status := rfl
@[simp] theorem setResult_err (v : Word) : (s.setResult v).err = s.err := rfl
@[simp] theorem setResult_dataShards (v : Word) : (s.setResult v).dataShards = s.dataShards := rfl
@[simp] theorem setResult_parityShards (v : Word) : (s.setResult v).parityShards = s.parityShards := rfl
@[simp] theorem setResult_chunkSize (v : Word) : (s.setResult v).chunkSize = s.chunkSize := rfl
@[simp] theorem setResult_constraintLen (v : Word) : (s.setResult v).constraintLen = s.constraintLen := rfl
@[simp] theorem setResult_nPoly (v : Word) : (s.setResult v).nPoly = s.nPoly := rfl
@[simp] theorem setResult_convFlags (v : Word) : (s.setResult v).convFlags = s.convFlags := rfl
@[simp] theorem setResult_arg0 (v : Word) : (s.setResult v).arg0 = s.arg0 := rfl
@[simp] theorem setResult_byteLen (v : Word) : (s.setResult v).byteLen = s.byteLen := rfl
@[simp] theorem setResult_bitLen (v : Word) : (s.setResult v).bitLen = s.bitLen := rfl
@[simp] theorem setResult_rows (v : Word) : (s.setResult v).rows = s.rows := rfl
@[simp] theorem setResult_cols (v : Word) : (s.setResult v).cols = s.cols := rfl
@[simp] theorem setResult_present (v : Word) : (s.setResult v).present = s.present := rfl
@[simp] theorem setResult_recon (v : Word) : (s.setResult v).recon = s.recon := rfl
@[simp] theorem setResult_bytesPadded (v : Word) : (s.setResult v).bytesPadded = s.bytesPadded := rfl
@[simp] theorem setResult_attempts (v : Word) : (s.setResult v).attempts = s.attempts := rfl
@[simp] theorem setResult_result (v : Word) : (s.setResult v).result = v := rfl
@[simp] theorem setResult_mask (v : Word) : (s.setResult v).mask = s.mask := rfl
@[simp] theorem setResult_pcache (v : Word) : (s.setResult v).pcache = s.pcache := rfl
@[simp] theorem setResult_poly (v : Word) : (s.setResult v).poly = s.poly := rfl
@[simp] theorem setResult_codec (v : Word) : (s.setResult v).codec = s.codec := rfl
@[simp] theorem setResult_byteBuf (v : Word) : (s.setResult v).byteBuf = s.byteBuf := rfl
@[simp] theorem setResult_shardMem (v : Word) : (s.setResult v).shardMem = s.shardMem := rfl
@[simp] theorem setResult_bitBuf (v : Word) : (s.setResult v).bitBuf = s.bitBuf := rfl
@[simp] theorem setResult_cfg (v : Word) : (s.setResult v).cfg = s.cfg := rfl
@[simp] theorem setResult_schedule (v : Word) : (s.setResult v).schedule = s.schedule := rfl
@[simp] theorem setResult_readData (v : Word) : (s.setResult v).readData = s.readData := rfl
@[simp] theorem setResult_draws (v : Word) : (s.setResult v).draws = s.draws := rfl
@[simp] theorem setResult_epoch (v : Word) : (s.setResult v).epoch = s.epoch := rfl

/-! `State.setBytesPadded` -/

@[simp] theorem setBytesPadded_cmd (v : Nat) : (s.setBytesPadded v).cmd = s.cmd := rfl
@[simp] theorem setBytesPadded_status (v : Nat) : (s.setBytesPadded v).status = s.status := rfl
@[simp] theorem setBytesPadded_err (v : Nat) : (s.setBytesPadded v).err = s.err := rfl
@[simp] theorem setBytesPadded_dataShards (v : Nat) : (s.setBytesPadded v).dataShards = s.dataShards := rfl
@[simp] theorem setBytesPadded_parityShards (v : Nat) : (s.setBytesPadded v).parityShards = s.parityShards := rfl
@[simp] theorem setBytesPadded_chunkSize (v : Nat) : (s.setBytesPadded v).chunkSize = s.chunkSize := rfl
@[simp] theorem setBytesPadded_constraintLen (v : Nat) : (s.setBytesPadded v).constraintLen = s.constraintLen := rfl
@[simp] theorem setBytesPadded_nPoly (v : Nat) : (s.setBytesPadded v).nPoly = s.nPoly := rfl
@[simp] theorem setBytesPadded_convFlags (v : Nat) : (s.setBytesPadded v).convFlags = s.convFlags := rfl
@[simp] theorem setBytesPadded_arg0 (v : Nat) : (s.setBytesPadded v).arg0 = s.arg0 := rfl
@[simp] theorem setBytesPadded_byteLen (v : Nat) : (s.setBytesPadded v).byteLen = s.byteLen := rfl
@[simp] theorem setBytesPadded_bitLen (v : Nat) : (s.setBytesPadded v).bitLen = s.bitLen := rfl
@[simp] theorem setBytesPadded_rows (v : Nat) : (s.setBytesPadded v).rows = s.rows := rfl
@[simp] theorem setBytesPadded_cols (v : Nat) : (s.setBytesPadded v).cols = s.cols := rfl
@[simp] theorem setBytesPadded_present (v : Nat) : (s.setBytesPadded v).present = s.present := rfl
@[simp] theorem setBytesPadded_recon (v : Nat) : (s.setBytesPadded v).recon = s.recon := rfl
@[simp] theorem setBytesPadded_bytesPadded (v : Nat) : (s.setBytesPadded v).bytesPadded = BitVec.ofNat 32 v := rfl
@[simp] theorem setBytesPadded_attempts (v : Nat) : (s.setBytesPadded v).attempts = s.attempts := rfl
@[simp] theorem setBytesPadded_result (v : Nat) : (s.setBytesPadded v).result = s.result := rfl
@[simp] theorem setBytesPadded_mask (v : Nat) : (s.setBytesPadded v).mask = s.mask := rfl
@[simp] theorem setBytesPadded_pcache (v : Nat) : (s.setBytesPadded v).pcache = s.pcache := rfl
@[simp] theorem setBytesPadded_poly (v : Nat) : (s.setBytesPadded v).poly = s.poly := rfl
@[simp] theorem setBytesPadded_codec (v : Nat) : (s.setBytesPadded v).codec = s.codec := rfl
@[simp] theorem setBytesPadded_byteBuf (v : Nat) : (s.setBytesPadded v).byteBuf = s.byteBuf := rfl
@[simp] theorem setBytesPadded_shardMem (v : Nat) : (s.setBytesPadded v).shardMem = s.shardMem := rfl
@[simp] theorem setBytesPadded_bitBuf (v : Nat) : (s.setBytesPadded v).bitBuf = s.bitBuf := rfl
@[simp] theorem setBytesPadded_cfg (v : Nat) : (s.setBytesPadded v).cfg = s.cfg := rfl
@[simp] theorem setBytesPadded_schedule (v : Nat) : (s.setBytesPadded v).schedule = s.schedule := rfl
@[simp] theorem setBytesPadded_readData (v : Nat) : (s.setBytesPadded v).readData = s.readData := rfl
@[simp] theorem setBytesPadded_draws (v : Nat) : (s.setBytesPadded v).draws = s.draws := rfl
@[simp] theorem setBytesPadded_epoch (v : Nat) : (s.setBytesPadded v).epoch = s.epoch := rfl

/-! `State.markPattern` -/

@[simp] theorem markPattern_cmd (n : Nat) : (s.markPattern n).cmd = s.cmd := rfl
@[simp] theorem markPattern_status (n : Nat) : (s.markPattern n).status = s.status := rfl
@[simp] theorem markPattern_err (n : Nat) : (s.markPattern n).err = s.err := rfl
@[simp] theorem markPattern_dataShards (n : Nat) : (s.markPattern n).dataShards = s.dataShards := rfl
@[simp] theorem markPattern_parityShards (n : Nat) : (s.markPattern n).parityShards = s.parityShards := rfl
@[simp] theorem markPattern_chunkSize (n : Nat) : (s.markPattern n).chunkSize = s.chunkSize := rfl
@[simp] theorem markPattern_constraintLen (n : Nat) : (s.markPattern n).constraintLen = s.constraintLen := rfl
@[simp] theorem markPattern_nPoly (n : Nat) : (s.markPattern n).nPoly = s.nPoly := rfl
@[simp] theorem markPattern_convFlags (n : Nat) : (s.markPattern n).convFlags = s.convFlags := rfl
@[simp] theorem markPattern_arg0 (n : Nat) : (s.markPattern n).arg0 = s.arg0 := rfl
@[simp] theorem markPattern_byteLen (n : Nat) : (s.markPattern n).byteLen = s.byteLen := rfl
@[simp] theorem markPattern_bitLen (n : Nat) : (s.markPattern n).bitLen = s.bitLen := rfl
@[simp] theorem markPattern_rows (n : Nat) : (s.markPattern n).rows = s.rows := rfl
@[simp] theorem markPattern_cols (n : Nat) : (s.markPattern n).cols = s.cols := rfl
@[simp] theorem markPattern_present (n : Nat) : (s.markPattern n).present = s.present := rfl
@[simp] theorem markPattern_recon (n : Nat) : (s.markPattern n).recon = s.recon := rfl
@[simp] theorem markPattern_bytesPadded (n : Nat) : (s.markPattern n).bytesPadded = s.bytesPadded := rfl
@[simp] theorem markPattern_attempts (n : Nat) : (s.markPattern n).attempts = s.attempts := rfl
@[simp] theorem markPattern_result (n : Nat) : (s.markPattern n).result = s.result := rfl
@[simp] theorem markPattern_mask (n : Nat) : (s.markPattern n).mask = s.mask := rfl
@[simp] theorem markPattern_pcache (n : Nat) : (s.markPattern n).pcache = s.pcache ||| BitVec.ofNat 32 (2 ^ n) := rfl
@[simp] theorem markPattern_poly (n : Nat) : (s.markPattern n).poly = s.poly := rfl
@[simp] theorem markPattern_codec (n : Nat) : (s.markPattern n).codec = s.codec := rfl
@[simp] theorem markPattern_byteBuf (n : Nat) : (s.markPattern n).byteBuf = s.byteBuf := rfl
@[simp] theorem markPattern_shardMem (n : Nat) : (s.markPattern n).shardMem = s.shardMem := rfl
@[simp] theorem markPattern_bitBuf (n : Nat) : (s.markPattern n).bitBuf = s.bitBuf := rfl
@[simp] theorem markPattern_cfg (n : Nat) : (s.markPattern n).cfg = s.cfg := rfl
@[simp] theorem markPattern_schedule (n : Nat) : (s.markPattern n).schedule = s.schedule := rfl
@[simp] theorem markPattern_readData (n : Nat) : (s.markPattern n).readData = s.readData := rfl
@[simp] theorem markPattern_draws (n : Nat) : (s.markPattern n).draws = s.draws := rfl
@[simp] theorem markPattern_epoch (n : Nat) : (s.markPattern n).epoch = s.epoch := rfl

/-! `State.setAttempts` -/

@[simp] theorem setAttempts_cmd (j k : Nat) : (s.setAttempts j k).cmd = s.cmd := rfl
@[simp] theorem setAttempts_status (j k : Nat) : (s.setAttempts j k).status = s.status := rfl
@[simp] theorem setAttempts_err (j k : Nat) : (s.setAttempts j k).err = s.err := rfl
@[simp] theorem setAttempts_dataShards (j k : Nat) : (s.setAttempts j k).dataShards = s.dataShards := rfl
@[simp] theorem setAttempts_parityShards (j k : Nat) : (s.setAttempts j k).parityShards = s.parityShards := rfl
@[simp] theorem setAttempts_chunkSize (j k : Nat) : (s.setAttempts j k).chunkSize = s.chunkSize := rfl
@[simp] theorem setAttempts_constraintLen (j k : Nat) : (s.setAttempts j k).constraintLen = s.constraintLen := rfl
@[simp] theorem setAttempts_nPoly (j k : Nat) : (s.setAttempts j k).nPoly = s.nPoly := rfl
@[simp] theorem setAttempts_convFlags (j k : Nat) : (s.setAttempts j k).convFlags = s.convFlags := rfl
@[simp] theorem setAttempts_arg0 (j k : Nat) : (s.setAttempts j k).arg0 = s.arg0 := rfl
@[simp] theorem setAttempts_byteLen (j k : Nat) : (s.setAttempts j k).byteLen = s.byteLen := rfl
@[simp] theorem setAttempts_bitLen (j k : Nat) : (s.setAttempts j k).bitLen = s.bitLen := rfl
@[simp] theorem setAttempts_rows (j k : Nat) : (s.setAttempts j k).rows = s.rows := rfl
@[simp] theorem setAttempts_cols (j k : Nat) : (s.setAttempts j k).cols = s.cols := rfl
@[simp] theorem setAttempts_present (j k : Nat) : (s.setAttempts j k).present = s.present := rfl
@[simp] theorem setAttempts_recon (j k : Nat) : (s.setAttempts j k).recon = s.recon := rfl
@[simp] theorem setAttempts_bytesPadded (j k : Nat) : (s.setAttempts j k).bytesPadded = s.bytesPadded := rfl
@[simp] theorem setAttempts_attempts (j k : Nat) : (s.setAttempts j k).attempts = BitVec.ofNat 32 j := rfl
@[simp] theorem setAttempts_result (j k : Nat) : (s.setAttempts j k).result = s.result := rfl
@[simp] theorem setAttempts_mask (j k : Nat) : (s.setAttempts j k).mask = BitVec.ofNat 32 k := rfl
@[simp] theorem setAttempts_pcache (j k : Nat) : (s.setAttempts j k).pcache = s.pcache := rfl
@[simp] theorem setAttempts_poly (j k : Nat) : (s.setAttempts j k).poly = s.poly := rfl
@[simp] theorem setAttempts_codec (j k : Nat) : (s.setAttempts j k).codec = s.codec := rfl
@[simp] theorem setAttempts_byteBuf (j k : Nat) : (s.setAttempts j k).byteBuf = s.byteBuf := rfl
@[simp] theorem setAttempts_shardMem (j k : Nat) : (s.setAttempts j k).shardMem = s.shardMem := rfl
@[simp] theorem setAttempts_bitBuf (j k : Nat) : (s.setAttempts j k).bitBuf = s.bitBuf := rfl
@[simp] theorem setAttempts_cfg (j k : Nat) : (s.setAttempts j k).cfg = s.cfg := rfl
@[simp] theorem setAttempts_schedule (j k : Nat) : (s.setAttempts j k).schedule = s.schedule := rfl
@[simp] theorem setAttempts_readData (j k : Nat) : (s.setAttempts j k).readData = s.readData := rfl
@[simp] theorem setAttempts_draws (j k : Nat) : (s.setAttempts j k).draws = s.draws := rfl
@[simp] theorem setAttempts_epoch (j k : Nat) : (s.setAttempts j k).epoch = s.epoch := rfl

/-! `State.withSchedule` -/

@[simp] theorem withSchedule_cmd (es : List Event) : (s.withSchedule es).cmd = s.cmd := rfl
@[simp] theorem withSchedule_status (es : List Event) : (s.withSchedule es).status = s.status := rfl
@[simp] theorem withSchedule_err (es : List Event) : (s.withSchedule es).err = s.err := rfl
@[simp] theorem withSchedule_dataShards (es : List Event) : (s.withSchedule es).dataShards = s.dataShards := rfl
@[simp] theorem withSchedule_parityShards (es : List Event) : (s.withSchedule es).parityShards = s.parityShards := rfl
@[simp] theorem withSchedule_chunkSize (es : List Event) : (s.withSchedule es).chunkSize = s.chunkSize := rfl
@[simp] theorem withSchedule_constraintLen (es : List Event) : (s.withSchedule es).constraintLen = s.constraintLen := rfl
@[simp] theorem withSchedule_nPoly (es : List Event) : (s.withSchedule es).nPoly = s.nPoly := rfl
@[simp] theorem withSchedule_convFlags (es : List Event) : (s.withSchedule es).convFlags = s.convFlags := rfl
@[simp] theorem withSchedule_arg0 (es : List Event) : (s.withSchedule es).arg0 = s.arg0 := rfl
@[simp] theorem withSchedule_byteLen (es : List Event) : (s.withSchedule es).byteLen = s.byteLen := rfl
@[simp] theorem withSchedule_bitLen (es : List Event) : (s.withSchedule es).bitLen = s.bitLen := rfl
@[simp] theorem withSchedule_rows (es : List Event) : (s.withSchedule es).rows = s.rows := rfl
@[simp] theorem withSchedule_cols (es : List Event) : (s.withSchedule es).cols = s.cols := rfl
@[simp] theorem withSchedule_present (es : List Event) : (s.withSchedule es).present = s.present := rfl
@[simp] theorem withSchedule_recon (es : List Event) : (s.withSchedule es).recon = s.recon := rfl
@[simp] theorem withSchedule_bytesPadded (es : List Event) : (s.withSchedule es).bytesPadded = s.bytesPadded := rfl
@[simp] theorem withSchedule_attempts (es : List Event) : (s.withSchedule es).attempts = s.attempts := rfl
@[simp] theorem withSchedule_result (es : List Event) : (s.withSchedule es).result = s.result := rfl
@[simp] theorem withSchedule_mask (es : List Event) : (s.withSchedule es).mask = s.mask := rfl
@[simp] theorem withSchedule_pcache (es : List Event) : (s.withSchedule es).pcache = s.pcache := rfl
@[simp] theorem withSchedule_poly (es : List Event) : (s.withSchedule es).poly = s.poly := rfl
@[simp] theorem withSchedule_codec (es : List Event) : (s.withSchedule es).codec = s.codec := rfl
@[simp] theorem withSchedule_byteBuf (es : List Event) : (s.withSchedule es).byteBuf = s.byteBuf := rfl
@[simp] theorem withSchedule_shardMem (es : List Event) : (s.withSchedule es).shardMem = s.shardMem := rfl
@[simp] theorem withSchedule_bitBuf (es : List Event) : (s.withSchedule es).bitBuf = s.bitBuf := rfl
@[simp] theorem withSchedule_cfg (es : List Event) : (s.withSchedule es).cfg = s.cfg := rfl
@[simp] theorem withSchedule_schedule (es : List Event) : (s.withSchedule es).schedule = es := rfl
@[simp] theorem withSchedule_readData (es : List Event) : (s.withSchedule es).readData = s.readData := rfl
@[simp] theorem withSchedule_draws (es : List Event) : (s.withSchedule es).draws = s.draws := rfl
@[simp] theorem withSchedule_epoch (es : List Event) : (s.withSchedule es).epoch = s.epoch := rfl

/-! `State.returns` -/

@[simp] theorem returns_cmd (v : Word) : (s.returns v).cmd = s.cmd := rfl
@[simp] theorem returns_status (v : Word) : (s.returns v).status = s.status := rfl
@[simp] theorem returns_err (v : Word) : (s.returns v).err = s.err := rfl
@[simp] theorem returns_dataShards (v : Word) : (s.returns v).dataShards = s.dataShards := rfl
@[simp] theorem returns_parityShards (v : Word) : (s.returns v).parityShards = s.parityShards := rfl
@[simp] theorem returns_chunkSize (v : Word) : (s.returns v).chunkSize = s.chunkSize := rfl
@[simp] theorem returns_constraintLen (v : Word) : (s.returns v).constraintLen = s.constraintLen := rfl
@[simp] theorem returns_nPoly (v : Word) : (s.returns v).nPoly = s.nPoly := rfl
@[simp] theorem returns_convFlags (v : Word) : (s.returns v).convFlags = s.convFlags := rfl
@[simp] theorem returns_arg0 (v : Word) : (s.returns v).arg0 = s.arg0 := rfl
@[simp] theorem returns_byteLen (v : Word) : (s.returns v).byteLen = s.byteLen := rfl
@[simp] theorem returns_bitLen (v : Word) : (s.returns v).bitLen = s.bitLen := rfl
@[simp] theorem returns_rows (v : Word) : (s.returns v).rows = s.rows := rfl
@[simp] theorem returns_cols (v : Word) : (s.returns v).cols = s.cols := rfl
@[simp] theorem returns_present (v : Word) : (s.returns v).present = s.present := rfl
@[simp] theorem returns_recon (v : Word) : (s.returns v).recon = s.recon := rfl
@[simp] theorem returns_bytesPadded (v : Word) : (s.returns v).bytesPadded = s.bytesPadded := rfl
@[simp] theorem returns_attempts (v : Word) : (s.returns v).attempts = s.attempts := rfl
@[simp] theorem returns_result (v : Word) : (s.returns v).result = s.result := rfl
@[simp] theorem returns_mask (v : Word) : (s.returns v).mask = s.mask := rfl
@[simp] theorem returns_pcache (v : Word) : (s.returns v).pcache = s.pcache := rfl
@[simp] theorem returns_poly (v : Word) : (s.returns v).poly = s.poly := rfl
@[simp] theorem returns_codec (v : Word) : (s.returns v).codec = s.codec := rfl
@[simp] theorem returns_byteBuf (v : Word) : (s.returns v).byteBuf = s.byteBuf := rfl
@[simp] theorem returns_shardMem (v : Word) : (s.returns v).shardMem = s.shardMem := rfl
@[simp] theorem returns_bitBuf (v : Word) : (s.returns v).bitBuf = s.bitBuf := rfl
@[simp] theorem returns_cfg (v : Word) : (s.returns v).cfg = s.cfg := rfl
@[simp] theorem returns_schedule (v : Word) : (s.returns v).schedule = s.schedule := rfl
@[simp] theorem returns_readData (v : Word) : (s.returns v).readData = v := rfl
@[simp] theorem returns_draws (v : Word) : (s.returns v).draws = s.draws := rfl
@[simp] theorem returns_epoch (v : Word) : (s.returns v).epoch = s.epoch := rfl

/-! `State.returnsUnspecified` -/

@[simp] theorem returnsUnspecified_cmd (width : Nat) : (s.returnsUnspecified width).cmd = s.cmd := rfl
@[simp] theorem returnsUnspecified_status (width : Nat) : (s.returnsUnspecified width).status = s.status := rfl
@[simp] theorem returnsUnspecified_err (width : Nat) : (s.returnsUnspecified width).err = s.err := rfl
@[simp] theorem returnsUnspecified_dataShards (width : Nat) : (s.returnsUnspecified width).dataShards = s.dataShards := rfl
@[simp] theorem returnsUnspecified_parityShards (width : Nat) : (s.returnsUnspecified width).parityShards = s.parityShards := rfl
@[simp] theorem returnsUnspecified_chunkSize (width : Nat) : (s.returnsUnspecified width).chunkSize = s.chunkSize := rfl
@[simp] theorem returnsUnspecified_constraintLen (width : Nat) : (s.returnsUnspecified width).constraintLen = s.constraintLen := rfl
@[simp] theorem returnsUnspecified_nPoly (width : Nat) : (s.returnsUnspecified width).nPoly = s.nPoly := rfl
@[simp] theorem returnsUnspecified_convFlags (width : Nat) : (s.returnsUnspecified width).convFlags = s.convFlags := rfl
@[simp] theorem returnsUnspecified_arg0 (width : Nat) : (s.returnsUnspecified width).arg0 = s.arg0 := rfl
@[simp] theorem returnsUnspecified_byteLen (width : Nat) : (s.returnsUnspecified width).byteLen = s.byteLen := rfl
@[simp] theorem returnsUnspecified_bitLen (width : Nat) : (s.returnsUnspecified width).bitLen = s.bitLen := rfl
@[simp] theorem returnsUnspecified_rows (width : Nat) : (s.returnsUnspecified width).rows = s.rows := rfl
@[simp] theorem returnsUnspecified_cols (width : Nat) : (s.returnsUnspecified width).cols = s.cols := rfl
@[simp] theorem returnsUnspecified_present (width : Nat) : (s.returnsUnspecified width).present = s.present := rfl
@[simp] theorem returnsUnspecified_recon (width : Nat) : (s.returnsUnspecified width).recon = s.recon := rfl
@[simp] theorem returnsUnspecified_bytesPadded (width : Nat) : (s.returnsUnspecified width).bytesPadded = s.bytesPadded := rfl
@[simp] theorem returnsUnspecified_attempts (width : Nat) : (s.returnsUnspecified width).attempts = s.attempts := rfl
@[simp] theorem returnsUnspecified_result (width : Nat) : (s.returnsUnspecified width).result = s.result := rfl
@[simp] theorem returnsUnspecified_mask (width : Nat) : (s.returnsUnspecified width).mask = s.mask := rfl
@[simp] theorem returnsUnspecified_pcache (width : Nat) : (s.returnsUnspecified width).pcache = s.pcache := rfl
@[simp] theorem returnsUnspecified_poly (width : Nat) : (s.returnsUnspecified width).poly = s.poly := rfl
@[simp] theorem returnsUnspecified_codec (width : Nat) : (s.returnsUnspecified width).codec = s.codec := rfl
@[simp] theorem returnsUnspecified_byteBuf (width : Nat) : (s.returnsUnspecified width).byteBuf = s.byteBuf := rfl
@[simp] theorem returnsUnspecified_shardMem (width : Nat) : (s.returnsUnspecified width).shardMem = s.shardMem := rfl
@[simp] theorem returnsUnspecified_bitBuf (width : Nat) : (s.returnsUnspecified width).bitBuf = s.bitBuf := rfl
@[simp] theorem returnsUnspecified_cfg (width : Nat) : (s.returnsUnspecified width).cfg = s.cfg := rfl
@[simp] theorem returnsUnspecified_schedule (width : Nat) : (s.returnsUnspecified width).schedule = s.schedule := rfl
@[simp] theorem returnsUnspecified_readData (width : Nat) : (s.returnsUnspecified width).readData = Config.unspecifiedRead s.draws &&& lowmaskWord width := rfl
@[simp] theorem returnsUnspecified_draws (width : Nat) : (s.returnsUnspecified width).draws = s.draws + 1 := rfl
@[simp] theorem returnsUnspecified_epoch (width : Nat) : (s.returnsUnspecified width).epoch = s.epoch := rfl

/-! `State.latch` -/

@[simp] theorem latch_cmd (c : Option Codec) : (s.latch c).cmd = s.cmd := rfl
@[simp] theorem latch_status (c : Option Codec) : (s.latch c).status = s.status := rfl
@[simp] theorem latch_err (c : Option Codec) : (s.latch c).err = s.err := rfl
@[simp] theorem latch_dataShards (c : Option Codec) : (s.latch c).dataShards = s.dataShards := rfl
@[simp] theorem latch_parityShards (c : Option Codec) : (s.latch c).parityShards = s.parityShards := rfl
@[simp] theorem latch_chunkSize (c : Option Codec) : (s.latch c).chunkSize = s.chunkSize := rfl
@[simp] theorem latch_constraintLen (c : Option Codec) : (s.latch c).constraintLen = s.constraintLen := rfl
@[simp] theorem latch_nPoly (c : Option Codec) : (s.latch c).nPoly = s.nPoly := rfl
@[simp] theorem latch_convFlags (c : Option Codec) : (s.latch c).convFlags = s.convFlags := rfl
@[simp] theorem latch_arg0 (c : Option Codec) : (s.latch c).arg0 = s.arg0 := rfl
@[simp] theorem latch_byteLen (c : Option Codec) : (s.latch c).byteLen = s.byteLen := rfl
@[simp] theorem latch_bitLen (c : Option Codec) : (s.latch c).bitLen = s.bitLen := rfl
@[simp] theorem latch_rows (c : Option Codec) : (s.latch c).rows = s.rows := rfl
@[simp] theorem latch_cols (c : Option Codec) : (s.latch c).cols = s.cols := rfl
@[simp] theorem latch_present (c : Option Codec) : (s.latch c).present = s.present := rfl
@[simp] theorem latch_recon (c : Option Codec) : (s.latch c).recon = s.recon := rfl
@[simp] theorem latch_bytesPadded (c : Option Codec) : (s.latch c).bytesPadded = s.bytesPadded := rfl
@[simp] theorem latch_attempts (c : Option Codec) : (s.latch c).attempts = s.attempts := rfl
@[simp] theorem latch_result (c : Option Codec) : (s.latch c).result = s.result := rfl
@[simp] theorem latch_mask (c : Option Codec) : (s.latch c).mask = s.mask := rfl
@[simp] theorem latch_pcache (c : Option Codec) : (s.latch c).pcache = s.pcache := rfl
@[simp] theorem latch_poly (c : Option Codec) : (s.latch c).poly = s.poly := rfl
@[simp] theorem latch_codec (c : Option Codec) : (s.latch c).codec = c := rfl
@[simp] theorem latch_byteBuf (c : Option Codec) : (s.latch c).byteBuf = s.byteBuf := rfl
@[simp] theorem latch_shardMem (c : Option Codec) : (s.latch c).shardMem = s.shardMem := rfl
@[simp] theorem latch_bitBuf (c : Option Codec) : (s.latch c).bitBuf = s.bitBuf := rfl
@[simp] theorem latch_cfg (c : Option Codec) : (s.latch c).cfg = s.cfg := rfl
@[simp] theorem latch_schedule (c : Option Codec) : (s.latch c).schedule = s.schedule := rfl
@[simp] theorem latch_readData (c : Option Codec) : (s.latch c).readData = s.readData := rfl
@[simp] theorem latch_draws (c : Option Codec) : (s.latch c).draws = s.draws := rfl
@[simp] theorem latch_epoch (c : Option Codec) : (s.latch c).epoch = s.epoch := rfl

end Sys2Proof.Machine
end

