-- ==== Sys2Proof/Laws/Memory.lean ====
section
/-! SUPPORT. The laws of the buffers: a read after a write, the canonical form and the capacity are kept, writing twice is
writing once, and what the named writes do to the reads of every buffer. -/

namespace Sys2Proof.Machine

section cells

variable {α : Type}

theorem cellAt_nil (a : Nat) : cellAt ([] : List (Nat × α)) a = none := rfl

theorem cellAt_cons (c : Nat × α) (m : List (Nat × α)) (a : Nat) :
    cellAt (c :: m) a = if c.1 = a then some c.2 else cellAt m a := by
  by_cases h : c.1 = a <;> simp [cellAt, h]

theorem cellAt_append (m₁ m₂ : List (Nat × α)) (a : Nat) :
    cellAt (m₁ ++ m₂) a = (cellAt m₁ a).or (cellAt m₂ a) := by
  induction m₁ with
  | nil => simp [cellAt_nil]
  | cons c m ih => by_cases h : c.1 = a <;> simp [cellAt_cons, h, ih]

theorem cellAt_filter (m : List (Nat × α)) (p : Nat → Bool) (a : Nat) :
    cellAt (m.filter fun c => p c.1) a = if p a then cellAt m a else none := by
  induction m with
  | nil => simp [cellAt_nil]
  | cons c m ih =>
    by_cases hp : p c.1 = true <;> by_cases h : c.1 = a
    · subst h; simp [cellAt_cons, hp]
    · simp [cellAt_cons, h, hp, ih]
    · subst h; simp [hp, ih]
    · simp [cellAt_cons, h, hp, ih]

theorem cellAt_cellsFrom (vs : List α) (b a : Nat) :
    cellAt (cellsFrom b vs) a = if b ≤ a then vs[a - b]? else none := by
  induction vs generalizing b with
  | nil => simp [cellsFrom, cellAt_nil]
  | cons v vs ih =>
    rw [cellsFrom, cellAt_cons, ih]
    by_cases h : b = a
    · subst h; simp
    · by_cases hlt : b + 1 ≤ a
      · have : a - b = a - (b + 1) + 1 := by omega
        simp [h, hlt, this, show b ≤ a by omega]
      · simp [h, hlt, show ¬ b ≤ a by omega]

/-- Reading an element after a write: the written value inside the written range, the old one outside. -/
theorem cellAt_writeCells (m : List (Nat × α)) (b : Nat) (vs : List α) (a : Nat) :
    cellAt (writeCells m b vs) a = if b ≤ a ∧ a < b + vs.length then vs[a - b]? else cellAt m a := by
  rw [writeCells, cellAt_append, cellAt_append, cellAt_filter m (fun x => decide (x < b)),
    cellAt_filter m (fun x => decide (b + vs.length ≤ x)), cellAt_cellsFrom]
  by_cases h1 : a < b
  · have : ¬ (b ≤ a) := by omega
    have h3 : ¬ (b + vs.length ≤ a) := by omega
    simp [h1, this, h3]
  · have hb : b ≤ a := by omega
    by_cases h2 : a < b + vs.length
    · have hlt : a - b < vs.length := by omega
      simp [h1, hb, h2, hlt]
    · have h3 : b + vs.length ≤ a := by omega
      have hge : vs[a - b]? = none := by simp; omega
      simp [h1, hb, h2, h3, hge]

theorem mem_cellsFrom {b : Nat} {vs : List α} {c : Nat × α} (h : c ∈ cellsFrom b vs) :
    b ≤ c.1 ∧ c.1 < b + vs.length := by
  induction vs generalizing b with
  | nil => simp [cellsFrom] at h
  | cons v vs ih =>
    rw [cellsFrom, List.mem_cons] at h
    rcases h with rfl | h
    · simp
    · have := ih h; simp only [List.length_cons]; omega

theorem cellsFrom_wf (b : Nat) (vs : List α) : Memory.wf (cellsFrom b vs) := by
  induction vs generalizing b with
  | nil => exact List.Pairwise.nil
  | cons v vs ih =>
    refine List.Pairwise.cons (fun c hc => ?_) (ih _)
    have := mem_cellsFrom hc
    show b < c.1
    omega

/-- A write keeps the canonical form. -/
theorem writeCells_wf {m : List (Nat × α)} (h : Memory.wf m) (b : Nat) (vs : List α) :
    Memory.wf (writeCells m b vs) := by
  unfold writeCells
  refine List.pairwise_append.2 ⟨List.pairwise_append.2 ⟨h.filter _, cellsFrom_wf b vs, ?_⟩, h.filter _, ?_⟩
  · intro x hx y hy
    have := mem_cellsFrom hy
    simp at hx
    omega
  · intro x hx y hy
    simp only [List.mem_filter, decide_eq_true_eq] at hy
    rcases List.mem_append.1 hx with hx | hx
    · simp at hx; omega
    · have := mem_cellsFrom hx; omega

/-- A write inside the capacity stays inside the capacity. -/
theorem writeCells_within {m : List (Nat × α)} {cap : Nat} (h : Memory.within cap m) {b : Nat} {vs : List α}
    (hb : b + vs.length ≤ cap) : Memory.within cap (writeCells m b vs) := by
  intro c hc
  simp only [writeCells, List.mem_append, List.mem_filter] at hc
  rcases hc with (hc | hc) | hc
  · exact h c hc.1
  · have := mem_cellsFrom hc; omega
  · exact h c hc.1

/-- Writing the same values again changes nothing. -/
theorem writeCells_writeCells (m : List (Nat × α)) (b : Nat) (vs : List α) :
    writeCells (writeCells m b vs) b vs = writeCells m b vs := by
  have h1 : ∀ c ∈ cellsFrom b vs, ¬ c.1 < b := fun c hc => by have := mem_cellsFrom hc; omega
  have h2 : ∀ c ∈ cellsFrom b vs, ¬ b + vs.length ≤ c.1 := fun c hc => by have := mem_cellsFrom hc; omega
  have e1 : (cellsFrom b vs).filter (fun c => decide (c.1 < b)) = [] := by
    rw [List.filter_eq_nil_iff]; intro c hc; simpa using h1 c hc
  have e2 : (cellsFrom b vs).filter (fun c => decide (b + vs.length ≤ c.1)) = [] := by
    rw [List.filter_eq_nil_iff]; intro c hc; simpa using h2 c hc
  have e3 : (m.filter fun c => decide (c.1 < b)).filter (fun c => decide (b + vs.length ≤ c.1)) = [] := by
    rw [List.filter_eq_nil_iff]; intro c hc; simp at hc ⊢; omega
  have e4 : (m.filter fun c => decide (b + vs.length ≤ c.1)).filter (fun c => decide (c.1 < b)) = [] := by
    rw [List.filter_eq_nil_iff]; intro c hc; simp at hc ⊢; omega
  simp only [writeCells, List.filter_append, e1, e2, e3, e4, List.filter_filter, Bool.and_self, List.append_nil,
    List.nil_append]

end cells

/-! ## The named reads after the named writes -/

variable (s : State)

theorem byteAt_putBytes (b : List Byte) (i : Nat) :
    (s.putBytes b).byteAt i = if h : i < b.length then b[i] else s.byteAt i := by
  unfold State.byteAt
  rw [putBytes_byteBuf, cellAt_writeCells]
  by_cases h : i < b.length <;> simp [h]

theorem bitAt_putBits (t : List Bool) (i : Nat) :
    (s.putBits t).bitAt i = if h : i < t.length then t[i] else s.bitAt i := by
  unfold State.bitAt
  rw [putBits_bitBuf, cellAt_writeCells]
  by_cases h : i < t.length <;> simp [h]

theorem byteAt_setByte (j : Nat) (v : Byte) (i : Nat) :
    (s.setByte j v).byteAt i = if i = j then v else s.byteAt i := by
  unfold State.byteAt
  rw [setByte_byteBuf, cellAt_writeCells]
  by_cases h : i = j
  · subst h; simp
  · rw [if_neg (by simp only [List.length_singleton]; omega), if_neg h]; rfl

theorem bitAt_setBit (j : Nat) (v : Bool) (i : Nat) :
    (s.setBit j v).bitAt i = if i = j then v else s.bitAt i := by
  unfold State.bitAt
  rw [setBit_bitBuf, cellAt_writeCells]
  by_cases h : i = j
  · subst h; simp
  · rw [if_neg (by simp only [List.length_singleton]; omega), if_neg h]; rfl

theorem shardAt_setShards (a : Nat) (vs : List Byte) (i : Nat) :
    (s.setShards a vs).shardAt i = if h : a ≤ i ∧ i < a + vs.length then vs[i - a]'(by omega) else s.shardAt i := by
  unfold State.shardAt
  rw [setShards_shardMem, cellAt_writeCells]
  by_cases h : a ≤ i ∧ i < a + vs.length
  · have hlt : i - a < vs.length := by omega
    simp [h, hlt]
  · simp [h]

@[simp] theorem bytes_length (n : Nat) : (s.bytes n).length = n := by simp [State.bytes]

@[simp] theorem bits_length (n : Nat) : (s.bits n).length = n := by simp [State.bits]

@[simp] theorem shards_length (a n : Nat) : (s.shards a n).length = n := by simp [State.shards]

@[simp] theorem shardRows_length (n w : Nat) : (s.shardRows n w).length = n := by simp [State.shardRows]

theorem bytes_getElem (n i : Nat) (h : i < (s.bytes n).length) : (s.bytes n)[i] = s.byteAt i := by simp [State.bytes]

theorem bits_getElem (n i : Nat) (h : i < (s.bits n).length) : (s.bits n)[i] = s.bitAt i := by simp [State.bits]

theorem shards_getElem (a n i : Nat) (h : i < (s.shards a n).length) : (s.shards a n)[i] = s.shardAt (a + i) := by
  simp [State.shards]

/-! ## Completion and the updates that write no buffer leave every read alone -/

@[simp] theorem byteAt_complete (c : Word) (i : Nat) : (s.complete c).byteAt i = s.byteAt i := rfl
@[simp] theorem bitAt_complete (c : Word) (i : Nat) : (s.complete c).bitAt i = s.bitAt i := rfl
@[simp] theorem shardAt_complete (c : Word) (i : Nat) : (s.complete c).shardAt i = s.shardAt i := rfl
@[simp] theorem shardAt_putBytes (b : List Byte) (i : Nat) : (s.putBytes b).shardAt i = s.shardAt i := rfl
@[simp] theorem bitAt_putBytes (b : List Byte) (i : Nat) : (s.putBytes b).bitAt i = s.bitAt i := rfl
@[simp] theorem byteAt_putBits (t : List Bool) (i : Nat) : (s.putBits t).byteAt i = s.byteAt i := rfl
@[simp] theorem shardAt_putBits (t : List Bool) (i : Nat) : (s.putBits t).shardAt i = s.shardAt i := rfl
@[simp] theorem byteAt_setShards (a : Nat) (vs : List Byte) (i : Nat) : (s.setShards a vs).byteAt i = s.byteAt i := rfl
@[simp] theorem bitAt_setShards (a : Nat) (vs : List Byte) (i : Nat) : (s.setShards a vs).bitAt i = s.bitAt i := rfl
@[simp] theorem byteAt_setShape (r c : Nat) (p q : Word) (i : Nat) : (s.setShape r c p q).byteAt i = s.byteAt i := rfl
@[simp] theorem bitAt_setShape (r c : Nat) (p q : Word) (i : Nat) : (s.setShape r c p q).bitAt i = s.bitAt i := rfl
@[simp] theorem shardAt_setShape (r c : Nat) (p q : Word) (i : Nat) : (s.setShape r c p q).shardAt i = s.shardAt i := rfl

end Sys2Proof.Machine
end

