-- ==== Sys2Proof/Laws/Crc.lean ====
section
/-! SUPPORT. The laws of the envelope functions (41_crc.md R153, R154): lengths, that a stored CRC determines the CRC, and that
splitting undoes making. -/

namespace Sys2Proof.Machine

@[simp] theorem crcBytes_length {w : Nat} (v : BitVec w) : (crcBytes v).length = w / 8 := by simp [crcBytes]

theorem crcBytes_crcOf_length (c : Config) (w : CrcWidth) (p : List Byte) :
    (crcBytes (crcOf c w p)).length = crcLen w := by simp [crcLen]

@[simp] theorem envMake_length (c : Config) (w : CrcWidth) (pos : EnvPos) (p : List Byte) :
    (envMake c w pos p).length = p.length + crcLen w := by
  cases pos
  · simp [envMake, crcLen]
  · simp [envMake, crcLen, Nat.add_comm]

theorem envSplit_envMake (c : Config) (w : CrcWidth) (pos : EnvPos) (p : List Byte) :
    envSplit w pos (envMake c w pos p) = some (crcBytes (crcOf c w p), p) := by
  have h := crcBytes_crcOf_length c w p
  unfold envSplit
  rw [if_neg (by simp), envMake_length]
  cases pos
  · simp only [envMake, Nat.add_sub_cancel]
    rw [List.drop_left, List.take_left]
  · simp only [envMake]
    rw [← h, List.drop_left, List.take_left]

/-- `env_ok(w, pos, env_make(w, pos, p))` (R154). -/
theorem envOk_envMake (c : Config) (w : CrcWidth) (pos : EnvPos) (p : List Byte) :
    envOk c w pos (envMake c w pos p) = true := by
  simp [envOk, envSplit_envMake]

theorem envOpen_envMake (c : Config) (w : CrcWidth) (pos : EnvPos) (p : List Byte) :
    envOpen c w pos (envMake c w pos p) = some p := by
  simp [envOpen, envOk_envMake, envSplit_envMake]

/-- What opening an envelope says: the envelope is the one made of the payload it answers. -/
theorem envOpen_eq_some {c : Config} {w : CrcWidth} {pos : EnvPos} {e p : List Byte} :
    envOpen c w pos e = some p ↔ e = envMake c w pos p := by
  constructor
  · intro h
    unfold envOpen at h
    split at h
    · rename_i hok
      unfold envOk at hok
      unfold envSplit at h hok
      split at h
      · cases h
      · rename_i hlen
        cases pos
        · simp only [hlen, if_false, decide_eq_true_eq] at hok
          simp only [Option.map_some, Option.some.injEq] at h
          subst h
          rw [envMake, ← hok, List.take_append_drop]
        · simp only [hlen, if_false, decide_eq_true_eq] at hok
          simp only [Option.map_some, Option.some.injEq] at h
          subst h
          rw [envMake, ← hok, List.take_append_drop]
    · cases h
  · rintro rfl
    exact envOpen_envMake c w pos p

end Sys2Proof.Machine
end

