-- ==== Sys2Proof/Laws/Flags.lean ====
section
/-! SUPPORT. What the three updates of STATUS do to its four flags, and that each keeps bits 31:4 zero. -/

namespace Sys2Proof.Machine

/-- The flags after completion with a code (60_exceptions.md R303). -/
theorem completedStatus_flags (st code : Word) :
    (completedStatus st code).getLsbD 0 = false ∧ (completedStatus st code).getLsbD 1 = true ∧
    (completedStatus st code).getLsbD 2 = decide (code ≠ 0) ∧
    (completedStatus st code).getLsbD 3 = st.getLsbD 3 := by
  unfold completedStatus
  split
  · rename_i h; subst h; simp
  · rename_i h; exact ⟨by simp, by simp, by simpa using h, by simp⟩

/-- The flags after acceptance (10_state.md R23). -/
theorem acceptedStatus_flags (st : Word) :
    (acceptedStatus st).getLsbD 0 = true ∧ (acceptedStatus st).getLsbD 1 = false ∧
    (acceptedStatus st).getLsbD 2 = false ∧ (acceptedStatus st).getLsbD 3 = st.getLsbD 3 := by
  simp [acceptedStatus]

/-- The flags after a host protocol violation (20_memory.md R79). -/
theorem violatedStatus_flags (st : Word) :
    (violatedStatus st).getLsbD 0 = st.getLsbD 0 ∧ (violatedStatus st).getLsbD 1 = st.getLsbD 1 ∧
    (violatedStatus st).getLsbD 2 = st.getLsbD 2 ∧ (violatedStatus st).getLsbD 3 = true := by
  simp [violatedStatus]

theorem toNat_lt_of_or {a b : Word} {k : Nat} (ha : a.toNat < 2 ^ k) (hb : b.toNat < 2 ^ k) :
    (a ||| b).toNat < 2 ^ k := by
  rw [BitVec.toNat_or]; exact Nat.or_lt_two_pow ha hb

theorem completedStatus_lt {st : Word} (h : st.toNat < 16) (code : Word) : (completedStatus st code).toNat < 16 := by
  refine toNat_lt_of_or (k := 4) ?_ (by split <;> decide)
  rw [BitVec.toNat_and]
  exact lt_of_le_of_lt Nat.and_le_left h

theorem acceptedStatus_lt {st : Word} (h : st.toNat < 16) : (acceptedStatus st).toNat < 16 := by
  refine toNat_lt_of_or (k := 4) ?_ (by decide)
  rw [BitVec.toNat_and]
  exact lt_of_le_of_lt Nat.and_le_left h

theorem violatedStatus_lt {st : Word} (h : st.toNat < 16) : (violatedStatus st).toNat < 16 :=
  toNat_lt_of_or (k := 4) h (by decide)

end Sys2Proof.Machine
end

