-- ==== Sys2Proof/Laws/Ops.lean ====
section
/-! SUPPORT. What each shared operation and each meaning can do, said once: if it answers `next t`, then one of the cases
listed holds. Cite these instead of unfolding a meaning. -/

namespace Sys2Proof.Machine

variable {s t : State}

theorem succeed_next (h : succeed s = .next t) : t = s.complete 0 := by
  simpa [succeed, eq_comm] using h

theorem raise_next {e : Err} (h : raise e s = .next t) : t = s.complete e.code := by
  simpa [raise, eq_comm] using h

theorem execNop_next (h : execNop s = .next t) : t = s.complete 0 := succeed_next h

theorem execB2bit_next (h : execB2bit s = .next t) :
    ((s.byteBufOK = false ∨ s.cfg.bitCap < 8 * s.byteLen.toNat) ∧ t = s.complete 9) ∨
    (s.byteBufOK = true ∧ 8 * s.byteLen.toNat ≤ s.cfg.bitCap ∧
      t = (s.putBits (bitsOfBytes (s.bytes s.byteLen.toNat))).complete 0) := by
  unfold execB2bit at h
  split at h
  · exact .inl ⟨.inl (by simp_all), raise_next h⟩
  split at h
  · exact .inl ⟨.inr (by assumption), raise_next h⟩
  · exact .inr ⟨by simp_all, by omega, succeed_next h⟩

theorem execBit2b_next (h : execBit2b s = .next t) :
    ((s.bitBufOK = false ∨ s.bitLen.toNat % 8 ≠ 0 ∨ s.cfg.byteCap < s.bitLen.toNat / 8) ∧ t = s.complete 9) ∨
    (s.bitBufOK = true ∧ s.bitLen.toNat % 8 = 0 ∧ s.bitLen.toNat / 8 ≤ s.cfg.byteCap ∧
      t = (s.putBytes (bytesOfBits (s.bits s.bitLen.toNat))).complete 0) := by
  unfold execBit2b at h
  split at h
  · exact .inl ⟨.inl (by simp_all), raise_next h⟩
  split at h
  · exact .inl ⟨.inr (.inl (by assumption)), raise_next h⟩
  split at h
  · exact .inl ⟨.inr (.inr (by assumption)), raise_next h⟩
  · exact .inr ⟨by simp_all, by omega, by omega, succeed_next h⟩

theorem bitCommand_next {f : Bool → Bool} (h : bitCommand f s = .next t) :
    ((s.bitBufOK = false ∨ s.bitLen.toNat ≤ s.arg0.toNat) ∧ t = s.complete 9) ∨
    (s.bitBufOK = true ∧ s.arg0.toNat < s.bitLen.toNat ∧
      t = (s.setBit s.arg0.toNat (f (s.bitAt s.arg0.toNat))).complete 0) := by
  unfold bitCommand at h
  split at h
  · exact .inl ⟨.inl (by simp_all), raise_next h⟩
  split at h
  · exact .inl ⟨.inr (by assumption), raise_next h⟩
  · exact .inr ⟨by simp_all, by omega, succeed_next h⟩

theorem byteCommand_next {f : Byte → Byte → Byte} (h : byteCommand f s = .next t) :
    ((s.byteBufOK = false ∨ 8 * s.byteLen.toNat ≤ s.arg0.toNat) ∧ t = s.complete 9) ∨
    (s.byteBufOK = true ∧ s.arg0.toNat < 8 * s.byteLen.toNat ∧
      t = (s.setByte (s.arg0.toNat / 8) (f (s.byteAt (s.arg0.toNat / 8)) (bitInByte s.arg0.toNat))).complete 0) := by
  unfold byteCommand at h
  split at h
  · exact .inl ⟨.inl (by simp_all), raise_next h⟩
  split at h
  · exact .inl ⟨.inr (by assumption), raise_next h⟩
  · exact .inr ⟨by simp_all, by omega, succeed_next h⟩

theorem crcGenerate_next {w : CrcWidth} (h : crcGenerate w s = .next t) :
    (s.byteBufOK = false ∧ t = s.complete 9) ∨
    (s.byteBufOK = true ∧ t = (s.setResult ((crcOf s.cfg w (s.bytes s.byteLen.toNat)).setWidth 32)).complete 0) := by
  unfold crcGenerate at h
  split at h
  · exact .inl ⟨by simp_all, raise_next h⟩
  · exact .inr ⟨by simp_all, succeed_next h⟩

theorem crcEncode_next {w : CrcWidth} {pos : EnvPos} (h : crcEncode w pos s = .next t) :
    ((s.byteBufOK = false ∨ s.cfg.byteCap < s.byteLen.toNat + crcLen w) ∧ t = s.complete 9) ∨
    (s.byteBufOK = true ∧ s.byteLen.toNat + crcLen w ≤ s.cfg.byteCap ∧
      t = ((s.putBytes (envMake s.cfg w pos (s.bytes s.byteLen.toNat))).setResult
        ((crcOf s.cfg w (s.bytes s.byteLen.toNat)).setWidth 32)).complete 0) := by
  unfold crcEncode at h
  split at h
  · exact .inl ⟨.inl (by simp_all), raise_next h⟩
  split at h
  · exact .inl ⟨.inr (by assumption), raise_next h⟩
  · exact .inr ⟨by simp_all, by omega, succeed_next h⟩

theorem crcCheck_next {w : CrcWidth} {pos : EnvPos} (h : crcCheck w pos s = .next t) :
    (s.byteBufOK = false ∧ t = s.complete 9) ∨
    (s.byteBufOK = true ∧
      t = (s.setResult (if envOk s.cfg w pos (s.bytes s.byteLen.toNat) then 1 else 0)).complete 0) := by
  unfold crcCheck at h
  split at h
  · exact .inl ⟨by simp_all, raise_next h⟩
  · exact .inr ⟨by simp_all, succeed_next h⟩

theorem execChunk_next (h : execChunk s = .next t) :
    (s.codecParamsOK = false ∧ t = s.complete 8) ∨
    (s.codecParamsOK = true ∧ s.byteBufOK = false ∧ t = s.complete 9) ∨
    (s.codecParamsOK = true ∧ s.byteBufOK = true ∧ s.byteLen.toNat = 0 ∧ t = s.complete 1) ∨
    (s.codecParamsOK = true ∧ s.byteBufOK = true ∧ s.byteLen.toNat ≠ 0 ∧ s.ds * s.cs < s.byteLen.toNat ∧
      t = s.complete 2) ∨
    (s.codecParamsOK = true ∧ s.byteBufOK = true ∧ s.byteLen.toNat ≠ 0 ∧ s.byteLen.toNat ≤ s.ds * s.cs ∧
      t = (((s.setShards 0 (padTo (s.ds * s.cs) (s.bytes s.byteLen.toNat))).setShape s.ds s.cs (lowmaskWord s.ds)
        0).setBytesPadded (s.ds * s.cs - s.byteLen.toNat)).complete 0) := by
  unfold execChunk at h
  split at h
  · exact .inl ⟨by simp_all, raise_next h⟩
  split at h
  · exact .inr (.inl ⟨by simp_all, by simp_all, raise_next h⟩)
  split at h
  · exact .inr (.inr (.inl ⟨by simp_all, by simp_all, by assumption, raise_next h⟩))
  split at h
  · exact .inr (.inr (.inr (.inl ⟨by simp_all, by simp_all, by assumption, by assumption, raise_next h⟩)))
  · exact .inr (.inr (.inr (.inr ⟨by simp_all, by simp_all, by assumption, by omega, succeed_next h⟩)))

theorem execFlat_next (h : execFlat s = .next t) :
    ((s.shapeOK = false ∨ s.allPresent s.rows.toNat = false) ∧ t = s.complete 9) ∨
    (s.shapeOK = true ∧ s.allPresent s.rows.toNat = true ∧
      t = (s.putBytes (s.shards 0 (s.rows.toNat * s.cols.toNat))).complete 0) := by
  unfold execFlat at h
  split at h
  · exact .inl ⟨.inl (by simp_all), raise_next h⟩
  split at h
  · exact .inl ⟨.inr (by simp_all), raise_next h⟩
  · exact .inr ⟨by simp_all, by simp_all, succeed_next h⟩

theorem execUnflat_next (h : execUnflat s = .next t) :
    ((s.byteBufOK = false ∨ s.shapeOK = false ∨ s.byteLen.toNat ≠ s.rows.toNat * s.cols.toNat) ∧
      t = s.complete 9) ∨
    (s.byteBufOK = true ∧ s.shapeOK = true ∧ s.byteLen.toNat = s.rows.toNat * s.cols.toNat ∧
      t = ((s.setShards 0 (s.bytes s.byteLen.toNat)).setPresence (lowmaskWord (min s.rows.toNat 32)) 0).complete
        0) := by
  unfold execUnflat at h
  split at h
  · exact .inl ⟨.inl (by simp_all), raise_next h⟩
  split at h
  · exact .inl ⟨.inr (.inl (by simp_all)), raise_next h⟩
  split at h
  · exact .inl ⟨.inr (.inr (by assumption)), raise_next h⟩
  · rename_i hne
    exact .inr ⟨by simp_all, by simp_all, not_not.1 hne, succeed_next h⟩

theorem interleave_next (h : interleave s = .next t) :
    ((s.shapeOK = false ∨ s.allPresent s.rows.toNat = false) ∧ t = s.complete 9) ∨
    (s.shapeOK = true ∧ s.allPresent s.rows.toNat = true ∧
      t = ((s.setShards 0 (transposed s s.rows.toNat s.cols.toNat)).setShape s.cols.toNat s.rows.toNat
        (lowmaskWord (min s.cols.toNat 32)) 0).complete 0) := by
  unfold interleave at h
  split at h
  · exact .inl ⟨.inl (by simp_all), raise_next h⟩
  split at h
  · exact .inl ⟨.inr (by simp_all), raise_next h⟩
  · exact .inr ⟨by simp_all, by simp_all, succeed_next h⟩

theorem execRsenc_next (h : execRsenc s = .next t) :
    (s.codecParamsOK = false ∧ t = s.complete 8) ∨
    (s.codecParamsOK = true ∧ (s.hasShape s.ds s.cs = false ∨ s.allPresent s.ds = false) ∧ t = s.complete 9) ∨
    (s.codecParamsOK = true ∧ s.hasShape s.ds s.cs = true ∧ s.allPresent s.ds = true ∧
      t = ((s.setShards (s.ds * s.cs)
        (rsParity s.cfg.gfPoly s.ds s.ps s.cs (s.shardRows s.ds s.cs)).flatten).setShape s.n s.cs
        (lowmaskWord s.n) 0).complete 0) := by
  unfold execRsenc at h
  split at h
  · exact .inl ⟨by simp_all, raise_next h⟩
  split at h
  · exact .inr (.inl ⟨by simp_all, .inl (by simp_all), raise_next h⟩)
  split at h
  · exact .inr (.inl ⟨by simp_all, .inr (by simp_all), raise_next h⟩)
  simp only at h
  split at h
  · rename_i hv
    refine absurd ?_ hv
    have : (s.shardRows s.ds s.cs).length = s.ds := by simp
    simp only [rsVerify, decide_eq_true_eq]
    rw [List.drop_left' this, List.take_left' this]
  · exact .inr (.inr ⟨by simp_all, by simp_all, by simp_all, succeed_next h⟩)

theorem execRsdecf_next (h : execRsdecf s = .next t) :
    (s.codecParamsOK = false ∧ t = s.complete 8) ∨
    (s.codecParamsOK = true ∧ (s.hasShape s.n s.cs = false ∨ s.ds * s.cs < s.arg0.toNat) ∧ t = s.complete 9) ∨
    (s.codecParamsOK = true ∧ s.hasShape s.n s.cs = true ∧ s.arg0.toNat ≤ s.ds * s.cs ∧
      rsData s.cfg.gfPoly s.ds s.ps s.cs (s.shardRows s.n s.cs) (s.available s.n) = none ∧ t = s.complete 4) ∨
    (s.codecParamsOK = true ∧ s.hasShape s.n s.cs = true ∧ s.arg0.toNat ≤ s.ds * s.cs ∧
      ∃ d, rsData s.cfg.gfPoly s.ds s.ps s.cs (s.shardRows s.n s.cs) (s.available s.n) = some d ∧
        ((rsVerify s.cfg.gfPoly s.ds s.ps s.cs ((List.range s.n).map fun i =>
            if s.isPresent i then (s.shardRows s.n s.cs).getD i []
            else (rsEncode s.cfg.gfPoly s.ds s.ps s.cs d).getD i []) = false ∧
          t = s.complete 3) ∨
        (rsVerify s.cfg.gfPoly s.ds s.ps s.cs ((List.range s.n).map fun i =>
            if s.isPresent i then (s.shardRows s.n s.cs).getD i []
            else (rsEncode s.cfg.gfPoly s.ds s.ps s.cs d).getD i []) = true ∧
          t = (((s.fillRows s.cs (rsEncode s.cfg.gfPoly s.ds s.ps s.cs d) (s.erased s.n)).setPresence (lowmaskWord s.n)
            (maskOf (s.erased s.n))).putBytes (rsPayload s.ds s.cs s.arg0.toNat d)).complete 0))) := by
  unfold execRsdecf at h
  split at h
  · exact .inl ⟨by simp_all, raise_next h⟩
  split at h
  · exact .inr (.inl ⟨by simp_all, .inl (by simp_all), raise_next h⟩)
  split at h
  · exact .inr (.inl ⟨by simp_all, .inr (by assumption), raise_next h⟩)
  simp only at h
  split at h
  · exact .inr (.inr (.inl ⟨by simp_all, by simp_all, by omega, by assumption, raise_next h⟩))
  · rename_i d hd
    refine .inr (.inr (.inr ⟨by simp_all, by simp_all, by omega, d, hd, ?_⟩))
    split at h
    · rename_i hv
      exact .inl ⟨by simpa using hv, raise_next h⟩
    · rename_i hv
      exact .inr ⟨by simpa using hv, succeed_next h⟩

theorem execRsdecd_next (h : execRsdecd s = .next t) :
    (s.codecParamsOK = false ∧ t = s.complete 8) ∨
    (s.codecParamsOK = true ∧ (s.hasShape s.n s.cs = false ∨ s.ds * s.cs < s.arg0.toNat) ∧ t = s.complete 9) ∨
    (s.codecParamsOK = true ∧ s.hasShape s.n s.cs = true ∧ s.arg0.toNat ≤ s.ds * s.cs ∧
      rsData s.cfg.gfPoly s.ds s.ps s.cs (s.shardRows s.n s.cs) (s.available s.n) = none ∧ t = s.complete 4) ∨
    (s.codecParamsOK = true ∧ s.hasShape s.n s.cs = true ∧ s.arg0.toNat ≤ s.ds * s.cs ∧
      ∃ d, rsData s.cfg.gfPoly s.ds s.ps s.cs (s.shardRows s.n s.cs) (s.available s.n) = some d ∧
        t = (((s.fillRows s.cs d (s.erased s.ds)).setPresence (s.present ||| maskOf (s.erased s.ds))
          (maskOf (s.erased s.ds))).putBytes (rsPayload s.ds s.cs s.arg0.toNat d)).complete 0) := by
  unfold execRsdecd at h
  split at h
  · exact .inl ⟨by simp_all, raise_next h⟩
  split at h
  · exact .inr (.inl ⟨by simp_all, .inl (by simp_all), raise_next h⟩)
  split at h
  · exact .inr (.inl ⟨by simp_all, .inr (by assumption), raise_next h⟩)
  split at h
  · exact .inr (.inr (.inl ⟨by simp_all, by simp_all, by omega, by assumption, raise_next h⟩))
  · rename_i d hd
    exact .inr (.inr (.inr ⟨by simp_all, by simp_all, by omega, d, hd, succeed_next h⟩))

theorem execPatgen_next (h : execPatgen s = .next t) :
    (s.codecParamsOK = false ∧ t = s.complete 8) ∨
    (s.codecParamsOK = true ∧ t = (s.markPattern s.n).complete 0) := by
  unfold execPatgen at h
  split at h
  · exact .inl ⟨by simp_all, raise_next h⟩
  · exact .inr ⟨by simp_all, succeed_next h⟩

theorem searchDecode_next {w : CrcWidth} {pos : EnvPos} (h : searchDecode w pos s = .next t) :
    (s.codecParamsOK = false ∧ t = s.complete 8) ∨
    (s.codecParamsOK = true ∧ (s.hasShape s.n s.cs = false ∨ s.ds * s.cs < s.arg0.toNat + crcLen w) ∧
      t = s.complete 9) ∨
    (s.codecParamsOK = true ∧ s.hasShape s.n s.cs = true ∧ s.arg0.toNat + crcLen w ≤ s.ds * s.cs ∧
      firstFrom (s.attempt w pos) (2 ^ s.n) 0 = none ∧
      t = ((s.markPattern s.n).setAttempts (2 ^ s.n) 0).complete 5) ∨
    (s.codecParamsOK = true ∧ s.hasShape s.n s.cs = true ∧ s.arg0.toNat + crcLen w ≤ s.ds * s.cs ∧
      ∃ j p, firstFrom (s.attempt w pos) (2 ^ s.n) 0 = some (j, p) ∧
        t = (((s.markPattern s.n).putBytes p).setAttempts j (keepMask s.n j)).complete 0) := by
  unfold searchDecode at h
  split at h
  · exact .inl ⟨by simp_all, raise_next h⟩
  split at h
  · exact .inr (.inl ⟨by simp_all, .inl (by simp_all), raise_next h⟩)
  split at h
  · exact .inr (.inl ⟨by simp_all, .inr (by assumption), raise_next h⟩)
  split at h
  · rename_i j p hj
    exact .inr (.inr (.inr ⟨by simp_all, by simp_all, by omega, j, p, hj, succeed_next h⟩))
  · exact .inr (.inr (.inl ⟨by simp_all, by simp_all, by omega, by assumption, raise_next h⟩))

theorem execVinit_next (h : execVinit s = .next t) :
    (s.convValid = false ∧ t = (s.latch none).complete 8) ∨
    (s.convValid = true ∧ t = (s.latch (some s.codecFromRegs)).complete 0) := by
  unfold execVinit at h
  split at h
  · exact .inl ⟨by simp_all, raise_next h⟩
  · exact .inr ⟨by simp_all, succeed_next h⟩

theorem execVenc_next (h : execVenc s = .next t) :
    (s.codec = none ∧ t = s.complete 8) ∨
    ∃ c, s.codec = some c ∧
      (((s.byteBufOK = false ∨ s.cfg.bitCap < c.m * (8 * (s.byteLen.toNat + 2) + c.k - 1)) ∧ t = s.complete 9) ∨
      (s.byteBufOK = true ∧ c.m * (8 * (s.byteLen.toNat + 2) + c.k - 1) ≤ s.cfg.bitCap ∧
        t = (s.putBits (convEncode c (bitsOfBytes (envMake s.cfg .w16 .suf (s.bytes s.byteLen.toNat))))).complete 0)) := by
  unfold execVenc at h
  split at h
  · exact .inl ⟨by assumption, raise_next h⟩
  · rename_i c hc
    refine .inr ⟨c, hc, ?_⟩
    split at h
    · exact .inl ⟨.inl (by simp_all), raise_next h⟩
    split at h
    · exact .inl ⟨.inr (by assumption), raise_next h⟩
    · exact .inr ⟨by simp_all, by omega, succeed_next h⟩

theorem execVdec_next (h : execVdec s = .next t) :
    (s.codec = none ∧ t = s.complete 8) ∨
    ∃ c, s.codec = some c ∧
      let lm := c.steps s.bitLen.toNat - (c.k - 1)
      (((s.bitBufOK = false ∨ (lm % 8 = 0 ∧ s.cfg.byteCap + 2 < lm / 8)) ∧ t = s.complete 9) ∨
      (s.bitBufOK = true ∧ ¬ (lm % 8 = 0 ∧ s.cfg.byteCap + 2 < lm / 8) ∧
        (lm < 16 ∨ lm % 8 ≠ 0 ∨
          envOpen s.cfg .w16 .suf (bytesOfBits (viterbi c (s.bits s.bitLen.toNat))) = none) ∧ t = s.complete 6) ∨
      (s.bitBufOK = true ∧ lm / 8 ≤ s.cfg.byteCap + 2 ∧ 16 ≤ lm ∧ lm % 8 = 0 ∧
        ∃ p, envOpen s.cfg .w16 .suf (bytesOfBits (viterbi c (s.bits s.bitLen.toNat))) = some p ∧
          t = (s.putBytes p).complete 0)) := by
  unfold execVdec at h
  split at h
  · exact .inl ⟨by assumption, raise_next h⟩
  · rename_i c hc
    refine .inr ⟨c, hc, ?_⟩
    simp only at h ⊢
    split at h
    · exact .inl ⟨.inl (by simp_all), raise_next h⟩
    split at h
    · exact .inl ⟨.inr (by assumption), raise_next h⟩
    rename_i hb hfit
    split at h
    · rename_i hl
      exact .inr (.inl ⟨by simpa using hb, hfit, by tauto, raise_next h⟩)
    rename_i hl
    split at h
    · exact .inr (.inl ⟨by simpa using hb, hfit, .inr (.inr (by assumption)), raise_next h⟩)
    · rename_i p hp
      exact .inr (.inr ⟨by simpa using hb, by omega, by omega, by omega, p, hp, succeed_next h⟩)

/-- The core's turn: a running command is executed, or completes as illegal; an idle core does nothing. -/
theorem coreTurn_next (h : coreTurn s = .next t) :
    (s.busy = false ∧ t = s) ∨
    (s.busy = true ∧ ∃ i, decode s.cmd = .ok i ∧ exec i s = .next t) ∨
    (s.busy = true ∧ ∃ e, decode s.cmd = .error e ∧ t = s.complete 10) := by
  unfold coreTurn at h
  split at h
  · rename_i hb
    split at h
    · rename_i i hi
      exact .inr (.inl ⟨hb, i, hi, h⟩)
    · rename_i e he
      exact .inr (.inr ⟨hb, e, he, raise_next h⟩)
  · rename_i hb
    simp only [Host.Outcome.next.injEq] at h
    exact .inl ⟨by simpa using hb, h.symm⟩

/-- One step: the core's turn, a host move, or a reset. -/
theorem step_next (h : step s = .next t) :
    (s.schedule = [] ∧ coreTurn s = .next t) ∨
    ∃ e es, s.schedule = e :: es ∧
      ((e = .core ∧ coreTurn (s.withSchedule es) = .next t) ∨
      (∃ m, e = .host m ∧ t = (s.withSchedule es).hostMove m) ∨
      (e = .reset ∧ t = (s.withSchedule es).afterReset)) := by
  unfold step at h
  split at h
  · exact .inl ⟨by assumption, h⟩
  · rename_i es hs; exact .inr ⟨_, es, hs, .inl ⟨rfl, h⟩⟩
  · rename_i m es hs
    exact .inr ⟨_, es, hs, .inr (.inl ⟨m, rfl, by simpa [eq_comm] using h⟩)⟩
  · rename_i es hs
    exact .inr ⟨_, es, hs, .inr (.inr ⟨rfl, by simpa [eq_comm] using h⟩)⟩

end Sys2Proof.Machine
end

