-- ==== Sys2Proof/Laws/Frames.lean ====
section
/-! SUPPORT. How the words of Safety.lean follow from the shape `u.complete code` that every meaning answers: completion, what is
unchanged, and the conditions on operands. -/

namespace Sys2Proof.Machine

variable {s t u : State}

/-! ## Completion -/

theorem completedStatus_high (st code : Word) (i : Nat) (h : 3 ≤ i) :
    (completedStatus st code).getLsbD i = st.getLsbD i := by
  rcases Nat.lt_or_ge i 32 with hi | hi
  · unfold completedStatus
    split <;> interval_cases i <;> simp
  · rw [BitVec.getLsbD_of_ge _ _ hi, BitVec.getLsbD_of_ge _ _ hi]

theorem acceptedStatus_high (st : Word) (i : Nat) (h : 3 ≤ i) : (acceptedStatus st).getLsbD i = st.getLsbD i := by
  rcases Nat.lt_or_ge i 32 with hi | hi
  · unfold acceptedStatus
    interval_cases i <;> simp
  · rw [BitVec.getLsbD_of_ge _ _ hi, BitVec.getLsbD_of_ge _ _ hi]

/-- A commit that leaves STATUS alone, completed with code 0. -/
theorem completedOk_complete (h : u.status = s.status) : completedOk s (u.complete 0) := by
  have f := completedStatus_flags u.status 0
  refine ⟨rfl, f.1, f.2.1, by simpa [State.errf] using f.2.2.1, fun i hi => ?_⟩
  rw [complete_status, completedStatus_high _ _ _ hi, h]

theorem Err.code_ne_zero (e : Err) : e.code ≠ 0 := by cases e <;> decide

/-- A state that leaves STATUS alone, completed with an error. -/
theorem completedWith_complete (e : Err) (h : u.status = s.status) : completedWith e s (u.complete e.code) := by
  have f := completedStatus_flags u.status e.code
  refine ⟨rfl, f.1, f.2.1, f.2.2.1.trans (decide_eq_true e.code_ne_zero), fun i hi => ?_⟩
  rw [complete_status, completedStatus_high _ _ _ hi, h]

theorem sameButStatus_complete (c : Word) : sameButStatus s (s.complete c) := rfl

/-- A meaning that raises an error at once fails with it. -/
theorem failsWith_of_raise {e : Err} {i : Instr} (h : exec i s = raise e s) : failsWith e i s :=
  ⟨_, h, completedWith_complete e rfl, rfl⟩

/-! ## Registers: an update leaves alone every register whose fields it leaves alone -/

theorem sameRegs_mono {l l' : List Reg} (h : sameRegs l s t) (hl : ∀ r ∈ l, r ∈ l') : sameRegs l' s t :=
  fun r hr => h r fun hr' => hr (hl r hr')

/-! ## The operand conditions -/

theorem codecParamsOK_iff : s.codecParamsOK = true ↔ s.paramsFit := by
  simp only [State.codecParamsOK, Bool.and_eq_true, decide_eq_true_eq]
  simp only [State.paramsFit, State.n, State.ds, State.ps, State.cs]
  tauto

theorem convValid_iff : s.convValid = true ↔ s.convFits := by
  simp only [State.convValid, State.convFits, State.reg, Bool.and_eq_true, decide_eq_true_eq, List.all_eq_true,
    List.mem_range]
  tauto

theorem isPresent_eq_false {i : Nat} : s.isPresent i = false ↔ s.rowErased i := by
  simp [State.isPresent, State.rowErased]

theorem allPresent_iff {r : Nat} : s.allPresent r = true ↔ ∀ i < r, ¬ s.rowErased i := by
  simp only [State.allPresent, List.all_eq_true, List.mem_range]
  constructor
  · intro h i hi he
    have := h i (by have := he.1; omega)
    rw [isPresent_eq_false.2 he] at this
    cases this
  · intro h i hi
    by_contra hc
    exact h i (by omega) (isPresent_eq_false.1 (by simpa using hc))

theorem available_eq_rowsKept (n : Nat) : s.available n = s.rowsKept n := rfl

theorem hasShape_iff {r c : Nat} : s.hasShape r c = true ↔ s.rows.toNat = r ∧ s.cols.toNat = c := by
  simp [State.hasShape]

theorem byteBufOK_iff : s.byteBufOK = true ↔ s.byteLen.toNat ≤ s.cfg.byteCap := by simp [State.byteBufOK]

theorem bitBufOK_iff : s.bitBufOK = true ↔ s.bitLen.toNat ≤ s.cfg.bitCap := by simp [State.bitBufOK]

theorem shapeOK_iff : s.shapeOK = true ↔ s.rows.toNat * s.cols.toNat ≤ s.cfg.shardCap := by simp [State.shapeOK]

/-! ## The parameters -/

/-- What well-formed parameters give (00_scope.md R8). -/
theorem wellFormed_bounds {c : Config} (h : c.wellFormed = true) :
    1 ≤ c.nMax ∧ c.nMax ≤ 31 ∧ 1 ≤ c.chunkMax ∧ c.nMax * c.chunkMax ≤ c.shardCap ∧ 2 ≤ c.kMax ∧ c.kMax ≤ 24 ∧
    1 ≤ c.npolyMax ∧ c.npolyMax ≤ 32 ∧ c.nMax * c.chunkMax ≤ c.byteCap ∧ c.byteCap ≤ 65536 ∧
    c.shardCap ≤ c.byteCap ∧ c.shardCap ≤ 65536 ∧ 8 * c.byteCap ≤ c.bitCap ∧ c.bitCap ≤ 1048576 ∧
    c.base % 0x400000 = 0 := by
  simp only [Config.wellFormed, Bool.and_eq_true, decide_eq_true_eq] at h
  tauto

/-- `ds * cs ≤ n * cs ≤ N_MAX * CHUNK_MAX ≤ SHARD_CAP` (42_chunker.md R170). -/
theorem paramsFit_bounds (hw : s.cfg.wellFormed = true) (h : s.paramsFit) :
    s.n ≤ 31 ∧ s.ds ≤ s.n ∧ s.ds * s.cs ≤ s.n * s.cs ∧ s.n * s.cs ≤ s.cfg.shardCap ∧
    s.n * s.cs ≤ 65536 ∧ s.cs ≤ s.cfg.chunkMax := by
  have b := wellFormed_bounds hw
  obtain ⟨h1, h2, h3, h4⟩ := h
  have e1 : s.n = s.dataShards.toNat + s.parityShards.toNat := rfl
  have e2 : s.ds = s.dataShards.toNat := rfl
  have e3 : s.cs = s.chunkSize.toNat := rfl
  have : s.n * s.cs ≤ s.cfg.nMax * s.cfg.chunkMax := Nat.mul_le_mul (by omega) (by omega)
  refine ⟨by omega, by omega, Nat.mul_le_mul_right _ (by omega), by omega, by omega, by omega⟩

theorem lowmaskWord_getLsbD (k i : Nat) (hi : i < 32) : (lowmaskWord k).getLsbD i = decide (i < k) := by
  rw [lowmaskWord, BitVec.getLsbD_ofNat, lowmask, Nat.testBit_two_pow_sub_one]
  simp [hi]

theorem toNat_ofNat_of_le {v : Nat} (h : v < 4294967296) : (BitVec.ofNat 32 v).toNat = v := by
  rw [BitVec.toNat_ofNat]; exact Nat.mod_eq_of_lt h

end Sys2Proof.Machine
end

