-- ==== Sys2Proof/Laws/ReedSolomon.lean ====
section
/-! SUPPORT. The product of bytes is linear (43_reed_solomon.md R186), and the shape of what the erasure codec computes (R188 to
R194): lengths and entries of products, of the code word, of reconstructed data and of a payload, and what filling rows
does to the reads of SHARDMEM. -/

namespace Sys2Proof.Machine

variable {g : GfPoly}

/-! ## The field -/

/-- The field polynomial of a well-formed instance meets the constraint of 00_scope.md R8. -/
theorem isFieldPoly_of_wellFormed {c : Config} (h : c.wellFormed = true) : c.gfPoly.isFieldPoly = true := by
  simp only [Config.wellFormed, Bool.and_eq_true] at h
  tauto

/-- What is added on both sides of an exclusive or drops out. -/
theorem xor_xor_cancel (x y z : Byte) : x ^^^ z ^^^ (y ^^^ z) = x ^^^ y := by
  rw [show x ^^^ z ^^^ (y ^^^ z) = x ^^^ y ^^^ (z ^^^ z) by ac_rfl, BitVec.xor_self, BitVec.xor_zero]

/-- Doubling is linear. -/
theorem gfDouble_xor (a b : Byte) : gfDouble g (a ^^^ b) = gfDouble g a ^^^ gfDouble g b := by
  unfold gfDouble
  rw [BitVec.msb_xor, BitVec.shiftLeft_xor_distrib]
  cases a.msb <;> cases b.msb <;> simp only [Bool.xor_false, Bool.xor_true, Bool.not_false, Bool.not_true, if_true,
    Bool.false_eq_true, if_false]
  · ac_rfl
  · ac_rfl
  · exact (xor_xor_cancel _ _ _).symm

theorem gmulLoop_acc (k : Nat) (a b r : Byte) : gmulLoop g k a b r = gmulLoop g k a b 0 ^^^ r := by
  induction k generalizing a b r with
  | zero => simp [gmulLoop]
  | succ k ih =>
    rw [gmulLoop, gmulLoop, ih, ih _ _ (if b.getLsbD 0 = true then 0 ^^^ a else 0)]
    cases b.getLsbD 0 <;> simp
    ac_rfl

theorem gmulLoop_xor_left (k : Nat) (a a' b : Byte) :
    gmulLoop g k (a ^^^ a') b 0 = gmulLoop g k a b 0 ^^^ gmulLoop g k a' b 0 := by
  induction k generalizing a a' b with
  | zero => simp [gmulLoop]
  | succ k ih =>
    simp only [gmulLoop]
    rw [gmulLoop_acc, gmulLoop_acc _ (gfDouble g a), gmulLoop_acc _ (gfDouble g a'), gfDouble_xor, ih]
    cases b.getLsbD 0 <;> simp
    ac_rfl

theorem gmulLoop_xor_right (k : Nat) (a b b' : Byte) :
    gmulLoop g k a (b ^^^ b') 0 = gmulLoop g k a b 0 ^^^ gmulLoop g k a b' 0 := by
  induction k generalizing a b b' with
  | zero => simp [gmulLoop]
  | succ k ih =>
    simp only [gmulLoop]
    rw [gmulLoop_acc, gmulLoop_acc _ _ (b >>> 1), gmulLoop_acc _ _ (b' >>> 1), BitVec.ushiftRight_xor_distrib, ih,
      BitVec.getLsbD_xor]
    cases b.getLsbD 0 <;> cases b'.getLsbD 0 <;> simp
    · ac_rfl
    · ac_rfl
    · exact (xor_xor_cancel _ _ _).symm

/-- The product is linear in its first factor. -/
theorem gmul_xor_left (a a' b : Byte) : gmul g (a ^^^ a') b = gmul g a b ^^^ gmul g a' b := gmulLoop_xor_left _ _ _ _

/-- The product is linear in its second factor. -/
theorem gmul_xor_right (a b b' : Byte) : gmul g a (b ^^^ b') = gmul g a b ^^^ gmul g a b' := gmulLoop_xor_right _ _ _ _

theorem gmulLoop_double (k : Nat) (a b : Byte) : gmulLoop g k (gfDouble g a) b 0 = gfDouble g (gmulLoop g k a b 0) := by
  induction k generalizing a b with
  | zero => simp [gmulLoop, gfDouble]
  | succ k ih =>
    simp only [gmulLoop]
    rw [gmulLoop_acc, gmulLoop_acc _ (gfDouble g a), ih, gfDouble_xor]
    cases b.getLsbD 0 <;> simp [gfDouble]

/-- Doubling the first factor doubles the product. -/
theorem gmul_gfDouble (a b : Byte) : gmul g (gfDouble g a) b = gfDouble g (gmul g a b) := gmulLoop_double _ _ _

/-! ## Matrices -/

@[simp] theorem matMul_length (k c : Nat) (a b : List (List Byte)) : (matMul g k c a b).length = a.length := by
  simp [matMul]

theorem matMul_row_length {k c : Nat} {a b : List (List Byte)} : ∀ row ∈ matMul g k c a b, row.length = c := by
  simp [matMul]

theorem entry_matMul (k c : Nat) (a b : List (List Byte)) (i j : Nat) (hi : i < a.length) (hj : j < c) :
    entry (matMul g k c a b) i j = dot g k (fun l => entry a i l) (fun l => entry b l j) := by
  simp [entry, matMul, hi, hj]

theorem entry_of_lt {m : List (List Byte)} {i j : Nat} (hi : i < m.length) (hj : j < m[i].length) :
    entry m i j = m[i][j] := by
  simp [entry, hi, hj]

/-- Two matrices of one shape with the same entries are equal. -/
theorem matrix_ext {m m' : List (List Byte)} {c : Nat} (hl : m.length = m'.length)
    (h : ∀ row ∈ m, row.length = c) (h' : ∀ row ∈ m', row.length = c)
    (he : ∀ i j, i < m.length → j < c → entry m i j = entry m' i j) : m = m' := by
  refine List.ext_getElem hl fun i h1 h2 => List.ext_getElem ?_ fun j h3 h4 => ?_
  · rw [h _ (List.getElem_mem h1), h' _ (List.getElem_mem h2)]
  · have := he i j h1 (by rwa [h _ (List.getElem_mem h1)] at h3)
    rwa [entry_of_lt h1 h3, entry_of_lt h2 h4] at this

theorem dot_congr {k : Nat} {x x' y y' : Nat → Byte} (hx : ∀ i < k, x i = x' i) (hy : ∀ i < k, y i = y' i) :
    dot g k x y = dot g k x' y' := by
  induction k with
  | zero => rfl
  | succ k ih =>
    have e := ih (fun i hi => hx i (by omega)) (fun i hi => hy i (by omega))
    unfold dot at e ⊢
    rw [List.range_succ, List.foldl_append, List.foldl_append, e]
    simp [hx k (by omega), hy k (by omega)]

/-! ## The code -/

@[simp] theorem vandermonde_length (n ds : Nat) : (vandermonde g n ds).length = n := by simp [vandermonde]

@[simp] theorem genMatrix_length (ds ps : Nat) : (genMatrix g ds ps).length = ds + ps := by simp [genMatrix]

theorem genMatrix_row_length {ds ps : Nat} : ∀ row ∈ genMatrix g ds ps, row.length = ds := matMul_row_length

@[simp] theorem rsParity_length (ds ps cs : Nat) (d : List (List Byte)) : (rsParity g ds ps cs d).length = ps := by
  simp [rsParity]

theorem rsParity_row_length {ds ps cs : Nat} {d : List (List Byte)} :
    ∀ row ∈ rsParity g ds ps cs d, row.length = cs :=
  matMul_row_length

/-- An entry of a parity row (R191). -/
theorem entry_rsParity (ds ps cs : Nat) (d : List (List Byte)) (p b : Nat) (hp : p < ps) (hb : b < cs) :
    entry (rsParity g ds ps cs d) p b =
      dot g ds (fun l => entry (genMatrix g ds ps) (ds + p) l) (fun l => entry d l b) := by
  rw [rsParity, entry_matMul _ _ _ _ _ _ (by simp; omega) hb]
  simp [entry, List.getElem?_drop]

@[simp] theorem rsEncode_length (ds ps cs : Nat) (d : List (List Byte)) :
    (rsEncode g ds ps cs d).length = d.length + ps := by simp [rsEncode]

theorem rsEncode_row_length {ds ps cs : Nat} {d : List (List Byte)} (h : ∀ row ∈ d, row.length = cs) :
    ∀ row ∈ rsEncode g ds ps cs d, row.length = cs := by
  intro row hr
  rcases List.mem_append.1 hr with hr | hr
  · exact h row hr
  · exact rsParity_row_length row hr

/-- Reconstruction answers exactly when enough rows are available (R192). -/
theorem rsData_eq_none {ds ps cs : Nat} {w : List (List Byte)} {a : List Nat} :
    rsData g ds ps cs w a = none ↔ a.length < ds := by
  unfold rsData
  split <;> simp_all

theorem rsData_length {ds ps cs : Nat} {w d : List (List Byte)} {a : List Nat} (h : rsData g ds ps cs w a = some d) :
    d.length = ds := by
  unfold rsData at h
  split at h
  · cases h
  · simp only [Option.some.injEq] at h
    rw [← h]; simp

@[simp] theorem eliminate_length (m : List (List Byte)) (c : Nat) : (eliminate g m c).length = m.length := by
  unfold eliminate
  split <;> simp

@[simp] theorem matInv_length (d : Nat) (m : List (List Byte)) : (matInv g d m).length = min m.length d := by
  have key : ∀ (l : List Nat) (x : List (List Byte)), (l.foldl (eliminate g) x).length = x.length := by
    intro l
    induction l with
    | nil => intro x; rfl
    | cons c cs ih => intro x; rw [List.foldl_cons, ih, eliminate_length]
  simp [matInv, key, identityRows]

theorem rsData_row_length {ds ps cs : Nat} {w d : List (List Byte)} {a : List Nat} (hw : ds ≤ w.length)
    (hrow : ∀ row ∈ w, row.length = cs) (h : rsData g ds ps cs w a = some d) : ∀ row ∈ d, row.length = cs := by
  unfold rsData at h
  split at h
  · cases h
  rename_i ha
  simp only [Option.some.injEq] at h
  subst h
  intro row hr
  simp only [List.mem_map, List.mem_range] at hr
  obtain ⟨i, hi, rfl⟩ := hr
  split
  · have : i < w.length := by omega
    simpa [List.getD_eq_getElem?_getD, this] using hrow _ (List.getElem_mem this)
  · generalize hm : matMul g ds cs (matInv g ds ((a.take ds).map fun i => (genMatrix g ds ps).getD i []))
        ((a.take ds).map fun i => w.getD i []) = m
    have hlen : i < m.length := by
      rw [← hm, matMul_length, matInv_length, List.length_map, List.length_take]; omega
    have hr := List.getElem_mem hlen
    have hrow' : ∀ row ∈ m, row.length = cs := by rw [← hm]; exact matMul_row_length
    rw [List.getD_eq_getElem?_getD, List.getElem?_eq_getElem hlen]
    exact hrow' _ hr

/-! ## Rows one after another -/

theorem flatten_length {m : List (List Byte)} {c : Nat} (h : ∀ row ∈ m, row.length = c) :
    m.flatten.length = m.length * c := by
  induction m with
  | nil => simp
  | cons r m ih =>
    rw [List.flatten_cons, List.length_append, ih fun row hr => h row (List.mem_cons_of_mem _ hr),
      h r List.mem_cons_self, List.length_cons, Nat.succ_mul, Nat.add_comm]

/-- Byte `i * c + j` of the rows one after another is entry `(i, j)`. -/
theorem flatten_getD {m : List (List Byte)} {c : Nat} (h : ∀ row ∈ m, row.length = c) (i j : Nat) (hj : j < c) :
    m.flatten.getD (i * c + j) 0 = entry m i j := by
  induction m generalizing i with
  | nil => simp [entry]
  | cons r m ih =>
    have hr := h r List.mem_cons_self
    rw [List.flatten_cons]
    cases i with
    | zero =>
      rw [List.getD_eq_getElem?_getD, List.getElem?_append_left (by omega)]
      simp [entry, List.getD_eq_getElem?_getD]
    | succ i =>
      rw [List.getD_eq_getElem?_getD, List.getElem?_append_right (by rw [Nat.succ_mul]; omega),
        show (i + 1) * c + j - r.length = i * c + j by rw [Nat.succ_mul]; omega, ← List.getD_eq_getElem?_getD,
        ih (fun row hr => h row (List.mem_cons_of_mem _ hr))]
      simp [entry]

theorem rsPayload_length {ds cs pad : Nat} {d : List (List Byte)} (hd : d.length = ds)
    (h : ∀ row ∈ d, row.length = cs) : (rsPayload ds cs pad d).length = ds * cs - pad := by
  rw [rsPayload, List.length_take, flatten_length h, hd]
  omega

/-- Byte `k` of a payload (R194). -/
theorem rsPayload_getD {ds cs pad : Nat} {d : List (List Byte)} (h : ∀ row ∈ d, row.length = cs) (k : Nat)
    (hk : k < ds * cs - pad) : (rsPayload ds cs pad d).getD k 0 = entry d (k / cs) (k % cs) := by
  have hc : 0 < cs := by
    rcases Nat.eq_zero_or_pos cs with rfl | hc
    · simp at hk
    · exact hc
  rw [← flatten_getD h _ _ (Nat.mod_lt _ hc), rsPayload, Nat.div_add_mod']
  simp [List.getD_eq_getElem?_getD, hk]

/-! ## The rows of SHARDMEM -/

variable (s : State)

theorem shardRows_row_length (n cs : Nat) : ∀ row ∈ s.shardRows n cs, row.length = cs := by
  simp [State.shardRows]

theorem entry_shardRows (n cs i b : Nat) (hi : i < n) (hb : b < cs) :
    entry (s.shardRows n cs) i b = s.shardAt (i * cs + b) := by
  simp [entry, State.shardRows, State.shards, hi, hb]

theorem mem_erased {n i : Nat} : i ∈ s.erased n ↔ i < n ∧ s.rowErased i := by
  simp [State.erased, State.rowErased, State.isPresent]

theorem mem_available {n i : Nat} : i ∈ s.available n ↔ i < n ∧ ¬ s.rowErased i := by
  simp only [State.available, State.rowErased, State.isPresent, List.mem_filter, List.mem_range]
  cases s.present.getLsbD i <;> simp

/-- Filling rows with rows of `cs` bytes: a byte of a filled row is the entry, every other byte is as before (R196, R197). -/
theorem shardAt_fillRows (cs : Nat) (m : List (List Byte)) (is : List Nat) (hrow : ∀ row ∈ m, row.length = cs)
    (his : ∀ i ∈ is, i < m.length) (k : Nat) :
    (s.fillRows cs m is).shardAt k =
      if k / cs ∈ is ∧ 0 < cs then entry m (k / cs) (k % cs) else s.shardAt k := by
  induction is generalizing s with
  | nil => simp [State.fillRows]
  | cons i is ih =>
    have hi : i < m.length := his i List.mem_cons_self
    have hlen : (m.getD i []).length = cs := by
      simpa [List.getD_eq_getElem?_getD, hi] using hrow _ (List.getElem_mem hi)
    have e : s.fillRows cs m (i :: is) = (s.setShards (i * cs) (m.getD i [])).fillRows cs m is := rfl
    rw [e, ih _ fun j hj => his j (List.mem_cons_of_mem _ hj)]
    by_cases hc : 0 < cs
    · by_cases hk : k / cs ∈ is
      · simp [hk, hc]
      · rw [if_neg (by tauto), shardAt_setShards]
        by_cases hik : k / cs = i
        · have h1 := Nat.div_add_mod' k cs
          have h2 := Nat.mod_lt k hc
          rw [hik] at h1
          rw [dif_pos (by rw [hlen]; omega), if_pos ⟨by rw [hik]; exact List.mem_cons_self, hc⟩, hik]
          have h3 : k - i * cs = k % cs := by omega
          simp only [entry, h3]
          rw [List.getD_eq_getElem?_getD (l := m.getD i []), List.getElem?_eq_getElem (by rw [hlen]; exact h2)]
          rfl
        · rw [dif_neg, if_neg (by simp [hik, hk])]
          rintro ⟨ha, hb⟩
          rw [hlen] at hb
          exact hik (Nat.div_eq_of_lt_le ha (by rw [Nat.succ_mul]; omega))
    · rw [if_neg (by tauto), if_neg (by tauto), shardAt_setShards, dif_neg (by rw [hlen]; omega)]

theorem fillRows_wf {cs : Nat} {m : List (List Byte)} {is : List Nat} (h : Memory.wf s.shardMem) :
    Memory.wf (s.fillRows cs m is).shardMem := by
  induction is generalizing s with
  | nil => exact h
  | cons i is ih => exact ih (s.setShards (i * cs) (m.getD i [])) (writeCells_wf h _ _)

theorem fillRows_within {cs cap : Nat} {m : List (List Byte)} {is : List Nat} (hrow : ∀ row ∈ m, row.length = cs)
    (his : ∀ i ∈ is, i < m.length) (hcap : m.length * cs ≤ cap) (h : Memory.within cap s.shardMem) :
    Memory.within cap (s.fillRows cs m is).shardMem := by
  induction is generalizing s with
  | nil => exact h
  | cons i is ih =>
    refine ih (s.setShards (i * cs) (m.getD i [])) (fun j hj => his j (List.mem_cons_of_mem _ hj))
      (writeCells_within h ?_)
    have hi : i < m.length := his i List.mem_cons_self
    have hlen : (m.getD i []).length = cs := by
      simpa [List.getD_eq_getElem?_getD, hi] using hrow _ (List.getElem_mem hi)
    rw [hlen, ← Nat.succ_mul]
    exact le_trans (Nat.mul_le_mul_right _ hi) hcap

end Sys2Proof.Machine
end

