-- ==== Sys2Proof/Laws/Buffers.lean ====
section
/-! SUPPORT. Every operation that writes a buffer keeps the three buffers canonical and within their capacities (10_state.md
R39, `State.buffersOK`), given that what it writes fits. -/

namespace Sys2Proof.Machine

variable {s u : State}

theorem buffersOK_of_eq (h : s.buffersOK) (h1 : u.cfg = s.cfg) (h2 : u.byteBuf = s.byteBuf)
    (h3 : u.shardMem = s.shardMem) (h4 : u.bitBuf = s.bitBuf) : u.buffersOK := by
  unfold State.buffersOK at *
  rw [h1, h2, h3, h4]
  exact h

theorem buffersOK_putBytes (h : s.buffersOK) {b : List Byte} (hb : b.length ≤ s.cfg.byteCap) :
    (s.putBytes b).buffersOK := by
  obtain ⟨h1, h2, h3⟩ := h
  exact ⟨writeCells_wf h1 _ _, writeCells_within h2 (by simpa using hb), h3⟩

theorem buffersOK_putBits (h : s.buffersOK) {b : List Bool} (hb : b.length ≤ s.cfg.bitCap) :
    (s.putBits b).buffersOK := by
  obtain ⟨h1, h2, h3, h4, h5, h6⟩ := h
  exact ⟨h1, h2, h3, h4, writeCells_wf h5 _ _, writeCells_within h6 (by simpa using hb)⟩

theorem buffersOK_setShards (h : s.buffersOK) {a : Nat} {b : List Byte} (hb : a + b.length ≤ s.cfg.shardCap) :
    (s.setShards a b).buffersOK := by
  obtain ⟨h1, h2, h3, h4, h5, h6⟩ := h
  exact ⟨h1, h2, writeCells_wf h3 _ _, writeCells_within h4 hb, h5, h6⟩

theorem buffersOK_setByte (h : s.buffersOK) {a : Nat} {b : Byte} (hb : a < s.cfg.byteCap) :
    (s.setByte a b).buffersOK := by
  obtain ⟨h1, h2, h3⟩ := h
  exact ⟨writeCells_wf h1 _ _, writeCells_within h2 (by simp; omega), h3⟩

theorem buffersOK_setBit (h : s.buffersOK) {a : Nat} {b : Bool} (hb : a < s.cfg.bitCap) :
    (s.setBit a b).buffersOK := by
  obtain ⟨h1, h2, h3, h4, h5, h6⟩ := h
  exact ⟨h1, h2, h3, h4, writeCells_wf h5 _ _, writeCells_within h6 (by simp; omega)⟩

theorem buffersOK_fillRows {cs : Nat} {m : List (List Byte)} {is : List Nat} (hrow : ∀ row ∈ m, row.length = cs)
    (his : ∀ i ∈ is, i < m.length) (hcap : m.length * cs ≤ s.cfg.shardCap) (h : s.buffersOK) :
    (s.fillRows cs m is).buffersOK := by
  obtain ⟨h1, h2, h3, h4, h5, h6⟩ := h
  exact ⟨h1, h2, fillRows_wf s h3, fillRows_within s hrow his hcap h4, h5, h6⟩

/-- The bits of a mask lie inside `lowmask(n)` when the rows it lists are below `n`. -/
theorem maskOf_and_lowmaskWord {n : Nat} {l : List Nat} (h : ∀ i ∈ l, i < n) :
    maskOf l &&& lowmaskWord n = maskOf l := by
  apply BitVec.eq_of_getLsbD_eq
  intro i hi
  rw [BitVec.getLsbD_and, maskOf_getLsbD _ _ hi, lowmaskWord_getLsbD _ _ hi]
  by_cases hm : i ∈ l
  · simp [hm, h i hm]
  · simp [hm]

end Sys2Proof.Machine
end

