-- ==== Sys2Proof/Laws/Exec.lean ====
section
/-! SUPPORT. Which shared operation each command runs, for one command and for a family by CRC width and position. -/

namespace Sys2Proof.Machine

variable (s : State)

theorem exec_nop : exec .nop s = execNop s := rfl
theorem exec_b2bit : exec .b2bit s = execB2bit s := rfl
theorem exec_bit2b : exec .bit2b s = execBit2b s := rfl
theorem exec_chunk : exec .chunk s = execChunk s := rfl
theorem exec_flat : exec .flat s = execFlat s := rfl
theorem exec_unflat : exec .unflat s = execUnflat s := rfl
theorem exec_rsenc : exec .rsenc s = execRsenc s := rfl
theorem exec_rsdecf : exec .rsdecf s = execRsdecf s := rfl
theorem exec_rsdecd : exec .rsdecd s = execRsdecd s := rfl
theorem exec_patgen : exec .patgen s = execPatgen s := rfl
theorem exec_vinit : exec .vinit s = execVinit s := rfl
theorem exec_venc : exec .venc s = execVenc s := rfl
theorem exec_vdec : exec .vdec s = execVdec s := rfl
theorem exec_bsetBit : exec .bsetBit s = bitCommand (fun _ => true) s := rfl
theorem exec_bclrBit : exec .bclrBit s = bitCommand (fun _ => false) s := rfl
theorem exec_bflipBit : exec .bflipBit s = bitCommand (fun b => !b) s := rfl
theorem exec_bsetByte : exec .bsetByte s = byteCommand (fun b p => b ||| p) s := rfl
theorem exec_bclrByte : exec .bclrByte s = byteCommand (fun b p => b &&& ~~~p) s := rfl
theorem exec_bflipByte : exec .bflipByte s = byteCommand (fun b p => b ^^^ p) s := rfl
theorem exec_ilv : exec .ilv s = interleave s := rfl
theorem exec_dilv : exec .dilv s = interleave s := rfl

theorem exec_crcgenOf (w : CrcWidth) : exec (crcgenOf w) s = crcGenerate w s := by cases w <;> rfl
theorem exec_crcencOf (w : CrcWidth) (pos : EnvPos) : exec (crcencOf w pos) s = crcEncode w pos s := by
  cases w <;> cases pos <;> rfl
theorem exec_crcchkOf (w : CrcWidth) (pos : EnvPos) : exec (crcchkOf w pos) s = crcCheck w pos s := by
  cases w <;> cases pos <;> rfl
theorem exec_searchOf (w : CrcWidth) (pos : EnvPos) : exec (searchOf w pos) s = searchDecode w pos s := by
  cases w <;> cases pos <;> rfl

/-- Every command is one of the thirteen with a meaning of their own, a single-bit command, a CRC command, an interleaving
or a search: to show something of every command, show it of these. -/
theorem exec_cases {P : Instr → Host.Outcome State Fault Refusal → Prop}
    (nop : P .nop (execNop s)) (b2bit : P .b2bit (execB2bit s)) (bit2b : P .bit2b (execBit2b s))
    (bsetBit : P .bsetBit (bitCommand (fun _ => true) s)) (bsetByte : P .bsetByte (byteCommand (fun b p => b ||| p) s))
    (bclrBit : P .bclrBit (bitCommand (fun _ => false) s))
    (bclrByte : P .bclrByte (byteCommand (fun b p => b &&& ~~~p) s))
    (bflipBit : P .bflipBit (bitCommand (fun b => !b) s)) (bflipByte : P .bflipByte (byteCommand (fun b p => b ^^^ p) s))
    (crcgen : ∀ w, P (crcgenOf w) (crcGenerate w s)) (crcenc : ∀ w pos, P (crcencOf w pos) (crcEncode w pos s))
    (crcchk : ∀ w pos, P (crcchkOf w pos) (crcCheck w pos s))
    (chunk : P .chunk (execChunk s)) (flat : P .flat (execFlat s)) (unflat : P .unflat (execUnflat s))
    (rsenc : P .rsenc (execRsenc s)) (rsdecf : P .rsdecf (execRsdecf s)) (rsdecd : P .rsdecd (execRsdecd s))
    (ilv : P .ilv (interleave s)) (dilv : P .dilv (interleave s)) (patgen : P .patgen (execPatgen s))
    (search : ∀ w pos, P (searchOf w pos) (searchDecode w pos s))
    (vinit : P .vinit (execVinit s)) (venc : P .venc (execVenc s)) (vdec : P .vdec (execVdec s)) :
    ∀ i, P i (exec i s)
  | .nop => nop
  | .b2bit => b2bit
  | .bit2b => bit2b
  | .bsetBit => bsetBit
  | .bsetByte => bsetByte
  | .bclrBit => bclrBit
  | .bclrByte => bclrByte
  | .bflipBit => bflipBit
  | .bflipByte => bflipByte
  | .crcgen8 => crcgen .w8
  | .crcgen16 => crcgen .w16
  | .crcgen32 => crcgen .w32
  | .crcenc8Suf => crcenc .w8 .suf
  | .crcenc16Suf => crcenc .w16 .suf
  | .crcenc32Suf => crcenc .w32 .suf
  | .crcenc8Pre => crcenc .w8 .pre
  | .crcenc16Pre => crcenc .w16 .pre
  | .crcenc32Pre => crcenc .w32 .pre
  | .crcchk8Suf => crcchk .w8 .suf
  | .crcchk16Suf => crcchk .w16 .suf
  | .crcchk32Suf => crcchk .w32 .suf
  | .crcchk8Pre => crcchk .w8 .pre
  | .crcchk16Pre => crcchk .w16 .pre
  | .crcchk32Pre => crcchk .w32 .pre
  | .chunk => chunk
  | .flat => flat
  | .unflat => unflat
  | .rsenc => rsenc
  | .rsdecf => rsdecf
  | .rsdecd => rsdecd
  | .ilv => ilv
  | .dilv => dilv
  | .patgen => patgen
  | .search8Suf => search .w8 .suf
  | .search16Suf => search .w16 .suf
  | .search32Suf => search .w32 .suf
  | .search8Pre => search .w8 .pre
  | .search16Pre => search .w16 .pre
  | .search32Pre => search .w32 .pre
  | .vinit => vinit
  | .venc => venc
  | .vdec => vdec

end Sys2Proof.Machine
end

