-- ==== Sys2Proof/Laws/HostPort.lean ====
section
/-! SUPPORT. What the operations of the host port can do (20_memory.md R71 to R80): where an address leads, the symbols of BITBUF,
and what a read and a write can change. -/

namespace Sys2Proof.Machine

/-- A byte carried in the low 8 bits of a word is that byte. -/
@[simp] theorem setWidth_setWidth_byte (v : Byte) : (v.setWidth 32 : Word).setWidth 8 = v := by
  apply BitVec.eq_of_getLsbD_eq
  intro i hi
  simp

/-- An address inside the block's span is aimed at by its offset (R72). -/
theorem busTarget_base (c : Config) (off w : Nat) (h : off < c.map.span) :
    busTarget c (c.base + off) w = offsetTarget c off w := by
  unfold busTarget
  rw [if_neg (by omega), Nat.add_sub_cancel_left]

/-- The symbol a bit reads as is the symbol that writes it (R76). -/
theorem symbolBit_bitSymbol (view : BitView) (b : Bool) : symbolBit view (bitSymbol view b) = some b := by
  cases view <;> cases b <;> rfl

/-- Every other byte is no symbol (R76). -/
theorem symbolBit_eq_none {view : BitView} {v : Byte} (h0 : v ≠ bitSymbol view false) (h1 : v ≠ bitSymbol view true) :
    symbolBit view v = none := by
  simp [symbolBit, h0, h1]

/-- An offset of a window lies in it, at its place (R72). -/
theorem inWindow_add {start size k : Nat} (h : k < size) : inWindow start size (start + k) = some k := by
  unfold inWindow
  rw [if_pos (by omega), Nat.add_sub_cancel_left]

/-- An offset of one window lies in no window apart from it (R72). -/
theorem inWindow_apart {x y : Nat × Nat} (h : apart x y = true) {k : Nat} (hk : k < y.2) :
    inWindow x.1 x.2 (y.1 + k) = none := by
  simp only [apart, Bool.or_eq_true, decide_eq_true_eq] at h
  exact if_neg (by omega)

/-- What is well formed about an address map: the registers are aligned, every window lies in the span, and any two windows are
apart. -/
theorem map_of_wellFormed {c : Config} (h : c.wellFormed = true) :
    c.map.regs % 4 = 0 ∧ (∀ x ∈ c.windows, x.1 + x.2 ≤ c.map.span) ∧ c.windows.Pairwise fun x y => apart x y = true := by
  simp only [Config.wellFormed, Bool.and_eq_true, decide_eq_true_eq, List.all_eq_true] at h
  exact ⟨h.1.1.2, h.1.2, h.2⟩

/-- Acceptance of a word that is a command (10_state.md R23). -/
theorem acceptWord_of_ok {s : State} {w : Word} {i : Instr} (h : decode w = .ok i) : s.acceptWord w = s.accept w := by
  simp [State.acceptWord, h]

/-- Acceptance of a word that is no command: it ends at once (30_encoding.md R106). -/
theorem acceptWord_of_illegal {s : State} {w : Word} (h : ∀ i, decode w ≠ .ok i) :
    s.acceptWord w = (s.accept w).complete Err.illegalCommand.code := by
  unfold State.acceptWord
  cases hd : decode w with
  | ok i => exact absurd hd (h i)
  | error e => rfl

/-- What a host read can change: the value read, the count of unspecified values, and HERR (R78, R79). -/
theorem hostRead_frame (s : State) (t : Target) (width : Nat) :
    s.hostRead t width =
      { s with
        readData := (s.hostRead t width).readData, draws := (s.hostRead t width).draws
        status := (s.hostRead t width).status } ∧
    ((s.hostRead t width).status = s.status ∨ (s.hostRead t width).status = violatedStatus s.status) := by
  unfold State.hostRead
  split
  · exact ⟨rfl, .inl rfl⟩
  · exact ⟨rfl, .inr rfl⟩
  · exact ⟨rfl, .inl rfl⟩
  all_goals split <;> exact ⟨rfl, .inl rfl⟩

/-- Everything a host write can do (R71, R79). -/
theorem hostWrite_cases (s : State) (t : Target) (v : Word) :
    (t = .outside ∧ s.hostWrite t v = s) ∨
    s.hostWrite t v = s.violation ∨
    (s.busy = false ∧ ∃ r, t = .reg r ∧ s.hostWrite t v = s.writeReg r v) ∨
    (s.busy = false ∧ ∃ i, t = .byte .byteBuf i ∧ s.hostWrite t v = s.setByte i (v.setWidth 8)) ∨
    (s.busy = false ∧ ∃ i, t = .byte .shardMem i ∧ s.hostWrite t v = s.setShards i [v.setWidth 8]) ∨
    (s.busy = false ∧ ∃ view i b, t = .bit view i ∧ symbolBit view (v.setWidth 8) = some b ∧
      s.hostWrite t v = s.setBit i b) := by
  unfold State.hostWrite
  split
  · exact .inl ⟨rfl, rfl⟩
  · exact .inr (.inl rfl)
  · split
    · exact .inr (.inl rfl)
    · exact .inr (.inr (.inl ⟨by simp_all, _, rfl, rfl⟩))
  · split
    · exact .inr (.inl rfl)
    · exact .inr (.inr (.inr (.inl ⟨by simp_all, _, rfl, rfl⟩)))
  · split
    · exact .inr (.inl rfl)
    · exact .inr (.inr (.inr (.inr (.inl ⟨by simp_all, _, rfl, rfl⟩))))
  · split
    · exact .inr (.inl rfl)
    · split
      · rename_i h
        exact .inr (.inr (.inr (.inr (.inr ⟨by simp_all, _, _, _, rfl, h, rfl⟩))))
      · exact .inr (.inl rfl)

end Sys2Proof.Machine
end

