-- ==== Sys2Proof/Laws/PerInstr.lean ====
section
/-! SUPPORT. Statements about every command as syntax, one lemma per constructor of Instr. -/

namespace Sys2Proof.Laws.EncodingFields

/-- The command is well formed, its word decodes to it, and the word's three fields are the command's OPCODE, its SEL and
zero (30_encoding.md R100 to R105). -/
def Statement (i : Instr) : Prop :=
  i.wellFormed = true ∧ decode (encode i) = .ok i ∧ decodeTableWord 32 (encode i).toNat = some i ∧
  opcodeField (encode i) = opcodeOf i ∧ selField (encode i) = selectorOf i ∧ zeroField (encode i) = 0

theorem nop : Statement .nop := ⟨rfl, rfl, rfl, rfl, rfl, rfl⟩
theorem b2bit : Statement .b2bit := ⟨rfl, rfl, rfl, rfl, rfl, rfl⟩
theorem bit2b : Statement .bit2b := ⟨rfl, rfl, rfl, rfl, rfl, rfl⟩
theorem bsetBit : Statement .bsetBit := ⟨rfl, rfl, rfl, rfl, rfl, rfl⟩
theorem bsetByte : Statement .bsetByte := ⟨rfl, rfl, rfl, rfl, rfl, rfl⟩
theorem bclrBit : Statement .bclrBit := ⟨rfl, rfl, rfl, rfl, rfl, rfl⟩
theorem bclrByte : Statement .bclrByte := ⟨rfl, rfl, rfl, rfl, rfl, rfl⟩
theorem bflipBit : Statement .bflipBit := ⟨rfl, rfl, rfl, rfl, rfl, rfl⟩
theorem bflipByte : Statement .bflipByte := ⟨rfl, rfl, rfl, rfl, rfl, rfl⟩
theorem crcgen8 : Statement .crcgen8 := ⟨rfl, rfl, rfl, rfl, rfl, rfl⟩
theorem crcgen16 : Statement .crcgen16 := ⟨rfl, rfl, rfl, rfl, rfl, rfl⟩
theorem crcgen32 : Statement .crcgen32 := ⟨rfl, rfl, rfl, rfl, rfl, rfl⟩
theorem crcenc8Suf : Statement .crcenc8Suf := ⟨rfl, rfl, rfl, rfl, rfl, rfl⟩
theorem crcenc16Suf : Statement .crcenc16Suf := ⟨rfl, rfl, rfl, rfl, rfl, rfl⟩
theorem crcenc32Suf : Statement .crcenc32Suf := ⟨rfl, rfl, rfl, rfl, rfl, rfl⟩
theorem crcenc8Pre : Statement .crcenc8Pre := ⟨rfl, rfl, rfl, rfl, rfl, rfl⟩
theorem crcenc16Pre : Statement .crcenc16Pre := ⟨rfl, rfl, rfl, rfl, rfl, rfl⟩
theorem crcenc32Pre : Statement .crcenc32Pre := ⟨rfl, rfl, rfl, rfl, rfl, rfl⟩
theorem crcchk8Suf : Statement .crcchk8Suf := ⟨rfl, rfl, rfl, rfl, rfl, rfl⟩
theorem crcchk16Suf : Statement .crcchk16Suf := ⟨rfl, rfl, rfl, rfl, rfl, rfl⟩
theorem crcchk32Suf : Statement .crcchk32Suf := ⟨rfl, rfl, rfl, rfl, rfl, rfl⟩
theorem crcchk8Pre : Statement .crcchk8Pre := ⟨rfl, rfl, rfl, rfl, rfl, rfl⟩
theorem crcchk16Pre : Statement .crcchk16Pre := ⟨rfl, rfl, rfl, rfl, rfl, rfl⟩
theorem crcchk32Pre : Statement .crcchk32Pre := ⟨rfl, rfl, rfl, rfl, rfl, rfl⟩
theorem chunk : Statement .chunk := ⟨rfl, rfl, rfl, rfl, rfl, rfl⟩
theorem flat : Statement .flat := ⟨rfl, rfl, rfl, rfl, rfl, rfl⟩
theorem unflat : Statement .unflat := ⟨rfl, rfl, rfl, rfl, rfl, rfl⟩
theorem rsenc : Statement .rsenc := ⟨rfl, rfl, rfl, rfl, rfl, rfl⟩
theorem rsdecf : Statement .rsdecf := ⟨rfl, rfl, rfl, rfl, rfl, rfl⟩
theorem rsdecd : Statement .rsdecd := ⟨rfl, rfl, rfl, rfl, rfl, rfl⟩
theorem ilv : Statement .ilv := ⟨rfl, rfl, rfl, rfl, rfl, rfl⟩
theorem dilv : Statement .dilv := ⟨rfl, rfl, rfl, rfl, rfl, rfl⟩
theorem patgen : Statement .patgen := ⟨rfl, rfl, rfl, rfl, rfl, rfl⟩
theorem search8Suf : Statement .search8Suf := ⟨rfl, rfl, rfl, rfl, rfl, rfl⟩
theorem search16Suf : Statement .search16Suf := ⟨rfl, rfl, rfl, rfl, rfl, rfl⟩
theorem search32Suf : Statement .search32Suf := ⟨rfl, rfl, rfl, rfl, rfl, rfl⟩
theorem search8Pre : Statement .search8Pre := ⟨rfl, rfl, rfl, rfl, rfl, rfl⟩
theorem search16Pre : Statement .search16Pre := ⟨rfl, rfl, rfl, rfl, rfl, rfl⟩
theorem search32Pre : Statement .search32Pre := ⟨rfl, rfl, rfl, rfl, rfl, rfl⟩
theorem vinit : Statement .vinit := ⟨rfl, rfl, rfl, rfl, rfl, rfl⟩
theorem venc : Statement .venc := ⟨rfl, rfl, rfl, rfl, rfl, rfl⟩
theorem vdec : Statement .vdec := ⟨rfl, rfl, rfl, rfl, rfl, rfl⟩

end Sys2Proof.Laws.EncodingFields
end

