-- ==== Sys2Proof/Laws/Search.lean ====
section
/-! SUPPORT. What the search of 45_search_decoder.md R234 finds: the first index at which an attempt answers. -/

namespace Sys2Proof.Machine

/-- `firstFrom f k j` answers the first of the indices `j .. j+k-1` at which `f` answers, and nothing when there is none. -/
theorem firstFrom_spec {α : Type} (f : Nat → Option α) (k j : Nat) :
    (∀ r, firstFrom f k j = some r → j ≤ r.1 ∧ r.1 < j + k ∧ f r.1 = some r.2 ∧ ∀ i, j ≤ i → i < r.1 → f i = none) ∧
    (firstFrom f k j = none → ∀ i, j ≤ i → i < j + k → f i = none) := by
  induction k generalizing j with
  | zero => exact ⟨fun r h => (by cases h), fun _ i h1 h2 => by omega⟩
  | succ k ih =>
    unfold firstFrom
    split
    · rename_i a ha
      refine ⟨fun r h => ?_, fun h => by cases h⟩
      simp only [Option.some.injEq] at h
      subst h
      exact ⟨Nat.le_refl _, by simp, ha, fun i h1 h2 => by simp at h2; omega⟩
    · rename_i hn
      refine ⟨fun r h => ?_, fun h i h1 h2 => ?_⟩
      · obtain ⟨a, b, c, d⟩ := (ih (j + 1)).1 r h
        refine ⟨by omega, by omega, c, fun i h1 h2 => ?_⟩
        rcases Nat.eq_or_lt_of_le h1 with rfl | h1
        · exact hn
        · exact d i h1 h2
      · rcases Nat.eq_or_lt_of_le h1 with rfl | h1
        · exact hn
        · exact (ih (j + 1)).2 h i h1 (by omega)

theorem firstFrom_eq_none {α : Type} {f : Nat → Option α} {k : Nat} :
    firstFrom f k 0 = none ↔ ∀ j < k, f j = none := by
  refine ⟨fun h j hj => (firstFrom_spec f k 0).2 h j (Nat.zero_le j) (by omega), fun h => ?_⟩
  cases hr : firstFrom f k 0 with
  | none => rfl
  | some r =>
    have := (firstFrom_spec f k 0).1 r hr
    rw [h r.1 (by omega)] at this
    simp at this

theorem firstFrom_eq_some {α : Type} {f : Nat → Option α} {k j : Nat} {a : α} :
    firstFrom f k 0 = some (j, a) ↔ j < k ∧ f j = some a ∧ ∀ i < j, f i = none := by
  constructor
  · intro h
    obtain ⟨_, h1, h2, h3⟩ := (firstFrom_spec f k 0).1 _ h
    exact ⟨by omega, h2, fun i hi => h3 i (Nat.zero_le i) hi⟩
  · rintro ⟨h1, h2, h3⟩
    cases hr : firstFrom f k 0 with
    | none =>
      rw [firstFrom_eq_none.1 hr j h1] at h2
      cases h2
    | some r =>
      obtain ⟨_, g1, g2, g3⟩ := (firstFrom_spec f k 0).1 r hr
      rcases Nat.lt_trichotomy r.1 j with h | h | h
      · rw [h3 _ h] at g2; cases g2
      · subst h; rw [h2] at g2; cases g2; rfl
      · rw [g3 j (Nat.zero_le j) h] at h2; cases h2

/-- Bit `i` of the keep mask of attempt `j` is the complement of bit `i` of `j` (R231). -/
theorem keepMask_testBit {n j i : Nat} (hj : j < 2 ^ n) : (keepMask n j).testBit i = (decide (i < n) && !j.testBit i) := by
  rw [keepMask, Nat.sub_sub, Nat.add_comm 1 j]
  exact Nat.testBit_two_pow_sub_succ hj i

/-- An attempt answers `p` exactly when its candidate is the envelope of `p` (R234). -/
theorem attempt_eq_some {s : State} {w : CrcWidth} {pos : EnvPos} {j : Nat} {p : List Byte} :
    s.attempt w pos j = some p ↔
      ∃ d, rsData s.cfg.gfPoly s.ds s.ps s.cs (s.shardRows s.n s.cs) (s.attemptSet s.n j) = some d ∧
        rsPayload s.ds s.cs s.arg0.toNat d = envMake s.cfg w pos p := by
  unfold State.attempt
  cases rsData s.cfg.gfPoly s.ds s.ps s.cs (s.shardRows s.n s.cs) (s.attemptSet s.n j) with
  | none => simp
  | some d => simp [envOpen_eq_some]

end Sys2Proof.Machine
end

