-- ==== Sys2Proof/Laws/Viterbi.lean ====
section
/-! SUPPORT. The shape of what the convolutional codec computes (46_viterbi.md R252 to R257): lengths, the trellis, the encoder
as a shift register, what the metrics and survivors of the decoder mean, and that a codec latched by VINIT is valid. -/

namespace Sys2Proof.Machine

variable (c : Codec)

/-! ## Lengths -/

@[simp] theorem outputs_length (st : Nat) (u : Bool) : (c.outputs st u).length = c.m := by
  simp [Codec.outputs, Codec.m]

@[simp] theorem run_length (st : Nat) (us : List Bool) : (c.run st us).length = c.m * us.length := by
  induction us generalizing st with
  | nil => rfl
  | cons u us ih => rw [Codec.run, List.length_append, ih, outputs_length, List.length_cons, Nat.mul_succ, Nat.add_comm]

@[simp] theorem convEncode_length (u : List Bool) : (convEncode c u).length = c.m * (u.length + (c.k - 1)) := by
  simp [convEncode]

theorem run_append (st : Nat) (us vs : List Bool) :
    c.run st (us ++ vs) = c.run st us ++ c.run (us.foldl c.next st) vs := by
  induction us generalizing st with
  | nil => rfl
  | cons u us ih => simp [Codec.run, ih]

@[simp] theorem traceback_length (st : Nat) (rows : List (List Nat)) (acc : List Bool) :
    (c.traceback st rows acc).length = rows.length + acc.length := by
  induction rows generalizing st acc with
  | nil => simp [Codec.traceback]
  | cons r rows ih => rw [Codec.traceback, ih, List.length_cons, List.length_cons]; omega

@[simp] theorem survivors_length (pm : List (Option Nat)) (blocks : List (List Bool)) (rows : List (List Nat)) :
    (c.survivors pm blocks rows).length = blocks.length + rows.length := by
  induction blocks generalizing pm rows with
  | nil => simp [Codec.survivors]
  | cons b bs ih => rw [Codec.survivors, ih, List.length_cons, List.length_cons]; omega

@[simp] theorem blocks_length (r : List Bool) : (c.blocks r).length = c.steps r.length := by simp [Codec.blocks]

@[simp] theorem viterbi_length (r : List Bool) : (viterbi c r).length = c.steps r.length - (c.k - 1) := by
  simp [viterbi]

/-- A whole number of steps is that number of steps. -/
theorem steps_mul (hm : 1 ≤ c.m) (t : Nat) : c.steps (c.m * t) = t := by
  unfold Codec.steps
  rw [show c.m * t + c.m - 1 = (c.m - 1) + c.m * t by omega, Nat.add_mul_div_left _ _ (by omega),
    Nat.div_eq_of_lt (by omega), Nat.zero_add]

/-! ## The trellis (R252, R255) -/

theorem and_lowmask (v k : Nat) : v &&& lowmask k = v % 2 ^ k := Nat.and_two_pow_sub_one_eq_mod v k

theorem next_lt (hk : 2 ≤ c.k) {st : Nat} (h : st < 2 ^ (c.k - 1)) (u : Bool) : c.next st u < 2 ^ (c.k - 1) := by
  unfold Codec.next
  have e : 2 ^ (c.k - 1) = 2 * 2 ^ (c.k - 2) := by
    rw [show c.k - 1 = (c.k - 2) + 1 by omega, Nat.pow_succ, Nat.mul_comm]
  have : u.toNat * 2 ^ (c.k - 2) ≤ 1 * 2 ^ (c.k - 2) := Nat.mul_le_mul_right _ (Bool.toNat_le u)
  omega

theorem pred_lt (hk : 2 ≤ c.k) (st : Nat) (b : Bool) : c.pred st b < 2 ^ (c.k - 1) := by
  unfold Codec.pred
  rw [and_lowmask]
  have e : 2 ^ (c.k - 1) = 2 * 2 ^ (c.k - 2) := by
    rw [show c.k - 1 = (c.k - 2) + 1 by omega, Nat.pow_succ, Nat.mul_comm]
  have h1 := Nat.mod_lt st (Nat.two_pow_pos (c.k - 2))
  have h2 := Bool.toNat_le b
  omega

theorem next_pred (hk : 2 ≤ c.k) {st : Nat} (h : st < 2 ^ (c.k - 1)) (b : Bool) :
    c.next (c.pred st b) (c.input st) = st := by
  unfold Codec.next Codec.pred Codec.input
  rw [and_lowmask]
  have e : 2 ^ (c.k - 1) = 2 * 2 ^ (c.k - 2) := by
    rw [show c.k - 1 = (c.k - 2) + 1 by omega, Nat.pow_succ, Nat.mul_comm]
  generalize 2 ^ (c.k - 2) = p at *
  have h2 := Bool.toNat_le b
  have h3 := Nat.div_add_mod st p
  have hlt : st / p < 2 := Nat.div_lt_of_lt_mul (by omega)
  generalize st % p = x at *
  have h4 : (x * 2 + b.toNat) / 2 = x := by omega
  rw [h4]
  generalize st / p = y at *
  rcases (by omega : y = 0 ∨ y = 1) with rfl | rfl <;> simp at h3 ⊢ <;> omega

theorem pred_next (hk : 2 ≤ c.k) {st : Nat} (h : st < 2 ^ (c.k - 1)) (u : Bool) :
    c.input (c.next st u) = u ∧ c.pred (c.next st u) (decide (st % 2 = 1)) = st := by
  unfold Codec.next Codec.pred Codec.input
  rw [and_lowmask]
  have e : 2 ^ (c.k - 1) = 2 * 2 ^ (c.k - 2) := by
    rw [show c.k - 1 = (c.k - 2) + 1 by omega, Nat.pow_succ, Nat.mul_comm]
  have hp : 0 < 2 ^ (c.k - 2) := Nat.two_pow_pos _
  generalize 2 ^ (c.k - 2) = p at *
  have h1 : st / 2 < p := by omega
  constructor
  · rw [Nat.add_mul_div_right _ _ hp, Nat.div_eq_of_lt h1]
    cases u <;> simp
  · rw [Nat.add_mul_mod_self_right, Nat.mod_eq_of_lt h1]
    rcases (by omega : st % 2 = 0 ∨ st % 2 = 1) with h5 | h5 <;> simp [h5] <;> omega

/-! ## The encoder as a shift register (R252, R254) -/

theorem next_testBit (hk : 2 ≤ c.k) {st : Nat} (h : st < 2 ^ (c.k - 1)) (u : Bool) (i : Nat) (hi : i < c.k - 1) :
    (c.next st u).testBit i = if i = c.k - 2 then u else st.testBit (i + 1) := by
  unfold Codec.next
  have e : 2 ^ (c.k - 1) = 2 * 2 ^ (c.k - 2) := by
    rw [show c.k - 1 = (c.k - 2) + 1 by omega, Nat.pow_succ, Nat.mul_comm]
  have h2 : st / 2 < 2 ^ (c.k - 2) := by omega
  rw [Nat.add_comm, Nat.mul_comm, Nat.testBit_two_pow_mul_add _ h2]
  split
  · rename_i hlt
    rw [if_neg (by omega), Nat.testBit_succ]
  · rename_i hge
    have : i = c.k - 2 := by omega
    subst this
    cases u <;> simp

theorem foldl_next_lt (hk : 2 ≤ c.k) (us : List Bool) {st : Nat} (h : st < 2 ^ (c.k - 1)) : us.foldl c.next st < 2
    ^ (c.k - 1) := by
  induction us generalizing st with
  | nil => exact h
  | cons u us ih => exact ih (next_lt c hk h u)

/-- The state after the inputs `us` holds the last `K-1` of them, the newest at the top (R252). -/
theorem foldl_next_testBit (hk : 2 ≤ c.k) (us : List Bool) (i : Nat) (hi : i < c.k - 1) :
    (us.foldl c.next 0).testBit i = (decide (c.k - 1 - i ≤ us.length) && us.getD (us.length - (c.k - 1 - i)) false)
        := by
  induction us using List.reverseRecOn generalizing i with
  | nil => simp
  | append_singleton us u ih =>
    have hlt := foldl_next_lt c hk us (Nat.two_pow_pos (c.k - 1))
    rw [List.foldl_append, List.foldl_cons, List.foldl_nil, next_testBit c hk hlt u i hi]
    split
    · rename_i e
      subst e
      have : c.k - 1 - (c.k - 2) = 1 := by omega
      rw [this]
      simp
    · rw [ih (i + 1) (by omega)]
      have e : c.k - 1 - (i + 1) + 1 = c.k - 1 - i := by omega
      simp only [List.length_append, List.length_singleton]
      by_cases hle : c.k - 1 - (i + 1) ≤ us.length
      · rw [decide_eq_true hle, decide_eq_true (show c.k - 1 - i ≤ us.length + 1 by omega)]
        rw [show us.length + 1 - (c.k - 1 - i) = us.length - (c.k - 1 - (i + 1)) by omega]
        simp only [Bool.true_and, List.getD_eq_getElem?_getD]
        rw [List.getElem?_append_left (by omega)]
      · rw [decide_eq_false hle, decide_eq_false (show ¬ c.k - 1 - i ≤ us.length + 1 by omega)]; rfl

/-- Bit `K-1-d` of the register `R` is the input bit of `d` steps ago (R252). -/
theorem register_testBit (hk : 2 ≤ c.k) (us : List Bool) (u : Bool) (d : Nat) (hd : d < c.k) :
    (us.foldl c.next 0 + u.toNat * 2 ^ (c.k - 1)).testBit (c.k - 1 - d) = (decide (d ≤ us.length) && (us ++
        [u]).getD (us.length - d) false) := by
  have hlt := foldl_next_lt c hk us (Nat.two_pow_pos (c.k - 1))
  rw [Nat.add_comm, Nat.mul_comm, Nat.testBit_two_pow_mul_add _ hlt]
  split
  · rw [foldl_next_testBit c hk us _ (by assumption)]
    rw [show c.k - 1 - (c.k - 1 - d) = d by omega]
    simp only [List.getD_eq_getElem?_getD]
    by_cases hle : d ≤ us.length
    · rw [List.getElem?_append_left (by omega)]
    · simp [hle]
  · have : d = 0 := by omega
    subst this
    cases u <;> simp

/-- Output bit `j` of step `t` (R254). -/
theorem run_getD (st : Nat) (us : List Bool) (t j : Nat) (ht : t < us.length) (hj : j < c.m) :
    (c.run st us).getD (c.m * t + j) false = (c.outputs ((us.take t).foldl c.next st) (us.getD t false)).getD j
        false := by
  induction us generalizing st t with
  | nil => simp at ht
  | cons u us ih =>
    rw [Codec.run]
    cases t with
    | zero => simp only [Nat.mul_zero, Nat.zero_add, List.getD_eq_getElem?_getD]; rw [List.getElem?_append_left (by
        simpa using hj)]; simp
    | succ t =>
      have := ih (c.next st u) t (by simpa using ht)
      simp only [List.getD_eq_getElem?_getD] at this ⊢
      rw [List.getElem?_append_right (by rw [outputs_length, Nat.mul_succ]; omega), outputs_length, show c.m * (t +
          1) + j - c.m = c.m * t + j by rw [Nat.mul_succ]; omega, this]
      simp

/-! ## The decoder's metrics and survivors (R256) -/

@[simp] theorem hamming_nil (y : List Bool) : hamming [] y = 0 := rfl

theorem hamming_append {a a' b b' : List Bool} (h : a.length = a'.length) : hamming (a ++ b) (a' ++ b') = hamming a
    a' + hamming b b' := by
  unfold hamming
  rw [List.zipWith_append h, List.sum_append]

theorem hamming_eq_zero {a b : List Bool} (h : a.length = b.length) : hamming a b = 0 ↔ a = b := by
  unfold hamming
  induction a generalizing b with
  | nil => cases b <;> simp_all
  | cons x xs ih =>
    cases b with
    | nil => simp at h
    | cons y ys =>
      have := ih (b := ys) (by simpa using h)
      cases x <;> cases y <;> simp_all

theorem metricLe_min (x y : Option Nat) : metricLe (if metricLe x y then x else y) x = true ∧ metricLe (if metricLe
    x y then x else y) y = true := by
  cases x with
  | none => cases y <;> simp [metricLe]
  | some a =>
    cases y with
    | none => simp [metricLe]
    | some b => by_cases h : a ≤ b <;> (simp [metricLe, h]; try omega)

theorem traceback_acc (st : Nat) (rows : List (List Nat)) (acc : List Bool) : c.traceback st rows acc = c.traceback
    st rows [] ++ acc := by
  induction rows generalizing st acc with
  | nil => rfl
  | cons r rows ih => rw [Codec.traceback, Codec.traceback, ih, ih _ [_], List.append_assoc]; rfl

/-- What the metrics `pm` and the `from` rows mean after the blocks `bs` (R256): a state with a metric is reached by the path
that the traceback finds, at the distance the metric says, and no path to a state is nearer than its metric. -/
def SurvivorsOf (pm : List (Option Nat)) (bs : List (List Bool)) (rows : List (List Nat)) : Prop :=
  rows.length = bs.length ∧ ∀ st, st < 2 ^ (c.k - 1) →
    (∀ v, pm.getD st none = some v → (c.traceback st rows []).foldl c.next 0 = st ∧ hamming (c.run 0 (c.traceback
        st rows [])) bs.flatten = v) ∧
    ∀ us : List Bool, us.length = bs.length → us.foldl c.next 0 = st → ∃ v, pm.getD st none = some v ∧ v ≤ hamming
        (c.run 0 us) bs.flatten

theorem flatten_length_of_blocks {bs : List (List Bool)} {m : Nat} (h : ∀ b ∈ bs, b.length = m) : bs.flatten.length
    = m * bs.length := by
  induction bs with
  | nil => simp
  | cons b bs ih => rw [List.flatten_cons, List.length_append, ih fun x hx => h x (List.mem_cons_of_mem _ hx), h b
      List.mem_cons_self, List.length_cons, Nat.mul_succ, Nat.add_comm]

theorem hamming_run_concat (us : List Bool) (u : Bool) {bs : List (List Bool)} (b : List Bool) (h : ∀ b ∈ bs,
    b.length = c.m) (hl : us.length = bs.length) :
    hamming (c.run 0 (us ++ [u])) (bs ++ [b]).flatten = hamming (c.run 0 us) bs.flatten + hamming (c.outputs
        (us.foldl c.next 0) u) b := by
  rw [run_append, List.flatten_append, hamming_append (by rw [run_length, flatten_length_of_blocks h, hl])]
  simp [Codec.run]

theorem survivorsOf_start : SurvivorsOf c c.startMetrics [] [] := by
  refine ⟨rfl, fun st h => ⟨fun v hv => ?_, fun us h1 h2 => ?_⟩⟩
  · have : c.startMetrics.getD st none = if st = 0 then some 0 else none := by simp [Codec.startMetrics, h]
    rw [this] at hv
    split at hv
    · rename_i e; subst e; cases hv; exact ⟨rfl, rfl⟩
    · cases hv
  · have : us = [] := by simpa using h1
    subst this
    have : c.startMetrics.getD st none = if st = 0 then some 0 else none := by simp [Codec.startMetrics, h]
    have e : st = 0 := h2.symm
    subst e
    exact ⟨0, by rw [this]; rfl, Nat.le_refl _⟩

theorem survivorsOf_step (hk : 2 ≤ c.k) {pm bs rows} (h : SurvivorsOf c pm bs rows) (hb : ∀ b ∈ bs, b.length = c.m)
    (b : List Bool) :
    SurvivorsOf c ((c.trellisStep pm b).map Prod.fst) (bs ++ [b]) ((c.trellisStep pm b).map Prod.snd :: rows) := by
  refine ⟨by simp [h.1], fun st hst => ?_⟩
  have e1 : ((c.trellisStep pm b).map Prod.fst).getD st none = (c.choose pm b st).1 := by simp [Codec.trellisStep, hst]
  have e2 : ((c.trellisStep pm b).map Prod.snd).getD st 0 = (c.choose pm b st).2 := by simp [Codec.trellisStep, hst]
  rw [e1]
  constructor
  · intro v hv
    obtain ⟨x, hx⟩ : ∃ x, c.choose pm b st = (c.branch pm b st x, c.pred st x) := by
      unfold Codec.choose; split
      · exact ⟨false, rfl⟩
      · exact ⟨true, rfl⟩
    rw [Codec.traceback, e2, traceback_acc, hx]
    rw [hx] at hv
    simp only [Codec.branch, Option.map_eq_some_iff] at hv
    obtain ⟨w, hw, rfl⟩ := hv
    obtain ⟨f1, f2⟩ := (h.2 _ (pred_lt c hk st x)).1 w hw
    have hlen : (c.traceback (c.pred st x) rows []).length = bs.length := by simp [h.1]
    constructor
    · rw [List.foldl_append, f1]; exact next_pred c hk hst x
    · rw [hamming_run_concat c _ _ _ hb hlen, f1, f2]
  · intro us hl hs
    rcases List.eq_nil_or_concat us with rfl | ⟨us, u, rfl⟩
    · simp at hl
    rw [List.concat_eq_append] at hl hs ⊢
    have hl' : us.length = bs.length := by simpa using hl
    rw [List.foldl_append] at hs
    have hp := foldl_next_lt c hk us (Nat.two_pow_pos (c.k - 1))
    have hs' : c.next (us.foldl c.next 0) u = st := hs
    obtain ⟨g1, g2⟩ := pred_next c hk hp u
    rw [hs'] at g1 g2
    obtain ⟨v, hv, hle⟩ := (h.2 _ hp).2 us hl' rfl
    rw [hamming_run_concat c _ _ _ hb hl']
    generalize decide (us.foldl c.next 0 % 2 = 1) = x at g2
    have hbr : c.branch pm b st x = some (v + hamming (c.outputs (us.foldl c.next 0) u) b) := by
      simp only [Codec.branch, g1, g2, hv]; rfl
    have hle2 : metricLe (c.choose pm b st).1 (c.branch pm b st x) = true := by
      have hc := metricLe_min (c.branch pm b st false) (c.branch pm b st true)
      have : (c.choose pm b st).1 = if metricLe (c.branch pm b st false) (c.branch pm b st true) then c.branch pm b
          st false else c.branch pm b st true := by
        unfold Codec.choose; split <;> rfl
      rw [this]; cases x
      · exact hc.1
      · exact hc.2
    rw [hbr] at hle2
    cases hcv : (c.choose pm b st).1 with
    | none => rw [hcv] at hle2; cases hle2
    | some w => rw [hcv] at hle2; exact ⟨w, rfl, by have : w ≤ _ := of_decide_eq_true hle2; omega⟩

theorem survivorsOf_survivors (hk : 2 ≤ c.k) (blocks : List (List Bool)) {pm bs rows} (h : SurvivorsOf c pm bs
    rows) (hb : ∀ b ∈ bs, b.length = c.m) (hb2 : ∀ b ∈ blocks, b.length = c.m) :
    ∃ pm', SurvivorsOf c pm' (bs ++ blocks) (c.survivors pm blocks rows) := by
  induction blocks generalizing pm bs rows with
  | nil => exact ⟨pm, by simpa [Codec.survivors] using h⟩
  | cons b blocks ih =>
    rw [Codec.survivors]
    have hb' : ∀ x ∈ bs ++ [b], x.length = c.m := by
      intro x hx
      rcases List.mem_append.1 hx with hx | hx
      · exact hb x hx
      · rw [List.mem_singleton.1 hx]
        exact hb2 _ List.mem_cons_self
    have := ih (survivorsOf_step c hk h hb b) hb' (fun x hx => hb2 x (List.mem_cons_of_mem _ hx))
    simpa using this

/-! ## Ties -/

/-- At the last place where the sequences differ, `a` has 0 and `d` has 1. -/
def TieGoesTo (a d : List Bool) : Prop :=
  ∃ p < d.length, a.getD p false = false ∧ d.getD p false = true ∧
    ∀ q, p < q → q < d.length → d.getD q false = a.getD q false

theorem TieGoesTo.concat {a d : List Bool} (h : TieGoesTo a d) (hl : a.length = d.length) (x : Bool) :
    TieGoesTo (a ++ [x]) (d ++ [x]) := by
  obtain ⟨p, hp, h1, h2, h3⟩ := h
  have e : ∀ (l : List Bool) q, q < l.length → (l ++ [x]).getD q false = l.getD q false := fun l q hq => by
    rw [List.getD_eq_getElem?_getD, List.getD_eq_getElem?_getD, List.getElem?_append_left hq]
  refine ⟨p, by simp; omega, by rw [e a p (by omega)]; exact h1, by rw [e d p hp]; exact h2,
    fun q hq hq2 => ?_⟩
  rw [List.length_append, List.length_singleton] at hq2
  rcases Nat.lt_or_ge q d.length with hq3 | hq3
  · rw [e d q hq3, e a q (by omega)]; exact h3 q hq hq3
  · have : q = d.length := by omega
    subst this
    rw [List.getD_eq_getElem?_getD, List.getD_eq_getElem?_getD, List.getElem?_append_right (by omega),
      List.getElem?_append_right (by omega), hl]

/-- Of two paths of one length whose states differ in bit 0 only, the one with 0 there wins the tie. -/
theorem tieGoesTo_of_states (hk : 2 ≤ c.k) {a d : List Bool} (hl : a.length = d.length)
    (h0 : (a.foldl c.next 0).testBit 0 = false) (h1 : (d.foldl c.next 0).testBit 0 = true)
    (h : ∀ i, 1 ≤ i → i < c.k - 1 → (a.foldl c.next 0).testBit i = (d.foldl c.next 0).testBit i) : TieGoesTo a d := by
  rw [foldl_next_testBit c hk _ _ (by omega)] at h0 h1
  simp only [Bool.and_eq_true, decide_eq_true_eq, Nat.sub_zero] at h1
  simp only [hl, h1.1, decide_true, Bool.true_and, Nat.sub_zero] at h0
  refine ⟨d.length - (c.k - 1), by omega, h0, h1.2, fun q hq hq2 => ?_⟩
  have := h (c.k - 1 - (d.length - q)) (by omega) (by omega)
  rw [foldl_next_testBit c hk _ _ (by omega), foldl_next_testBit c hk _ _ (by omega), hl] at this
  rw [show c.k - 1 - (c.k - 1 - (d.length - q)) = d.length - q by omega] at this
  have e : d.length - q ≤ d.length := by omega
  simp only [e, decide_true, Bool.true_and] at this
  rw [show d.length - (d.length - q) = q by omega] at this
  exact this.symm

theorem pred_testBit (st : Nat) (b : Bool) (i : Nat) :
    (c.pred st b).testBit i = if i = 0 then b else (st &&& lowmask (c.k - 2)).testBit (i - 1) := by
  unfold Codec.pred
  cases i with
  | zero => cases b <;> simp [Nat.testBit_zero]
  | succ i =>
    rw [Nat.testBit_succ]
    congr 1
    cases b <;> (simp; try omega)

/-- What the tie rule means after the blocks `bs` (R256): any other path to a state at the distance of its survivor loses the
tie. -/
def TiesOf (pm : List (Option Nat)) (bs : List (List Bool)) (rows : List (List Nat)) : Prop :=
  ∀ st v us, st < 2 ^ (c.k - 1) → pm.getD st none = some v → us.length = bs.length → us.foldl c.next 0 = st →
    hamming (c.run 0 us) bs.flatten = v → us ≠ c.traceback st rows [] → TieGoesTo (c.traceback st rows []) us

theorem tiesOf_start : TiesOf c c.startMetrics [] [] := by
  intro st v us _ _ hl _ _ hne
  exact absurd (List.length_eq_zero_iff.1 hl) hne

theorem tiesOf_step (hk : 2 ≤ c.k) {pm bs rows} (h : SurvivorsOf c pm bs rows) (ht : TiesOf c pm bs rows)
    (hb : ∀ b ∈ bs, b.length = c.m) (b : List Bool) :
    TiesOf c ((c.trellisStep pm b).map Prod.fst) (bs ++ [b]) ((c.trellisStep pm b).map Prod.snd :: rows) := by
  intro st v us hst hv hl hs hd hne
  have e1 : ((c.trellisStep pm b).map Prod.fst).getD st none = (c.choose pm b st).1 := by simp [Codec.trellisStep, hst]
  have e2 : ((c.trellisStep pm b).map Prod.snd).getD st 0 = (c.choose pm b st).2 := by simp [Codec.trellisStep, hst]
  rw [e1] at hv
  rcases List.eq_nil_or_concat us with rfl | ⟨us, u, rfl⟩
  · simp at hl
  rw [List.concat_eq_append] at *
  have hl' : us.length = bs.length := by simpa using hl
  rw [List.foldl_append] at hs
  have hp := foldl_next_lt c hk us (Nat.two_pow_pos (c.k - 1))
  have hs' : c.next (us.foldl c.next 0) u = st := hs
  obtain ⟨g1, g2⟩ := pred_next c hk hp u
  rw [hs'] at g1 g2
  obtain ⟨w, hw, hle⟩ := (h.2 _ hp).2 us hl' rfl
  rw [hamming_run_concat c _ _ _ hb hl'] at hd
  generalize decide (us.foldl c.next 0 % 2 = 1) = y at g2
  have hbr : c.branch pm b st y = some (w + hamming (c.outputs (us.foldl c.next 0) u) b) := by
    simp only [Codec.branch, g1, g2, hw]; rfl
  rw [Codec.traceback, e2, traceback_acc] at hne ⊢
  rw [g1] at hne ⊢
  have hlen : ∀ st, (c.traceback st rows []).length = us.length := by intro st; simp [h.1, hl']
  by_cases hx : (c.choose pm b st).2 = us.foldl c.next 0
  · rw [hx] at hne ⊢
    refine TieGoesTo.concat (ht _ w us hp hw hl' rfl ?_ (fun e => hne (by rw [← e]))) (hlen _) u
    have hc : (c.choose pm b st).1 = c.branch pm b st y := by
      rw [← g2] at hx
      unfold Codec.choose at hx ⊢
      split at hx
      · cases y
        · simp_all
        · exfalso; simp only [Codec.pred] at hx; simp at hx
      · cases y
        · exfalso; simp only [Codec.pred] at hx; simp at hx
        · simp_all
    rw [hc, hbr] at hv
    simp only [Option.some.injEq] at hv
    omega
  · -- the other branch was chosen, at the same distance
    have key : y = true ∧ (c.choose pm b st).2 = c.pred st false ∧ ∃ w', pm.getD (c.pred st false) none = some w' := by
      unfold Codec.choose at hv hx ⊢
      split at hv
      · rename_i hm
        rw [if_pos hm] at hx ⊢
        cases y
        · exact absurd g2 hx
        · refine ⟨rfl, rfl, ?_⟩
          simp only [Codec.branch, Option.map_eq_some_iff] at hv
          obtain ⟨w', hw', _⟩ := hv
          exact ⟨w', hw'⟩
      · rename_i hm
        rw [if_neg hm] at hx
        cases y
        · exfalso
          rw [hbr] at hm
          dsimp only at hv
          rw [hv] at hm
          apply hm
          simp only [metricLe, decide_eq_true_eq]
          omega
        · exact absurd g2 hx
    obtain ⟨rfl, hc, w', hw'⟩ := key
    rw [hc]
    refine TieGoesTo.concat (tieGoesTo_of_states c hk (hlen _) ?_ ?_ fun i h1 h2 => ?_) (hlen _) u
    · rw [((h.2 _ (pred_lt c hk st false)).1 w' hw').1, pred_testBit, if_pos rfl]
    · rw [← g2, pred_testBit, if_pos rfl]
    · rw [((h.2 _ (pred_lt c hk st false)).1 w' hw').1, ← g2, pred_testBit, pred_testBit, if_neg (by omega),
        if_neg (by omega)]

theorem tiesOf_survivors (hk : 2 ≤ c.k) (blocks : List (List Bool)) {pm bs rows} (h : SurvivorsOf c pm bs rows)
    (ht : TiesOf c pm bs rows) (hb : ∀ b ∈ bs, b.length = c.m) (hb2 : ∀ b ∈ blocks, b.length = c.m) :
    ∃ pm', SurvivorsOf c pm' (bs ++ blocks) (c.survivors pm blocks rows) ∧
      TiesOf c pm' (bs ++ blocks) (c.survivors pm blocks rows) := by
  induction blocks generalizing pm bs rows with
  | nil => exact ⟨pm, by simpa [Codec.survivors] using ⟨h, ht⟩⟩
  | cons b blocks ih =>
    rw [Codec.survivors]
    have hb' : ∀ x ∈ bs ++ [b], x.length = c.m := by
      intro x hx
      rcases List.mem_append.1 hx with hx | hx
      · exact hb x hx
      · rw [List.mem_singleton.1 hx]
        exact hb2 _ List.mem_cons_self
    have := ih (survivorsOf_step c hk h hb b) (tiesOf_step c hk h ht hb b) hb'
      fun x hx => hb2 x (List.mem_cons_of_mem _ hx)
    simpa using this

/-- The flush bits lead to state 0 (R254). -/
theorem foldl_next_flush (hk : 2 ≤ c.k) (us : List Bool) : (us ++ List.replicate (c.k - 1) false).foldl c.next 0 =
    0 := by
  apply Nat.eq_of_testBit_eq
  intro i
  rw [Nat.zero_testBit]
  rcases Nat.lt_or_ge i (c.k - 1) with hi | hi
  · rw [foldl_next_testBit c hk _ i hi]
    simp only [List.getD_eq_getElem?_getD]
    rw [List.getElem?_append_right (by simp; omega), List.getElem?_replicate]
    split <;> simp
  · exact Nat.testBit_lt_two_pow (lt_of_lt_of_le (foldl_next_lt c hk _ (Nat.two_pow_pos _)) (Nat.pow_le_pow_right
        (by omega) hi))

/-- A path that ends in state 0 ends in `K-1` zero inputs. -/
theorem path_to_zero (hk : 2 ≤ c.k) (p : List Bool) (hl : c.k - 1 ≤ p.length) (h : p.foldl c.next 0 = 0) : p =
    p.take (p.length - (c.k - 1)) ++ List.replicate (c.k - 1) false := by
  refine List.ext_getElem (by simp; omega) fun i h1 h2 => ?_
  rcases Nat.lt_or_ge i (p.length - (c.k - 1)) with hi | hi
  · rw [List.getElem_append_left (by simp; omega)]; simp
  · rw [List.getElem_append_right (by simp; omega), List.getElem_replicate]
    have := foldl_next_testBit c hk p (i + (c.k - 1) - p.length) (by omega)
    rw [h, Nat.zero_testBit, decide_eq_true (by omega), show p.length - (c.k - 1 - (i + (c.k - 1) - p.length)) = i
        by omega] at this
    simp [List.getD_eq_getElem?_getD, h1] at this
    exact this

/-- Cutting a sequence of `m * t` bits into `t` blocks loses nothing (R256). -/
theorem blocks_flatten (m t : Nat) (r : List Bool) (h : r.length = m * t) : ((List.range t).map fun i => (r.drop (m
    * i)).take m).flatten = r ∧ ∀ b ∈ (List.range t).map fun i => (r.drop (m * i)).take m, b.length = m := by
  have key : ∀ n ≤ t, ((List.range n).map fun i => (r.drop (m * i)).take m).flatten = r.take (m * n) := by
    intro n
    induction n with
    | zero => simp
    | succ n ih =>
      intro hn
      rw [List.range_succ, List.map_append, List.flatten_append, ih (by omega), Nat.mul_succ, List.take_add]
      simp
  refine ⟨by rw [key t (Nat.le_refl _), ← h, List.take_length], ?_⟩
  intro b hb
  simp only [List.mem_map, List.mem_range] at hb
  obtain ⟨i, hi, rfl⟩ := hb
  have : m * (i + 1) ≤ m * t := Nat.mul_le_mul_left _ hi
  rw [Nat.mul_succ] at this
  rw [List.length_take, List.length_drop]; omega

/-- Two predicates that differ at one place below `k` hold at numbers of places of different parity. -/
theorem count_parity_ne (k : Nat) (p q : Nat → Bool) (d0 : Nat) (h0 : d0 < k) (hd : p d0 ≠ q d0) (h : ∀ d, d ≠ d0 →
    p d = q d) :
    decide (((List.range k).filter p).length % 2 = 1) ≠ decide (((List.range k).filter q).length % 2 = 1) := by
  have key : ∀ n, (((List.range n).filter p).length + ((List.range n).filter q).length) % 2 = if d0 < n then 1 else
      0 := by
    intro n
    induction n with
    | zero => rfl
    | succ n ih =>
      simp only [List.range_succ, List.filter_append, List.length_append, List.filter_cons, List.filter_nil]
      by_cases e : n = d0
      · subst e
        simp only [Nat.lt_irrefl, if_false] at ih
        rw [if_pos (show n < n + 1 by omega)]
        cases hp : p n <;> cases hq : q n <;> first | exact absurd (hp.trans hq.symm) hd | (simp; omega)
      · rw [h n e]
        have : (d0 < n + 1) ↔ d0 < n := by omega
        simp only [this]
        cases q n <;> simp only [List.length_nil, List.length_singleton, Nat.add_zero, if_true, if_false,
            Bool.false_eq_true] <;> omega
  have := key k
  rw [if_pos h0] at this
  intro hc
  have hc' := decide_eq_decide.1 hc
  omega

/-! ## The latched codec (R253, R258) -/

theorem effectivePoly_toNat {k : Nat} (hk : k ≤ 32) (rev : Bool) (g : Word) :
    (effectivePoly k rev g).toNat = if rev then bitrev k g.toNat else g.toNat := by
  unfold effectivePoly
  cases rev
  · rfl
  · simp only [if_true]
    exact toNat_ofNat_of_le (lt_of_lt_of_le (bitrev_lt _ _) (Nat.pow_le_pow_right (by omega) hk))

@[simp] theorem codecFromRegs_k (s : State) : s.codecFromRegs.k = s.constraintLen.toNat := rfl

@[simp] theorem codecFromRegs_m (s : State) : s.codecFromRegs.m = s.nPoly.toNat := by
  simp [State.codecFromRegs, Codec.m]

/-- VINIT latches a valid codec (R251, R258). -/
theorem codecFromRegs_valid {s : State} (hw : s.cfg.wellFormed = true) (h : s.convFits) :
    s.codecFromRegs.valid s.cfg := by
  have b := wellFormed_bounds hw
  obtain ⟨h1, h2, h3, h4, h5⟩ := h
  refine ⟨h1, h2, by rw [codecFromRegs_m]; exact h3, by rw [codecFromRegs_m]; exact h4, ?_⟩
  intro e he
  simp only [State.codecFromRegs, List.mem_map, List.mem_range] at he
  obtain ⟨j, hj, rfl⟩ := he
  obtain ⟨h6, h7⟩ := h5 j hj
  simp only [State.reg] at h6 h7
  rw [effectivePoly_toNat (by omega), codecFromRegs_k]
  split
  · exact ⟨bitrev_pos h6 h7, bitrev_lt _ _⟩
  · exact ⟨h6, h7⟩

end Sys2Proof.Machine
end

