-- ==== Sys2Proof/Tests/Slice0.lean ====
section
/-! SUPPORT. Tests. Expected values are those of spec/95_test_vectors.md and of the examples in the command rules; the words are
those of 30_encoding.md R111, put together by hand from the fields. The witnesses at the end show, for every statement of
Certificates/Slice0/Obligations.lean with hypotheses, concrete states that meet them, clause by clause. -/

namespace Sys2Proof.Tests

set_option Elab.async false

open Sys2Proof.Machine

/-! ## Well-formedness: the default parameters are accepted, and a value that breaks one constraint of R8 is refused -/

theorem test_default_wellFormed : defaultConfig.wellFormed = true := by decide
theorem test_nMax_zero : { defaultConfig with nMax := 0 }.wellFormed = false := by decide
theorem test_nMax_large : { defaultConfig with nMax := 32 }.wellFormed = false := by decide
theorem test_chunkMax_zero : { defaultConfig with chunkMax := 0 }.wellFormed = false := by decide
theorem test_shardCap_small : { defaultConfig with shardCap := 5119 }.wellFormed = false := by decide
theorem test_kMax_small : { defaultConfig with kMax := 1 }.wellFormed = false := by decide
theorem test_kMax_large : { defaultConfig with kMax := 25 }.wellFormed = false := by decide
theorem test_npolyMax_zero : { defaultConfig with npolyMax := 0 }.wellFormed = false := by decide
theorem test_npolyMax_large : { defaultConfig with npolyMax := 33 }.wellFormed = false := by decide
theorem test_byteCap_small : { defaultConfig with byteCap := 5119, shardCap := 5120 }.wellFormed = false := by decide
theorem test_byteCap_large : { defaultConfig with byteCap := 65537 }.wellFormed = false := by decide
theorem test_shardCap_above_byteCap : { defaultConfig with shardCap := 16385 }.wellFormed = false := by decide
theorem test_shardCap_large : { defaultConfig with shardCap := 65537, byteCap := 65536 }.wellFormed = false := by decide
theorem test_bitCap_small : { defaultConfig with bitCap := 131071 }.wellFormed = false := by decide
theorem test_bitCap_large : { defaultConfig with bitCap := 1048577 }.wellFormed = false := by decide
theorem test_gfPoly_degree : { defaultConfig with gfPoly := 0x01D }.wellFormed = false := by decide
/-- `X^8 + 1 = (X + 1)^8`. -/
theorem test_gfPoly_reducible : { defaultConfig with gfPoly := 0x101 }.wellFormed = false := by decide
/-- `X^8 + X^4 + X^3 + X + 1` is irreducible (FIPS 197, outside the spec). -/
theorem test_gfPoly_other : { defaultConfig with gfPoly := 0x11B }.wellFormed = true := by decide
/-- There are `(2^8 - 2^4) / 8 = 30` irreducible polynomials of degree 8 over GF(2). -/
theorem test_gfPoly_count : ((List.range 512).filter fun n => GfPoly.isFieldPoly (BitVec.ofNat 9 n)).length = 30 := by
  decide +kernel
theorem test_base_unaligned : { defaultConfig with base := 0x100000 }.wellFormed = false := by decide

theorem test_regs_unaligned : { defaultConfig with map := { defaultMap with regs := 2 } }.wellFormed = false := by decide
theorem test_span_short : { defaultConfig with map := { defaultMap with span := 0x2FFFFF } }.wellFormed = false := by decide
theorem test_windows_overlap : { defaultConfig with map := { defaultMap with byteBuf := 0x1FFFF } }.wellFormed = false := by
  decide

/-! ## Decoding: every command from a written-out word (ZERO, SEL, OPCODE), and words that are no command -/

theorem test_decode_nop : decode 0x00000000 = .ok .nop := by rfl
theorem test_decode_b2bit : decode 0x00000001 = .ok .b2bit := by rfl
theorem test_decode_bit2b : decode 0x00000002 = .ok .bit2b := by rfl
theorem test_decode_bset : decode 0x00000003 = .ok .bsetBit ∧ decode 0x00000103 = .ok .bsetByte := ⟨rfl, rfl⟩
theorem test_decode_bclr : decode 0x00000004 = .ok .bclrBit ∧ decode 0x00000104 = .ok .bclrByte := ⟨rfl, rfl⟩
theorem test_decode_bflip : decode 0x00000005 = .ok .bflipBit ∧ decode 0x00000105 = .ok .bflipByte := ⟨rfl, rfl⟩
theorem test_decode_crcgen : decode 0x00000010 = .ok .crcgen8 ∧ decode 0x00000110 = .ok .crcgen16 ∧
    decode 0x00000210 = .ok .crcgen32 := ⟨rfl, rfl, rfl⟩
theorem test_decode_crcenc_suf : decode 0x00000011 = .ok .crcenc8Suf ∧ decode 0x00000111 = .ok .crcenc16Suf ∧
    decode 0x00000211 = .ok .crcenc32Suf := ⟨rfl, rfl, rfl⟩
theorem test_decode_crcenc_pre : decode 0x00000411 = .ok .crcenc8Pre ∧ decode 0x00000511 = .ok .crcenc16Pre ∧
    decode 0x00000611 = .ok .crcenc32Pre := ⟨rfl, rfl, rfl⟩
theorem test_decode_crcchk_suf : decode 0x00000012 = .ok .crcchk8Suf ∧ decode 0x00000112 = .ok .crcchk16Suf ∧
    decode 0x00000212 = .ok .crcchk32Suf := ⟨rfl, rfl, rfl⟩
theorem test_decode_crcchk_pre : decode 0x00000412 = .ok .crcchk8Pre ∧ decode 0x00000512 = .ok .crcchk16Pre ∧
    decode 0x00000612 = .ok .crcchk32Pre := ⟨rfl, rfl, rfl⟩
theorem test_decode_chunker : decode 0x00000020 = .ok .chunk ∧ decode 0x00000021 = .ok .flat ∧
    decode 0x00000022 = .ok .unflat := ⟨rfl, rfl, rfl⟩
theorem test_decode_rs : decode 0x00000030 = .ok .rsenc ∧ decode 0x00000031 = .ok .rsdecf ∧
    decode 0x00000032 = .ok .rsdecd := ⟨rfl, rfl, rfl⟩
theorem test_decode_interleaver : decode 0x00000040 = .ok .ilv ∧ decode 0x00000041 = .ok .dilv := ⟨rfl, rfl⟩
theorem test_decode_patgen : decode 0x00000050 = .ok .patgen := by rfl
theorem test_decode_search_suf : decode 0x00000051 = .ok .search8Suf ∧ decode 0x00000151 = .ok .search16Suf ∧
    decode 0x00000251 = .ok .search32Suf := ⟨rfl, rfl, rfl⟩
theorem test_decode_search_pre : decode 0x00000451 = .ok .search8Pre ∧ decode 0x00000551 = .ok .search16Pre ∧
    decode 0x00000651 = .ok .search32Pre := ⟨rfl, rfl, rfl⟩
theorem test_decode_viterbi : decode 0x00000060 = .ok .vinit ∧ decode 0x00000061 = .ok .venc ∧
    decode 0x00000062 = .ok .vdec := ⟨rfl, rfl, rfl⟩

/-- One bit outside the fields, or outside the selector, makes another word (section 2.1 of the vectors). -/
theorem test_decode_illegal : decode 0x00001000 = .error .zeroNotZero ∧ decode 0xFFFFFFFF = .error .zeroNotZero ∧
    decode 0x00000006 = .error .unassignedOpcode ∧ decode 0x00000070 = .error .unassignedOpcode ∧
    decode 0x00000101 = .error .forbiddenSelector ∧ decode 0x00000203 = .error .forbiddenSelector ∧
    decode 0x00000310 = .error .forbiddenSelector ∧ decode 0x00000410 = .error .forbiddenSelector ∧
    decode 0x00000811 = .error .forbiddenSelector ∧ decode 0x00000141 = .error .forbiddenSelector :=
  ⟨rfl, rfl, rfl, rfl, rfl, rfl, rfl, rfl, rfl, rfl⟩

/-- The host's two entry points read the same word. -/
theorem test_tableWord : decodeTableWord 32 0x511 = some .crcenc16Pre ∧ decodeTableWord 32 0x310 = none ∧
    (State.reset.withFetchWord 32 0x511).fetch = .ok .crcenc16Pre := ⟨rfl, rfl, rfl⟩

/-! ## States for the tests: a block with small parameters, and buffers written with given values -/

def small : Config :=
  { nMax := 4, chunkMax := 4, kMax := 4, npolyMax := 2, byteCap := 16, shardCap := 16, bitCap := 160,
    base := 0x400000, map := defaultMap, crc8 := defaultCrc8, crc16 := defaultCrc16, crc32 := defaultCrc32,
    gfPoly := defaultGfPoly }

/-- A block with these parameters after reset. -/
def start : State := State.initial small

/-- BYTEBUF holds `b`, BYTELEN its length. -/
def bytes (b : List Byte) (s : State := start) : State :=
  { s with byteBuf := cellsFrom 0 b, byteLen := BitVec.ofNat 32 b.length }

/-- BITBUF holds `t`, BITLEN its length. -/
def bits (t : List Bool) (s : State := start) : State :=
  { s with bitBuf := cellsFrom 0 t, bitLen := BitVec.ofNat 32 t.length }

/-- SHARDMEM holds `m` as `r` rows of `c` columns, with the rows of `p` present. -/
def shards (r c : Nat) (p : Word) (m : List Byte) (s : State := start) : State :=
  { s with shardMem := cellsFrom 0 m, rows := BitVec.ofNat 32 r, cols := BitVec.ofNat 32 c, present := p }

/-- The CodecParams registers and ARG0. -/
def params (ds ps cs a : Word) (s : State := start) : State :=
  { s with dataShards := ds, parityShards := ps, chunkSize := cs, arg0 := a }

/-- The ConvolutionalParams registers. -/
def conv (k m : Word) (g : List Word) (s : State := start) : State :=
  { s with constraintLen := k, nPoly := m, poly := g }

/-- Command `i` answers a next state with `p`. -/
def ran (i : Instr) (s : State) (p : State → Bool) : Bool :=
  match exec i s with
  | .next t => p t
  | _ => false

/-- The state after command `i`. -/
def after (i : Instr) (s : State) : State :=
  match exec i s with
  | .next t => t
  | _ => s

theorem exec_after {i : Instr} {s : State} {p : State → Bool} (h : ran i s p = true) :
    exec i s = .next (after i s) ∧ p (after i s) = true := by
  unfold ran after at *
  split at h
  · rename_i t ht; rw [ht]; exact ⟨rfl, h⟩
  · cases h

theorem test_small_wellFormed : small.wellFormed = true := by decide

/-! ## The commands -/

theorem test_nop : ran .nop { start with err := 5, status := 0x6 } (fun t => t.err == 0 && t.status == 2) = true := by
  decide +kernel

/-- A5 01 gives `1010010100000001` (R131). -/
theorem test_b2bit : ran .b2bit (bytes [0xA5, 0x01]) (fun t => t.err == 0 && t.bitLen == 16 &&
    t.bits 16 == [true, false, true, false, false, true, false, true,
      false, false, false, false, false, false, false, true]) = true := by decide +kernel

theorem test_b2bit_too_long : ran .b2bit { start with byteLen := 17 } (fun t => t.err == 9) = true := by decide +kernel

/-- `01000001 01000010` gives 41 42 (R132). -/
theorem test_bit2b : ran .bit2b (bits [false, true, false, false, false, false, false, true,
    false, true, false, false, false, false, true, false])
    (fun t => t.err == 0 && t.byteLen == 2 && t.bytes 2 == [0x41, 0x42]) = true := by decide +kernel

theorem test_bit2b_not_whole : ran .bit2b { start with bitLen := 12 } (fun t => t.err == 9 && t.byteLen == 0) = true := by
  decide +kernel

theorem test_bsetBit : ran .bsetBit (bits [true, false, true, false] (params 0 0 0 1))
    (fun t => t.bits 4 == [true, true, true, false]) = true := by decide +kernel
theorem test_bsetBit_empty : ran .bsetBit start (fun t => t.err == 9) = true := by decide +kernel
theorem test_bsetByte : ran .bsetByte (bytes [0x00] (params 0 0 0 2)) (fun t => t.bytes 1 == [0x20]) = true := by
  decide +kernel
theorem test_bsetByte_beyond : ran .bsetByte (bytes [0x00] (params 0 0 0 8)) (fun t => t.err == 9) = true := by
  decide +kernel
theorem test_bclrBit : ran .bclrBit (bits [true, false, true, false] (params 0 0 0 0))
    (fun t => t.bits 4 == [false, false, true, false]) = true := by decide +kernel
theorem test_bclrByte : ran .bclrByte (bytes [0xFF] (params 0 0 0 7)) (fun t => t.bytes 1 == [0xFE]) = true := by
  decide +kernel
theorem test_bflipBit : ran .bflipBit (bits [true, false, true, false] (params 0 0 0 3))
    (fun t => t.bits 4 == [true, false, true, true]) = true := by decide +kernel
theorem test_bflipBit_beyond : ran .bflipBit (bits [true, false, true, false] (params 0 0 0 4))
    (fun t => t.err == 9) = true := by decide +kernel
theorem test_bflipByte : ran .bflipByte (bytes [0x00, 0x00] (params 0 0 0 15))
    (fun t => t.bytes 2 == [0x00, 0x01]) = true := by decide +kernel

theorem test_crcgen8 : ran .crcgen8 (bytes [0x41, 0x42]) (fun t => t.result == 0x87) = true := by decide +kernel
theorem test_crcgen16 : ran .crcgen16 (bytes [0x41, 0x42]) (fun t => t.result == 0x4B74) = true := by decide +kernel
theorem test_crcgen16_empty : ran .crcgen16 start (fun t => t.result == 0xFFFF) = true := by decide +kernel
theorem test_crcgen32 : ran .crcgen32 (bytes [0x41, 0x42]) (fun t => t.result == 0x30694C07) = true := by decide +kernel

theorem test_crcenc8Suf : ran .crcenc8Suf (bytes [0x41, 0x42])
    (fun t => t.byteLen == 3 && t.bytes 3 == [0x41, 0x42, 0x87] && t.result == 0x87) = true := by decide +kernel
theorem test_crcenc8Pre : ran .crcenc8Pre (bytes [0x41, 0x42])
    (fun t => t.byteLen == 3 && t.bytes 3 == [0x87, 0x41, 0x42]) = true := by decide +kernel
theorem test_crcenc16Suf : ran .crcenc16Suf (bytes [0x41, 0x42])
    (fun t => t.byteLen == 4 && t.bytes 4 == [0x41, 0x42, 0x4B, 0x74]) = true := by decide +kernel
theorem test_crcenc16Suf_full : ran .crcenc16Suf { start with byteLen := 15 } (fun t => t.err == 9) = true := by
  decide +kernel
theorem test_crcenc16Pre : ran .crcenc16Pre (bytes [0x41, 0x42])
    (fun t => t.byteLen == 4 && t.bytes 4 == [0x4B, 0x74, 0x41, 0x42] && t.result == 0x4B74) = true := by decide +kernel
theorem test_crcenc32Suf : ran .crcenc32Suf (bytes [0x41, 0x42])
    (fun t => t.byteLen == 6 && t.bytes 6 == [0x41, 0x42, 0x30, 0x69, 0x4C, 0x07]) = true := by decide +kernel
theorem test_crcenc32Pre : ran .crcenc32Pre (bytes [0x41, 0x42])
    (fun t => t.byteLen == 6 && t.bytes 6 == [0x30, 0x69, 0x4C, 0x07, 0x41, 0x42]) = true := by decide +kernel

theorem test_crcchk8Suf : ran .crcchk8Suf (bytes [0x41, 0x42, 0x87]) (fun t => t.result == 1) = true := by decide +kernel
theorem test_crcchk8Suf_short : ran .crcchk8Suf start (fun t => t.result == 0 && t.err == 0) = true := by decide +kernel
theorem test_crcchk8Pre : ran .crcchk8Pre (bytes [0x87, 0x41, 0x42]) (fun t => t.result == 1) = true := by decide +kernel
theorem test_crcchk16Suf : ran .crcchk16Suf (bytes [0x41, 0x42, 0x4B, 0x74]) (fun t => t.result == 1) = true := by
  decide +kernel
theorem test_crcchk16Suf_empty : ran .crcchk16Suf (bytes [0xFF, 0xFF]) (fun t => t.result == 1) = true := by
  decide +kernel
theorem test_crcchk16Pre : ran .crcchk16Pre (bytes [0x4B, 0x74, 0x41, 0x42]) (fun t => t.result == 1) = true := by
  decide +kernel
theorem test_crcchk16Pre_flipped : ran .crcchk16Pre (bytes [0xCB, 0x74, 0x41, 0x42])
    (fun t => t.result == 0 && t.err == 0) = true := by decide +kernel
theorem test_crcchk32Suf : ran .crcchk32Suf (bytes [0x41, 0x42, 0x30, 0x69, 0x4C, 0x07])
    (fun t => t.result == 1) = true := by decide +kernel
theorem test_crcchk32Pre : ran .crcchk32Pre (bytes [0x30, 0x69, 0x4C, 0x07, 0x41, 0x42])
    (fun t => t.result == 1) = true := by decide +kernel

/-- `01 00 00 | 00 00 00`: a whole shard of padding (R171). -/
theorem test_chunk : ran .chunk (bytes [0x01] (params 2 0 3 0)) (fun t => t.shards 0 6 == [1, 0, 0, 0, 0, 0] &&
    t.rows == 2 && t.cols == 3 && t.present == 3 && t.bytesPadded == 5) = true := by decide +kernel
theorem test_chunk_wraps_not : ran .chunk (bytes [0x01] (params 0xFFFFFFFF 1 1 0)) (fun t => t.err == 8) = true := by
  decide +kernel
theorem test_flat : ran .flat (shards 3 2 0x7 [1, 4, 2, 5, 3, 6])
    (fun t => t.byteLen == 6 && t.bytes 6 == [1, 4, 2, 5, 3, 6]) = true := by decide +kernel
theorem test_flat_erased : ran .flat (shards 3 2 0x5 [1, 4, 2, 5, 3, 6]) (fun t => t.err == 9) = true := by decide +kernel
theorem test_unflat : ran .unflat (bytes [1, 4, 2, 5, 3, 6] (shards 3 2 0 []))
    (fun t => t.shards 0 6 == [1, 4, 2, 5, 3, 6] && t.present == 7) = true := by decide +kernel
theorem test_unflat_shape : ran .unflat (bytes [1, 4, 2, 5, 3, 6] (shards 4 2 0 [])) (fun t => t.err == 9) = true := by
  decide +kernel

/-- `4B 74 | 41 42` gets the parity rows `5F 18 | 55 2E` (R195). -/
theorem test_rsenc : ran .rsenc (shards 2 2 3 [0x4B, 0x74, 0x41, 0x42] (params 2 2 2 0))
    (fun t => t.shards 4 4 == [0x5F, 0x18, 0x55, 0x2E] && t.rows == 4 && t.present == 0xF) = true := by decide +kernel

/-- With GF_POLY 0x11B the parity row of `ds = 2, ps = 1` is still `03 02` (R189), and `03 ⊗ 80 = 80 ⊕ 1B = 9B` by hand. -/
theorem test_rsenc_other_field :
    let s := shards 2 1 3 [0x80, 0x00] (params 2 1 1 0);
    ran .rsenc { s with cfg := { s.cfg with gfPoly := 0x11B } } (fun t => t.shardAt 2 == 0x9B && t.err == 0) = true := by
  decide +kernel

/-- The code word of R196's example, with a first row and PRESENT. -/
def codeWord (b0 b4 : Byte) (present pad : Word) : State :=
  shards 4 2 present [b0, 0x74, 0x41, 0x42, b4, 0x18, 0x55, 0x2E] (params 2 2 2 pad)

theorem test_rsdecf : ran .rsdecf (codeWord 0x00 0x00 0xA 0) (fun t => t.shards 0 8 ==
    [0x4B, 0x74, 0x41, 0x42, 0x5F, 0x18, 0x55, 0x2E] && t.present == 0xF && t.recon == 5 &&
    t.bytes 4 == [0x4B, 0x74, 0x41, 0x42] && t.byteLen == 4) = true := by decide +kernel
theorem test_rsdecf_damaged : ran .rsdecf (codeWord 0x4B 0xAA 0xF 0) (fun t => t.err == 3) = true := by decide +kernel
theorem test_rsdecd : ran .rsdecd (codeWord 0x00 0x00 0xA 0) (fun t => t.shards 0 2 == [0x4B, 0x74] &&
    t.shardAt 4 == 0x00 && t.present == 0xB && t.recon == 1 && t.bytes 4 == [0x4B, 0x74, 0x41, 0x42]) = true := by
  decide +kernel
theorem test_rsdecd_too_few : ran .rsdecd (codeWord 0x4B 0x5F 0x8 0) (fun t => t.err == 4) = true := by decide +kernel

theorem test_ilv : ran .ilv (shards 2 3 3 [1, 2, 3, 4, 5, 6]) (fun t => t.shards 0 6 == [1, 4, 2, 5, 3, 6] &&
    t.rows == 3 && t.cols == 2 && t.present == 7) = true := by decide +kernel
theorem test_ilv_no_rows : ran .ilv (shards 0 5 0 []) (fun t => t.err == 0 && t.rows == 5 && t.cols == 0 &&
    t.present == 0x1F) = true := by decide +kernel
theorem test_dilv : ran .dilv (shards 3 2 7 [1, 4, 2, 5, 3, 6]) (fun t => t.shards 0 6 == [1, 2, 3, 4, 5, 6] &&
    t.present == 3) = true := by decide +kernel

theorem test_patgen : ran .patgen { params 2 2 2 0 with pcache := 0x2000 } (fun t => t.pcache == 0x2010) = true := by
  decide +kernel

theorem test_search16Pre : ran .search16Pre (codeWord 0xB4 0x5F 0xF 0) (fun t => t.err == 0 && t.attempts == 1 &&
    t.mask == 0xE && t.bytes 2 == [0x41, 0x42] && t.byteLen == 2 && t.pcache == 0x10) = true := by decide +kernel
theorem test_search16Pre_exhausted : ran .search16Pre (codeWord 0xB4 0x5E 0x7 0) (fun t => t.err == 5 &&
    t.attempts == 16 && t.mask == 0 && t.pcache == 0x10) = true := by decide +kernel

/-- `48 69 | EF 00 | 13 BB` with pad 1: attempt 2 (section 2.7). -/
theorem test_search8Suf : ran .search8Suf (shards 3 2 7 [0x48, 0x69, 0xEF, 0x00, 0x13, 0xBB] (params 2 1 2 1))
    (fun t => t.attempts == 2 && t.mask == 5 && t.bytes 2 == [0x48, 0x69]) = true := by decide +kernel
theorem test_search8Pre : ran .search8Pre (shards 2 2 3 [0x87, 0x41, 0x42, 0x00] (params 2 0 2 1))
    (fun t => t.attempts == 0 && t.bytes 2 == [0x41, 0x42]) = true := by decide +kernel
theorem test_search16Suf : ran .search16Suf (shards 2 2 3 [0x41, 0x42, 0x4B, 0x74] (params 2 0 2 0))
    (fun t => t.attempts == 0 && t.mask == 3 && t.bytes 2 == [0x41, 0x42]) = true := by decide +kernel
theorem test_search32Suf : ran .search32Suf
    (shards 2 3 3 [0x41, 0x42, 0x30, 0x69, 0x4C, 0x07] (params 2 0 3 0))
    (fun t => t.attempts == 0 && t.bytes 2 == [0x41, 0x42]) = true := by decide +kernel
theorem test_search32Pre : ran .search32Pre
    (shards 2 3 3 [0x30, 0x69, 0x4C, 0x07, 0x41, 0x42] (params 2 0 3 0))
    (fun t => t.attempts == 0 && t.bytes 2 == [0x41, 0x42]) = true := by decide +kernel

theorem test_vinit : ran .vinit { conv 3 2 [3, 5] with convFlags := 1 }
    (fun t => t.codec == some ⟨3, [6, 5]⟩ && t.reg .codec == 1) = true := by decide +kernel
theorem test_vinit_drops : ran .vinit { conv 1 2 [7, 5] with codec := some ⟨3, [7, 5]⟩ }
    (fun t => t.err == 8 && t.reg .codec == 0) = true := by decide +kernel

/-- The 36 bits of the empty payload under (3, 2, [7, 5]) (section 2.8). -/
def emptyStream : List Bool :=
  [true, true, false, true, true, false, true, false, true, false, true, false, true, false, true, false, true, false,
   true, false, true, false, true, false, true, false, true, false, true, false, true, false, false, true, true, true]

theorem test_venc : ran .venc { start with codec := some ⟨3, [7, 5]⟩ }
    (fun t => t.bitLen == 36 && t.bits 36 == emptyStream) = true := by decide +kernel
theorem test_vdec : ran .vdec { bits emptyStream with codec := some ⟨3, [7, 5]⟩, byteLen := 3 }
    (fun t => t.err == 0 && t.byteLen == 0) = true := by decide +kernel
theorem test_vdec_short : ran .vdec { start with codec := some ⟨3, [7, 5]⟩ } (fun t => t.err == 6) = true := by
  decide +kernel

/-! ## The machine around a command -/

/-- The state one step later. -/
def next (s : State) : State :=
  match step s with
  | .next t => t
  | _ => s

/-- An accepted command, then its completion: STATUS 1, then 2 (R23, R303). -/
theorem test_step_accept : let t := next { start with schedule := [.host (.writeReg .cmd 0x010), .core] }
    t.status = 1 ∧ (next t).status = 2 ∧ (next t).schedule = [] := by decide +kernel

/-- An illegal word ends at once, ERR 10, STATUS 6 (R106, R312), and the host's next write takes effect, as in program P4 of
the vectors. -/
theorem test_step_illegal :
    let t := next { start with schedule := [.host (.writeReg .cmd 0x310), .host (.writeReg .parityShards 8)] }
    t.err = 10 ∧ t.status = 6 ∧ t.cmd = 0x310 ∧ (next t).parityShards = 8 ∧ (next t).status = 6 := by decide +kernel

/-- A write while BUSY is ignored and sets HERR; a read of STATUS then sees both (R79, R80). -/
theorem test_busy_write : let s := { start with status := 1 }
    s.hostMove (.writeReg .arg0 5) = { s with status := 9 } := by decide +kernel

/-- `1010` through the two views: 01 00 01 00 and 31 30 31 30 (R76). -/
theorem test_views : let s := bits [true, false, true, false]
    [0, 1, 2, 3].map (fun i => (s.hostMove (.busRead (0x500000 + i) 8)).readData) = [1, 0, 1, 0] ∧
    [0, 1, 2, 3].map (fun i => (s.hostMove (.busRead (0x600000 + i) 8)).readData) = [0x31, 0x30, 0x31, 0x30] := by
  decide +kernel

/-- Offset 0x24 is ARG0, 0x84 is POLY[1], 0x60 is unmapped (R22, R72). -/
theorem test_offsets : (start.hostMove (.busWrite 0x400024 32 7)).arg0 = 7 ∧
    (start.hostMove (.busWrite 0x400084 32 5)).poly = [0, 5] ∧
    (start.hostMove (.busRead 0x400060 32)).status = 8 := by decide +kernel

/-- The windows elsewhere: BYTEBUF at the block's first offset, the registers after it (R72). -/
theorem test_other_map : let s := State.initial { small with map := { defaultMap with regs := 0x40, byteBuf := 0 } }
    s.cfg.wellFormed = true ∧ (s.hostMove (.busWrite 0x400003 8 0x5A)).byteAt 3 = 0x5A ∧
    (s.hostMove (.busWrite 0x400064 32 7)).arg0 = 7 := by decide +kernel

/-- A byte-wide read while BUSY gives a byte (R71, R80). -/
theorem test_busy_byte : (({ start with status := 1 } : State).hostMove (.readByte .byteBuf 0)).readData.toNat < 256 := by
  show (Config.unspecifiedRead 0 &&& lowmaskWord 8).toNat < 256
  rw [BitVec.toNat_and]
  exact Nat.lt_of_le_of_lt Nat.and_le_right (by decide)

/-- Ties are broken toward 0 at the end of the message (R256): of `10`, `01` and `11`, each one bit away, `10`. -/
theorem test_viterbi_tie : viterbi ⟨2, [3]⟩ [true, false] = [false] ∧
    viterbi ⟨2, [3]⟩ [true, true, true] = [true, false] := by decide +kernel

/-! ## Host-side functions (section 2.10) -/

theorem test_corrupt : corrupt [true, false, true, false] 2 [0, 3] = some [false, false, true, true] ∧
    corruptBytes [0x41, 0x42] 1 [7] = some [0x40, 0x42] := by decide +kernel

theorem test_assemble : assemble "CRCENC.16.PRE" = some .crcenc16Pre ∧ assemble "CRCENC.16" = none := by decide +kernel

/-! ## Witnesses: states and operands that meet the hypotheses of the statements, clause by clause, at boundary values -/

/-- An erased row below `r`. -/
theorem erased_of {s : State} {i r : Nat} (h : i < r) (h32 : i < 32) (hp : s.present.getLsbD i = false) :
    ∃ i < r, s.rowErased i := ⟨i, h, h32, hp⟩

theorem none_erased {s : State} {r : Nat} (h : s.allPresent r = true) : ∀ i < r, ¬ s.rowErased i := allPresent_iff.1 h

theorem fits {s : State} (h : s.codecParamsOK = true) : s.paramsFit := codecParamsOK_iff.1 h

theorem fits_not {s : State} (h : s.codecParamsOK = false) : ¬ s.paramsFit := by
  rw [← codecParamsOK_iff, h]; simp

theorem conv_fits {s : State} (h : s.convValid = true) : s.convFits := convValid_iff.1 h

theorem conv_fits_not {s : State} (h : s.convValid = false) : ¬ s.convFits := by
  rw [← convValid_iff, h]; simp

theorem witness_StepRunsTheAcceptedCommand :
    (let s : State := { start with status := 1, cmd := 0x20 };
      s.busy = true ∧ decode s.cmd = .ok .chunk ∧ s.schedule = []) ∧
    (let s : State := { start with status := 1, cmd := 0x20, schedule := [.core, .reset] };
      s.busy = true ∧ decode s.cmd = .ok .chunk ∧ s.schedule = .core :: [.reset]) ∧
    (start.busy = false ∧ start.schedule = []) ∧
    (let s : State := { start with schedule := [.core] };
      s.busy = false ∧ s.schedule = .core :: []) ∧
    ({ start with schedule := [.host (.readReg .err)] } : State).schedule = .host (.readReg .err) :: [] := by
  decide +kernel

theorem witness_CmdWriteAcceptsACommand :
    (let s : State := { start with schedule := [.host (.writeReg .cmd 0), .core] };
      s.busy = false ∧ s.schedule = .host (.writeReg .cmd 0) :: .core :: [] ∧ decode 0 = .ok .nop) ∧
    State.busy { start with status := 1 } = true := ⟨⟨rfl, rfl, rfl⟩, rfl⟩

theorem witness_IllegalWordCompletesWithIllegalCommand :
    (∀ i, decode 0x310 ≠ .ok i) ∧ start.busy = false := by
  refine ⟨fun i h => ?_, rfl⟩
  have : decode 0x310 = .error .forbiddenSelector := rfl
  rw [this] at h
  cases h

/-- A longer BITBUF than BYTEBUF can fill, for the operand checks that only such a block can reach. -/
theorem witness_B2bitWritesBytesMostSignificantBitFirst :
    small.wellFormed = true ∧
    (let s : State := { start with byteLen := 17 }; s.cfg.byteCap < s.byteLen.toNat) ∧
    (let s : State := { start with byteLen := 21 }; s.cfg.bitCap < 8 * s.byteLen.toNat) ∧
    (let s : State := { start with byteLen := 16 };
      s.byteLen.toNat ≤ s.cfg.byteCap ∧ 8 * s.byteLen.toNat ≤ s.cfg.bitCap) := by decide +kernel

theorem witness_Bit2bWritesBytesMostSignificantBitFirst :
    small.wellFormed = true ∧
    (let s : State := { start with bitLen := 161 }; s.cfg.bitCap < s.bitLen.toNat) ∧
    (let s : State := { start with bitLen := 1 }; s.bitLen.toNat % 8 ≠ 0) ∧
    (let s : State := { start with bitLen := 136 }; s.cfg.byteCap < s.bitLen.toNat / 8) ∧
    (let s : State := { start with bitLen := 128 };
      s.bitLen.toNat ≤ s.cfg.bitCap ∧ s.bitLen.toNat % 8 = 0 ∧ s.bitLen.toNat / 8 ≤ s.cfg.byteCap) := by decide +kernel

/-- The hypotheses of BSET, BCLR and BFLIP, and of the second clause of BSET. -/
theorem witness_singleBitCommand :
    (let s : State := { start with bitLen := 161 }; s.cfg.bitCap < s.bitLen.toNat) ∧
    (let s : State := { start with bitLen := 4, arg0 := 4 }; s.bitLen.toNat ≤ s.arg0.toNat) ∧
    (let s : State := { start with bitLen := 160, arg0 := 159 };
      s.bitLen.toNat ≤ s.cfg.bitCap ∧ s.arg0.toNat < s.bitLen.toNat) ∧
    (let s : State := { start with byteLen := 17 }; s.cfg.byteCap < s.byteLen.toNat) ∧
    (let s : State := { start with byteLen := 16, arg0 := 128 }; 8 * s.byteLen.toNat ≤ s.arg0.toNat) ∧
    (let s : State := { start with byteLen := 16, arg0 := 127 };
      s.cfg.wellFormed = true ∧ s.byteLen.toNat ≤ s.cfg.byteCap ∧ s.arg0.toNat < 8 * s.byteLen.toNat) := by
  decide +kernel

theorem witness_BflipInvertsTheOneBit :
    let s := bits [true, false] (params 0 0 0 1)
    exec .bflipBit s = .next (after .bflipBit s) ∧
    exec .bflipBit (after .bflipBit s) = .next (after .bflipBit (after .bflipBit s)) :=
  ⟨(exec_after (p := fun t => t.err == 0) (by decide +kernel)).1,
    (exec_after (p := fun t => t.err == 0) (by decide +kernel)).1⟩

theorem witness_ByteBitConversionsAreLossless :
    (let s : State := { start with byteLen := 16 };
      s.cfg.wellFormed = true ∧ s.byteLen.toNat ≤ s.cfg.byteCap ∧ 8 * s.byteLen.toNat ≤ s.cfg.bitCap) ∧
    (let s : State := { start with bitLen := 128 };
      s.cfg.wellFormed = true ∧ s.bitLen.toNat ≤ s.cfg.bitCap ∧ s.bitLen.toNat % 8 = 0 ∧
        s.bitLen.toNat / 8 ≤ s.cfg.byteCap) := by decide +kernel

theorem witness_CrcgenWritesTheCrc :
    (let s : State := { start with byteLen := 17 }; s.cfg.byteCap < s.byteLen.toNat) ∧
    (let s : State := { start with byteLen := 16 }; s.byteLen.toNat ≤ s.cfg.byteCap) := by decide +kernel

theorem witness_CrcencBuildsTheEnvelope :
    small.wellFormed = true ∧
    (let s : State := { start with byteLen := 17 }; s.cfg.byteCap < s.byteLen.toNat) ∧
    (let s : State := { start with byteLen := 15 }; s.cfg.byteCap < s.byteLen.toNat + crcBits .w16 / 8) ∧
    (let s : State := { start with byteLen := 14 }; s.byteLen.toNat + crcBits .w16 / 8 ≤ s.cfg.byteCap) := by
  decide +kernel

/-- FF FF is the envelope of the empty payload: the shortest that matches; one byte is shorter than any CRC-16. -/
theorem witness_CrcchkReportsWhetherTheCrcMatches :
    (let s : State := { start with byteLen := 17 }; s.cfg.byteCap < s.byteLen.toNat) ∧
    (let s := bytes [0xFF, 0xFF];
      s.byteLen.toNat ≤ s.cfg.byteCap ∧ crcBits .w16 / 8 ≤ s.byteLen.toNat ∧
      ∀ k < crcBits .w16 / 8, s.byteAt (crcPlace .suf (s.byteLen.toNat - crcBits .w16 / 8) + k) =
        crcStored (crcOf s.cfg .w16 []) k) ∧
    (let s := bytes [0x41];
      s.byteLen.toNat ≤ s.cfg.byteCap ∧ ¬ crcBits .w16 / 8 ≤ s.byteLen.toNat) := by decide +kernel

theorem witness_OneFlippedChecksumBitNeverVerifies :
    (0 < 8 * (crcBits .w16 / 8) ∧
      corruptBytes (envMake small .w16 .suf []) 1 [8 * crcPlace .suf 0 + 0] = some [0x7F, 0xFF]) ∧
    (15 < 8 * (crcBits .w16 / 8) ∧
      corruptBytes (envMake small .w16 .pre [0x41]) 1 [8 * crcPlace .pre 1 + 15] = some [0xB9, 0x14, 0x41]) := by
  decide +kernel

theorem witness_CrcchkCatchesAFlippedChecksumBit :
    (let s : State := { start with byteLen := 14, arg0 := 112 };
      s.cfg.wellFormed = true ∧ s.byteLen.toNat + crcBits .w16 / 8 ≤ s.cfg.byteCap ∧
      8 * crcPlace .suf s.byteLen.toNat ≤ s.arg0.toNat ∧
      s.arg0.toNat < 8 * (crcPlace .suf s.byteLen.toNat + crcBits .w16 / 8)) ∧
    (let s : State := { start with byteLen := 0, arg0 := 31 };
      s.byteLen.toNat + crcBits .w32 / 8 ≤ s.cfg.byteCap ∧ 8 * crcPlace .pre s.byteLen.toNat ≤ s.arg0.toNat ∧
      s.arg0.toNat < 8 * (crcPlace .pre s.byteLen.toNat + crcBits .w32 / 8)) := by decide +kernel

theorem witness_ChunkSplitsAndPads :
    start.cfg.wellFormed = true ∧ ¬ start.paramsFit ∧
    (let s : State := { params 4 0 4 0 with byteLen := 17 }; s.paramsFit ∧ s.cfg.byteCap < s.byteLen.toNat) ∧
    (let s := params 1 3 1 0; s.paramsFit ∧ s.byteLen.toNat ≤ s.cfg.byteCap ∧ s.byteLen.toNat = 0) ∧
    (let s : State := { params 1 3 1 0 with byteLen := 2 };
      s.paramsFit ∧ s.byteLen.toNat ≤ s.cfg.byteCap ∧ s.dataShards.toNat * s.chunkSize.toNat < s.byteLen.toNat) ∧
    (let s : State := { params 4 0 4 0 with byteLen := 16 };
      s.paramsFit ∧ s.byteLen.toNat ≤ s.cfg.byteCap ∧ s.byteLen.toNat ≠ 0 ∧
      s.byteLen.toNat ≤ s.dataShards.toNat * s.chunkSize.toNat) :=
  ⟨by decide +kernel, fits_not (by decide +kernel), ⟨fits (by decide +kernel), by decide +kernel⟩,
    ⟨fits (by decide +kernel), by decide +kernel, by decide +kernel⟩,
    ⟨fits (by decide +kernel), by decide +kernel, by decide +kernel⟩,
    ⟨fits (by decide +kernel), by decide +kernel, by decide +kernel, by decide +kernel⟩⟩

theorem witness_FlatCopiesTheRows :
    small.wellFormed = true ∧
    (let s := shards 17 1 0 []; s.cfg.shardCap < s.rows.toNat * s.cols.toNat) ∧
    (∃ i < 4, (shards 4 4 0x7 []).rowErased i) ∧
    (let s := shards 4 4 0xF [];
      s.rows.toNat * s.cols.toNat ≤ s.cfg.shardCap ∧ ∀ i < s.rows.toNat, ¬ s.rowErased i) :=
  ⟨by decide, by decide +kernel, erased_of (i := 3) (by decide) (by decide) (by decide +kernel), by decide +kernel,
    none_erased (by decide +kernel)⟩

theorem witness_UnflatCopiesTheBytes :
    small.wellFormed = true ∧
    (let s : State := { start with byteLen := 17 }; s.cfg.byteCap < s.byteLen.toNat) ∧
    (let s := shards 17 1 0 []; s.cfg.shardCap < s.rows.toNat * s.cols.toNat) ∧
    (let s := shards 1 1 0 []; s.byteLen.toNat ≠ s.rows.toNat * s.cols.toNat) ∧
    (let s : State := { shards 4 4 0 [] with byteLen := 16 };
      s.byteLen.toNat ≤ s.cfg.byteCap ∧ s.rows.toNat * s.cols.toNat ≤ s.cfg.shardCap ∧
      s.byteLen.toNat = s.rows.toNat * s.cols.toNat) := by decide +kernel

theorem witness_ChunkerLaws :
    (let s := bytes [0x01] (params 2 0 3 0); let s' : State := { s with arg0 := 9 };
      s.cfg.wellFormed = true ∧ exec .chunk s = .next (after .chunk s) ∧ (after .chunk s).err = 0 ∧
      s'.cfg.wellFormed = true ∧ s'.dataShards = s.dataShards ∧ s'.chunkSize = s.chunkSize ∧ s'.byteLen = s.byteLen ∧
      (∀ k < s.byteLen.toNat, s'.byteAt k = s.byteAt k) ∧ exec .chunk s' = .next (after .chunk s') ∧
      (after .chunk s').err = 0) ∧
    (let s := shards 3 2 0x7 [1, 4, 2, 5, 3, 6];
      s.cfg.wellFormed = true ∧ exec .flat s = .next (after .flat s) ∧ (after .flat s).err = 0) :=
  ⟨⟨by decide +kernel, (exec_after (p := fun t => t.err == 0) (by decide +kernel)).1, by decide +kernel,
    by decide +kernel, rfl, rfl, rfl, fun _ _ => rfl, (exec_after (p := fun t => t.err == 0) (by decide +kernel)).1,
    by decide +kernel⟩,
    ⟨by decide +kernel, (exec_after (p := fun t => t.err == 0) (by decide +kernel)).1, by decide +kernel⟩⟩

theorem witness_BytesAreAField :
    GfPoly.isFieldPoly 0x11B = true ∧ gmul 0x11B 0x53 0xCA = 1 ∧
    (0x02 : Byte) ≠ 0 ∧ gmul 0x11D 0x02 0x8E = 1 ∧ (8 < 255 ∧ gpow 0x11D 2 8 = 0x1D) := by decide +kernel

theorem witness_AnyRowsOfTheGeneratorAreInvertible :
    (GfPoly.isFieldPoly 0x11D = true ∧ GfPoly.isFieldPoly 0x11B = true) ∧
    (1 ≤ 1 ∧ 1 + 255 ≤ 256 ∧ ([255] : List Nat).Pairwise (· < ·) ∧ ([255] : List Nat).length = 1 ∧
      ∀ r ∈ ([255] : List Nat), r < 1 + 255) ∧
    (1 ≤ 2 ∧ 2 + 2 ≤ 256 ∧ ([1, 3] : List Nat).Pairwise (· < ·) ∧ ([1, 3] : List Nat).length = 2 ∧
      ∀ r ∈ ([1, 3] : List Nat), r < 2 + 2) := by decide

theorem witness_RsencAppendsTheParityRows :
    start.cfg.wellFormed = true ∧ ¬ start.paramsFit ∧
    (let s := shards 4 2 0xF [] (params 2 2 2 0); s.paramsFit ∧ s.rows.toNat ≠ s.dataShards.toNat) ∧
    (let s := shards 2 3 0x3 [] (params 2 2 2 0); s.paramsFit ∧ s.cols.toNat ≠ s.chunkSize.toNat) ∧
    (let s := shards 2 2 0x1 [] (params 2 2 2 0); s.paramsFit ∧ ∃ i < s.dataShards.toNat, s.rowErased i) ∧
    (let s := shards 2 4 0x3 [] (params 2 2 4 0);
      s.paramsFit ∧ s.rows.toNat = s.dataShards.toNat ∧ s.cols.toNat = s.chunkSize.toNat ∧
      ∀ i < s.dataShards.toNat, ¬ s.rowErased i) :=
  ⟨by decide, fits_not (by decide +kernel), ⟨fits (by decide +kernel), by decide +kernel⟩,
    ⟨fits (by decide +kernel), by decide +kernel⟩,
    ⟨fits (by decide +kernel), erased_of (i := 1) (by decide) (by decide) (by decide +kernel)⟩,
    ⟨fits (by decide +kernel), by decide +kernel, by decide +kernel, none_erased (by decide +kernel)⟩⟩

/-- The example's code word is ready to be decoded, with nothing, with rows, and with too many rows erased; and it fails to
verify when a byte of a present row is damaged. -/
def decodes (s : State) : Prop :=
  s.paramsFit ∧ s.rows.toNat = s.n ∧ s.cols.toNat = s.cs ∧ s.arg0.toNat ≤ s.ds * s.cs

theorem decodes_of {s : State}
    (h : (s.codecParamsOK && s.hasShape s.n s.cs && decide (s.arg0.toNat ≤ s.ds * s.cs)) = true) : decodes s := by
  simp only [Bool.and_eq_true, decide_eq_true_eq] at h
  exact ⟨codecParamsOK_iff.1 h.1.1, (hasShape_iff.1 h.1.2).1, (hasShape_iff.1 h.1.2).2, h.2⟩

/-- The rows RSDECF verifies. -/
def repairedRows (s : State) (d : List (List Byte)) : List (List Byte) :=
  (List.range s.n).map fun i =>
    if i ∈ s.rowsKept s.n then (s.shardRows s.n s.cs).getD i [] else (rsEncode s.cfg.gfPoly s.ds s.ps s.cs d).getD i []

/-- Rows for `rs_data`, `rs_encode` and `rs_verify`: as many available as data rows, fewer, and more. -/
theorem witness_rsFunctions :
    (1 ≤ 2 ∧ 2 + 2 ≤ 256) ∧ isMatrix (2 + 2) 2 [[0x4B, 0x74], [0x41, 0x42], [0x5F, 0x18], [0x55, 0x2E]] ∧
    isMatrix 2 2 [[0x4B, 0x74], [0x41, 0x42]] ∧
    (∀ a ∈ [[1, 3], [3], [0, 1, 3]], (a : List Nat).Pairwise (· < ·) ∧ ∀ i ∈ a, i < 2 + 2) :=
  ⟨by decide, ⟨rfl, by decide⟩, ⟨rfl, by decide⟩, by decide⟩

theorem witness_RsdecfRepairsEveryErasedRow :
    start.cfg.wellFormed = true ∧ ¬ start.paramsFit ∧
    (let s := shards 3 2 0x7 [] (params 2 2 2 0); s.paramsFit ∧ s.rows.toNat ≠ s.n) ∧
    (let s := shards 4 1 0xF [] (params 2 2 2 0); s.paramsFit ∧ s.cols.toNat ≠ s.cs) ∧
    (let s := codeWord 0 0 0xF 5; s.paramsFit ∧ s.ds * s.cs < s.arg0.toNat) ∧
    (let s := codeWord 0 0 0x8 4;
      decodes s ∧ rsData s.cfg.gfPoly s.ds s.ps s.cs (s.shardRows s.n s.cs) (s.rowsKept s.n) = none) ∧
    (let s := codeWord 0x4B 0xAA 0xF 4; let d : List (List Byte) := [[0x4B, 0x74], [0x41, 0x42]];
      decodes s ∧ rsData s.cfg.gfPoly s.ds s.ps s.cs (s.shardRows s.n s.cs) (s.rowsKept s.n) = some d ∧
      rsVerify s.cfg.gfPoly s.ds s.ps s.cs (repairedRows s d) = false) ∧
    (let s := codeWord 0x00 0x00 0xA 4; let d : List (List Byte) := [[0x4B, 0x74], [0x41, 0x42]];
      decodes s ∧ rsData s.cfg.gfPoly s.ds s.ps s.cs (s.shardRows s.n s.cs) (s.rowsKept s.n) = some d ∧
      rsVerify s.cfg.gfPoly s.ds s.ps s.cs (repairedRows s d) = true ∧ 0 < s.n ∧ s.rowErased 0 ∧ 0 < s.cs) :=
  ⟨by decide, fits_not (by decide +kernel), ⟨fits (by decide +kernel), by decide +kernel⟩,
    ⟨fits (by decide +kernel), by decide +kernel⟩, ⟨fits (by decide +kernel), by decide +kernel⟩,
    ⟨decodes_of (by decide +kernel), by decide +kernel⟩, ⟨decodes_of (by decide +kernel), by decide +kernel, by decide +kernel⟩,
    ⟨decodes_of (by decide +kernel), by decide +kernel, by decide +kernel, by decide, ⟨by decide, by decide +kernel⟩, by decide⟩⟩

theorem witness_RsdecdRepairsTheErasedDataRows :
    (let s := codeWord 0 0 0x8 4;
      s.cfg.wellFormed = true ∧ decodes s ∧
      rsData s.cfg.gfPoly s.ds s.ps s.cs (s.shardRows s.n s.cs) (s.rowsKept s.n) = none) ∧
    (let s := codeWord 0x00 0x00 0xA 4;
      decodes s ∧ s.rowErased 0 ∧
      rsData s.cfg.gfPoly s.ds s.ps s.cs (s.shardRows s.n s.cs) (s.rowsKept s.n) = some [[0x4B, 0x74], [0x41, 0x42]]) ∧
    (let s := codeWord 0 0 0xF 5; s.paramsFit ∧ s.ds * s.cs < s.arg0.toNat) ∧ ¬ start.paramsFit :=
  ⟨⟨by decide, decodes_of (by decide +kernel), by decide +kernel⟩,
    ⟨decodes_of (by decide +kernel), ⟨by decide, by decide +kernel⟩, by decide +kernel⟩,
    ⟨fits (by decide +kernel), by decide +kernel⟩, fits_not (by decide +kernel)⟩

theorem witness_ReconstructionFailsExactlyOnTooManyErasures :
    (codeWord 0x4B 0x5F 0x8 4).cfg.wellFormed = true ∧ decodes (codeWord 0x4B 0x5F 0x8 4) ∧
    (codeWord 0x4B 0x5F 0x8 4).ps < ((List.range 4).filter fun k => !(0x8 : Word).getLsbD k).length ∧
    decodes (codeWord 0x4B 0x5F 0xA 4) ∧
    ¬ (codeWord 0x4B 0x5F 0xA 4).ps < ((List.range 4).filter fun k => !(0xA : Word).getLsbD k).length :=
  ⟨by decide, decodes_of (by decide +kernel), by decide +kernel, decodes_of (by decide +kernel), by decide +kernel⟩

theorem witness_ChunkEncodeDecodeRoundTrip :
    (let s : State := { params 2 2 4 0 with byteLen := 1 };
      s.cfg.wellFormed = true ∧ s.paramsFit ∧ 0 < s.byteLen.toNat ∧ s.byteLen.toNat ≤ s.ds * s.cs) ∧
    (let s : State := { params 4 0 4 0 with byteLen := 16 };
      s.paramsFit ∧ 0 < s.byteLen.toNat ∧ s.byteLen.toNat ≤ s.ds * s.cs) :=
  ⟨⟨by decide, fits (by decide +kernel), by decide +kernel, by decide +kernel⟩,
    ⟨fits (by decide +kernel), by decide +kernel, by decide +kernel⟩⟩

theorem example_rsEncode : rsEncode 0x11D 2 2 2 [[0x4B, 0x74], [0x41, 0x42]] =
    [[0x4B, 0x74], [0x41, 0x42], [0x5F, 0x18], [0x55, 0x2E]] := by decide +kernel

/-- The bytes of the present rows of the example are those of the code word. -/
theorem example_agrees (p : Word) (hp : p = 0xA ∨ p = 0x8) : let s := codeWord 0x00 0x00 p 4;
    ∀ i b, i < s.n → ¬ s.rowErased i → b < s.cs →
      s.shardAt (i * s.cs + b) = entry (rsEncode s.cfg.gfPoly s.ds s.ps s.cs [[0x4B, 0x74], [0x41, 0x42]]) i b := by
  intro s i b hi he hb
  have hi' : i < 4 := hi
  have hb' : b < 2 := hb
  show s.shardAt (i * 2 + b) = entry (rsEncode 0x11D 2 2 2 [[0x4B, 0x74], [0x41, 0x42]]) i b
  rw [example_rsEncode]
  have hpres : p.getLsbD i = true := by
    by_contra hc
    exact he ⟨by omega, (Bool.not_eq_true _).mp hc⟩
  rcases hp with rfl | rfl <;> interval_cases i <;> interval_cases b <;> first | rfl | (revert hpres; decide)

/-- The two erasure counts on either side of the boundary: `ps = 2` and 3 of the four rows. -/
theorem witness_ErasuresUpToTheParityAreTolerated :
    let d : List (List Byte) := [[0x4B, 0x74], [0x41, 0x42]]
    (∀ p, p = (0xA : Word) ∨ p = 0x8 → let s := codeWord 0x00 0x00 p 4;
      d.length = s.ds ∧ (∀ row ∈ d, row.length = s.cs) ∧
      ∀ i b, i < s.n → ¬ s.rowErased i → b < s.cs →
        s.shardAt (i * s.cs + b) = entry (rsEncode s.cfg.gfPoly s.ds s.ps s.cs d) i b) ∧
    ((List.range 4).filter fun k => !(0xA : Word).getLsbD k).length ≤ 2 ∧
    2 < ((List.range 4).filter fun k => !(0x8 : Word).getLsbD k).length ∧
    small.wellFormed = true ∧ decodes (codeWord 0x00 0x00 0xA 4) ∧ decodes (codeWord 0x00 0x00 0x8 4) :=
  ⟨fun p hp => ⟨rfl, by simp; rfl, example_agrees p hp⟩, by decide +kernel, by decide +kernel, by decide,
    decodes_of (by decide +kernel), decodes_of (by decide +kernel)⟩

theorem witness_InterleavingTransposes :
    small.wellFormed = true ∧
    (let s := shards 1 17 0x1 []; s.cfg.shardCap < s.rows.toNat * s.cols.toNat) ∧
    (∃ r < 2, (shards 2 3 0x1 []).rowErased r) ∧
    (let s := shards 4 4 0xF [];
      s.rows.toNat * s.cols.toNat ≤ s.cfg.shardCap ∧ ∀ r < s.rows.toNat, ¬ s.rowErased r) :=
  ⟨by decide, by decide +kernel, erased_of (i := 1) (by decide) (by decide) (by decide +kernel), by decide +kernel,
    none_erased (by decide +kernel)⟩

theorem witness_EveryKeepMaskOccursOnce : 3 < 2 ^ 2 ∧ 1 < 2 ∧ keepMask 2 3 = 0 := by decide

theorem witness_PatgenSetsTheCacheBit :
    start.cfg.wellFormed = true ∧ ¬ start.paramsFit ∧ (params 1 3 4 0).paramsFit ∧
    (let s : State := { params 1 3 4 0 with pcache := 0x10 }; s.paramsFit ∧ s.pcache.getLsbD s.n = true) :=
  ⟨by decide, fits_not (by decide +kernel), fits (by decide +kernel), fits (by decide +kernel), by decide +kernel⟩

/-- No candidate of `s` in attempt `j` is an envelope. -/
theorem no_candidate {s : State} {w : CrcWidth} {pos : EnvPos} {j : Nat}
    (h : ((s.candidate j).bind fun e => envOpen s.cfg w pos e) = none) (p : List Byte) :
    s.candidate j ≠ some (envMake s.cfg w pos p) := by
  intro hc
  rw [hc, Option.bind_some, envOpen_envMake] at h
  cases h

/-- The damaged code word of R234's example: attempt 0 has no envelope, attempt 1 has that of 41 42; with three rows erased no
attempt has one. -/
theorem witness_SearchAcceptsTheFirstVerifyingAttempt :
    start.cfg.wellFormed = true ∧ ¬ start.paramsFit ∧
    (let s := codeWord 0xB4 0x5F 0xF 3; s.paramsFit ∧ s.ds * s.cs < s.arg0.toNat + crcBits .w16 / 8) ∧
    (let s := shards 3 2 0x7 [] (params 2 2 2 0); s.paramsFit ∧ s.rows.toNat ≠ s.n) ∧
    (let s := shards 4 3 0xF [] (params 2 2 2 0); s.paramsFit ∧ s.cols.toNat ≠ s.cs) ∧
    (let s := codeWord 0xB4 0x5F 0x1 2;
      s.paramsFit ∧ s.rows.toNat = s.n ∧ s.cols.toNat = s.cs ∧ s.arg0.toNat + crcBits .w16 / 8 ≤ s.ds * s.cs ∧
      ∀ j < 2 ^ s.n, ∀ p, s.candidate j ≠ some (envMake s.cfg .w16 .pre p)) ∧
    (let s := codeWord 0xB4 0x5F 0xF 0;
      s.paramsFit ∧ s.rows.toNat = s.n ∧ s.cols.toNat = s.cs ∧ s.arg0.toNat + crcBits .w16 / 8 ≤ s.ds * s.cs ∧
      1 < 2 ^ s.n ∧ s.candidate 1 = some (envMake s.cfg .w16 .pre [0x41, 0x42]) ∧
      ∀ j < 1, ∀ p, s.candidate j ≠ some (envMake s.cfg .w16 .pre p)) := by
  have key : ∀ j < 16, (((codeWord 0xB4 0x5F 0x1 2).candidate j).bind fun e =>
      envOpen (codeWord 0xB4 0x5F 0x1 2).cfg .w16 .pre e) = none := by decide +kernel
  have key' : ∀ j < 1, (((codeWord 0xB4 0x5F 0xF 0).candidate j).bind fun e =>
      envOpen (codeWord 0xB4 0x5F 0xF 0).cfg .w16 .pre e) = none := by decide +kernel
  exact ⟨by decide, fits_not (by decide +kernel), ⟨fits (by decide +kernel), by decide +kernel⟩,
    ⟨fits (by decide +kernel), by decide +kernel⟩, ⟨fits (by decide +kernel), by decide +kernel⟩,
    ⟨fits (by decide +kernel), by decide +kernel, by decide +kernel, by decide +kernel, fun j hj => no_candidate (key j hj)⟩,
    ⟨fits (by decide +kernel), by decide +kernel, by decide +kernel, by decide +kernel, by decide, by decide +kernel, fun j hj => no_candidate (key' j hj)⟩⟩

theorem witness_SearchIsAFunctionOfItsOperands :
    let s := codeWord 0xB4 0x5F 0xF 0; let s' : State := { s with bitLen := 7, result := 3 };
    s'.cfg = s.cfg ∧ s'.dataShards = s.dataShards ∧ s'.parityShards = s.parityShards ∧
    s'.chunkSize = s.chunkSize ∧ s'.arg0 = s.arg0 ∧ s'.rows = s.rows ∧ s'.cols = s.cols ∧ s'.present = s.present ∧
    (∀ k < s.n * s.cs, s'.shardAt k = s.shardAt k) ∧ s ≠ s' ∧ (after .search16Pre s).err = 0 ∧
    (after .search16Pre (codeWord 0xB4 0x5F 0x1 0)).err = Err.decodeExhausted.code :=
  ⟨rfl, rfl, rfl, rfl, rfl, rfl, rfl, rfl, fun _ _ => rfl, by decide +kernel, by decide +kernel, by decide +kernel⟩

/-- K at its two ends, `m` at its two ends, a polynomial at 1 and at `2^K - 1`. -/
theorem witness_VinitLatchesOrDropsTheCodec :
    start.cfg.wellFormed = true ∧ ¬ (conv 1 1 [1, 0]).convFits ∧ ¬ (conv 5 1 [1, 0]).convFits ∧
    ¬ (conv 2 3 [1, 1]).convFits ∧ ¬ (conv 2 1 [4, 0]).convFits ∧
    (conv 2 1 [1, 0]).convFits ∧ (conv 4 2 [15, 1]).convFits ∧ (0 < 2 ∧ 31 < 32) :=
  ⟨by decide, conv_fits_not (by decide +kernel), conv_fits_not (by decide +kernel), conv_fits_not (by decide +kernel),
    conv_fits_not (by decide +kernel), conv_fits (by decide +kernel), conv_fits (by decide +kernel), by decide⟩

theorem valid_75 : Codec.valid small ⟨3, [7, 5]⟩ := by
  refine ⟨by decide, by decide, by decide, by decide, fun e he => ?_⟩
  simp only [List.mem_cons, List.not_mem_nil, or_false] at he
  rcases he with rfl | rfl <;> exact ⟨by decide +kernel, by decide +kernel⟩

theorem valid_1 : Codec.valid small ⟨2, [1]⟩ := by
  refine ⟨by decide, by decide, by decide, by decide, fun e he => ?_⟩
  rw [List.mem_singleton.1 he]
  exact ⟨by decide +kernel, by decide +kernel⟩

theorem witness_ConvEncodeIsAConvolution :
    small.wellFormed = true ∧ Codec.valid small ⟨3, [7, 5]⟩ ∧
    (let c : Codec := ⟨3, [7, 5]⟩; let u := [true, false, true, true];
      0 < u.length + c.k - 1 ∧ 5 < u.length + c.k - 1 ∧ 0 < c.m ∧ 1 < c.m) :=
  ⟨by decide, valid_75, by decide⟩

theorem witness_TrellisHasTwoPredecessorsPerState :
    let c : Codec := ⟨3, [7, 5]⟩;
    2 ≤ c.k ∧ 3 < 2 ^ (c.k - 1) ∧ 2 < 2 ^ (c.k - 1) ∧ c.next 2 true = 3 := by decide

theorem witness_VencEncodesTheEnvelope :
    start.cfg.wellFormed = true ∧ start.codec = none ∧
    (let c : Codec := ⟨3, [7, 5]⟩;
      c.valid small ∧
      (let s : State := { start with codec := some c, byteLen := 17 }; s.cfg.byteCap < s.byteLen.toNat) ∧
      (let s : State := { start with codec := some c, byteLen := 8 };
        s.cfg.bitCap < c.m * (8 * (s.byteLen.toNat + 2) + c.k - 1)) ∧
      (let s : State := { start with codec := some c, byteLen := 7 };
        s.codec = some c ∧ s.byteLen.toNat ≤ s.cfg.byteCap ∧
        c.m * (8 * (s.byteLen.toNat + 2) + c.k - 1) ≤ s.cfg.bitCap)) :=
  ⟨by decide, rfl, valid_75, by decide +kernel, by decide +kernel, by decide +kernel⟩

/-- `tooLong` needs one output bit per message bit: `m = 1`. The last clause is the stream of the empty payload. -/
theorem witness_VdecDecodesAndChecksTheCrc :
    start.cfg.wellFormed = true ∧ start.codec = none ∧ Codec.valid small ⟨3, [7, 5]⟩ ∧ Codec.valid small ⟨2, [1]⟩ ∧
    (let s : State := { start with bitLen := 161 }; s.cfg.bitCap < s.bitLen.toNat) ∧
    (let lm := ((153 : Word).toNat + 1 - 1) / 1 - (2 - 1); lm % 8 = 0 ∧ small.byteCap + 2 < lm / 8) ∧
    (let lm := ((0 : Word).toNat + 2 - 1) / 2 - (3 - 1); lm < 16) ∧
    (let lm := ((38 : Word).toNat + 2 - 1) / 2 - (3 - 1); lm % 8 ≠ 0) ∧
    (let r := (emptyStream.take 34) ++ [false, false];
      envOpen small .w16 .suf (bytesOfBits (viterbi ⟨3, [7, 5]⟩ (List.replicate 36 false))) = none ∧ r.length = 36) ∧
    (let s := bits emptyStream; let lm := (s.bitLen.toNat + 2 - 1) / 2 - (3 - 1)
      s.bitLen.toNat ≤ s.cfg.bitCap ∧ ¬ (lm % 8 = 0 ∧ s.cfg.byteCap + 2 < lm / 8) ∧ 16 ≤ lm ∧ lm % 8 = 0 ∧
      bytesOfBits (viterbi ⟨3, [7, 5]⟩ (s.bits s.bitLen.toNat)) = envMake s.cfg .w16 .suf []) :=
  ⟨by decide, rfl, valid_75, valid_1, by decide +kernel, by decide +kernel,
    by decide +kernel, by decide +kernel, by decide +kernel, by decide +kernel⟩

/-- One block more than the flush bits, and exactly the flush bits. -/
theorem witness_ViterbiIsMaximumLikelihood :
    small.wellFormed = true ∧ Codec.valid small ⟨3, [7, 5]⟩ ∧
    (3 - 1 ≤ (([true, false, true, true, false] : List Bool).length + 2 - 1) / 2 ∧
      ([true] : List Bool).length = (5 + 2 - 1) / 2 - (3 - 1)) ∧
    (3 - 1 ≤ (([true, false, true, true] : List Bool).length + 2 - 1) / 2 ∧
      ([] : List Bool).length = (4 + 2 - 1) / 2 - (3 - 1)) := ⟨by decide, valid_75, by decide, by decide⟩

/-- Two messages equally near. -/
theorem witness_ViterbiIsMaximumLikelihood_tie :
    let c : Codec := ⟨2, [3]⟩; let r : List Bool := [true, true, true];
    c.valid small ∧ ([false, true] : List Bool).length = (r.length + 1 - 1) / 1 - (2 - 1) ∧ [false, true] ≠ viterbi c r ∧
    hamming (convEncode c [false, true]) r = hamming (convEncode c (viterbi c r)) r := by
  refine ⟨⟨by decide, by decide, by decide, by decide, ?_⟩, by decide, by decide +kernel, by decide +kernel⟩
  intro e he
  simp only [List.mem_singleton] at he
  subst he
  decide

theorem witness_ConvolutionalRoundTrip :
    let c : Codec := ⟨3, [7, 5]⟩; let s : State := { start with codec := some c };
    s.cfg.wellFormed = true ∧ s.codec = some c ∧ c.valid s.cfg ∧ exec .venc s = .next (after .venc s) ∧
    (after .venc s).err = 0 :=
  ⟨by decide, rfl, valid_75, (exec_after (p := fun t => t.err == 0) (by decide +kernel)).1, by decide +kernel⟩

theorem witness_ErroringCommandsChangeNothingElse :
    (let s := start;
      exec .chunk s = .next (after .chunk s) ∧ (after .chunk s).err ≠ 0) ∧
    (exec .vinit start = .next (after .vinit start) ∧ (after .vinit start).err ≠ 0) ∧
    (exec .search8Suf start = .next (after .search8Suf start) ∧ (after .search8Suf start).err ≠ 0 ∧
      (after .search8Suf start).err ≠ Err.decodeExhausted.code) ∧
    (let s := codeWord 0xB4 0x5F 0x1 0;
      exec .search16Pre s = .next (after .search16Pre s) ∧
      (after .search16Pre s).err = Err.decodeExhausted.code) ∧
    illegalCompletion start = .next (start.complete 10) :=
  ⟨⟨(exec_after (p := fun t => t.err == 8) (by decide +kernel)).1, by decide +kernel⟩,
    ⟨(exec_after (p := fun t => t.err == 8) (by decide +kernel)).1, by decide +kernel⟩,
    ⟨(exec_after (p := fun t => t.err == 8) (by decide +kernel)).1, by decide +kernel, by decide +kernel⟩,
    ⟨(exec_after (p := fun t => t.err == 5) (by decide +kernel)).1, by decide +kernel⟩, rfl⟩

theorem witness_HerrChangesNoResult : exec .nop start = .next (after .nop start) := rfl

theorem witness_ResetEventAndWhatOnlyItDoes :
    ({ start with schedule := [.reset, .core] } : State).schedule = .reset :: .core :: [] ∧
    (let s : State := { start with status := 0x9, cmd := 0x50, pcache := 0x10 };
      s.schedule.head? ≠ some .reset ∧ step s = .next (next s) ∧ s.herr = true ∧ s.pcache.getLsbD 4 = true ∧
      s.busy = true) := by
  refine ⟨rfl, by decide, ?_, by decide, by decide, by decide⟩
  rfl

/-- A state other than the reset state that meets the invariant, with a step from it. -/
theorem witness_EveryStepKeepsTheInvariant :
    let s : State := { bytes [0x41, 0x42] with status := 0x1, cmd := 0x10, poly := [7, 5], codec := some ⟨3, [7, 5]⟩ };
    s.Inv ∧ step s = .next (next s) := by
  refine ⟨⟨by decide, ?_, ?_, fun _ => ⟨.crcgen8, rfl⟩, by decide, by decide, by decide, by decide, ?_⟩, rfl⟩
  · refine ⟨?_, ?_, List.Pairwise.nil, fun _ h => (by cases h), List.Pairwise.nil, fun _ h => (by cases h)⟩
    · decide
    · show ∀ c ∈ [((0 : Nat), (0x41 : Byte)), (1, 0x42)], c.1 < 16
      decide
  · exact ⟨by decide, by decide, by decide, by decide, by decide⟩
  · intro c hc
    cases hc
    exact valid_75

/-- Offsets where the ranges of the map meet: in the register window the wrong width, a wrong alignment, the hole and the offset
after the POLY file; outside it the wrong width, and the offsets before and after each window. -/
theorem witness_HostViolationsOnlySetHerr :
    let apartFrom : Nat → Nat → Nat → Prop := fun start size off => off < start ∨ start + size ≤ off;
    start.cfg.wellFormed = true ∧ State.busy { start with status := 1 } = true ∧
    (Reg.caps ∈ [Reg.status, .err, .recon, .bytesPadded, .attempts, .result, .mask, .pcache, .codec, .ident, .caps]) ∧
    ((0x02 : Byte) ≠ bitSymbol .int false ∧ (0x02 : Byte) ≠ bitSymbol .int true ∧
      (0x01 : Byte) ≠ bitSymbol .chr false ∧ (0x01 : Byte) ≠ bitSymbol .chr true) ∧
    ((0xFF : Nat) < 0x100 ∧ (8 : Nat) ≠ 32 ∧ 0x02 % 4 ≠ 0 ∧ 0x60 ≤ 0x60 ∧ 0x7C < 0x80 ∧ 0x80 + 4 * small.npolyMax ≤ 0x88) ∧
    (0x10000 < small.map.span ∧ apartFrom small.map.regs 0x100 0x10000 ∧ (32 : Nat) ≠ 8) ∧
    ∀ off ∈ [0x100, 0xFFFF, 0x10010, 0x1FFFF, 0x20010, 0xFFFFF, 0x1000A0, 0x1FFFFF, 0x2000A0, 0x2FFFFF],
      off < small.map.span ∧ apartFrom small.map.regs 0x100 off ∧ apartFrom small.map.byteBuf small.byteCap off ∧
        apartFrom small.map.shardMem small.shardCap off ∧ apartFrom small.map.bitInt small.bitCap off ∧
        apartFrom small.map.bitChr small.bitCap off := by
  intro apartFrom
  simp only [apartFrom]
  decide +kernel

theorem witness_ReadsHaveNoSideEffect :
    (∃ r, HostMove.readReg .caps = .readReg r) ∧ State.busy { start with status := 1 } = true ∧ start.busy = false ∧
    Reg.caps ≠ .status ∧ (∀ j, Reg.caps ≠ .poly j) ∧ 1 < small.npolyMax ∧ 15 < small.byteCap ∧
    15 < small.shardCap ∧ 159 < small.bitCap ∧
    (shards 2 2 0x2 []).liesInErasedRow 1 ∧ ¬ (shards 2 2 0x2 []).liesInErasedRow 2 := by
  refine ⟨⟨_, rfl⟩, by decide, by decide, by decide, by simp, by decide, by decide, by decide, by decide, ?_, ?_⟩
  · exact ⟨by decide, by decide, by decide, by decide⟩
  · rintro ⟨-, -, -, h⟩
    revert h
    decide

theorem witness_AddressMapReachesTheNamedElements :
    start.cfg.wellFormed = true ∧
    0 < small.npolyMax ∧ 1 < small.npolyMax ∧ 15 < small.byteCap ∧ 15 < small.shardCap ∧ 159 < small.bitCap := by
  decide +kernel

theorem witness_RegisterWritesStoreTheValue :
    start.busy = false ∧ start.poly.length = start.cfg.npolyMax ∧
    Reg.convFlags ∈ [Reg.dataShards, .parityShards, .chunkSize, .constraintLen, .nPoly, .convFlags, .arg0, .byteLen,
      .bitLen, .rows, .cols, .present] ∧
    (∃ j < start.cfg.npolyMax, Reg.poly 1 = .poly j) ∧
    (Reg.present = .rows ∨ Reg.present = .cols ∨ Reg.present = .present) ∧
    (Reg.arg0 ≠ .rows ∧ Reg.arg0 ≠ .cols ∧ Reg.arg0 ≠ .present) :=
  ⟨by decide, by decide, by decide, ⟨1, by decide, rfl⟩, by decide, by decide⟩

theorem witness_BitbufHasTwoViewsOfOneSequence :
    start.busy = false ∧ 0 < start.cfg.bitCap ∧ 159 < start.cfg.bitCap ∧
    (0x30 : Byte) ≠ bitSymbol .int false ∧ (0x30 : Byte) ≠ bitSymbol .int true := by decide +kernel

end Sys2Proof.Tests
end

section
/-! PROOFS. One step (00_scope.md R17, 10_state.md R23): what each kind of event makes of it, and what the core's turn is, idle
and BUSY. -/

namespace Sys2Proof.Machine

variable {s : State}

theorem step_of_schedule_nil (h : s.schedule = []) : step s = coreTurn s := by
  simp only [step, h]

theorem step_of_schedule_core {es : List Event} (h : s.schedule = .core :: es) :
    step s = coreTurn (s.withSchedule es) := by
  simp only [step, h]

theorem step_of_schedule_host {m : HostMove} {es : List Event} (h : s.schedule = .host m :: es) :
    step s = .next ((s.withSchedule es).hostMove m) := by
  simp only [step, h]

theorem coreTurn_of_busy {i : Instr} (hb : s.busy = true) (hi : decode s.cmd = .ok i) : coreTurn s = exec i s := by
  have hf : s.fetch = .ok i := hi
  simp only [coreTurn, hb, hf, if_true]

theorem coreTurn_of_idle (hb : s.busy = false) : coreTurn s = .next s := by
  simp only [coreTurn, hb, Bool.false_eq_true, if_false]

/-- Settles O5: the event at the head of the schedule says whose turn it is, and taking it changes neither BUSY nor CMD. -/
theorem stepRunsTheAcceptedCommand : Obligations.StepRunsTheAcceptedCommand := by
  refine ⟨fun s i hb hi => ⟨fun hs => ?_, fun es hs => ?_⟩, fun s hb => ⟨fun hs => ?_, fun es hs => ?_⟩,
    fun s m es hs => step_of_schedule_host hs⟩
  · rw [step_of_schedule_nil hs, coreTurn_of_busy hb hi]
  · rw [step_of_schedule_core hs, coreTurn_of_busy (s := s.withSchedule es) hb hi]
  · rw [step_of_schedule_nil hs, coreTurn_of_idle hb]
  · rw [step_of_schedule_core hs, coreTurn_of_idle (s := s.withSchedule es) hb]

end Sys2Proof.Machine
end

section
/-! PROOFS. The worked values of the field and of the generator matrix (43_reed_solomon.md R186, R187, R190), by evaluation of
the model. -/

namespace Sys2Proof.Machine

theorem gmul_examples :
    gmul 0x11D 0x02 0x80 = 0x1D ∧ gmul 0x11D 0x03 0x07 = 0x09 ∧ gmul 0x11D 0x53 0xCA = 0x8F ∧
    gmul 0x11D 0xFF 0xFF = 0xE2 ∧ gmul 0x11D 0x0F 0x75 = 0xD9 ∧ gmul 0x11D 0x08 0x70 = 0xA7 := by decide

theorem gpow_examples :
    ginv 0x11D 0x02 = 0x8E ∧ ginv 0x11D 0x53 = 0x8C ∧ gpow 0x11D 2 8 = 0x1D ∧ gpow 0x11D 2 254 = 0x8E ∧
    gpow 0x11D 2 255 = 0x01 := by decide +kernel

theorem genMatrix_examples :
    (genMatrix 0x11D 1 2).drop 1 = [[0x01], [0x01]] ∧ (genMatrix 0x11D 2 1).drop 2 = [[0x03, 0x02]] ∧
    (genMatrix 0x11D 2 2).drop 2 = [[0x03, 0x02], [0x02, 0x03]] ∧
    (genMatrix 0x11D 3 2).drop 3 = [[0x01, 0x01, 0x01], [0x0F, 0x08, 0x06]] ∧
    (genMatrix 0x11D 4 2).drop 4 = [[0x1B, 0x1C, 0x12, 0x14], [0x1C, 0x1B, 0x14, 0x12]] := by decide +kernel

/-- Settles O26: the default field polynomial is 0x11D, and over it the model computes the values of the rules. -/
theorem fieldAndGeneratorExamples : Obligations.FieldAndGeneratorExamples :=
  ⟨rfl, gmul_examples, gpow_examples, genMatrix_examples⟩

end Sys2Proof.Machine
end

section
/-! PROOFS. The bytes of a field polynomial that meets the constraint of 00_scope.md R8 are a field (43_reed_solomon.md R185 to
R187): numbers as polynomials over GF(2), the trial division of `GfPoly.isFieldPoly`, and the bytes as the quotient of the
polynomials by the field polynomial. -/

namespace Sys2Proof.Machine

open Polynomial

/-! ## Numbers as polynomials over GF(2) -/

/-- The polynomial whose coefficients are the bits of `n`. -/
noncomputable def numPoly (n : Nat) : (ZMod 2)[X] := ∑ i ∈ Finset.range n, if n.testBit i then X ^ i else 0

theorem coeff_numPoly (n i : Nat) : (numPoly n).coeff i = if n.testBit i then 1 else 0 := by
  have hterm : ∀ j, ((if n.testBit j then X ^ j else 0 : (ZMod 2)[X])).coeff i =
      if i = j then (if n.testBit i then 1 else 0) else 0 := by
    intro j
    by_cases hij : i = j
    · subst hij; cases n.testBit i <;> simp
    · cases n.testBit j <;> simp [coeff_X_pow, hij]
  rw [numPoly, finsetSum_coeff, Finset.sum_congr rfl fun j _ => hterm j, Finset.sum_ite_eq]
  split
  · rfl
  · rename_i hi
    have hlt : n < 2 ^ i := lt_of_le_of_lt (by simpa using hi) i.lt_two_pow_self
    simp [Nat.testBit_eq_false_of_lt hlt]

@[simp] theorem numPoly_zero : numPoly 0 = 0 := by simp [numPoly]

@[simp] theorem numPoly_one : numPoly 1 = 1 := by simp [numPoly]

theorem numPoly_xor (m n : Nat) : numPoly (m ^^^ n) = numPoly m + numPoly n := by
  ext i
  rw [coeff_add, coeff_numPoly, coeff_numPoly, coeff_numPoly, Nat.testBit_xor]
  cases m.testBit i <;> cases n.testBit i <;> decide

theorem numPoly_shiftLeft (n k : Nat) : numPoly (n <<< k) = numPoly n * X ^ k := by
  ext i
  rw [coeff_mul_X_pow', coeff_numPoly, coeff_numPoly, Nat.testBit_shiftLeft]
  by_cases hk : k ≤ i <;> simp [hk]

/-- A number is its lowest bit and the double of the others. -/
theorem numPoly_eq_bit_add (n : Nat) : numPoly n = (if n.testBit 0 then 1 else 0 : (ZMod 2)[X]) + numPoly (n >>> 1) * X := by
  ext i
  rw [coeff_add, coeff_numPoly]
  cases i with
  | zero => cases n.testBit 0 <;> simp
  | succ i =>
    rw [coeff_mul_X, coeff_numPoly, Nat.testBit_shiftRight, Nat.add_comm 1 i]
    cases n.testBit 0 <;> simp [coeff_one]

/-- A number below `2 ^ k` is a polynomial of degree below `k`. -/
theorem degree_numPoly_lt {n k : Nat} (h : n < 2 ^ k) : (numPoly n).degree < k := by
  rw [degree_lt_iff_coeff_zero]
  intro i hi
  rw [coeff_numPoly, Nat.testBit_eq_false_of_lt (lt_of_lt_of_le h (Nat.pow_le_pow_right (by omega) hi))]
  simp

theorem numPoly_injective : Function.Injective numPoly := by
  intro m n h
  refine Nat.eq_of_testBit_eq fun i => ?_
  have hi := congrArg (fun p => p.coeff i) h
  simp only [coeff_numPoly] at hi
  cases hm : m.testBit i <;> cases hn : n.testBit i <;> simp_all

/-- Every polynomial of degree below `k` is a number below `2 ^ k`. -/
theorem exists_numPoly_eq {p : (ZMod 2)[X]} {k : Nat} (h : p.degree < k) : ∃ n, n < 2 ^ k ∧ numPoly n = p := by
  refine ⟨Nat.ofBits fun i : Fin k => decide (p.coeff i = 1), Nat.ofBits_lt_two_pow _, ?_⟩
  ext i
  rw [coeff_numPoly]
  by_cases hi : i < k
  · rw [Nat.testBit_ofBits_lt _ _ hi]
    generalize p.coeff i = c
    revert c
    decide
  · rw [Nat.testBit_ofBits_ge _ _ (by omega), (degree_lt_iff_coeff_zero _ _).1 h i (by omega)]
    simp

/-- A number whose highest bit is bit `e` is a monic polynomial of degree `e`. -/
theorem numPoly_monic_degree {n e : Nat} (hlo : 2 ^ e ≤ n) (hhi : n < 2 ^ (e + 1)) :
    (numPoly n).Monic ∧ (numPoly n).degree = e := by
  have hdeg : (numPoly n).natDegree ≤ e := by
    rw [natDegree_le_iff_coeff_eq_zero]
    exact (degree_lt_iff_coeff_zero _ _).1 (degree_numPoly_lt hhi)
  have hlead : (numPoly n).coeff e = 1 := by
    rw [coeff_numPoly, Nat.testBit_of_two_pow_le_and_two_pow_add_one_gt hlo hhi]; rfl
  have hmonic := monic_of_natDegree_le_of_coeff_eq_one e hdeg hlead
  refine ⟨hmonic, ?_⟩
  rw [degree_eq_natDegree hmonic.ne_zero, natDegree_eq_of_le_of_coeff_ne_zero hdeg]
  rw [hlead]; exact one_ne_zero

/-! ## Trial division (00_scope.md R8) -/

/-- One step of the long division by `d`, of degree `e`: the power `8 - k` is cleared. -/
def divideStep (e d r k : Nat) : Nat := if r.testBit (8 - k) then r ^^^ (d <<< (8 - e - k)) else r

theorem polyRemainder_eq_foldl (p e d : Nat) : polyRemainder p e d = (List.range (9 - e)).foldl (divideStep e d) p := rfl

/-- A number whose highest possible bit is clear is smaller by a power. -/
theorem lt_two_pow_of_testBit_eq_false {n k : Nat} (h : n < 2 ^ (k + 1)) (hk : n.testBit k = false) : n < 2 ^ k := by
  by_contra hle
  rw [Nat.testBit_of_two_pow_le_and_two_pow_add_one_gt (by omega) h] at hk
  cases hk

theorem divideStep_lt {e d r k : Nat} (hlo : 2 ^ e ≤ d) (hhi : d < 2 ^ (e + 1)) (hk : e + k ≤ 8)
    (hr : r < 2 ^ (8 - k + 1)) : divideStep e d r k < 2 ^ (8 - k) := by
  unfold divideStep
  split
  · rename_i hbit
    have hle : e + (8 - e - k) = 8 - k := by omega
    have hshift : d <<< (8 - e - k) < 2 ^ (8 - k + 1) := by
      rw [Nat.shiftLeft_eq, ← hle, Nat.add_right_comm, Nat.pow_add]
      exact Nat.mul_lt_mul_of_pos_right hhi (by positivity)
    have hshiftLo : 2 ^ (8 - k) ≤ d <<< (8 - e - k) := by
      rw [Nat.shiftLeft_eq, ← hle, Nat.pow_add]
      exact Nat.mul_le_mul_right _ hlo
    refine lt_two_pow_of_testBit_eq_false (Nat.xor_lt_two_pow hr hshift) ?_
    rw [Nat.testBit_xor, hbit, Nat.testBit_of_two_pow_le_and_two_pow_add_one_gt hshiftLo hshift]
    rfl
  · rename_i hbit
    exact lt_two_pow_of_testBit_eq_false hr (by simpa using hbit)

theorem numPoly_dvd_divideStep {e d r k : Nat} (h : numPoly d ∣ numPoly r) : numPoly d ∣ numPoly (divideStep e d r k) := by
  unfold divideStep
  split
  · rw [numPoly_xor, numPoly_shiftLeft]
    exact dvd_add h (dvd_mul_right _ _)
  · exact h

/-- Long division of a multiple of `d` leaves no remainder. -/
theorem polyRemainder_eq_zero {p e d : Nat} (hp : p < 2 ^ 9) (hlo : 2 ^ e ≤ d) (hhi : d < 2 ^ (e + 1)) (he : e ≤ 8)
    (h : numPoly d ∣ numPoly p) : polyRemainder p e d = 0 := by
  have key : ∀ n, n ≤ 9 - e →
      (List.range n).foldl (divideStep e d) p < 2 ^ (9 - n) ∧
        numPoly d ∣ numPoly ((List.range n).foldl (divideStep e d) p) := by
    intro n
    induction n with
    | zero => exact fun _ => ⟨hp, h⟩
    | succ n ih =>
      intro hn
      obtain ⟨hlt, hdvd⟩ := ih (by omega)
      rw [List.range_succ, List.foldl_append, show 9 - (n + 1) = 8 - n by omega]
      rw [show 9 - n = 8 - n + 1 by omega] at hlt
      exact ⟨divideStep_lt hlo hhi (by omega) hlt, numPoly_dvd_divideStep hdvd⟩
  obtain ⟨hlt, hdvd⟩ := key (9 - e) le_rfl
  rw [← polyRemainder_eq_foldl, show 9 - (9 - e) = e by omega] at hlt
  rw [← polyRemainder_eq_foldl] at hdvd
  have hdeg : (numPoly (polyRemainder p e d)).degree < (numPoly d).degree := by
    rw [(numPoly_monic_degree hlo hhi).2]
    exact degree_numPoly_lt hlt
  exact numPoly_injective ((eq_zero_of_dvd_of_degree_lt hdvd hdeg).trans numPoly_zero.symm)

/-- What the constraint on GF_POLY says: degree 8, and no remainder 0 by a polynomial of degree 1 to 4. -/
theorem isFieldPoly_iff {g : GfPoly} :
    g.isFieldPoly = true ↔
      g.msb = true ∧ ∀ e ∈ [1, 2, 3, 4], ∀ j < 2 ^ e, polyRemainder g.toNat e (2 ^ e + j) ≠ 0 := by
  simp only [GfPoly.isFieldPoly, Bool.and_eq_true, List.all_eq_true, List.mem_range, decide_eq_true_eq]

/-- The field polynomial as a polynomial over GF(2). -/
noncomputable def fieldPoly (g : GfPoly) : (ZMod 2)[X] := numPoly g.toNat

theorem fieldPoly_monic_degree {g : GfPoly} (h : g.msb = true) : (fieldPoly g).Monic ∧ (fieldPoly g).degree = 8 :=
  numPoly_monic_degree (BitVec.toNat_ge_of_msb_true h) g.isLt

/-- A polynomial that passes the trial division of `GfPoly.isFieldPoly` is irreducible. -/
theorem fieldPoly_irreducible {g : GfPoly} (h : g.isFieldPoly = true) : Irreducible (fieldPoly g) := by
  obtain ⟨hmsb, hrem⟩ := isFieldPoly_iff.1 h
  obtain ⟨hmonic, hdeg⟩ := fieldPoly_monic_degree hmsb
  have hnat : (fieldPoly g).natDegree = 8 := natDegree_eq_of_degree_eq_some hdeg
  have hone : fieldPoly g ≠ 1 := fun h1 => by simp [h1] at hnat
  refine (hmonic.irreducible_iff_lt_natDegree_lt hone).2 fun q hq hqdeg hdvd => ?_
  obtain ⟨hpos, hle⟩ := Finset.mem_Ioc.1 hqdeg
  rw [hnat] at hle
  have hqe : q.degree = q.natDegree := degree_eq_natDegree hq.ne_zero
  generalize q.natDegree = e at hpos hle hqe
  obtain ⟨n, hn, rfl⟩ := exists_numPoly_eq (p := q) (k := e + 1) (by rw [hqe]; exact_mod_cast e.lt_succ_self)
  have hlo : 2 ^ e ≤ n := by
    by_contra hlt
    have := degree_numPoly_lt (lt_of_not_ge hlt)
    rw [hqe] at this
    exact lt_irrefl _ this
  rw [Nat.pow_succ] at hn
  refine hrem e (by simp; omega) (n - 2 ^ e) (by omega) ?_
  rw [Nat.add_sub_cancel' hlo]
  exact polyRemainder_eq_zero g.isLt hlo (by rw [Nat.pow_succ]; exact hn) (by omega) hdvd

/-! ## The bytes as a field -/

/-- The bytes, with exclusive or as sum and `gmul g` as product, are the field `F`. -/
structure ByteField (g : GfPoly) (F : Type) [Field F] where
  toField : Byte ≃ F
  map_xor (a b : Byte) : toField (a ^^^ b) = toField a + toField b
  map_one : toField 1 = 1
  map_gmul (a b : Byte) : toField (gmul g a b) = toField a * toField b

/-- Doubling is multiplication by `X`, reduced by the field polynomial. -/
theorem toNat_gfDouble {g : GfPoly} (h : g.msb = true) (a : Byte) :
    (gfDouble g a).toNat = if a.msb then a.toNat <<< 1 ^^^ g.toNat else a.toNat <<< 1 := by
  have hlo : 2 ^ 8 ≤ g.toNat := BitVec.toNat_ge_of_msb_true h
  unfold gfDouble
  split
  · rename_i hmsb
    have halo : 2 ^ 7 ≤ a.toNat := BitVec.toNat_ge_of_msb_true hmsb
    have hdlo : 2 ^ 8 ≤ a.toNat <<< 1 := by omega
    have hdhi : a.toNat <<< 1 < 2 ^ 9 := by omega
    have hbit : (a.toNat <<< 1 ^^^ g.toNat).testBit 8 = false := by
      rw [Nat.testBit_xor, Nat.testBit_of_two_pow_le_and_two_pow_add_one_gt hdlo hdhi,
        Nat.testBit_of_two_pow_le_and_two_pow_add_one_gt hlo g.isLt]
      rfl
    rw [BitVec.toNat_xor, BitVec.toNat_shiftLeft, BitVec.toNat_setWidth, ← Nat.xor_mod_two_pow,
      Nat.mod_eq_of_lt (lt_two_pow_of_testBit_eq_false (Nat.xor_lt_two_pow hdhi g.isLt) hbit)]
  · rename_i hmsb
    have halt : a.toNat < 2 ^ 7 := BitVec.toNat_lt_of_msb_false (by simpa using hmsb)
    rw [BitVec.toNat_shiftLeft, Nat.mod_eq_of_lt (by omega)]

section quotient

variable {g : GfPoly}

/-- The class of a byte in the polynomials modulo the field polynomial. -/
noncomputable def byteClass (g : GfPoly) (a : Byte) : AdjoinRoot (fieldPoly g) := AdjoinRoot.mk (fieldPoly g) (numPoly a.toNat)

theorem byteClass_xor (a b : Byte) : byteClass g (a ^^^ b) = byteClass g a + byteClass g b := by
  rw [byteClass, BitVec.toNat_xor, numPoly_xor, map_add]; rfl

@[simp] theorem byteClass_zero : byteClass g 0#8 = 0 := by simp [byteClass]

@[simp] theorem byteClass_one : byteClass g 1#8 = 1 := by simp [byteClass]

theorem byteClass_gfDouble (h : g.msb = true) (a : Byte) :
    byteClass g (gfDouble g a) = byteClass g a * AdjoinRoot.root (fieldPoly g) := by
  have hshift : AdjoinRoot.mk (fieldPoly g) (numPoly (a.toNat <<< 1)) = byteClass g a * AdjoinRoot.root (fieldPoly g) := by
    rw [numPoly_shiftLeft, pow_one, map_mul, AdjoinRoot.mk_X]; rfl
  rw [byteClass, toNat_gfDouble h]
  split
  · rw [numPoly_xor, map_add, hshift, ← fieldPoly, AdjoinRoot.mk_self, add_zero]
  · exact hshift

/-- A byte is its lowest bit and the double of the others. -/
theorem byteClass_eq_bit_add (b : Byte) :
    byteClass g b = (if b.getLsbD 0 then 1 else 0 : AdjoinRoot (fieldPoly g)) +
      byteClass g (b >>> 1) * AdjoinRoot.root (fieldPoly g) := by
  rw [byteClass, numPoly_eq_bit_add, map_add, map_mul, AdjoinRoot.mk_X, byteClass, BitVec.toNat_ushiftRight,
    apply_ite (AdjoinRoot.mk (fieldPoly g)), map_one, map_zero]
  rfl

theorem byteClass_gmulLoop (h : g.msb = true) (k : Nat) (a b r : Byte) (hb : b.toNat < 2 ^ k) :
    byteClass g (gmulLoop g k a b r) = byteClass g r + byteClass g a * byteClass g b := by
  induction k generalizing a b r with
  | zero =>
    have hb0 : b = 0 := BitVec.eq_of_toNat_eq (by simpa using hb)
    simp [gmulLoop, hb0]
  | succ k ih =>
    have hb' : (b >>> 1).toNat < 2 ^ k := by
      rw [BitVec.toNat_ushiftRight, Nat.shiftRight_one]; rw [Nat.pow_succ] at hb; omega
    rw [gmulLoop, ih _ _ _ hb', byteClass_gfDouble h, byteClass_eq_bit_add b]
    cases b.getLsbD 0 <;> simp [byteClass_xor] <;> ring

theorem byteClass_gmul (h : g.msb = true) (a b : Byte) : byteClass g (gmul g a b) = byteClass g a * byteClass g b := by
  rw [gmul, byteClass_gmulLoop h _ _ _ _ b.isLt]; simp

theorem byteClass_injective (h : g.msb = true) : Function.Injective (byteClass g) := by
  intro a b hab
  have hdvd : fieldPoly g ∣ numPoly (a ^^^ b).toNat := by
    rw [← AdjoinRoot.mk_eq_zero, BitVec.toNat_xor, numPoly_xor, map_add]
    change byteClass g a + byteClass g b = 0
    rw [hab, ← byteClass_xor, BitVec.xor_self]; exact byteClass_zero
  have hzero := eq_zero_of_dvd_of_degree_lt hdvd (by
    rw [(fieldPoly_monic_degree h).2]; exact degree_numPoly_lt (a ^^^ b).isLt)
  have hxor : a ^^^ b = 0 := BitVec.eq_of_toNat_eq (numPoly_injective (hzero.trans numPoly_zero.symm))
  exact BitVec.xor_eq_zero_iff.1 hxor

theorem byteClass_surjective (h : g.msb = true) : Function.Surjective (byteClass g) := by
  obtain ⟨hmonic, hdeg⟩ := fieldPoly_monic_degree h
  intro x
  obtain ⟨p, rfl⟩ := AdjoinRoot.mk_surjective x
  have hlt := degree_modByMonic_lt p hmonic
  rw [hdeg] at hlt
  obtain ⟨n, hn, hnp⟩ := exists_numPoly_eq (k := 8) hlt
  refine ⟨BitVec.ofNat 8 n, ?_⟩
  rw [byteClass, BitVec.toNat_ofNat, Nat.mod_eq_of_lt hn, hnp, AdjoinRoot.mk_eq_mk, modByMonic_eq_sub_mul_div]
  exact ⟨-(p /ₘ fieldPoly g), by ring⟩

/-- Over an irreducible polynomial of degree 8 the bytes are a field (R185). -/
theorem exists_byteField (h : g.isFieldPoly = true) : ∃ (F : Type) (_ : Field F), Nonempty (ByteField g F) := by
  have hmsb := (isFieldPoly_iff.1 h).1
  have : Fact (Irreducible (fieldPoly g)) := ⟨fieldPoly_irreducible h⟩
  exact ⟨AdjoinRoot (fieldPoly g), inferInstance,
    ⟨{ toField := Equiv.ofBijective _ ⟨byteClass_injective hmsb, byteClass_surjective hmsb⟩
       map_xor := byteClass_xor
       map_one := byteClass_one
       map_gmul := byteClass_gmul hmsb }⟩⟩

end quotient

theorem card_byte : Fintype.card Byte = 256 :=
  (Fintype.card_congr BitVec.equivFin.toEquiv).trans (Fintype.card_fin _)

namespace ByteField

variable {g : GfPoly} {F : Type} [Field F] (φ : ByteField g F)
include φ

theorem add_self (x : F) : x + x = 0 := by
  have hzero : φ.toField 0 + φ.toField 0 = φ.toField 0 := by rw [← φ.map_xor]; rfl
  obtain ⟨a, rfl⟩ := φ.toField.surjective x
  rw [← φ.map_xor, BitVec.xor_self, ← left_eq_add.1 hzero.symm]; rfl

theorem map_zero : φ.toField 0 = 0 := by
  rw [← φ.add_self (φ.toField 0), ← φ.map_xor]; rfl

/-- Each element is its own negative. -/
theorem sub_eq_add (x y : F) : x - y = x + y := by
  rw [sub_eq_iff_eq_add, add_assoc, φ.add_self, add_zero]

theorem map_eq_zero {a : Byte} : φ.toField a = 0 ↔ a = 0 := by
  rw [← φ.map_zero, φ.toField.apply_eq_iff_eq]

/-- Powers of bytes are powers in the field (R187). -/
theorem map_gpow (a : Byte) (e : Nat) : φ.toField (gpow g a e) = φ.toField a ^ e := by
  induction e with
  | zero => rw [gpow, φ.map_one, pow_zero]
  | succ e ih => rw [gpow, φ.map_gmul, ih, pow_succ]

/-- The multiplicative group has 255 elements. -/
theorem pow_255 {x : F} (hx : x ≠ 0) : x ^ 255 = 1 := by
  let _ : Fintype F := Fintype.ofEquiv Byte φ.toField
  have hcard : Fintype.card F = 256 := (Fintype.card_congr φ.toField.symm).trans card_byte
  have := FiniteField.pow_card_sub_one_eq_one x hx
  rwa [hcard] at this

/-- `ginv` is the inverse of the field, at 0 too (R187). -/
theorem map_ginv (a : Byte) : φ.toField (ginv g a) = (φ.toField a)⁻¹ := by
  rw [ginv, φ.map_gpow]
  by_cases ha : φ.toField a = 0
  · simp [ha]
  · exact eq_inv_of_mul_eq_one_left (by rw [← pow_succ, φ.pow_255 ha])

/-- A byte of multiplicative order 255 has each non-zero byte as exactly one of its first 255 powers. -/
theorem exists_unique_gpow {b : Byte} (hb : orderOf (φ.toField b) = 255) {a : Byte} (ha : a ≠ 0) :
    ∃ e, e < 255 ∧ gpow g b e = a ∧ ∀ e', e' < 255 → gpow g b e' = a → e' = e := by
  have hb0 : φ.toField b ≠ 0 := fun h => by simp [h] at hb
  have hinj : Set.InjOn (gpow g b) (Finset.range 255) := by
    intro e he e' he' hee
    have hpow := congrArg φ.toField hee
    rw [φ.map_gpow, φ.map_gpow] at hpow
    refine pow_injOn_Iio_orderOf ?_ ?_ hpow
    · rw [hb]; simpa using he
    · rw [hb]; simpa using he'
  have hmaps : Set.MapsTo (gpow g b) (Finset.range 255) (Finset.univ.erase (0 : Byte)) := by
    intro e _
    have : gpow g b e ≠ 0 := fun h => pow_ne_zero e hb0 (by rw [← φ.map_gpow, h, φ.map_zero])
    simpa using this
  obtain ⟨e, he, hea⟩ := Finset.surjOn_of_injOn_of_card_le _ hmaps hinj (by simp [card_byte]) (by simpa using ha : a ∈ _)
  refine ⟨e, by simpa using he, hea, fun e' he' hea' => hinj (by simpa using he') he (hea'.trans hea.symm)⟩

end ByteField

/-- 2 has multiplicative order `255 = 3 * 5 * 17` over 0x11D (R187). -/
theorem orderOf_two {F : Type} [Field F] (φ : ByteField 0x11D F) : orderOf (φ.toField 2) = 255 := by
  have hne : ∀ e, gpow 0x11D 2 e ≠ 1 → φ.toField 2 ^ e ≠ 1 := by
    intro e he h
    rw [← φ.map_gpow, ← φ.map_one] at h
    exact he (φ.toField.injective h)
  refine orderOf_eq_of_pow_and_pow_div_prime (by omega) (φ.pow_255 fun h => by simpa using φ.map_eq_zero.1 h) ?_
  intro p hp hdvd
  rw [show 255 = 3 * 5 * 17 by rfl, hp.dvd_mul, hp.dvd_mul, Nat.prime_dvd_prime_iff_eq hp Nat.prime_three,
    Nat.prime_dvd_prime_iff_eq hp Nat.prime_five, Nat.prime_dvd_prime_iff_eq hp (by norm_num)] at hdvd
  obtain (rfl | rfl) | rfl := hdvd
  · exact hne 85 (by decide +kernel)
  · exact hne 51 (by decide +kernel)
  · exact hne 15 (by decide +kernel)

/-- The laws of the product and the inverse of bytes are those of the field they are (R186, R187). -/
theorem gmul_field_laws {g : GfPoly} (h : g.isFieldPoly = true) :
    (∀ a b : Byte, gmul g a b = gmul g b a) ∧
    (∀ a b c : Byte, gmul g (gmul g a b) c = gmul g a (gmul g b c)) ∧
    (∀ a b c : Byte, gmul g a (b ^^^ c) = gmul g a b ^^^ gmul g a c) ∧
    (∀ a : Byte, gmul g a 0 = 0 ∧ gmul g a 1 = a) ∧
    ∀ a : Byte, a ≠ 0 → gmul g a (ginv g a) = 1 ∧ ∀ b, gmul g a b = 1 → b = ginv g a := by
  obtain ⟨F, _, ⟨φ⟩⟩ := exists_byteField h
  refine ⟨fun a b => ?comm, fun a b c => ?assoc, fun a b c => gmul_xor_right a b c, fun a => ⟨?zero, ?one⟩,
    fun a ha => ⟨?inv, fun b hb => ?unique⟩⟩ <;> apply φ.toField.injective
  case comm => rw [φ.map_gmul, φ.map_gmul, mul_comm]
  case assoc => simp only [φ.map_gmul, mul_assoc]
  case zero => rw [φ.map_gmul, φ.map_zero, mul_zero]
  case one => rw [φ.map_gmul, φ.map_one, mul_one]
  case inv => rw [φ.map_gmul, φ.map_ginv, φ.map_one, mul_inv_cancel₀ (mt φ.map_eq_zero.1 ha)]
  case unique =>
    rw [φ.map_ginv]
    exact eq_inv_of_mul_eq_one_right (by rw [← φ.map_gmul, hb, φ.map_one])

/-- Settles O27: over every field polynomial that meets R8 the bytes are the field of the polynomials modulo it, in which the
laws hold; over 0x11D the order of 2 is 255. -/
theorem bytesAreAField : Obligations.BytesAreAField := by
  have hpoly : GfPoly.isFieldPoly 0x11D = true := by decide
  refine ⟨fun g h => gmul_field_laws h, hpoly, fun a ha => ?_⟩
  obtain ⟨F, _, ⟨φ⟩⟩ := exists_byteField hpoly
  exact φ.exists_unique_gpow (orderOf_two φ) ha

end Sys2Proof.Machine
end

section
/-! PROOFS. The matrices of the erasure codec over the field of bytes (43_reed_solomon.md R188 to R190): the product of rows is
the matrix product, Gauss-Jordan elimination keeps the span of the rows and makes unit columns, so `matInv` is the inverse,
and rows of the generator matrix are a Vandermonde matrix times the inverse of one. -/

namespace Sys2Proof.Machine

open Matrix

/-! ## The matrix and the rows of a list of rows -/

/-- Every row has `w` entries. -/
def Rect (w : Nat) (m : List (List Byte)) : Prop := ∀ row ∈ m, row.length = w

theorem entry_of_length_le {m : List (List Byte)} {w : Nat} (hm : Rect w m) {i j : Nat} (hj : w ≤ j) :
    entry m i j = 0 := by
  by_cases hi : i < m.length
  · have hw := hm _ (List.getElem_mem hi)
    simp [entry, hi, hw, hj]
  · simp [entry, hi]

theorem entry_map_getD (l : List Nat) (m : List (List Byte)) (i j : Nat) (hi : i < l.length) :
    entry (l.map fun r => m.getD r []) i j = entry m l[i] j := by
  simp [entry, hi]

section field

variable {g : GfPoly} {F : Type} [Field F] (φ : ByteField g F)

/-- The first `r` rows and `c` columns of a list of rows, as a matrix over the field. -/
def matOf (r c : Nat) (m : List (List Byte)) : Matrix (Fin r) (Fin c) F := of fun i j => φ.toField (entry m i j)

theorem matOf_apply (r c : Nat) (m : List (List Byte)) (i : Fin r) (j : Fin c) :
    matOf φ r c m i j = φ.toField (entry m i j) := rfl

theorem map_dot (k : Nat) (x y : Nat → Byte) :
    φ.toField (dot g k x y) = ∑ i ∈ Finset.range k, φ.toField (x i) * φ.toField (y i) := by
  induction k with
  | zero => exact φ.map_zero
  | succ k ih =>
    have hdot : dot g (k + 1) x y = dot g k x y ^^^ gmul g (x k) (y k) := by
      simp [dot, List.range_succ]
    rw [hdot, φ.map_xor, φ.map_gmul, ih, Finset.sum_range_succ]

/-- The product of R188 is the product of matrices. -/
theorem matOf_matMul {r k c : Nat} {a b : List (List Byte)} (hr : r ≤ a.length) :
    matOf φ r c (matMul g k c a b) = matOf φ r k a * matOf φ k c b := by
  ext i j
  rw [Matrix.mul_apply]
  simp only [matOf_apply]
  rw [entry_matMul k c a b i j (by omega) j.isLt, map_dot,
    Fin.sum_univ_eq_sum_range (fun l => φ.toField (entry a i l) * φ.toField (entry b l j))]

theorem entry_identityRows {d i j : Nat} (hi : i < d) (hj : j < d) : entry (identityRows d) i j = if i = j then 1 else 0 := by
  simp [entry, identityRows, hi, hj]

theorem identityRows_rect (d : Nat) : Rect d (identityRows d) := by
  simp [Rect, identityRows]

@[simp] theorem identityRows_length (d : Nat) : (identityRows d).length = d := by simp [identityRows]

theorem matOf_identityRows (d : Nat) : matOf φ d d (identityRows d) = 1 := by
  ext i j
  simp only [matOf_apply]
  rw [entry_identityRows i.isLt j.isLt, one_apply, apply_ite φ.toField, φ.map_one, φ.map_zero]
  simp only [Fin.ext_iff]

/-- A square list of rows is the identity when its matrix is. -/
theorem eq_identityRows {d : Nat} {m : List (List Byte)} (hl : m.length = d) (hm : Rect d m) (h : matOf φ d d m = 1) :
    m = identityRows d := by
  refine matrix_ext (by simp [hl]) hm (identityRows_rect d) fun i j hi hj => φ.toField.injective ?_
  rw [← matOf_identityRows φ] at h
  exact congrFun₂ h ⟨i, hl ▸ hi⟩ ⟨j, hj⟩

/-- Row `i` over the field; 0 beyond its entries. -/
def rowVec (m : List (List Byte)) (i : Nat) : Nat → F := fun j => φ.toField (entry m i j)

/-- The span of the rows. -/
def rowSpan (m : List (List Byte)) : Submodule F (Nat → F) := Submodule.span F (rowVec φ m '' Set.Iio m.length)

theorem rowVec_mem_rowSpan {m : List (List Byte)} {i : Nat} (hi : i < m.length) : rowVec φ m i ∈ rowSpan φ m :=
  Submodule.subset_span ⟨i, hi, rfl⟩

/-- What the rows have and sums and multiples keep, the span has. -/
theorem rowSpan_induction {m : List (List Byte)} {P : (Nat → F) → Prop} (hrow : ∀ r < m.length, P (rowVec φ m r))
    (hzero : P 0) (hadd : ∀ u v, P u → P v → P (u + v)) (hsmul : ∀ (a : F) v, P v → P (a • v)) :
    ∀ v ∈ rowSpan φ m, P v := by
  intro v hv
  refine Submodule.span_induction (p := fun v _ => P v) ?_ hzero (fun u v _ _ => hadd u v) (fun a v _ => hsmul a v) hv
  rintro _ ⟨r, hr, rfl⟩
  exact hrow r hr

/-! ## One column of elimination -/

/-- The row that becomes row `c`: row `p` scaled to a leading 1 in column `c`. -/
def pivotRow (g : GfPoly) (m : List (List Byte)) (c p : Nat) : List Byte :=
  (m.getD p []).map (gmul g (ginv g (entry m p c)))

/-- The rows after one column: row `c` is the pivot row, the other rows, `c` and `p` exchanged, lose a multiple of it. A column
without a pivot changes nothing. -/
theorem eliminate_cases (m : List (List Byte)) {c : Nat} (hc : c < m.length) :
    (eliminate g m c = m ∧ ∀ r, c ≤ r → r < m.length → entry m r c = 0) ∨
    ∃ p, c ≤ p ∧ p < m.length ∧ entry m p c ≠ 0 ∧ (eliminate g m c).getD c [] = pivotRow g m c p ∧
      ∀ r, r < m.length → r ≠ c → (eliminate g m c).getD r [] =
        List.zipWith (fun x y => x ^^^ gmul g (entry m (Equiv.swap c p r) c) y) (m.getD (Equiv.swap c p r) [])
          (pivotRow g m c p) := by
  cases hfind : (List.range m.length).find? fun r => decide (c ≤ r) && decide (entry m r c ≠ 0) with
  | none =>
    refine .inl ⟨by simp only [eliminate, hfind], fun r hcr hr => ?_⟩
    simpa [hcr] using List.find?_eq_none.1 hfind r (List.mem_range.2 hr)
  | some p =>
    have hp := List.find?_some hfind
    simp only [Bool.and_eq_true, decide_eq_true_eq] at hp
    have helim : eliminate g m c = ((m.set p (m.getD c [])).set c (pivotRow g m c p)).mapIdx fun r row =>
        if r = c then row else List.zipWith (fun x y => x ^^^ gmul g (row.getD c 0) y) row (pivotRow g m c p) := by
      simp only [eliminate, hfind]; rfl
    refine .inr ⟨p, hp.1, List.mem_range.1 (List.mem_of_find?_eq_some hfind), hp.2, ?_, fun r hr hrc => ?_⟩
    · rw [helim, List.getD_eq_getElem _ _ (by simpa using hc), List.getElem_mapIdx, List.getElem_set_self, if_pos rfl]
    · have hrow : (m.set p (m.getD c []))[r]'(by simpa using hr) = m.getD (Equiv.swap c p r) [] := by
        rw [List.getElem_set, Equiv.swap_apply_def, if_neg hrc]
        by_cases hrp : r = p
        · rw [if_pos hrp.symm, if_pos hrp]
        · rw [if_neg (Ne.symm hrp), if_neg hrp, List.getD_eq_getElem _ _ hr]
      rw [helim, List.getD_eq_getElem _ _ (by simpa using hr), List.getElem_mapIdx, List.getElem_set_ne (Ne.symm hrc),
        if_neg hrc, hrow]
      rfl

theorem swap_lt {c p r n : Nat} (hc : c < n) (hp : p < n) (hr : r < n) : Equiv.swap c p r < n := by
  rw [Equiv.swap_apply_def]
  split_ifs <;> assumption

theorem getD_length {w : Nat} {m : List (List Byte)} (hm : Rect w m) {r : Nat} (hr : r < m.length) :
    (m.getD r []).length = w := by
  rw [List.getD_eq_getElem _ _ hr]; exact hm _ (List.getElem_mem hr)

theorem eliminate_rect {w c : Nat} {m : List (List Byte)} (hm : Rect w m) (hc : c < m.length) : Rect w (eliminate g m c) := by
  obtain ⟨heq, -⟩ | ⟨p, -, hp, -, hpivot, hother⟩ := eliminate_cases (g := g) m hc
  · rwa [heq]
  have hpl : (pivotRow g m c p).length = w := by rw [pivotRow, List.length_map, getD_length hm hp]
  intro row hrow
  obtain ⟨r, hr, rfl⟩ := List.getElem_of_mem hrow
  rw [← List.getD_eq_getElem _ [] hr]
  rw [eliminate_length] at hr
  by_cases hrc : r = c
  · rw [hrc, hpivot, hpl]
  · rw [hother r hr hrc, List.length_zipWith, getD_length hm (swap_lt hc hp hr), hpl, min_self]

/-- The rows after one column, over the field. -/
theorem rowVec_eliminate {m : List (List Byte)} {w c : Nat} (hm : Rect w m) (hc : c < m.length) :
    (eliminate g m c = m ∧ ∀ r, c ≤ r → r < m.length → rowVec φ m r c = 0) ∨
    ∃ p, c ≤ p ∧ p < m.length ∧ rowVec φ m p c ≠ 0 ∧
      rowVec φ (eliminate g m c) c = (rowVec φ m p c)⁻¹ • rowVec φ m p ∧
      ∀ r, r < m.length → r ≠ c → rowVec φ (eliminate g m c) r =
        rowVec φ m (Equiv.swap c p r) - rowVec φ m (Equiv.swap c p r) c • rowVec φ (eliminate g m c) c := by
  obtain ⟨heq, hzero⟩ | ⟨p, hcp, hp, hne, hpivot, hother⟩ := eliminate_cases (g := g) m hc
  · exact .inl ⟨heq, fun r hcr hr => φ.map_eq_zero.2 (hzero r hcr hr)⟩
  have helim := eliminate_rect (g := g) hm hc
  refine .inr ⟨p, hcp, hp, mt φ.map_eq_zero.1 hne, ?_, fun r hr hrc => ?_⟩ <;> ext j
  · simp only [rowVec, Pi.smul_apply, smul_eq_mul, ← φ.map_ginv, ← φ.map_gmul]
    by_cases hj : j < w
    · have hjp : j < (m.getD p []).length := by rwa [getD_length hm hp]
      rw [entry, hpivot, pivotRow]
      rw [List.getD_eq_getElem _ _ (by simpa using hjp), List.getElem_map, ← List.getD_eq_getElem _ 0 hjp]
      rfl
    · rw [entry_of_length_le helim (by omega), entry_of_length_le hm (i := p) (j := j) (by omega), φ.map_gmul,
        φ.map_zero, mul_zero]
  · simp only [rowVec, Pi.sub_apply, Pi.smul_apply, smul_eq_mul, φ.sub_eq_add, ← φ.map_gmul, ← φ.map_xor]
    by_cases hj : j < w
    · have hjr : j < (m.getD (Equiv.swap c p r) []).length := by rwa [getD_length hm (swap_lt hc hp hr)]
      have hjp : j < (pivotRow g m c p).length := by rwa [pivotRow, List.length_map, getD_length hm hp]
      rw [entry, hother r hr hrc, List.getD_eq_getElem _ _ (by rw [List.length_zipWith]; omega), List.getElem_zipWith,
        ← List.getD_eq_getElem _ 0 hjr, ← List.getD_eq_getElem _ 0 hjp, ← hpivot]
      rfl
    · rw [entry_of_length_le helim (i := r) (by omega), entry_of_length_le helim (i := c) (j := j) (by omega),
        entry_of_length_le hm (j := j) (by omega), φ.map_xor, φ.map_gmul, φ.map_zero, mul_zero, add_zero]

/-! ## The invariant of elimination -/

/-- Elimination keeps the span of the rows. -/
theorem rowSpan_eliminate {m : List (List Byte)} {w c : Nat} (hm : Rect w m) (hc : c < m.length) :
    rowSpan φ (eliminate g m c) = rowSpan φ m := by
  obtain ⟨heq, -⟩ | ⟨p, hcp, hp, hne, hpivot, hother⟩ := rowVec_eliminate φ hm hc
  · rw [heq]
  have hlen := eliminate_length (g := g) m c
  have hrowc : rowVec φ (eliminate g m c) c ∈ rowSpan φ m := by
    rw [hpivot]; exact Submodule.smul_mem _ _ (rowVec_mem_rowSpan φ hp)
  have hrowc' := rowVec_mem_rowSpan φ (m := eliminate g m c) (i := c) (by omega)
  refine le_antisymm (Submodule.span_le.2 ?new_in_old) (Submodule.span_le.2 ?old_in_new)
  case new_in_old =>
    rintro _ ⟨r, hr, rfl⟩
    rw [Set.mem_Iio, hlen] at hr
    by_cases hrc : r = c
    · rw [hrc]; exact hrowc
    · rw [hother r hr hrc]
      exact Submodule.sub_mem _ (rowVec_mem_rowSpan φ (swap_lt hc hp hr)) (Submodule.smul_mem _ _ hrowc)
  case old_in_new =>
    rintro _ ⟨r, hr, rfl⟩
    rw [Set.mem_Iio] at hr
    by_cases hrp : r = p
    · have : rowVec φ m p = rowVec φ m p c • rowVec φ (eliminate g m c) c := by rw [hpivot, smul_inv_smul₀ hne]
      rw [hrp, this]; exact Submodule.smul_mem _ _ hrowc'
    · have hs : Equiv.swap c p r ≠ c := fun h => hrp (by
        rw [← Equiv.swap_apply_self c p r, h, Equiv.swap_apply_left])
      have hsl := swap_lt hc hp hr
      have := hother _ hsl hs
      rw [Equiv.swap_apply_self] at this
      rw [← sub_add_cancel (rowVec φ m r) (rowVec φ m r c • rowVec φ (eliminate g m c) c), ← this]
      exact Submodule.add_mem _ (rowVec_mem_rowSpan φ (by omega)) (Submodule.smul_mem _ _ hrowc')

/-- The first `c` columns are those of the identity. -/
def UnitColumns (c : Nat) (m : List (List Byte)) : Prop :=
  ∀ r < m.length, ∀ j < c, rowVec φ m r j = if r = j then 1 else 0

/-- No non-zero combination of the first `d` columns vanishes on the span. -/
def ColumnsIndependent (d : Nat) (S : Submodule F (Nat → F)) : Prop :=
  ∀ x : Nat → F, (∀ v ∈ S, ∑ j ∈ Finset.range d, v j * x j = 0) → ∀ j < d, x j = 0

/-- The coefficients of the relation between column `c` and the unit columns before it. -/
def columnRelation (c : Nat) (m : List (List Byte)) (j : Nat) : F :=
  if j = c then 1 else if j < c then -rowVec φ m j c else 0

/-- A column without a pivot would be a combination of the unit columns before it. -/
theorem exists_pivot {m : List (List Byte)} {d c : Nat} (hl : m.length = d) (hc : c < d) (hunit : UnitColumns φ c m)
    (hind : ColumnsIndependent d (rowSpan φ m)) : ¬ ∀ r, c ≤ r → r < m.length → rowVec φ m r c = 0 := by
  intro hzero
  have hrow : ∀ r < m.length, ∑ j ∈ Finset.range d, rowVec φ m r j * columnRelation φ c m j = 0 := by
    intro r hr
    have hterm : ∀ j ≠ c, j ≠ r → rowVec φ m r j * columnRelation φ c m j = 0 := by
      intro j hjc hjr
      by_cases hj : j < c
      · rw [hunit r hr j hj, if_neg (Ne.symm hjr), zero_mul]
      · rw [columnRelation, if_neg hjc, if_neg hj, mul_zero]
    by_cases hrc : r < c
    · rw [Finset.sum_eq_add_of_mem r c (by simp; omega) (by simpa using hc) (by omega)
        fun j _ hj => hterm j hj.2 hj.1]
      simp [columnRelation, hrc, hrc.ne, hunit r hr r hrc]
    · refine Finset.sum_eq_zero fun j _ => ?_
      by_cases hjc : j = c
      · rw [hjc, hzero r (by omega) hr, zero_mul]
      · by_cases hjr : j = r
        · rw [columnRelation, if_neg hjc, if_neg (by omega), mul_zero]
        · exact hterm j hjc hjr
  have := hind (columnRelation φ c m) (rowSpan_induction φ hrow (by simp)
    (fun u v hu hv => by simp only [Pi.add_apply, add_mul, Finset.sum_add_distrib, hu, hv, add_zero])
    (fun a v hv => by simp only [Pi.smul_apply, smul_eq_mul, mul_assoc, ← Finset.mul_sum, hv, mul_zero])) c hc
  simp [columnRelation] at this

/-- One more column is eliminated. -/
theorem unitColumns_eliminate {m : List (List Byte)} {w d c : Nat} (hm : Rect w m) (hl : m.length = d) (hc : c < d)
    (hunit : UnitColumns φ c m) (hind : ColumnsIndependent d (rowSpan φ m)) :
    UnitColumns φ (c + 1) (eliminate g m c) := by
  obtain ⟨-, hzero⟩ | ⟨p, hcp, hp, hne, hpivot, hother⟩ := rowVec_eliminate φ hm (hl ▸ hc)
  · exact absurd hzero (exists_pivot φ hl hc hunit hind)
  have hrowc : ∀ j < c + 1, rowVec φ (eliminate g m c) c j = if c = j then 1 else 0 := by
    intro j hj
    rw [hpivot, Pi.smul_apply, smul_eq_mul]
    by_cases hjc : c = j
    · rw [if_pos hjc, ← hjc, inv_mul_cancel₀ hne]
    · rw [if_neg hjc, hunit p hp j (by omega), if_neg (by omega), mul_zero]
  intro r hr j hj
  rw [eliminate_length] at hr
  by_cases hrc : r = c
  · rw [hrc]; exact hrowc j hj
  rw [hother r hr hrc, Pi.sub_apply, Pi.smul_apply, smul_eq_mul, hrowc j hj]
  by_cases hjc : c = j
  · rw [if_pos hjc, if_neg (by omega), ← hjc, mul_one, sub_self]
  · have hswap : Equiv.swap c p r = j ↔ r = j := by
      rw [Equiv.swap_apply_eq_iff, Equiv.swap_apply_of_ne_of_ne (Ne.symm hjc) (by omega)]
    rw [if_neg hjc, mul_zero, sub_zero, hunit _ (swap_lt (hl ▸ hc) hp hr) j (by omega), if_congr hswap rfl rfl]

/-- What holds after the first `c` columns. -/
theorem eliminate_columns {m : List (List Byte)} {w d : Nat} (hm : Rect w m) (hl : m.length = d)
    (hind : ColumnsIndependent d (rowSpan φ m)) (c : Nat) (hc : c ≤ d) :
    let e := (List.range c).foldl (eliminate g) m
    e.length = d ∧ Rect w e ∧ rowSpan φ e = rowSpan φ m ∧ UnitColumns φ c e := by
  induction c with
  | zero => exact ⟨hl, hm, rfl, fun r hr j hj => absurd hj (by omega)⟩
  | succ c ih =>
    obtain ⟨hle, hme, hspan, hunit⟩ := ih (by omega)
    simp only [List.range_succ, List.foldl_append, List.foldl_cons, List.foldl_nil]
    exact ⟨by rw [eliminate_length, hle], eliminate_rect hme (by omega), by rw [rowSpan_eliminate φ hme (by omega), hspan],
      unitColumns_eliminate φ hme hle (by omega) hunit (by rw [hspan]; exact hind)⟩

/-! ## The inverse -/

/-- A matrix with the identity beside it. -/
def augmented (d : Nat) (m : List (List Byte)) : List (List Byte) := List.zipWith (· ++ ·) m (identityRows d)

theorem entry_matInv (d : Nat) (m : List (List Byte)) (i j : Nat) :
    entry (matInv g d m) i j = entry ((List.range d).foldl (eliminate g) (augmented d m)) i (d + j) := by
  rw [matInv, ← augmented]
  generalize (List.range d).foldl (eliminate g) (augmented d m) = e
  by_cases hi : i < e.length <;> simp [entry, hi]

section augmented

variable {d : Nat} {m : List (List Byte)} (hl : m.length = d) (hm : Rect d m)
include hl

theorem augmented_length : (augmented d m).length = d := by simp [augmented, hl]

theorem augmented_getD {i : Nat} (hi : i < d) :
    (augmented d m).getD i [] = m.getD i [] ++ (identityRows d).getD i [] := by
  have hid : i < (identityRows d).length := by simpa using hi
  rw [List.getD_eq_getElem _ _ (by rwa [augmented_length hl]), List.getD_eq_getElem _ _ (hl ▸ hi),
    List.getD_eq_getElem _ _ hid]
  exact List.getElem_zipWith

include hm

theorem augmented_rect : Rect (2 * d) (augmented d m) := by
  intro row hrow
  obtain ⟨i, hi, rfl⟩ := List.getElem_of_mem hrow
  rw [← List.getD_eq_getElem _ [] hi]
  rw [augmented_length hl] at hi
  rw [augmented_getD hl hi, List.length_append, getD_length hm (hl ▸ hi),
    getD_length (identityRows_rect d) (by simpa using hi), two_mul]

theorem entry_augmented_left {i j : Nat} (hi : i < d) (hj : j < d) : entry (augmented d m) i j = entry m i j := by
  have hrow := getD_length hm (hl ▸ hi : i < m.length)
  rw [entry, entry, augmented_getD hl hi, List.getD_append _ _ _ _ (by omega)]

theorem entry_augmented_right {i j : Nat} (hi : i < d) (hj : j < d) :
    entry (augmented d m) i (d + j) = if i = j then 1 else 0 := by
  have hrow := getD_length hm (hl ▸ hi : i < m.length)
  rw [← entry_identityRows hi hj, entry, entry, augmented_getD hl hi, List.getD_append_right _ _ _ _ (by omega), hrow,
    Nat.add_sub_cancel_left]

/-- On the span of the augmented rows the left half is the right half times the matrix. -/
theorem left_eq_right_mul : ∀ v ∈ rowSpan φ (augmented d m),
    ∀ j < d, v j = ∑ l ∈ Finset.range d, v (d + l) * φ.toField (entry m l j) := by
  refine rowSpan_induction φ (fun r hr j hj => ?_) (by simp) (fun u v hu hv j hj => ?_) (fun a v hv j hj => ?_)
  · rw [augmented_length hl] at hr
    rw [Finset.sum_eq_single_of_mem r (by simpa using hr)]
    · simp only [rowVec]
      rw [entry_augmented_left hl hm hr hj, entry_augmented_right hl hm hr hr, if_pos rfl, φ.map_one, one_mul]
    · intro l hlr hne
      simp only [rowVec]
      rw [entry_augmented_right hl hm hr (by simpa using hlr), if_neg (Ne.symm hne), φ.map_zero, zero_mul]
  · simp only [Pi.add_apply, add_mul, Finset.sum_add_distrib, hu j hj, hv j hj]
  · simp only [Pi.smul_apply, smul_eq_mul, mul_assoc, ← Finset.mul_sum, hv j hj]

theorem columnsIndependent_augmented (hdet : (matOf φ d d m).det ≠ 0) :
    ColumnsIndependent d (rowSpan φ (augmented d m)) := by
  intro x hx
  have hzero : matOf φ d d m *ᵥ (fun j : Fin d => x j) = 0 := by
    ext i
    have hi : i.val < (augmented d m).length := by rw [augmented_length hl]; exact i.isLt
    rw [Pi.zero_apply, ← hx _ (rowVec_mem_rowSpan φ hi), mulVec, dotProduct]
    simp only [matOf_apply]
    rw [Fin.sum_univ_eq_sum_range (fun j => φ.toField (entry m i j) * x j)]
    refine Finset.sum_congr rfl fun j hj => ?_
    rw [rowVec, entry_augmented_left hl hm i.isLt (by simpa using hj)]
  exact fun j hj => congrFun (eq_zero_of_mulVec_eq_zero hdet hzero) ⟨j, hj⟩

/-- Elimination computes the inverse (R188). -/
theorem matOf_matInv_mul (hdet : (matOf φ d d m).det ≠ 0) : matOf φ d d (matInv g d m) * matOf φ d d m = 1 := by
  obtain ⟨hle, -, hspan, hunit⟩ := eliminate_columns φ (augmented_rect hl hm) (augmented_length hl)
    (columnsIndependent_augmented φ hl hm hdet) d le_rfl
  ext i j
  have hi : i.val < ((List.range d).foldl (eliminate g) (augmented d m)).length := by rw [hle]; exact i.isLt
  have hrow := rowVec_mem_rowSpan φ hi
  rw [hspan] at hrow
  have hleft := left_eq_right_mul φ hl hm _ hrow j j.isLt
  rw [hunit i hi j j.isLt] at hleft
  simp only [Matrix.mul_apply, one_apply, Fin.ext_iff, hleft, matOf_apply, entry_matInv]
  exact Fin.sum_univ_eq_sum_range (fun l => rowVec φ _ i (d + l) * φ.toField (entry m l j)) d

/-- `matInv` is a two-sided inverse of a list of rows whose determinant is not 0. -/
theorem matMul_matInv (hdet : (matOf φ d d m).det ≠ 0) :
    matMul g d d m (matInv g d m) = identityRows d ∧ matMul g d d (matInv g d m) m = identityRows d := by
  have hinv := matOf_matInv_mul φ hl hm hdet
  have hil : (matInv g d m).length = d := by simp [hl]
  constructor
  · refine eq_identityRows φ (by simp [hl]) matMul_row_length ?_
    rw [matOf_matMul φ (by omega)]
    exact mul_eq_one_comm.1 hinv
  · refine eq_identityRows φ (by simp [hl]) matMul_row_length ?_
    rw [matOf_matMul φ (by omega), hinv]

end augmented

/-! ## The generator matrix (R189, R190) -/

/-- The rows of `m` at the places `is`. -/
def rowsAt (m : List (List Byte)) (is : List Nat) : List (List Byte) := is.map fun r => m.getD r []

@[simp] theorem rowsAt_length (m : List (List Byte)) (is : List Nat) : (rowsAt m is).length = is.length := by
  simp [rowsAt]

theorem rowsAt_rect {w : Nat} {m : List (List Byte)} {is : List Nat} (hm : Rect w m) (his : ∀ r ∈ is, r < m.length) :
    Rect w (rowsAt m is) := by
  intro row hrow
  obtain ⟨r, hr, rfl⟩ := List.mem_map.1 hrow
  exact getD_length hm (his r hr)

/-- Rows of a product are the product of the rows. -/
theorem rowsAt_matMul (k c : Nat) (a b : List (List Byte)) {is : List Nat} (his : ∀ r ∈ is, r < a.length) :
    rowsAt (matMul g k c a b) is = matMul g k c (rowsAt a is) b := by
  simp only [rowsAt, matMul, List.map_map]
  refine List.map_congr_left fun r hr => ?_
  have hra := his r hr
  simp [hra]

theorem vandermonde_rect (n ds : Nat) : Rect ds (vandermonde g n ds) := by simp [Rect, vandermonde]

theorem take_eq_rowsAt_range (m : List (List Byte)) {d : Nat} (hd : d ≤ m.length) :
    m.take d = rowsAt m (List.range d) := by
  refine List.ext_getElem (by simp [hd]) fun i h1 h2 => ?_
  have hi : i < m.length := by simp at h1; omega
  simp [rowsAt, hi]

/-- The evaluation point of row `r` of the matrix of R189. -/
def point (r : Nat) : F := φ.toField (BitVec.ofNat 8 r)

theorem point_injective {r r' : Nat} (hr : r < 256) (hr' : r' < 256) (h : point φ r = point φ r') : r = r' := by
  have := congrArg BitVec.toNat (φ.toField.injective h)
  rwa [BitVec.toNat_ofNat, BitVec.toNat_ofNat, Nat.mod_eq_of_lt hr, Nat.mod_eq_of_lt hr'] at this

/-- Rows of the matrix of R189 are the Vandermonde matrix of their points. -/
theorem matOf_rowsAt_vandermonde {n ds : Nat} {is : List Nat} (hl : is.length = ds) (his : ∀ r ∈ is, r < n) :
    matOf φ ds ds (rowsAt (vandermonde g n ds) is) = Matrix.vandermonde fun i : Fin ds => point φ (is.getD i 0) := by
  ext i j
  have hi : i.val < is.length := by rw [hl]; exact i.isLt
  have hin := his _ (List.getElem_mem hi)
  rw [vandermonde_apply, point, ← φ.map_gpow, matOf_apply, rowsAt, entry_map_getD _ _ _ _ hi]
  simp [entry, vandermonde, hin, hi]

/-- Distinct rows of the matrix of R189 have a determinant other than 0. -/
theorem det_rowsAt_vandermonde_ne_zero {n ds : Nat} (hn : n ≤ 256) {is : List Nat} (hsort : is.Pairwise (· < ·))
    (hl : is.length = ds) (his : ∀ r ∈ is, r < n) : (matOf φ ds ds (rowsAt (vandermonde g n ds) is)).det ≠ 0 := by
  rw [matOf_rowsAt_vandermonde φ hl his, det_vandermonde_ne_zero_iff]
  intro i j hij
  have hi : i.val < is.length := by rw [hl]; exact i.isLt
  have hj : j.val < is.length := by rw [hl]; exact j.isLt
  simp only [List.getD_eq_getElem _ _ hi, List.getD_eq_getElem _ _ hj] at hij
  have hlt : ∀ k (hk : k < is.length), is[k] < 256 := fun k hk => lt_of_lt_of_le (his _ (List.getElem_mem hk)) hn
  have hnodup : is.Nodup := hsort.imp ne_of_lt
  exact Fin.ext (hnodup.getElem_inj_iff.1 (point_injective φ (hlt _ hi) (hlt _ hj) hij))

/-- The first rows of the matrix of R189, inverted to make the generator matrix systematic, have an inverse. -/
theorem det_take_vandermonde_ne_zero {ds ps : Nat} (hn : ds + ps ≤ 256) :
    (matOf φ ds ds ((vandermonde g (ds + ps) ds).take ds)).det ≠ 0 := by
  rw [take_eq_rowsAt_range _ (by simp)]
  exact det_rowsAt_vandermonde_ne_zero φ hn List.pairwise_lt_range (by simp) (by simp; omega)

theorem take_vandermonde_shape (ds ps : Nat) :
    ((vandermonde g (ds + ps) ds).take ds).length = ds ∧ Rect ds ((vandermonde g (ds + ps) ds).take ds) :=
  ⟨by simp, fun row hrow => vandermonde_rect _ _ row (List.mem_of_mem_take hrow)⟩

include φ in
/-- The generator matrix is systematic (R190 (a)). -/
theorem genMatrix_take {ds ps : Nat} (hn : ds + ps ≤ 256) : (genMatrix g ds ps).take ds = identityRows ds := by
  obtain ⟨hl, hm⟩ := take_vandermonde_shape (g := g) ds ps
  rw [genMatrix, matMul, ← List.map_take]
  exact (matMul_matInv φ hl hm (det_take_vandermonde_ne_zero φ hn)).1

/-- Distinct rows of the generator matrix have a determinant other than 0 (R190 (b)): a Vandermonde matrix times an inverse. -/
theorem det_rowsAt_genMatrix_ne_zero {ds ps : Nat} (hn : ds + ps ≤ 256) {is : List Nat} (hsort : is.Pairwise (· < ·))
    (hl : is.length = ds) (his : ∀ r ∈ is, r < ds + ps) : (matOf φ ds ds (rowsAt (genMatrix g ds ps) is)).det ≠ 0 := by
  obtain ⟨htl, htm⟩ := take_vandermonde_shape (g := g) ds ps
  have hinv := matOf_matInv_mul φ htl htm (det_take_vandermonde_ne_zero φ hn)
  rw [genMatrix, rowsAt_matMul _ _ _ _ (by simpa using his), matOf_matMul φ (by simp [hl]), det_mul]
  refine mul_ne_zero (det_rowsAt_vandermonde_ne_zero φ hn hsort hl his) fun h0 => ?_
  have := congrArg Matrix.det hinv
  rw [det_mul, h0, zero_mul, det_one] at this
  exact zero_ne_one this

end field

/-- Settles O28: over the field of bytes the rows of the generator matrix are rows of a Vandermonde matrix with distinct points,
times the inverse of its top, and elimination inverts them. -/
theorem anyRowsOfTheGeneratorAreInvertible : Obligations.AnyRowsOfTheGeneratorAreInvertible := by
  intro g ds ps hg _ hn
  obtain ⟨F, _, ⟨φ⟩⟩ := exists_byteField hg
  refine ⟨genMatrix_take φ hn, fun is hsort hl his => ?_⟩
  exact matMul_matInv φ (m := rowsAt (genMatrix g ds ps) is) (by simp [hl])
    (rowsAt_rect genMatrix_row_length (by simpa using his)) (det_rowsAt_genMatrix_ne_zero φ hn hsort hl his)

end Sys2Proof.Machine
end

section
/-! PROOFS. The invariant of the block (`State.Inv`): it is the condition on the data, which every commit of a command and
every host write keeps, and that on STATUS, ERR and CMD, which acceptance, completion and a violation keep. -/

namespace Sys2Proof.Machine

variable {s t u : State}

/-! ## The two halves of the invariant -/

/-- The invariant without STATUS, ERR and CMD: what a command's commit and a host's store must keep. -/
structure State.DataOK (s : State) : Prop where
  wellFormed : s.cfg.wellFormed = true
  buffers : s.buffersOK
  poly : s.poly.length = s.cfg.npolyMax
  convFlags : s.convFlags.toNat ≤ 1
  recon : s.recon &&& s.present = s.recon
  pcache : s.pcache.toNat < 2 ^ (s.cfg.nMax + 1)
  codec : ∀ c, s.codec = some c → c.valid s.cfg

theorem inv_iff : s.Inv ↔ s.DataOK ∧ s.statusOK ∧ s.commandOK := by
  constructor
  · rintro ⟨hw, hb, hs, hc, hp, hf, hr, hn, hl⟩
    exact ⟨⟨hw, hb, hp, hf, hr, hn, hl⟩, hs, hc⟩
  · rintro ⟨⟨hw, hb, hp, hf, hr, hn, hl⟩, hs, hc⟩
    exact ⟨hw, hb, hs, hc, hp, hf, hr, hn, hl⟩

theorem State.Inv.dataOK (h : s.Inv) : s.DataOK := (inv_iff.1 h).1

theorem State.Inv.status_lt (h : s.Inv) : s.status.toNat < 16 := (inv_iff.1 h).2.1.1

/-! ## STATUS, ERR and CMD -/

/-- A state is idle after completion, so that only the code and bits 31:4 of STATUS matter (60_exceptions.md R303). -/
theorem inv_complete (hst : u.status.toNat < 16) (hu : u.DataOK) {c : Word} (hc : c.toNat ≤ 10 ∧ c ≠ 7) :
    (u.complete c).Inv := by
  obtain ⟨hbusy, -, herrf, -⟩ := completedStatus_flags u.status c
  have hidle : (u.complete c).busy = false := hbusy
  refine inv_iff.2 ⟨{ hu with }, ⟨completedStatus_lt hst c, ?_, fun hb => ?_, hc⟩, fun hb => ?_⟩
  · rw [show (u.complete c).errf = decide (c ≠ 0) from herrf, decide_eq_true_iff, complete_err]
  · rw [hidle] at hb; cases hb
  · rw [hidle] at hb; cases hb

/-- A command that completes with a code of the table, and whose writes leave STATUS alone and keep the data, keeps the
invariant. -/
theorem State.Inv.complete (h : s.Inv) (hu : u.DataOK) (hst : u.status = s.status) {c : Word}
    (hc : c.toNat ≤ 10 ∧ c ≠ 7) : (u.complete c).Inv :=
  inv_complete (hst ▸ h.status_lt) hu hc

/-- The same for a command that completes without error. -/
theorem State.Inv.commit (h : s.Inv) (hu : u.DataOK) (hst : u.status = s.status) : (u.complete 0).Inv :=
  h.complete hu hst (by decide)

/-- A command that fails with a code of the table and commits nothing keeps the invariant (60_exceptions.md R304). -/
theorem State.Inv.fail (h : s.Inv) {c : Word} (hc : c.toNat ≤ 10 ∧ c ≠ 7) : (s.complete c).Inv :=
  h.complete h.dataOK rfl hc

theorem inv_accept (h : s.Inv) {w : Word} {i : Instr} (hi : decode w = .ok i) : (s.accept w).Inv := by
  obtain ⟨-, hdone, herrf, -⟩ := acceptedStatus_flags s.status
  refine inv_iff.2 ⟨{ h.dataOK with }, ⟨acceptedStatus_lt h.status_lt, ?_, fun _ => ⟨hdone, rfl⟩, Nat.zero_le _,
    (by decide : (0 : Word) ≠ 7)⟩, fun _ => ⟨i, hi⟩⟩
  rw [show (s.accept w).errf = false from herrf]
  simp

theorem inv_acceptWord (h : s.Inv) (w : Word) : (s.acceptWord w).Inv := by
  by_cases hd : ∃ i, decode w = .ok i
  · obtain ⟨i, hi⟩ := hd
    rw [acceptWord_of_ok hi]
    exact inv_accept h hi
  · rw [acceptWord_of_illegal fun i hi => hd ⟨i, hi⟩]
    exact inv_complete (u := s.accept w) (acceptedStatus_lt h.status_lt) { h.dataOK with } (by decide)

theorem inv_violation (h : s.Inv) : s.violation.Inv := by
  obtain ⟨hdata, ⟨hlt, herrf, hbusy, hcode⟩, hcmd⟩ := inv_iff.1 h
  obtain ⟨h0, h1, h2, -⟩ := violatedStatus_flags s.status
  have e0 : s.violation.busy = s.busy := h0
  have e1 : s.violation.done = s.done := h1
  have e2 : s.violation.errf = s.errf := h2
  refine inv_iff.2 ⟨{ hdata with }, ⟨violatedStatus_lt hlt, ?_, ?_, hcode⟩, ?_⟩
  · rw [e2]; exact herrf
  · rw [e0, e1]; exact hbusy
  · unfold State.commandOK; rw [e0]; exact hcmd

/-- The schedule is not the block's: the invariant says nothing of it. -/
theorem inv_withSchedule (h : s.Inv) (es : List Event) : (s.withSchedule es).Inv := h

/-! ## The data after a named write -/

namespace State.DataOK

theorem putBytes (h : s.DataOK) {b : List Byte} (hb : b.length ≤ s.cfg.byteCap) : (s.putBytes b).DataOK :=
  { h with buffers := buffersOK_putBytes h.buffers hb }

theorem putBits (h : s.DataOK) {b : List Bool} (hb : b.length ≤ s.cfg.bitCap) : (s.putBits b).DataOK :=
  { h with buffers := buffersOK_putBits h.buffers hb }

theorem setShards (h : s.DataOK) {a : Nat} {b : List Byte} (hb : a + b.length ≤ s.cfg.shardCap) :
    (s.setShards a b).DataOK :=
  { h with buffers := buffersOK_setShards h.buffers hb }

theorem setByte (h : s.DataOK) {a : Nat} {b : Byte} (ha : a < s.cfg.byteCap) : (s.setByte a b).DataOK :=
  { h with buffers := buffersOK_setByte h.buffers ha }

theorem setBit (h : s.DataOK) {a : Nat} {b : Bool} (ha : a < s.cfg.bitCap) : (s.setBit a b).DataOK :=
  { h with buffers := buffersOK_setBit h.buffers ha }

theorem fillRows (h : s.DataOK) {cs : Nat} {m : List (List Byte)} {is : List Nat} (hrow : ∀ row ∈ m, row.length = cs)
    (his : ∀ i ∈ is, i < m.length) (hcap : m.length * cs ≤ s.cfg.shardCap) : (s.fillRows cs m is).DataOK :=
  { h with buffers := buffersOK_fillRows hrow his hcap h.buffers }

theorem setShape (h : s.DataOK) {r c : Nat} {p q : Word} (hq : q &&& p = q) : (s.setShape r c p q).DataOK :=
  { h with recon := hq }

theorem setPresence (h : s.DataOK) {p q : Word} (hq : q &&& p = q) : (s.setPresence p q).DataOK :=
  { h with recon := hq }

theorem setResult (h : s.DataOK) (v : Word) : (s.setResult v).DataOK := { h with }

theorem setBytesPadded (h : s.DataOK) (v : Nat) : (s.setBytesPadded v).DataOK := { h with }

theorem setAttempts (h : s.DataOK) (j k : Nat) : (s.setAttempts j k).DataOK := { h with }

/-- The valid bit of a pattern list lies in PCACHE's bits up to N_MAX (10_state.md R36). -/
theorem markPattern (h : s.DataOK) {n : Nat} (hn : n ≤ s.cfg.nMax) : (s.markPattern n).DataOK := by
  refine { h with pcache := toNat_lt_of_or h.pcache (lt_of_le_of_lt ?_ (Nat.pow_lt_pow_succ (a := 2) (by decide))) }
  rw [BitVec.toNat_ofNat]
  exact le_trans (Nat.mod_le _ _) (Nat.pow_le_pow_right (by decide) hn)

theorem latch (h : s.DataOK) {c : Option Codec} (hc : ∀ x, c = some x → x.valid s.cfg) : (s.latch c).DataOK :=
  { h with codec := hc }

end State.DataOK

/-! ## The commands -/

theorem execNop_keeps_inv (h : s.Inv) (hx : execNop s = .next t) : t.Inv := by
  rw [execNop_next hx]
  exact h.commit h.dataOK rfl

theorem execB2bit_keeps_inv (h : s.Inv) (hx : execB2bit s = .next t) : t.Inv := by
  obtain ⟨-, rfl⟩ | ⟨-, hfit, rfl⟩ := execB2bit_next hx
  · exact h.fail (by decide)
  · exact h.commit (h.dataOK.putBits (by simpa using hfit)) rfl

theorem execBit2b_keeps_inv (h : s.Inv) (hx : execBit2b s = .next t) : t.Inv := by
  obtain ⟨-, rfl⟩ | ⟨-, -, hfit, rfl⟩ := execBit2b_next hx
  · exact h.fail (by decide)
  · exact h.commit (h.dataOK.putBytes (by simpa using hfit)) rfl

theorem bitCommand_keeps_inv {f : Bool → Bool} (h : s.Inv) (hx : bitCommand f s = .next t) : t.Inv := by
  obtain ⟨-, rfl⟩ | ⟨hbuf, hlt, rfl⟩ := bitCommand_next hx
  · exact h.fail (by decide)
  · have hcap := bitBufOK_iff.1 hbuf
    exact h.commit (h.dataOK.setBit (by omega)) rfl

theorem byteCommand_keeps_inv {f : Byte → Byte → Byte} (h : s.Inv) (hx : byteCommand f s = .next t) : t.Inv := by
  obtain ⟨-, rfl⟩ | ⟨hbuf, hlt, rfl⟩ := byteCommand_next hx
  · exact h.fail (by decide)
  · have hcap := byteBufOK_iff.1 hbuf
    exact h.commit (h.dataOK.setByte (by omega)) rfl

theorem crcGenerate_keeps_inv {w : CrcWidth} (h : s.Inv) (hx : crcGenerate w s = .next t) : t.Inv := by
  obtain ⟨-, rfl⟩ | ⟨-, rfl⟩ := crcGenerate_next hx
  · exact h.fail (by decide)
  · exact h.commit (h.dataOK.setResult _) rfl

theorem crcCheck_keeps_inv {w : CrcWidth} {pos : EnvPos} (h : s.Inv) (hx : crcCheck w pos s = .next t) : t.Inv := by
  obtain ⟨-, rfl⟩ | ⟨-, rfl⟩ := crcCheck_next hx
  · exact h.fail (by decide)
  · exact h.commit (h.dataOK.setResult _) rfl

theorem crcEncode_keeps_inv {w : CrcWidth} {pos : EnvPos} (h : s.Inv) (hx : crcEncode w pos s = .next t) :
    t.Inv := by
  obtain ⟨-, rfl⟩ | ⟨-, hfit, rfl⟩ := crcEncode_next hx
  · exact h.fail (by decide)
  · exact h.commit ((h.dataOK.putBytes (by simpa using hfit)).setResult _) rfl

/-- The size of the code word fits both byte buffers (42_chunker.md R170, 00_scope.md R8). -/
theorem State.DataOK.codeWord_fits (h : s.DataOK) (hp : s.codecParamsOK = true) :
    s.n ≤ s.cfg.nMax ∧ s.n * s.cs ≤ s.cfg.shardCap ∧ s.ds * s.cs ≤ s.cfg.shardCap ∧ s.cfg.shardCap ≤ s.cfg.byteCap := by
  obtain ⟨-, -, -, -, -, -, -, -, -, -, hcap, -⟩ := wellFormed_bounds h.wellFormed
  have hfit := codecParamsOK_iff.1 hp
  obtain ⟨-, -, hle, hshard, -⟩ := paramsFit_bounds h.wellFormed hfit
  obtain ⟨-, -, hn, -⟩ := hfit
  exact ⟨hn, hshard, le_trans hle hshard, hcap⟩

theorem execChunk_keeps_inv (h : s.Inv) (hx : execChunk s = .next t) : t.Inv := by
  obtain ⟨-, rfl⟩ | ⟨-, -, rfl⟩ | ⟨-, -, -, rfl⟩ | ⟨-, -, -, -, rfl⟩ | ⟨hp, -, -, hlen, rfl⟩ := execChunk_next hx
  iterate 4 exact h.fail (by decide)
  obtain ⟨-, -, hcap, -⟩ := h.dataOK.codeWord_fits hp
  have hq : 0 + (padTo (s.ds * s.cs) (s.bytes s.byteLen.toNat)).length ≤ s.cfg.shardCap := by
    simp only [padTo, List.length_append, List.length_replicate, bytes_length]
    omega
  exact h.commit (((h.dataOK.setShards hq).setShape BitVec.zero_and).setBytesPadded _) rfl

theorem execFlat_keeps_inv (h : s.Inv) (hx : execFlat s = .next t) : t.Inv := by
  obtain ⟨-, rfl⟩ | ⟨hshape, -, rfl⟩ := execFlat_next hx
  · exact h.fail (by decide)
  · obtain ⟨-, -, -, -, -, -, -, -, -, -, hcap, -⟩ := wellFormed_bounds h.dataOK.wellFormed
    have hfit := shapeOK_iff.1 hshape
    exact h.commit (h.dataOK.putBytes (by rw [shards_length]; omega)) rfl

theorem execUnflat_keeps_inv (h : s.Inv) (hx : execUnflat s = .next t) : t.Inv := by
  obtain ⟨-, rfl⟩ | ⟨-, hshape, hlen, rfl⟩ := execUnflat_next hx
  · exact h.fail (by decide)
  · have hfit := shapeOK_iff.1 hshape
    exact h.commit ((h.dataOK.setShards (by rw [bytes_length]; omega)).setPresence BitVec.zero_and) rfl

theorem interleave_keeps_inv (h : s.Inv) (hx : interleave s = .next t) : t.Inv := by
  obtain ⟨-, rfl⟩ | ⟨hshape, -, rfl⟩ := interleave_next hx
  · exact h.fail (by decide)
  · have hfit := shapeOK_iff.1 hshape
    exact h.commit ((h.dataOK.setShards (by simpa [transposed] using hfit)).setShape BitVec.zero_and) rfl

theorem execRsenc_keeps_inv (h : s.Inv) (hx : execRsenc s = .next t) : t.Inv := by
  obtain ⟨-, rfl⟩ | ⟨-, -, rfl⟩ | ⟨hp, -, -, rfl⟩ := execRsenc_next hx
  iterate 2 exact h.fail (by decide)
  obtain ⟨-, hcap, -⟩ := h.dataOK.codeWord_fits hp
  refine h.commit ((h.dataOK.setShards ?_).setShape BitVec.zero_and) rfl
  rw [flatten_length rsParity_row_length, rsParity_length, ← Nat.add_mul]
  exact hcap

/-- What a reconstruction answers is `ds` rows of `cs` bytes (43_reed_solomon.md R192). -/
theorem rsData_shardRows_isMatrix {a : List Nat} {d : List (List Byte)}
    (hd : rsData s.cfg.gfPoly s.ds s.ps s.cs (s.shardRows s.n s.cs) a = some d) : isMatrix s.ds s.cs d :=
  ⟨rsData_length hd, rsData_row_length (by rw [shardRows_length]; exact Nat.le_add_right _ _)
    (shardRows_row_length s _ _) hd⟩

theorem execRsdecf_keeps_inv (h : s.Inv) (hx : execRsdecf s = .next t) : t.Inv := by
  obtain ⟨-, rfl⟩ | ⟨-, -, rfl⟩ | ⟨-, -, -, -, rfl⟩ | ⟨hp, -, -, d, hd, ⟨-, rfl⟩ | ⟨-, rfl⟩⟩ := execRsdecf_next hx
  iterate 4 exact h.fail (by decide)
  obtain ⟨-, hn, hds, hcap⟩ := h.dataOK.codeWord_fits hp
  obtain ⟨hlen, hrow⟩ := rsData_shardRows_isMatrix hd
  have hcode : (rsEncode s.cfg.gfPoly s.ds s.ps s.cs d).length = s.n := by rw [rsEncode_length, hlen]; rfl
  have herased : ∀ i ∈ s.erased s.n, i < s.n := fun i hi => ((mem_erased s).1 hi).1
  have hfilled := h.dataOK.fillRows (rsEncode_row_length hrow) (by rwa [hcode]) (by rwa [hcode])
  refine h.commit ((hfilled.setPresence (maskOf_and_lowmaskWord herased)).putBytes ?_) rfl
  rw [rsPayload_length hlen hrow]
  exact le_trans (Nat.sub_le _ _) (le_trans hds hcap)

/-- Bits that are set lie among the bits that are set then. -/
theorem and_or_eq_self (p q : Word) : q &&& (p ||| q) = q := by
  apply BitVec.eq_of_getLsbD_eq
  intro i _
  simpa using .inr

theorem execRsdecd_keeps_inv (h : s.Inv) (hx : execRsdecd s = .next t) : t.Inv := by
  obtain ⟨-, rfl⟩ | ⟨-, -, rfl⟩ | ⟨-, -, -, -, rfl⟩ | ⟨hp, -, -, d, hd, rfl⟩ := execRsdecd_next hx
  iterate 3 exact h.fail (by decide)
  obtain ⟨-, -, hds, hcap⟩ := h.dataOK.codeWord_fits hp
  obtain ⟨hlen, hrow⟩ := rsData_shardRows_isMatrix hd
  have herased : ∀ i ∈ s.erased s.ds, i < d.length := fun i hi => hlen ▸ ((mem_erased s).1 hi).1
  have hfilled := h.dataOK.fillRows hrow herased (by rwa [hlen])
  refine h.commit ((hfilled.setPresence (and_or_eq_self _ _)).putBytes ?_) rfl
  rw [rsPayload_length hlen hrow]
  exact le_trans (Nat.sub_le _ _) (le_trans hds hcap)

theorem execPatgen_keeps_inv (h : s.Inv) (hx : execPatgen s = .next t) : t.Inv := by
  obtain ⟨-, rfl⟩ | ⟨hp, rfl⟩ := execPatgen_next hx
  · exact h.fail (by decide)
  · exact h.commit (h.dataOK.markPattern (h.dataOK.codeWord_fits hp).1) rfl

/-- The payload an attempt of SEARCH answers is shorter than the data rows it is cut from (45_search_decoder.md R234). -/
theorem attempt_length_le {w : CrcWidth} {pos : EnvPos} {j : Nat} {p : List Byte} (h : s.attempt w pos j = some p) :
    p.length ≤ s.ds * s.cs := by
  obtain ⟨d, hd, henv⟩ := attempt_eq_some.1 h
  obtain ⟨hlen, hrow⟩ := rsData_shardRows_isMatrix hd
  have hl := congrArg List.length henv
  rw [rsPayload_length hlen hrow, envMake_length] at hl
  omega

theorem searchDecode_keeps_inv {w : CrcWidth} {pos : EnvPos} (h : s.Inv) (hx : searchDecode w pos s = .next t) :
    t.Inv := by
  obtain ⟨-, rfl⟩ | ⟨-, -, rfl⟩ | ⟨hp, -, -, -, rfl⟩ | ⟨hp, -, -, j, p, hj, rfl⟩ := searchDecode_next hx
  iterate 2 exact h.fail (by decide)
  all_goals
    obtain ⟨hn, -, hds, hcap⟩ := h.dataOK.codeWord_fits hp
    have hmarked := h.dataOK.markPattern hn
  · exact h.complete (hmarked.setAttempts _ _) rfl (by decide)
  · obtain ⟨-, hattempt, -⟩ := firstFrom_eq_some.1 hj
    have hlen := attempt_length_le hattempt
    exact h.commit ((hmarked.putBytes (le_trans hlen (le_trans hds hcap))).setAttempts _ _) rfl

theorem execVinit_keeps_inv (h : s.Inv) (hx : execVinit s = .next t) : t.Inv := by
  obtain ⟨-, rfl⟩ | ⟨hvalid, rfl⟩ := execVinit_next hx
  · exact h.complete (h.dataOK.latch (c := none) (by simp)) rfl (by decide)
  · refine h.commit (h.dataOK.latch fun c hc => ?_) rfl
    cases hc
    exact codecFromRegs_valid h.dataOK.wellFormed (convValid_iff.1 hvalid)

theorem execVenc_keeps_inv (h : s.Inv) (hx : execVenc s = .next t) : t.Inv := by
  obtain ⟨-, rfl⟩ | ⟨c, hc, ⟨-, rfl⟩ | ⟨-, hfit, rfl⟩⟩ := execVenc_next hx
  iterate 2 exact h.fail (by decide)
  obtain ⟨hk, -⟩ := h.dataOK.codec c hc
  refine h.commit (h.dataOK.putBits (le_trans (le_of_eq ?_) hfit)) rfl
  rw [convEncode_length, bitsOfBytes_length, envMake_length, bytes_length, ← Nat.add_sub_assoc (by omega)]
  rfl

theorem execVdec_keeps_inv (h : s.Inv) (hx : execVdec s = .next t) : t.Inv := by
  obtain ⟨-, rfl⟩ | ⟨c, -, ⟨-, rfl⟩ | ⟨-, -, -, rfl⟩ | ⟨-, hfit, -, -, p, hp, rfl⟩⟩ := execVdec_next hx
  iterate 3 exact h.fail (by decide)
  have hl := congrArg List.length (envOpen_eq_some.1 hp)
  rw [bytesOfBits_length, viterbi_length, bits_length, envMake_length, show crcLen .w16 = 2 from rfl] at hl
  exact h.commit (h.dataOK.putBytes (by omega)) rfl

/-- Every command keeps the invariant. -/
theorem exec_keeps_inv (h : s.Inv) (i : Instr) : ∀ t, exec i s = .next t → t.Inv :=
  exec_cases s (P := fun _ o => ∀ t, o = .next t → t.Inv)
    (nop := fun _ => execNop_keeps_inv h) (b2bit := fun _ => execB2bit_keeps_inv h)
    (bit2b := fun _ => execBit2b_keeps_inv h) (bsetBit := fun _ => bitCommand_keeps_inv h)
    (bsetByte := fun _ => byteCommand_keeps_inv h) (bclrBit := fun _ => bitCommand_keeps_inv h)
    (bclrByte := fun _ => byteCommand_keeps_inv h) (bflipBit := fun _ => bitCommand_keeps_inv h)
    (bflipByte := fun _ => byteCommand_keeps_inv h) (crcgen := fun _ _ => crcGenerate_keeps_inv h)
    (crcenc := fun _ _ _ => crcEncode_keeps_inv h) (crcchk := fun _ _ _ => crcCheck_keeps_inv h)
    (chunk := fun _ => execChunk_keeps_inv h) (flat := fun _ => execFlat_keeps_inv h)
    (unflat := fun _ => execUnflat_keeps_inv h) (rsenc := fun _ => execRsenc_keeps_inv h)
    (rsdecf := fun _ => execRsdecf_keeps_inv h) (rsdecd := fun _ => execRsdecd_keeps_inv h)
    (ilv := fun _ => interleave_keeps_inv h) (dilv := fun _ => interleave_keeps_inv h)
    (patgen := fun _ => execPatgen_keeps_inv h) (search := fun _ _ _ => searchDecode_keeps_inv h)
    (vinit := fun _ => execVinit_keeps_inv h) (venc := fun _ => execVenc_keeps_inv h)
    (vdec := fun _ => execVdec_keeps_inv h) i

theorem coreTurn_keeps_inv (h : s.Inv) (hx : coreTurn s = .next t) : t.Inv := by
  obtain ⟨-, rfl⟩ | ⟨-, i, -, hi⟩ | ⟨-, -, -, rfl⟩ := coreTurn_next hx
  · exact h
  · exact exec_keeps_inv h i t hi
  · exact h.fail (by decide)

/-! ## The host port -/

/-- A byte or a bit a target names lies below the capacity of its buffer (20_memory.md R71, R73). -/
def Target.inCapacity (c : Config) : Target → Prop
  | .byte .byteBuf i => i < c.byteCap
  | .byte .shardMem i => i < c.shardCap
  | .bit _ i => i < c.bitCap
  | .reg _ | .unmapped | .outside => True

theorem regTarget_inCapacity (c : Config) (r : Reg) : (regTarget c r).inCapacity c := by
  unfold regTarget
  split
  · split <;> exact trivial
  · exact trivial

theorem byteTarget_inCapacity (c : Config) (sp : ByteSpace) (i : Nat) : (byteTarget c sp i).inCapacity c := by
  cases sp
  all_goals
    simp only [byteTarget]
    split
    · assumption
    · exact trivial

theorem bitTarget_inCapacity (c : Config) (view : BitView) (i : Nat) : (bitTarget c view i).inCapacity c := by
  unfold bitTarget
  split
  · assumption
  · exact trivial

theorem inWindow_lt {start size off k : Nat} (h : inWindow start size off = some k) : k < size := by
  unfold inWindow at h
  split at h
  · cases h; omega
  · cases h

theorem bufferAtOffset_inCapacity (c : Config) (off : Nat) : (bufferAtOffset c off).inCapacity c := by
  unfold bufferAtOffset
  iterate 4
    split
    · exact inWindow_lt (by assumption)
  exact trivial

theorem regAtOffset_inCapacity (c : Config) (off : Nat) : (regAtOffset c off).inCapacity c := by
  unfold regAtOffset
  split
  · split <;> exact trivial
  · exact regTarget_inCapacity c _

theorem busTarget_inCapacity (c : Config) (addr width : Nat) : (busTarget c addr width).inCapacity c := by
  unfold busTarget offsetTarget
  split
  · exact trivial
  split
  · split
    · exact regAtOffset_inCapacity c _
    · exact trivial
  · split
    · exact bufferAtOffset_inCapacity c _
    · exact trivial

/-- A host move is one read or one write, and what it is aimed at lies within the capacities (20_memory.md R71). -/
theorem hostMove_cases (s : State) (m : HostMove) :
    ∃ tgt, tgt.inCapacity s.cfg ∧
      ((∃ width, s.hostMove m = s.hostRead tgt width) ∨ ∃ v, s.hostMove m = s.hostWrite tgt v) := by
  cases m with
  | readReg r => exact ⟨_, regTarget_inCapacity _ r, .inl ⟨_, rfl⟩⟩
  | writeReg r v => exact ⟨_, regTarget_inCapacity _ r, .inr ⟨_, rfl⟩⟩
  | readByte sp i => exact ⟨_, byteTarget_inCapacity _ sp i, .inl ⟨_, rfl⟩⟩
  | writeByte sp i v => exact ⟨_, byteTarget_inCapacity _ sp i, .inr ⟨_, rfl⟩⟩
  | readBit view i => exact ⟨_, bitTarget_inCapacity _ view i, .inl ⟨_, rfl⟩⟩
  | writeBit view i v => exact ⟨_, bitTarget_inCapacity _ view i, .inr ⟨_, rfl⟩⟩
  | busRead addr width => exact ⟨_, busTarget_inCapacity _ addr width, .inl ⟨_, rfl⟩⟩
  | busWrite addr width data => exact ⟨_, busTarget_inCapacity _ addr width, .inr ⟨_, rfl⟩⟩

theorem hostRead_keeps_inv (h : s.Inv) (tgt : Target) (width : Nat) : (s.hostRead tgt width).Inv := by
  obtain ⟨hframe, hst | hst⟩ := hostRead_frame s tgt width
  · rw [hframe, hst]; exact h
  · rw [hframe, hst]; exact inv_violation h

/-- A store of the host leaves CMD, STATUS and ERR alone, so it keeps the invariant when it keeps the data. -/
theorem State.Inv.store (h : s.Inv) (hu : u.DataOK) (hcmd : u.cmd = s.cmd) (hst : u.status = s.status)
    (herr : u.err = s.err) : u.Inv := by
  obtain ⟨-, hstatus, hcommand⟩ := inv_iff.1 h
  refine inv_iff.2 ⟨hu, ?_, ?_⟩
  · simpa only [State.statusOK, State.busy, State.done, State.errf, hst, herr] using hstatus
  · simpa only [State.commandOK, State.busy, hst, hcmd] using hcommand

/-- Bits 31:1 of what CONV_FLAGS keeps are zero (10_state.md R28). -/
theorem and_one_toNat_le (v : Word) : (v &&& 1).toNat ≤ 1 := by
  rw [BitVec.toNat_and]
  exact Nat.and_le_right

theorem writeReg_keeps_inv (h : s.Inv) (r : Reg) (v : Word) : (s.writeReg r v).Inv := by
  have hd := h.dataOK
  cases r with
  | cmd => exact inv_acceptWord h v
  | dataShards | parityShards | chunkSize | constraintLen | nPoly | arg0 | byteLen | bitLen =>
    exact h.store { hd with } rfl rfl rfl
  | convFlags => exact h.store { hd with convFlags := and_one_toNat_le v } rfl rfl rfl
  | rows | cols | present => exact h.store { hd with recon := BitVec.zero_and } rfl rfl rfl
  | poly j => exact h.store { hd with poly := (List.length_set).trans hd.poly } rfl rfl rfl
  | status | err | recon | bytesPadded | attempts | result | mask | pcache | codec | ident | caps =>
    exact inv_violation h

theorem hostWrite_keeps_inv (h : s.Inv) {tgt : Target} (ht : tgt.inCapacity s.cfg) (v : Word) :
    (s.hostWrite tgt v).Inv := by
  obtain ⟨-, e⟩ | e | ⟨-, r, -, e⟩ | ⟨-, i, rfl, e⟩ | ⟨-, i, rfl, e⟩ | ⟨-, view, i, b, rfl, -, e⟩ :=
    hostWrite_cases s tgt v
  all_goals rw [e]
  · exact h
  · exact inv_violation h
  · exact writeReg_keeps_inv h r v
  · exact h.store (h.dataOK.setByte ht) rfl rfl rfl
  · exact h.store (h.dataOK.setShards ht) rfl rfl rfl
  · exact h.store (h.dataOK.setBit ht) rfl rfl rfl

theorem hostMove_keeps_inv (h : s.Inv) (m : HostMove) : (s.hostMove m).Inv := by
  obtain ⟨tgt, htgt, ⟨width, e⟩ | ⟨v, e⟩⟩ := hostMove_cases s m
  · rw [e]; exact hostRead_keeps_inv h tgt width
  · rw [e]; exact hostWrite_keeps_inv h htgt v

/-! ## Reset -/

/-- After reset the block is idle, no element is listed, and everything the invariant bounds is 0 (10_state.md R44). -/
theorem inv_initial {c : Config} (hc : c.wellFormed = true) : (State.initial c).Inv := by
  have hbuf : (State.initial c).buffersOK := by simp [State.initial, State.buffersOK]
  have hidle : (State.initial c).busy = false := by simp [State.initial, State.busy]
  have hstatus : (State.initial c).statusOK := by
    simp [State.statusOK, State.busy, State.done, State.errf, State.initial]
  have hdata : (State.initial c).DataOK :=
    ⟨hc, hbuf, List.length_replicate, Nat.zero_le _, BitVec.zero_and, Nat.two_pow_pos _, fun _ hx => by cases hx⟩
  refine inv_iff.2 ⟨hdata, hstatus, fun hb => ?_⟩
  rw [hidle] at hb
  cases hb

theorem inv_afterReset (h : s.Inv) : s.afterReset.Inv := inv_initial h.dataOK.wellFormed

theorem defaultConfig_wellFormed : defaultConfig.wellFormed = true := by decide

/-- Settles O54: the default parameters are well formed. -/
theorem invariantHoldsAtReset : Obligations.InvariantHoldsAtReset := inv_initial defaultConfig_wellFormed

/-- Settles O55: a step is the core's turn, a host move or a reset, and each keeps the invariant. -/
theorem everyStepKeepsTheInvariant : Obligations.EveryStepKeepsTheInvariant := by
  intro s t h hs
  obtain ⟨-, hcore⟩ | ⟨e, es, -, ⟨-, hcore⟩ | ⟨m, -, rfl⟩ | ⟨-, rfl⟩⟩ := step_next hs
  · exact coreTurn_keeps_inv h hcore
  · exact coreTurn_keeps_inv (inv_withSchedule h es) hcore
  · exact hostMove_keeps_inv (inv_withSchedule h es) m
  · exact inv_afterReset (inv_withSchedule h es)

end Sys2Proof.Machine
end

section
/-! PROOFS. HERR and the commands (10_state.md R24): a violation before a command moves past its reads, its writes and
its completion, so that no command reads HERR and each leaves it. -/

namespace Sys2Proof.Machine

variable (s : State)

/-! ## The reads and the named writes with HERR set -/

@[simp] theorem byteAt_violation : s.violation.byteAt = s.byteAt := rfl
@[simp] theorem shardAt_violation : s.violation.shardAt = s.shardAt := rfl
@[simp] theorem bitAt_violation : s.violation.bitAt = s.bitAt := rfl
@[simp] theorem bytes_violation : s.violation.bytes = s.bytes := rfl
@[simp] theorem bits_violation : s.violation.bits = s.bits := rfl
@[simp] theorem shards_violation : s.violation.shards = s.shards := rfl
@[simp] theorem shardRows_violation : s.violation.shardRows = s.shardRows := rfl
@[simp] theorem ds_violation : s.violation.ds = s.ds := rfl
@[simp] theorem ps_violation : s.violation.ps = s.ps := rfl
@[simp] theorem cs_violation : s.violation.cs = s.cs := rfl
@[simp] theorem n_violation : s.violation.n = s.n := rfl
@[simp] theorem byteBufOK_violation : s.violation.byteBufOK = s.byteBufOK := rfl
@[simp] theorem bitBufOK_violation : s.violation.bitBufOK = s.bitBufOK := rfl
@[simp] theorem shapeOK_violation : s.violation.shapeOK = s.shapeOK := rfl
@[simp] theorem codecParamsOK_violation : s.violation.codecParamsOK = s.codecParamsOK := rfl
@[simp] theorem convValid_violation : s.violation.convValid = s.convValid := rfl
@[simp] theorem codecFromRegs_violation : s.violation.codecFromRegs = s.codecFromRegs := rfl
@[simp] theorem isPresent_violation : s.violation.isPresent = s.isPresent := rfl
@[simp] theorem allPresent_violation : s.violation.allPresent = s.allPresent := rfl
@[simp] theorem available_violation : s.violation.available = s.available := rfl
@[simp] theorem erased_violation : s.violation.erased = s.erased := rfl
@[simp] theorem hasShape_violation : s.violation.hasShape = s.hasShape := rfl
@[simp] theorem attempt_violation : s.violation.attempt = s.attempt := rfl
@[simp] theorem transposed_violation : transposed s.violation = transposed s := rfl

@[simp] theorem violation_setByte (i : Nat) (v : Byte) : s.violation.setByte i v = (s.setByte i v).violation := rfl
@[simp] theorem violation_setBit (i : Nat) (v : Bool) : s.violation.setBit i v = (s.setBit i v).violation := rfl
@[simp] theorem violation_putBytes (b : List Byte) : s.violation.putBytes b = (s.putBytes b).violation := rfl
@[simp] theorem violation_putBits (b : List Bool) : s.violation.putBits b = (s.putBits b).violation := rfl
@[simp] theorem violation_setShards (a : Nat) (b : List Byte) :
    s.violation.setShards a b = (s.setShards a b).violation := rfl
@[simp] theorem violation_fillRows (cs : Nat) (m : List (List Byte)) (is : List Nat) :
    s.violation.fillRows cs m is = (s.fillRows cs m is).violation := rfl
@[simp] theorem violation_setShape (r c : Nat) (p q : Word) :
    s.violation.setShape r c p q = (s.setShape r c p q).violation := rfl
@[simp] theorem violation_setPresence (p q : Word) : s.violation.setPresence p q = (s.setPresence p q).violation := rfl
@[simp] theorem violation_setResult (v : Word) : s.violation.setResult v = (s.setResult v).violation := rfl
@[simp] theorem violation_setBytesPadded (v : Nat) :
    s.violation.setBytesPadded v = (s.setBytesPadded v).violation := rfl
@[simp] theorem violation_markPattern (n : Nat) : s.violation.markPattern n = (s.markPattern n).violation := rfl
@[simp] theorem violation_setAttempts (j k : Nat) :
    s.violation.setAttempts j k = (s.setAttempts j k).violation := rfl
@[simp] theorem violation_latch (c : Option Codec) : s.violation.latch c = (s.latch c).violation := rfl

/-! ## Completion with HERR set -/

/-- Completion keeps HERR, so that it may be set before or after (60_exceptions.md R303). -/
theorem completedStatus_violatedStatus (st code : Word) :
    completedStatus (violatedStatus st) code = violatedStatus (completedStatus st code) := by
  have hmask : (st ||| 0x8) &&& 0xFFFFFFF8 = (st &&& 0xFFFFFFF8) ||| 0x8 := by
    apply BitVec.eq_of_getLsbD_eq
    intro i hi
    interval_cases i <;> simp
  unfold completedStatus violatedStatus
  rw [hmask, BitVec.or_assoc, BitVec.or_assoc, BitVec.or_comm 0x8]

theorem complete_violation (code : Word) : s.violation.complete code = (s.complete code).violation := by
  simp only [State.complete, State.violation, completedStatus_violatedStatus]

/-- The outcome with HERR set in its state. -/
def outcomeWithHerr : Host.Outcome State Fault Refusal → Host.Outcome State Fault Refusal
  | .next t => .next t.violation
  | .fault r => .fault r
  | .refused r => .refused r

@[simp] theorem succeed_violation : succeed s.violation = outcomeWithHerr (succeed s) := by
  simp only [succeed, outcomeWithHerr, complete_violation]

@[simp] theorem raise_violation (e : Err) : raise e s.violation = outcomeWithHerr (raise e s) := by
  simp only [raise, outcomeWithHerr, complete_violation]

/-! ## The commands with HERR set: each checks and commits as it does without -/

theorem execNop_violation : execNop s.violation = outcomeWithHerr (execNop s) := succeed_violation s

theorem execB2bit_violation : execB2bit s.violation = outcomeWithHerr (execB2bit s) := by
  simp [execB2bit, apply_ite outcomeWithHerr]

theorem execBit2b_violation : execBit2b s.violation = outcomeWithHerr (execBit2b s) := by
  simp [execBit2b, apply_ite outcomeWithHerr]

theorem bitCommand_violation (f : Bool → Bool) :
    bitCommand f s.violation = outcomeWithHerr (bitCommand f s) := by
  simp [bitCommand, apply_ite outcomeWithHerr]

theorem byteCommand_violation (f : Byte → Byte → Byte) :
    byteCommand f s.violation = outcomeWithHerr (byteCommand f s) := by
  simp [byteCommand, apply_ite outcomeWithHerr]

theorem crcGenerate_violation (w : CrcWidth) :
    crcGenerate w s.violation = outcomeWithHerr (crcGenerate w s) := by
  simp [crcGenerate, apply_ite outcomeWithHerr]

theorem crcEncode_violation (w : CrcWidth) (pos : EnvPos) :
    crcEncode w pos s.violation = outcomeWithHerr (crcEncode w pos s) := by
  simp [crcEncode, apply_ite outcomeWithHerr]

theorem crcCheck_violation (w : CrcWidth) (pos : EnvPos) :
    crcCheck w pos s.violation = outcomeWithHerr (crcCheck w pos s) := by
  unfold crcCheck
  rw [byteBufOK_violation]
  split
  · exact raise_violation s _
  · exact succeed_violation (s.setResult (if envOk s.cfg w pos (s.bytes s.byteLen.toNat) then 1 else 0))

theorem execChunk_violation : execChunk s.violation = outcomeWithHerr (execChunk s) := by
  simp [execChunk, apply_ite outcomeWithHerr]

theorem execFlat_violation : execFlat s.violation = outcomeWithHerr (execFlat s) := by
  simp [execFlat, apply_ite outcomeWithHerr]

theorem execUnflat_violation : execUnflat s.violation = outcomeWithHerr (execUnflat s) := by
  simp [execUnflat, apply_ite outcomeWithHerr]

theorem execRsenc_violation : execRsenc s.violation = outcomeWithHerr (execRsenc s) := by
  simp [execRsenc, apply_ite outcomeWithHerr]

theorem execRsdecf_violation : execRsdecf s.violation = outcomeWithHerr (execRsdecf s) := by
  cases hd : rsData s.cfg.gfPoly s.ds s.ps s.cs (s.shardRows s.n s.cs) (s.available s.n) <;>
    simp [execRsdecf, hd, apply_ite outcomeWithHerr]

theorem execRsdecd_violation : execRsdecd s.violation = outcomeWithHerr (execRsdecd s) := by
  cases hd : rsData s.cfg.gfPoly s.ds s.ps s.cs (s.shardRows s.n s.cs) (s.available s.n) <;>
    simp [execRsdecd, hd, apply_ite outcomeWithHerr]

theorem interleave_violation : interleave s.violation = outcomeWithHerr (interleave s) := by
  simp [interleave, apply_ite outcomeWithHerr]

theorem execPatgen_violation : execPatgen s.violation = outcomeWithHerr (execPatgen s) := by
  simp [execPatgen, apply_ite outcomeWithHerr]

theorem searchDecode_violation (w : CrcWidth) (pos : EnvPos) :
    searchDecode w pos s.violation = outcomeWithHerr (searchDecode w pos s) := by
  cases hf : firstFrom (s.attempt w pos) (2 ^ s.n) 0 <;> simp [searchDecode, hf, apply_ite outcomeWithHerr]

theorem execVinit_violation : execVinit s.violation = outcomeWithHerr (execVinit s) := by
  simp [execVinit, apply_ite outcomeWithHerr]

theorem execVenc_violation : execVenc s.violation = outcomeWithHerr (execVenc s) := by
  cases hc : s.codec <;> simp [execVenc, hc, apply_ite outcomeWithHerr]

theorem execVdec_violation : execVdec s.violation = outcomeWithHerr (execVdec s) := by
  cases hc : s.codec with
  | none => simp [execVdec, hc]
  | some c =>
    cases he : envOpen s.cfg .w16 .suf (bytesOfBits (viterbi c (s.bits s.bitLen.toNat))) <;>
      simp [execVdec, hc, he, apply_ite outcomeWithHerr]

/-- Every command does with HERR set what it does without. -/
theorem exec_violation (i : Instr) : exec i s.violation = outcomeWithHerr (exec i s) :=
  exec_cases s (P := fun i o => exec i s.violation = outcomeWithHerr o)
    (nop := execNop_violation s) (b2bit := execB2bit_violation s) (bit2b := execBit2b_violation s)
    (bsetBit := bitCommand_violation s fun _ => true) (bsetByte := byteCommand_violation s fun b p => b ||| p)
    (bclrBit := bitCommand_violation s fun _ => false) (bclrByte := byteCommand_violation s fun b p => b &&& ~~~p)
    (bflipBit := bitCommand_violation s fun b => !b) (bflipByte := byteCommand_violation s fun b p => b ^^^ p)
    (crcgen := fun w => exec_crcgenOf s.violation w ▸ crcGenerate_violation s w)
    (crcenc := fun w pos => exec_crcencOf s.violation w pos ▸ crcEncode_violation s w pos)
    (crcchk := fun w pos => exec_crcchkOf s.violation w pos ▸ crcCheck_violation s w pos)
    (chunk := execChunk_violation s) (flat := execFlat_violation s) (unflat := execUnflat_violation s)
    (rsenc := execRsenc_violation s) (rsdecf := execRsdecf_violation s) (rsdecd := execRsdecd_violation s)
    (ilv := interleave_violation s) (dilv := interleave_violation s) (patgen := execPatgen_violation s)
    (search := fun w pos => exec_searchOf s.violation w pos ▸ searchDecode_violation s w pos)
    (vinit := execVinit_violation s) (venc := execVenc_violation s) (vdec := execVdec_violation s) i

/-- Settles O50: the state with HERR set is the state after a violation. -/
theorem herrChangesNoResult : Obligations.HerrChangesNoResult := by
  intro i s t h
  have hv := exec_violation s i
  rw [h] at hv
  exact hv

end Sys2Proof.Machine
end

section
/-! PROOFS. The registers after reset (10_state.md R44). -/

namespace Sys2Proof.Machine

/-- Every register but ID and CAPS is 0 after reset, whatever the parameters. -/
theorem reg_initial (c : Config) {r : Reg} (hid : r ≠ .ident) (hcaps : r ≠ .caps) :
    (State.initial c).reg r = 0 := by
  cases r with
  | ident => exact absurd rfl hid
  | caps => exact absurd rfl hcaps
  | poly j => simp [State.reg, State.initial, List.getD_eq_getElem?_getD, List.getElem?_getD_replicate_default_eq]
  | _ => rfl

/-- Settles O52: the constants of ID and CAPS are those of the default parameters, and no element is listed. -/
theorem resetStateIsTheSpecs : Obligations.ResetStateIsTheSpecs :=
  ⟨fun _ => reg_initial defaultConfig, rfl, by decide, rfl, fun _ => ⟨rfl, rfl, rfl⟩⟩

end Sys2Proof.Machine
end

section
/-! PROOFS. The named host operations (20_memory.md R71, R78, R80): what each read answers and each write stores, idle
and BUSY. -/

namespace Sys2Proof.Machine

variable {s : State}

/-! ## What a named operation is aimed at -/

theorem regTarget_of_named (c : Config) {r : Reg} (hr : ∀ j, r ≠ .poly j) : regTarget c r = .reg r := by
  cases r with
  | poly j => exact absurd rfl (hr j)
  | _ => rfl

theorem regTarget_poly {c : Config} {j : Nat} (hj : j < c.npolyMax) : regTarget c (.poly j) = .reg (.poly j) :=
  if_pos hj

theorem byteTarget_byteBuf {c : Config} {i : Nat} (hi : i < c.byteCap) : byteTarget c .byteBuf i = .byte .byteBuf i :=
  if_pos hi

theorem byteTarget_shardMem {c : Config} {i : Nat} (hi : i < c.shardCap) :
    byteTarget c .shardMem i = .byte .shardMem i := if_pos hi

theorem bitTarget_of_lt {c : Config} {view : BitView} {i : Nat} (hi : i < c.bitCap) :
    bitTarget c view i = .bit view i := if_pos hi

/-! ## Reads -/

theorem inErasedRow_iff {i : Nat} : s.inErasedRow i = true ↔ s.liesInErasedRow i := by
  simp only [State.inErasedRow, State.liesInErasedRow, Bool.and_eq_true, decide_eq_true_eq, Bool.not_eq_true',
    isPresent_eq_false, and_assoc]

/-- STATUS reads at any time (R80). -/
theorem hostRead_status (s : State) (width : Nat) : s.hostRead (.reg .status) width = s.returns s.status := rfl

theorem hostRead_reg_of_idle (hb : s.busy = false) (r : Reg) (width : Nat) :
    s.hostRead (.reg r) width = s.returns (s.reg r) := by
  cases r <;> simp [State.hostRead, hb, State.reg]

theorem hostRead_reg_of_busy (hb : s.busy = true) {r : Reg} (hr : r ≠ .status) (width : Nat) :
    s.hostRead (.reg r) width = s.returnsUnspecified width := by
  simp [State.hostRead, hb]

theorem hostRead_byteBuf_of_idle (hb : s.busy = false) (i width : Nat) :
    s.hostRead (.byte .byteBuf i) width = s.returns ((s.byteAt i).setWidth 32) := by
  simp [State.hostRead, hb]

theorem hostRead_shardMem_of_idle (hb : s.busy = false) {i : Nat} (hi : ¬ s.liesInErasedRow i) (width : Nat) :
    s.hostRead (.byte .shardMem i) width = s.returns ((s.shardAt i).setWidth 32) := by
  rw [← inErasedRow_iff] at hi
  simp [State.hostRead, hb, hi]

/-- A byte of an erased row has no meaning (10_state.md R33). -/
theorem hostRead_shardMem_of_erased {i : Nat} (hi : s.liesInErasedRow i) (width : Nat) :
    s.hostRead (.byte .shardMem i) width = s.returnsUnspecified width := by
  rw [← inErasedRow_iff] at hi
  simp [State.hostRead, hi]

theorem hostRead_byte_of_busy (hb : s.busy = true) (sp : ByteSpace) (i width : Nat) :
    s.hostRead (.byte sp i) width = s.returnsUnspecified width := by
  cases sp <;> simp [State.hostRead, hb]

theorem hostRead_bit_of_idle (hb : s.busy = false) (view : BitView) (i width : Nat) :
    s.hostRead (.bit view i) width = s.returns ((bitSymbol view (s.bitAt i)).setWidth 32) := by
  simp [State.hostRead, hb]

theorem hostRead_bit_of_busy (hb : s.busy = true) (view : BitView) (i width : Nat) :
    s.hostRead (.bit view i) width = s.returnsUnspecified width := by
  simp [State.hostRead, hb]

/-- A register that exists reads as its value while idle (R78). -/
theorem hostMove_readReg_of_idle (hb : s.busy = false) {r : Reg} (hr : regTarget s.cfg r = .reg r) :
    s.hostMove (.readReg r) = s.returns (s.reg r) := by
  rw [State.hostMove, hr, hostRead_reg_of_idle hb]

theorem hostMove_readReg_of_busy (hb : s.busy = true) {r : Reg} (hr : regTarget s.cfg r = .reg r) (hs : r ≠ .status) :
    s.hostMove (.readReg r) = s.returnsUnspecified 32 := by
  rw [State.hostMove, hr, hostRead_reg_of_busy hb hs]

theorem hostMove_readByteBuf_of_idle (hb : s.busy = false) {i : Nat} (hi : i < s.cfg.byteCap) :
    s.hostMove (.readByte .byteBuf i) = s.returns ((s.byteAt i).setWidth 32) := by
  rw [State.hostMove, byteTarget_byteBuf hi, hostRead_byteBuf_of_idle hb]

theorem hostMove_readShardMem_of_idle (hb : s.busy = false) {i : Nat} (hi : i < s.cfg.shardCap)
    (hrow : ¬ s.liesInErasedRow i) : s.hostMove (.readByte .shardMem i) = s.returns ((s.shardAt i).setWidth 32) := by
  rw [State.hostMove, byteTarget_shardMem hi, hostRead_shardMem_of_idle hb hrow]

theorem hostMove_readShardMem_of_erased {i : Nat} (hi : i < s.cfg.shardCap) (hrow : s.liesInErasedRow i) :
    s.hostMove (.readByte .shardMem i) = s.returnsUnspecified 8 := by
  rw [State.hostMove, byteTarget_shardMem hi, hostRead_shardMem_of_erased hrow]

theorem hostMove_readByte_of_busy (hb : s.busy = true) {sp : ByteSpace} {i : Nat}
    (hi : byteTarget s.cfg sp i = .byte sp i) : s.hostMove (.readByte sp i) = s.returnsUnspecified 8 := by
  rw [State.hostMove, hi, hostRead_byte_of_busy hb]

theorem hostMove_readBit_of_idle (hb : s.busy = false) (view : BitView) {i : Nat} (hi : i < s.cfg.bitCap) :
    s.hostMove (.readBit view i) = s.returns ((bitSymbol view (s.bitAt i)).setWidth 32) := by
  rw [State.hostMove, bitTarget_of_lt hi, hostRead_bit_of_idle hb]

theorem hostMove_readBit_of_busy (hb : s.busy = true) (view : BitView) {i : Nat} (hi : i < s.cfg.bitCap) :
    s.hostMove (.readBit view i) = s.returnsUnspecified 8 := by
  rw [State.hostMove, bitTarget_of_lt hi, hostRead_bit_of_busy hb]

/-- A bit reads through the INT view as 0x00 or 0x01, through the CHR view as 0x30 or 0x31 (R76). -/
theorem bitSymbol_int (b : Bool) : ((bitSymbol .int b).setWidth 32 : Word) = if b then 0x01 else 0x00 := by
  cases b <;> rfl

theorem bitSymbol_chr (b : Bool) : ((bitSymbol .chr b).setWidth 32 : Word) = if b then 0x31 else 0x30 := by
  cases b <;> rfl

/-! ## Writes -/

theorem hostMove_writeReg_of_idle (hb : s.busy = false) {r : Reg} (hr : regTarget s.cfg r = .reg r) (v : Word) :
    s.hostMove (.writeReg r v) = s.writeReg r v := by
  rw [State.hostMove, hr, State.hostWrite, hb]
  exact if_neg Bool.false_ne_true

theorem hostMove_writeReg_of_busy (hb : s.busy = true) {r : Reg} (hr : regTarget s.cfg r = .reg r) (v : Word) :
    s.hostMove (.writeReg r v) = s.violation := by
  rw [State.hostMove, hr, State.hostWrite, hb]
  exact if_pos rfl

theorem hostMove_writeByteBuf_of_idle (hb : s.busy = false) {i : Nat} (hi : i < s.cfg.byteCap) (v : Byte) :
    s.hostMove (.writeByte .byteBuf i v) = s.setByte i v := by
  simp [State.hostMove, byteTarget_byteBuf hi, State.hostWrite, hb]

theorem hostMove_writeShardMem_of_idle (hb : s.busy = false) {i : Nat} (hi : i < s.cfg.shardCap) (v : Byte) :
    s.hostMove (.writeByte .shardMem i v) = s.setShards i [v] := by
  simp [State.hostMove, byteTarget_shardMem hi, State.hostWrite, hb]

/-- Acceptance as a host move (10_state.md R23). -/
theorem hostMove_writeCmd_of_idle (hb : s.busy = false) {w : Word} {i : Instr} (hi : decode w = .ok i) :
    s.hostMove (.writeReg .cmd w) = s.accept w :=
  (hostMove_writeReg_of_idle hb rfl w).trans (acceptWord_of_ok hi)

theorem sameRegs_setByte (i : Nat) (v : Byte) : sameRegs [] s (s.setByte i v) := by
  intro r _
  cases r <;> rfl

theorem sameRegs_setShards (a : Nat) (vs : List Byte) : sameRegs [] s (s.setShards a vs) := by
  intro r _
  cases r <;> rfl

theorem shardAt_setShards_singleton (i : Nat) (v : Byte) (k : Nat) :
    (s.setShards i [v]).shardAt k = if k = i then v else s.shardAt k := by
  rw [shardAt_setShards]
  by_cases h : k = i
  · subst h; simp
  · rw [if_neg h, dif_neg]
    simp only [List.length_singleton]
    omega

/-! ## Reads have no side effect, and a write to CMD is an acceptance -/

/-- Settles O57: a read returns a value or an unspecified value, or is a violation; a byte reads back as written. -/
theorem readsHaveNoSideEffect : Obligations.ReadsHaveNoSideEffect := by
  refine ⟨fun s m hm => ?_, fun s => hostRead_status s 32,
    fun s hb => ⟨fun r hr => ?_, fun j hj => ?_, fun i hi => ?_, fun i hi => ?_, fun i hi => ?_⟩,
    fun s hb => ⟨fun r hs hr => ?_, fun j hj => ?_, fun i hi => ?_, fun i hi => ?_, fun view i hi => ?_⟩,
    fun s i v hb => ⟨fun hi => ?_, fun hi => ?_⟩⟩
  · obtain ⟨r, rfl⟩ | ⟨sp, i, rfl⟩ | ⟨view, i, rfl⟩ | ⟨addr, width, rfl⟩ := hm
    all_goals exact hostRead_frame s _ _
  · exact hostMove_readReg_of_idle hb (regTarget_of_named _ hr)
  · exact hostMove_readReg_of_idle hb (regTarget_poly hj)
  · exact hostMove_readByteBuf_of_idle hb hi
  · exact ⟨hostMove_readShardMem_of_idle hb hi, hostMove_readShardMem_of_erased hi⟩
  · rw [← bitSymbol_int, ← bitSymbol_chr]
    exact ⟨hostMove_readBit_of_idle hb .int hi, hostMove_readBit_of_idle hb .chr hi⟩
  · exact hostMove_readReg_of_busy hb (regTarget_of_named _ hr) hs
  · exact hostMove_readReg_of_busy hb (regTarget_poly hj) (by simp)
  · exact hostMove_readByte_of_busy hb (byteTarget_byteBuf hi)
  · exact hostMove_readByte_of_busy hb (byteTarget_shardMem hi)
  · exact hostMove_readBit_of_busy hb view hi
  · rw [hostMove_writeByteBuf_of_idle hb hi]
    have hread := hostMove_readByteBuf_of_idle (s := s.setByte i v) hb hi
    rw [byteAt_setByte, if_pos rfl] at hread
    exact ⟨by rw [byteAt_setByte, if_pos rfl], fun k hk => by rw [byteAt_setByte, if_neg hk], fun _ => rfl,
      fun _ => rfl, sameRegs_setByte i v, ⟨rfl, rfl, rfl, rfl, rfl, rfl⟩, hread⟩
  · rw [hostMove_writeShardMem_of_idle hb hi]
    refine ⟨by rw [shardAt_setShards_singleton, if_pos rfl],
      fun k hk => by rw [shardAt_setShards_singleton, if_neg hk], fun _ => rfl, fun _ => rfl,
      sameRegs_setShards i [v], ⟨rfl, rfl, rfl, rfl, rfl, rfl⟩, fun hrow => ?_⟩
    have hread := hostMove_readShardMem_of_idle (s := s.setShards i [v]) hb hi hrow
    rwa [shardAt_setShards_singleton, if_pos rfl] at hread

/-- Settles O6: the write is the acceptance of the word, and the core's next turn runs what it decodes to. -/
theorem cmdWriteAcceptsACommand : Obligations.CmdWriteAcceptsACommand := by
  refine ⟨fun s w i es hb hi hs => ?_, fun s w hb => hostMove_writeReg_of_busy hb rfl w,
    fun s hb => hostMove_readReg_of_idle hb rfl, rfl⟩
  obtain ⟨hbusy, hdone, herrf, -⟩ := acceptedStatus_flags s.status
  refine ⟨(s.withSchedule es).accept w, ?_, rfl, rfl, hbusy, hdone, herrf, rfl, acceptedStatus_high s.status,
    fun es' hes => ?_⟩
  · rw [step_of_schedule_host hs, hostMove_writeCmd_of_idle (s := s.withSchedule es) hb hi]
  · rw [step_of_schedule_core hes, coreTurn_of_busy (s := ((s.withSchedule es).accept w).withSchedule es') hbusy hi]

/-! ## Writes to the read-write registers other than CMD -/

/-- The read-write registers but CMD, those of the POLY file apart (10_state.md R22). -/
def storeRegs : List Reg :=
  [.dataShards, .parityShards, .chunkSize, .constraintLen, .nPoly, .convFlags, .arg0, .byteLen, .bitLen, .rows, .cols,
    .present]

/-- A write to the POLY file writes one entry (10_state.md R29). -/
theorem reg_writeReg_poly (j : Nat) (v : Word) (hj : j < s.poly.length) (r : Reg) :
    (s.writeReg (.poly j) v).reg r = if r = .poly j then v else s.reg r := by
  cases r with
  | poly k =>
    by_cases hk : k = j
    · subst hk; simp [State.writeReg, State.reg, hj]
    · simp [State.writeReg, State.reg, hk, Ne.symm hk]
  | _ => rfl

/-- A write to a register outside the POLY file writes the register, and RECON with the shape (10_state.md R28, R34). -/
theorem reg_writeReg_named {r : Reg} (hr : r ∈ storeRegs) (v : Word) (r' : Reg) :
    (s.writeReg r v).reg r' =
      if r' = r then (if r = .convFlags then v &&& 1 else v)
      else if r' = .recon ∧ (r = .rows ∨ r = .cols ∨ r = .present) then 0
      else s.reg r' := by
  simp only [storeRegs, List.mem_cons, List.not_mem_nil, or_false] at hr
  obtain rfl | rfl | rfl | rfl | rfl | rfl | rfl | rfl | rfl | rfl | rfl | rfl := hr
  all_goals cases r' <;> rfl

/-- A write to a register in `storeRegs` or to an entry of the POLY file reads back as written, and writes no other
register but RECON. -/
theorem reg_writeReg {r : Reg} (hr : r ∈ storeRegs ∨ ∃ j < s.poly.length, r = .poly j) (v : Word) (r' : Reg) :
    (s.writeReg r v).reg r' =
      if r' = r then (if r = .convFlags then v &&& 1 else v)
      else if r' = .recon ∧ (r = .rows ∨ r = .cols ∨ r = .present) then 0
      else s.reg r' := by
  obtain hr | ⟨j, hj, rfl⟩ := hr
  · exact reg_writeReg_named hr v r'
  · simp [reg_writeReg_poly j v hj]

/-- Such a write stores nothing else (10_state.md R21). -/
theorem writeReg_frame {r : Reg} (hr : r ∈ storeRegs ∨ ∃ j < s.poly.length, r = .poly j) (v : Word) :
    sameBytes s (s.writeReg r v) ∧ sameShards s (s.writeReg r v) ∧ sameBits s (s.writeReg r v) ∧
      sameRest s (s.writeReg r v) ∧ (s.writeReg r v).busy = s.busy := by
  simp only [storeRegs, List.mem_cons, List.not_mem_nil, or_false] at hr
  obtain (rfl | rfl | rfl | rfl | rfl | rfl | rfl | rfl | rfl | rfl | rfl | rfl) | ⟨j, -, rfl⟩ := hr
  all_goals exact ⟨fun _ => rfl, fun _ => rfl, fun _ => rfl, ⟨rfl, rfl, rfl, rfl, rfl, rfl⟩, rfl⟩

theorem regTarget_of_stored {c : Config} {r : Reg} (hr : r ∈ storeRegs ∨ ∃ j < c.npolyMax, r = .poly j) :
    regTarget c r = .reg r := by
  obtain hr | ⟨j, hj, rfl⟩ := hr
  · exact regTarget_of_named c fun j hj => by simp [hj, storeRegs] at hr
  · exact regTarget_poly hj

/-- Settles O59: the registers after the write are those of `reg_writeReg`. -/
theorem registerWritesStoreTheValue : Obligations.RegisterWritesStoreTheValue := by
  intro s r v hb hp hr
  have htarget : regTarget s.cfg r = .reg r := regTarget_of_stored hr
  rw [← hp] at hr
  have hreg := reg_writeReg hr v
  obtain ⟨hbytes, hshards, hbits, hrest, hbusy⟩ := writeReg_frame hr v
  have hcfg : (s.writeReg r v).cfg = s.cfg := hrest.2.1
  rw [hostMove_writeReg_of_idle hb htarget]
  refine ⟨by rw [hreg, if_pos rfl], fun hshape => ⟨?_, fun r' hr' => ?_⟩, fun h1 h2 h3 r' hr' => ?_,
    hbytes, hshards, hbits, hrest, ?_⟩
  · have hrecon := hreg .recon
    rw [if_neg (by rintro rfl; simp at hshape), if_pos ⟨rfl, hshape⟩] at hrecon
    exact hrecon
  · simp only [List.mem_cons, List.not_mem_nil, or_false, not_or] at hr'
    rw [hreg, if_neg hr'.1, if_neg fun h => hr'.2 h.1]
  · rw [hreg, if_neg fun h => hr' (List.mem_singleton.2 h), if_neg (by tauto)]
  · exact hostMove_readReg_of_idle (hbusy.trans hb) (hcfg ▸ htarget)

end Sys2Proof.Machine
end

section
/-! PROOFS. The address map (20_memory.md R72, R77): through a well-formed map an address of a window is aimed at what
the named operation of its place is aimed at. -/

namespace Sys2Proof.Machine

variable {c : Config}

/-! ## Registers -/

theorem busTarget_regs (hc : c.wellFormed = true) {k : Nat} (hk : k < 0x100) (h4 : k % 4 = 0) :
    busTarget c (c.base + (c.map.regs + k)) 32 = regAtOffset c k := by
  obtain ⟨-, hspan, -⟩ := map_of_wellFormed hc
  have hregs : c.map.regs + 0x100 ≤ c.map.span := hspan (c.map.regs, 0x100) (by simp [Config.windows])
  rw [busTarget_base _ _ _ (by omega), offsetTarget, inWindow_add hk]
  exact if_pos ⟨rfl, h4⟩

/-- The offsets of the table of 10_state.md R22: register number `i` lies at `4 * i`. -/
def registerOffsets : List (Nat × Reg) := regsInOrder.mapIdx fun i r => (4 * i, r)

theorem place_of_registerOffset {k : Nat} {r : Reg} (h : (k, r) ∈ registerOffsets) :
    ∃ i < 24, k = 4 * i ∧ regsInOrder[i]? = some r := by
  obtain ⟨i, hi, he⟩ := List.mem_mapIdx.1 h
  obtain ⟨rfl, rfl⟩ := Prod.mk.inj he
  exact ⟨i, hi, rfl, List.getElem?_eq_getElem hi⟩

theorem regsInOrder_named : ∀ r ∈ regsInOrder, ∀ j, r ≠ .poly j := by
  simp [regsInOrder]

theorem regAtOffset_named {i : Nat} {r : Reg} (hi : i < 24) (hr : regsInOrder[i]? = some r) :
    regAtOffset c (4 * i) = regTarget c r := by
  rw [regTarget_of_named c (regsInOrder_named r (List.mem_of_getElem? hr)), regAtOffset, if_pos (by omega),
    Nat.mul_div_cancel_left _ (by decide), hr]

/-- POLY[j] lies at 0x80 + 4j (10_state.md R22). -/
theorem regAtOffset_poly (j : Nat) : regAtOffset c (0x80 + 4 * j) = regTarget c (.poly j) := by
  rw [regAtOffset, if_neg (by omega), Nat.add_sub_cancel_left, Nat.mul_div_cancel_left _ (by decide)]

/-! ## Buffers -/

/-- An offset of a buffer's window lies in the span, and is aimed at the element by a byte access. -/
theorem busTarget_buffer (hc : c.wellFormed = true) {start size i : Nat} (hw : (start, size) ∈ c.windows.tail)
    (hi : i < size) : busTarget c (c.base + (start + i)) 8 = bufferAtOffset c (start + i) := by
  obtain ⟨-, hspan, hapart⟩ := map_of_wellFormed hc
  have hin : start + size ≤ c.map.span := hspan (start, size) (List.mem_of_mem_tail hw)
  have hregs := (List.pairwise_cons.1 hapart).1 (start, size) hw
  rw [busTarget_base _ _ _ (by omega), offsetTarget, inWindow_apart hregs hi]
  exact if_pos rfl

theorem busTarget_byteBuf (hc : c.wellFormed = true) {i : Nat} (hi : i < c.byteCap) :
    busTarget c (c.base + (c.map.byteBuf + i)) 8 = byteTarget c .byteBuf i := by
  rw [busTarget_buffer hc (size := c.byteCap) (by simp [Config.windows]) hi, bufferAtOffset, inWindow_add hi,
    byteTarget_byteBuf hi]

theorem busTarget_shardMem (hc : c.wellFormed = true) {i : Nat} (hi : i < c.shardCap) :
    busTarget c (c.base + (c.map.shardMem + i)) 8 = byteTarget c .shardMem i := by
  obtain ⟨-, -, hapart⟩ := map_of_wellFormed hc
  simp only [Config.windows, List.pairwise_cons, List.forall_mem_cons] at hapart
  obtain ⟨-, ⟨hbyte, -⟩, -⟩ := hapart
  rw [busTarget_buffer hc (size := c.shardCap) (by simp [Config.windows]) hi, bufferAtOffset, inWindow_apart hbyte hi,
    inWindow_add hi, byteTarget_shardMem hi]

theorem busTarget_bitInt (hc : c.wellFormed = true) {i : Nat} (hi : i < c.bitCap) :
    busTarget c (c.base + (c.map.bitInt + i)) 8 = bitTarget c .int i := by
  obtain ⟨-, -, hapart⟩ := map_of_wellFormed hc
  simp only [Config.windows, List.pairwise_cons, List.forall_mem_cons] at hapart
  obtain ⟨-, ⟨-, hbyte, -⟩, ⟨hshard, -⟩, -⟩ := hapart
  rw [busTarget_buffer hc (size := c.bitCap) (by simp [Config.windows]) hi, bufferAtOffset, inWindow_apart hbyte hi,
    inWindow_apart hshard hi, inWindow_add hi, bitTarget_of_lt hi]

theorem busTarget_bitChr (hc : c.wellFormed = true) {i : Nat} (hi : i < c.bitCap) :
    busTarget c (c.base + (c.map.bitChr + i)) 8 = bitTarget c .chr i := by
  obtain ⟨-, -, hapart⟩ := map_of_wellFormed hc
  simp only [Config.windows, List.pairwise_cons, List.forall_mem_cons] at hapart
  obtain ⟨-, ⟨-, -, hbyte, -⟩, ⟨-, hshard, -⟩, ⟨hint, -⟩, -⟩ := hapart
  rw [busTarget_buffer hc (size := c.bitCap) (by simp [Config.windows]) hi, bufferAtOffset, inWindow_apart hbyte hi,
    inWindow_apart hshard hi, inWindow_apart hint hi, inWindow_add hi, bitTarget_of_lt hi]

/-! ## Accesses through the map -/

/-- Accesses aimed at the same thing do the same. -/
theorem hostMove_bus {s : State} {addr width : Nat} {tgt : Target} (h : busTarget s.cfg addr width = tgt) :
    s.hostMove (.busRead addr width) = s.hostRead tgt width ∧
    ∀ v, s.hostMove (.busWrite addr width v) = s.hostWrite tgt v := by
  subst h
  exact ⟨rfl, fun _ => rfl⟩

/-- Settles O58: an address of the map and the named operation are aimed at the same target. -/
theorem addressMapReachesTheNamedElements : Obligations.AddressMapReachesTheNamedElements := by
  refine ⟨rfl, fun s hc => ⟨fun k r hkr => ?_, fun j hj => ?_, fun i hi => ?_, fun i hi => ?_, fun i hi => ?_⟩⟩
  · obtain ⟨i, hi, rfl, hr⟩ := place_of_registerOffset hkr
    exact hostMove_bus ((busTarget_regs hc (by omega) (by omega)).trans (regAtOffset_named hi hr))
  · obtain ⟨-, -, -, -, -, -, -, hnpoly, -⟩ := wellFormed_bounds hc
    exact hostMove_bus ((busTarget_regs hc (by omega) (by omega)).trans (regAtOffset_poly j))
  · obtain ⟨hread, hwrite⟩ := hostMove_bus (busTarget_byteBuf hc hi)
    exact ⟨hread, fun v => hwrite _⟩
  · obtain ⟨hread, hwrite⟩ := hostMove_bus (busTarget_shardMem hc hi)
    exact ⟨hread, fun v => hwrite _⟩
  · obtain ⟨hreadInt, hwriteInt⟩ := hostMove_bus (busTarget_bitInt hc hi)
    obtain ⟨hreadChr, hwriteChr⟩ := hostMove_bus (busTarget_bitChr hc hi)
    exact ⟨⟨hreadInt, hreadChr⟩, fun v => ⟨hwriteInt _, hwriteChr _⟩⟩

end Sys2Proof.Machine
end

section
/-! PROOFS. The host protocol violations (20_memory.md R79), and the two views of BITBUF (R76). -/

namespace Sys2Proof.Machine

variable {s : State} {c : Config}

/-! ## Writes that are violations -/

theorem regTarget_ne_outside (c : Config) (r : Reg) : regTarget c r ≠ .outside := by
  cases r with
  | poly j =>
    simp only [regTarget]
    split <;> simp
  | _ => simp [regTarget]

theorem byteTarget_ne_outside (c : Config) (sp : ByteSpace) (i : Nat) : byteTarget c sp i ≠ .outside := by
  cases sp
  all_goals
    simp only [byteTarget]
    split <;> simp

theorem bitTarget_ne_outside (c : Config) (view : BitView) (i : Nat) : bitTarget c view i ≠ .outside := by
  unfold bitTarget
  split <;> simp

/-- While BUSY no write that reaches the block stores anything (R79). -/
theorem hostWrite_of_busy (hb : s.busy = true) {t : Target} (ht : t ≠ .outside) (v : Word) :
    s.hostWrite t v = s.violation := by
  obtain ⟨hout, -⟩ | hv | ⟨hidle, -⟩ | ⟨hidle, -⟩ | ⟨hidle, -⟩ | ⟨hidle, -⟩ := hostWrite_cases s t v
  · exact absurd hout ht
  · exact hv
  all_goals exact absurd (hb.symm.trans hidle) Bool.noConfusion

/-- The read-only registers (10_state.md R22). -/
def readOnlyRegs : List Reg :=
  [.status, .err, .recon, .bytesPadded, .attempts, .result, .mask, .pcache, .codec, .ident, .caps]

theorem writeReg_readOnly {r : Reg} (hr : r ∈ readOnlyRegs) (v : Word) : s.writeReg r v = s.violation := by
  simp only [readOnlyRegs, List.mem_cons, List.not_mem_nil, or_false] at hr
  obtain rfl | rfl | rfl | rfl | rfl | rfl | rfl | rfl | rfl | rfl | rfl := hr
  all_goals rfl

/-- A write to a read-only register is a violation, BUSY or idle (R79). -/
theorem hostMove_writeReg_readOnly {r : Reg} (hr : r ∈ readOnlyRegs) (v : Word) :
    s.hostMove (.writeReg r v) = s.violation := by
  have htarget : regTarget s.cfg r = .reg r :=
    regTarget_of_named _ fun j hj => by simp [hj, readOnlyRegs] at hr
  cases hb : s.busy with
  | true => exact hostMove_writeReg_of_busy hb htarget v
  | false => exact (hostMove_writeReg_of_idle hb htarget v).trans (writeReg_readOnly hr v)

/-- A legal symbol stores its bit (R76). -/
theorem hostMove_writeBit_of_idle (hb : s.busy = false) (view : BitView) {i : Nat} (hi : i < s.cfg.bitCap) (b : Bool) :
    s.hostMove (.writeBit view i (bitSymbol view b)) = s.setBit i b := by
  simp [State.hostMove, bitTarget_of_lt hi, State.hostWrite, hb, symbolBit_bitSymbol]

/-- An illegal symbol is a violation at any index, BUSY or idle (R76, R79): a bit is stored only for a legal one. -/
theorem hostMove_writeBit_illegal {view : BitView} {v : Byte} (h0 : v ≠ bitSymbol view false)
    (h1 : v ≠ bitSymbol view true) (i : Nat) : s.hostMove (.writeBit view i v) = s.violation := by
  have hsym : symbolBit view ((v.setWidth 32 : Word).setWidth 8) = none := by
    rw [setWidth_setWidth_byte, symbolBit_eq_none h0 h1]
  rw [State.hostMove]
  by_cases hi : i < s.cfg.bitCap
  · rw [bitTarget_of_lt hi, State.hostWrite, hsym, ite_self]
  · rw [bitTarget, if_neg hi, State.hostWrite]

/-! ## Offsets where nothing is mapped -/

theorem inWindow_eq_none {start size off : Nat} (h : off < start ∨ start + size ≤ off) :
    inWindow start size off = none := if_neg (by omega)

/-- No register lies between CAPS and the POLY file (10_state.md R22). -/
theorem regAtOffset_hole {k : Nat} (hlo : 0x60 ≤ k) (hhi : k < 0x80) : regAtOffset c k = .unmapped := by
  have hlen : regsInOrder.length ≤ k / 4 := by
    simp only [regsInOrder, List.length_cons, List.length_nil]
    omega
  rw [regAtOffset, if_pos hhi, List.getElem?_eq_none hlen]

/-- No register lies after the POLY file (10_state.md R29). -/
theorem regAtOffset_after_poly {k : Nat} (h : 0x80 + 4 * c.npolyMax ≤ k) : regAtOffset c k = .unmapped := by
  rw [regAtOffset, if_neg (by omega)]
  exact if_neg (by omega)

/-- An access to the register window of the wrong width or alignment, or where no register lies, is aimed at nothing (R77). -/
theorem offsetTarget_regs_unmapped {k width : Nat} (hk : k < 0x100)
    (h : width ≠ 32 ∨ k % 4 ≠ 0 ∨ (0x60 ≤ k ∧ k < 0x80) ∨ 0x80 + 4 * c.npolyMax ≤ k) :
    offsetTarget c (c.map.regs + k) width = .unmapped := by
  rw [offsetTarget, inWindow_add hk]
  obtain hw | h4 | ⟨hlo, hhi⟩ | hpoly := h
  · exact if_neg fun hacc => hw hacc.1
  · exact if_neg fun hacc => h4 hacc.2
  · simp only [regAtOffset_hole hlo hhi, ite_self]
  · simp only [regAtOffset_after_poly hpoly, ite_self]

/-- An offset in none of the buffers' windows is aimed at nothing (R72). -/
theorem bufferAtOffset_unmapped {off : Nat}
    (hbyte : off < c.map.byteBuf ∨ c.map.byteBuf + c.byteCap ≤ off)
    (hshard : off < c.map.shardMem ∨ c.map.shardMem + c.shardCap ≤ off)
    (hint : off < c.map.bitInt ∨ c.map.bitInt + c.bitCap ≤ off)
    (hchr : off < c.map.bitChr ∨ c.map.bitChr + c.bitCap ≤ off) : bufferAtOffset c off = .unmapped := by
  rw [bufferAtOffset, inWindow_eq_none hbyte, inWindow_eq_none hshard, inWindow_eq_none hint, inWindow_eq_none hchr]

/-- Outside the register window an access that is no byte access is aimed at nothing (R77), and so is one where no buffer
lies. -/
theorem offsetTarget_buffers_unmapped {off width : Nat} (hregs : off < c.map.regs ∨ c.map.regs + 0x100 ≤ off)
    (h : width ≠ 8 ∨ bufferAtOffset c off = .unmapped) : offsetTarget c off width = .unmapped := by
  rw [offsetTarget, inWindow_eq_none hregs]
  obtain hw | hbuf := h
  · exact if_neg hw
  · simp only [hbuf, ite_self]

/-! ## The violations, and the views of BITBUF -/

/-- Settles O56: while BUSY no write stores, a read-only register and an illegal symbol store nothing at any time, and a bus
access of the last kind is aimed at nothing. -/
theorem hostViolationsOnlySetHerr : Obligations.HostViolationsOnlySetHerr := by
  intro s _
  refine ⟨fun hb r v sp view i b => ⟨?_, ?_, ?_⟩, fun r hr v => hostMove_writeReg_readOnly hr v,
    fun view i b h0 h1 => hostMove_writeBit_illegal h0 h1 i, fun off width hoff hmap => ?_⟩
  · exact hostWrite_of_busy hb (regTarget_ne_outside _ r) _
  · exact hostWrite_of_busy hb (byteTarget_ne_outside _ sp i) _
  · exact hostWrite_of_busy hb (bitTarget_ne_outside _ view i) _
  · have hnone : offsetTarget s.cfg off width = .unmapped := by
      obtain ⟨k, hk, rfl, hbad⟩ | ⟨hregs, hbad⟩ := hmap
      · exact offsetTarget_regs_unmapped hk hbad
      · exact offsetTarget_buffers_unmapped hregs <| hbad.imp_right fun ⟨hbyte, hshard, hint, hchr⟩ =>
          bufferAtOffset_unmapped hbyte hshard hint hchr
    obtain ⟨hread, hwrite⟩ := hostMove_bus ((busTarget_base s.cfg off width hoff).trans hnone)
    exact ⟨hwrite, hread⟩

theorem sameRegs_setBit (i : Nat) (b : Bool) : sameRegs [] s (s.setBit i b) := by
  intro r _
  cases r <;> rfl

/-- The four legal symbols (R76). -/
theorem bitSymbol_eq (view : BitView) (b : Bool) :
    bitSymbol view b = if view = .int then (if b then 0x01 else 0x00) else (if b then 0x31 else 0x30) := by
  cases view <;> rfl

/-- Settles O60: a legal symbol stores its bit, the stored bit reads as its symbol, any other byte is a violation. -/
theorem bitbufHasTwoViewsOfOneSequence : Obligations.BitbufHasTwoViewsOfOneSequence := by
  intro s i hb hi
  refine ⟨fun view b => ?_, ?_, ?_, fun view v h0 h1 => hostMove_writeBit_illegal h0 h1 i⟩
  · rw [← bitSymbol_eq, hostMove_writeBit_of_idle hb view hi]
    exact ⟨by rw [bitAt_setBit, if_pos rfl], fun k hk => by rw [bitAt_setBit, if_neg hk], fun _ => rfl, fun _ => rfl,
      sameRegs_setBit i b, ⟨rfl, rfl, rfl, rfl, rfl, rfl⟩⟩
  · rw [hostMove_readBit_of_idle hb .int hi, ← bitSymbol_int]
    rfl
  · rw [hostMove_readBit_of_idle hb .chr hi, ← bitSymbol_chr]
    rfl

end Sys2Proof.Machine
end

section
/-! PROOFS. The command encoding (30_encoding.md R100 to R111): the decoder, the table and the encoder agree, and the legal
words are told by their fields. -/

namespace Sys2Proof

/-! ## The table, the decoder and the encoder -/

section
open Laws.EncodingFields

theorem encodingFields (i : Instr) : Statement i := by
  cases i
  exacts [nop, b2bit, bit2b, bsetBit, bsetByte, bclrBit, bclrByte, bflipBit, bflipByte, crcgen8, crcgen16, crcgen32,
    crcenc8Suf, crcenc16Suf, crcenc32Suf, crcenc8Pre, crcenc16Pre, crcenc32Pre,
    crcchk8Suf, crcchk16Suf, crcchk32Suf, crcchk8Pre, crcchk16Pre, crcchk32Pre,
    chunk, flat, unflat, rsenc, rsdecf, rsdecd, ilv, dilv, patgen,
    search8Suf, search16Suf, search32Suf, search8Pre, search16Pre, search32Pre, vinit, venc, vdec]

end

/-- Settles O2: each command's word is decoded by the model. -/
theorem decodeOfEncodeIsTheCommand : Obligations.DecodeOfEncodeIsTheCommand := by
  intro i
  obtain ⟨-, hdecode, -⟩ := encodingFields i
  exact hdecode

/-- The words of the table are the words of the encoder (R101, R111). -/
theorem commandTable_eq_encode : ∀ row ∈ commandTable, row.1 = encode row.2 := by decide

theorem mem_commandTable_of_decode {w : Word} {i : Instr} (h : decode w = .ok i) : (w, i) ∈ commandTable := by
  unfold decode at h
  split at h
  case h_1 row hfind =>
    cases h
    have hword : row.1 = w := eq_of_beq (List.find?_some (p := fun row : Word × Instr => row.1 == w) hfind)
    exact hword ▸ List.mem_of_find?_eq_some hfind
  case h_2 => cases h

theorem decode_eq_ok_iff {w : Word} {i : Instr} : decode w = .ok i ↔ w = encode i :=
  ⟨fun h => commandTable_eq_encode _ (mem_commandTable_of_decode h), fun h => h ▸ decodeOfEncodeIsTheCommand i⟩

theorem decode_eq_ok_iff_mem {w : Word} {i : Instr} : decode w = .ok i ↔ (w, i) ∈ commandTable :=
  ⟨mem_commandTable_of_decode, fun h => decode_eq_ok_iff.2 (commandTable_eq_encode _ h)⟩

theorem decode_isError_iff {w : Word} : (∃ e, decode w = .error e) ↔ ∀ i, decode w ≠ .ok i := by
  cases decode w <;> simp

/-- Settles O3: what the decoder finds is a row, every row is a word of the encoder, and these decode to their commands. -/
theorem decodeIsTheTableLookup : Obligations.DecodeIsTheTableLookup := by
  refine ⟨fun w i => decode_eq_ok_iff_mem, fun w => ?_, fun w i => decode_eq_ok_iff⟩
  simp only [decode_isError_iff, ne_eq, decode_eq_ok_iff_mem]

/-- Settles O1: each word is the encoder's word of its command. -/
theorem writtenOutWordsDecode : Obligations.WrittenOutWordsDecode := by
  simp only [Obligations.WrittenOutWordsDecode, decode_eq_ok_iff]
  decide

/-! ## The legal words and their fields -/

/-- The legal words: the first column of the table (R111). -/
def commandWords : List Word := commandTable.map Prod.fst

theorem commandWords_nodup : commandWords.Nodup := by decide

theorem mem_commandWords_iff {w : Word} : w ∈ commandWords ↔ ∃ i, decode w = .ok i := by
  simp [commandWords, decode_eq_ok_iff_mem]

/-- What R102 and R103 ask of OPCODE and SEL, family by family. -/
def fieldsLegal (opcode sel : Word) : Prop :=
  (opcode = 0x10 ∧ sel &&& 3 ≠ 3 ∧ sel < 4) ∨
  (opcode ∈ [(0x11 : Word), 0x12, 0x51] ∧ sel &&& 3 ≠ 3 ∧ sel < 8) ∨
  (opcode ∈ [(0x03 : Word), 0x04, 0x05] ∧ sel < 2) ∨
  (opcode ∈ [(0x00 : Word), 0x01, 0x02, 0x20, 0x21, 0x22, 0x30, 0x31, 0x32, 0x40, 0x41, 0x50, 0x60, 0x61, 0x62] ∧ sel = 0)

/-- A word whose ZERO is 0 is `OPCODE + 256 * SEL` (R100, R101). -/
theorem word_eq_of_fields {w : Word} (hzero : w >>> 12 = 0) : w = (w &&& 0xFF#32) + 256#32 * ((w >>> 8) &&& 0xF#32) := by
  have hz : w.toNat / 4096 = 0 := by simpa [Nat.shiftRight_eq_div_pow] using congrArg BitVec.toNat hzero
  have hop : (w &&& 0xFF#32).toNat = w.toNat % 256 := Nat.and_two_pow_sub_one_eq_mod w.toNat 8
  have hsel : ((w >>> 8) &&& 0xF#32).toNat = w.toNat / 256 % 16 := by
    rw [BitVec.toNat_and, BitVec.toNat_ushiftRight, Nat.shiftRight_eq_div_pow]
    exact Nat.and_two_pow_sub_one_eq_mod _ 4
  apply BitVec.eq_of_toNat_eq
  rw [BitVec.toNat_add, BitVec.toNat_mul, hop, hsel, BitVec.toNat_ofNat]
  omega

theorem exists_ofNat_of_lt {x n : Word} (h : x < n) : ∃ k < n.toNat, x = BitVec.ofNat 32 k :=
  ⟨x.toNat, h, BitVec.eq_of_toNat_eq (by simp)⟩

/-- A statement about the words of a list is decided on the list. (`decide` on it as it stands tries every word: words are a
finite type.) -/
theorem forall_mem_of_all {l : List Word} {P : Word → Prop} [DecidablePred P] (h : (l.all fun w => P w) = true) :
    ∀ w ∈ l, P w := fun w hw => of_decide_eq_true (List.all_eq_true.1 h w hw)

/-- CRCGEN: a width code. -/
theorem crcgen_word_mem {sel : Word} (hwidth : sel &&& 3 ≠ 3) (hlt : sel < 4) : 0x10 + 256 * sel ∈ commandWords := by
  have hwords : ∀ k < 4, BitVec.ofNat 32 k &&& 3 ≠ 3 → 0x10 + 256 * BitVec.ofNat 32 k ∈ commandWords := by decide
  obtain ⟨k, hk, rfl⟩ := exists_ofNat_of_lt hlt
  exact hwords k hk hwidth

/-- CRCENC, CRCCHK and SEARCH: a width code and a position. -/
theorem envelope_word_mem {opcode sel : Word} (hop : opcode ∈ [(0x11 : Word), 0x12, 0x51]) (hwidth : sel &&& 3 ≠ 3)
    (hlt : sel < 8) : opcode + 256 * sel ∈ commandWords := by
  have hwords : ∀ op ∈ [(0x11 : Word), 0x12, 0x51], ∀ k < 8, BitVec.ofNat 32 k &&& 3 ≠ 3 →
      op + 256 * BitVec.ofNat 32 k ∈ commandWords := forall_mem_of_all (by decide)
  obtain ⟨k, hk, rfl⟩ := exists_ofNat_of_lt hlt
  exact hwords opcode hop k hk hwidth

/-- BSET, BCLR and BFLIP: a target. -/
theorem target_word_mem {opcode sel : Word} (hop : opcode ∈ [(0x03 : Word), 0x04, 0x05]) (hlt : sel < 2) :
    opcode + 256 * sel ∈ commandWords := by
  have hwords : ∀ op ∈ [(0x03 : Word), 0x04, 0x05], ∀ k < 2, op + 256 * BitVec.ofNat 32 k ∈ commandWords :=
    forall_mem_of_all (by decide)
  obtain ⟨k, hk, rfl⟩ := exists_ofNat_of_lt hlt
  exact hwords opcode hop k hk

/-- The opcodes whose SEL is 0. -/
theorem plain_word_mem : ∀ opcode ∈ [(0x00 : Word), 0x01, 0x02, 0x20, 0x21, 0x22, 0x30, 0x31, 0x32, 0x40, 0x41, 0x50,
    0x60, 0x61, 0x62], opcode + 256 * 0 ∈ commandWords := forall_mem_of_all (by decide)

theorem mem_commandWords_of_fieldsLegal {opcode sel : Word} (h : fieldsLegal opcode sel) :
    opcode + 256 * sel ∈ commandWords := by
  obtain ⟨rfl, hwidth, hlt⟩ | ⟨hop, hwidth, hlt⟩ | ⟨hop, hlt⟩ | ⟨hop, rfl⟩ := h
  · exact crcgen_word_mem hwidth hlt
  · exact envelope_word_mem hop hwidth hlt
  · exact target_word_mem hop hlt
  · exact plain_word_mem opcode hop

theorem fieldsLegal_of_mem_commandWords :
    ∀ w ∈ commandWords, w >>> 12 = 0 ∧ fieldsLegal (w &&& 0xFF) ((w >>> 8) &&& 0xF) := by
  unfold fieldsLegal
  exact forall_mem_of_all (by decide)

/-- Settles O4: every row of the table has legal fields, and a word with legal fields is put together from them into a row. -/
theorem legalWordsAreTheFortyTwoOfTheFields : Obligations.LegalWordsAreTheFortyTwoOfTheFields := by
  refine ⟨fun w => mem_commandWords_iff.symm.trans ?_, commandWords, rfl, commandWords_nodup, fun w => mem_commandWords_iff⟩
  constructor
  · exact fieldsLegal_of_mem_commandWords w
  · rintro ⟨hzero, hfields⟩
    rw [word_eq_of_fields hzero]
    exact mem_commandWords_of_fieldsLegal hfields

end Sys2Proof
end

section
/-! PROOFS. The frame of a command (60_exceptions.md R303): a completion writes no register but STATUS and ERR, so that the
registers a command changes are those two and the ones its commit writes. -/

namespace Sys2Proof.Machine

variable {s u : State}

theorem reg_complete (c : Word) {r : Reg} (hstatus : r ≠ .status) (herr : r ≠ .err) : (s.complete c).reg r = s.reg r := by
  cases r with
  | status => exact absurd rfl hstatus
  | err => exact absurd rfl herr
  | _ => rfl

theorem sameRegs_complete {l : List Reg} (h : sameRegs l s u) (c : Word) :
    sameRegs (.status :: .err :: l) s (u.complete c) := by
  intro r hr
  simp only [List.mem_cons, not_or] at hr
  obtain ⟨hstatus, herr, hl⟩ := hr
  exact (reg_complete c hstatus herr).trans (h r hl)

theorem sameRegs_refl : sameRegs [] s s := fun _ _ => rfl

theorem sameRegs_putBits (b : List Bool) : sameRegs [.bitLen] s (s.putBits b) := by
  intro r hr
  cases r with
  | bitLen => exact absurd List.mem_cons_self hr
  | _ => rfl

theorem sameRegs_putBytes (b : List Byte) : sameRegs [.byteLen] s (s.putBytes b) := by
  intro r hr
  cases r with
  | byteLen => exact absurd List.mem_cons_self hr
  | _ => rfl

end Sys2Proof.Machine
end

section
/-! PROOFS. NOP and the two conversions (40_bitops.md R131, R132, R136, R137): what each writes, and that the conversions
undo each other. -/

namespace Sys2Proof.Machine

variable {s : State}

/-- Settles O8: the commit of NOP is the state itself. -/
theorem nopOnlyCompletes : Obligations.NopOnlyCompletes :=
  ⟨rfl, fun s => ⟨s.complete 0, exec_nop s, completedOk_complete rfl, rfl, fun _ => rfl, fun _ => rfl, fun _ => rfl,
    sameRegs_complete sameRegs_refl 0, ⟨rfl, rfl, rfl, rfl, rfl, rfl⟩⟩⟩

/-! ## B2BIT -/

theorem execB2bit_eq_raise (h : s.cfg.byteCap < s.byteLen.toNat ∨ s.cfg.bitCap < 8 * s.byteLen.toNat) :
    execB2bit s = raise .badOperand s := by
  simp only [execB2bit, byteBufOK_iff]
  split
  · rfl
  · rw [if_pos (by omega)]

theorem execB2bit_eq_next (hbytes : s.byteLen.toNat ≤ s.cfg.byteCap) (hbits : 8 * s.byteLen.toNat ≤ s.cfg.bitCap) :
    execB2bit s = .next ((s.putBits (bitsOfBytes (s.bytes s.byteLen.toNat))).complete 0) := by
  simp only [execB2bit, byteBufOK_iff]
  rw [if_neg (not_not.2 hbytes), if_neg (by omega)]
  rfl

theorem bitAt_putBits_bitsOfBytes {n q r : Nat} (hq : q < n) (hr : r < 8) :
    (s.putBits (bitsOfBytes (s.bytes n))).bitAt (8 * q + r) = (s.byteAt q).getLsbD (7 - r) := by
  rw [bitAt_putBits, dif_pos (by rw [bitsOfBytes_length, bytes_length]; omega), List.getElem_eq_iff,
    bitsOfBytes_getElem? _ _ _ hr, List.getElem?_eq_getElem (by simpa using hq), bytes_getElem]
  rfl

/-- Settles O9: BITBUF receives the bits of the first BYTELEN bytes. -/
theorem b2bitWritesBytesMostSignificantBitFirst : Obligations.B2bitWritesBytesMostSignificantBitFirst := by
  refine ⟨rfl, fun s hw => ⟨fun h => failsWith_of_raise (execB2bit_eq_raise h), fun hbytes hbits => ?_⟩⟩
  have hbounds := wellFormed_bounds hw
  have hlength : (bitsOfBytes (s.bytes s.byteLen.toNat)).length = 8 * s.byteLen.toNat := by simp
  refine ⟨_, execB2bit_eq_next hbytes hbits, completedOk_complete rfl, ?_, fun q r hq hr => ?_, fun k hk => ?_,
    fun _ => rfl, fun _ => rfl, sameRegs_complete (sameRegs_putBits _) 0, ⟨rfl, rfl, rfl, rfl, rfl, rfl⟩⟩
  · rw [complete_bitLen, putBits_bitLen, hlength, toNat_ofNat_of_le (by omega)]
  · exact bitAt_putBits_bitsOfBytes hq hr
  · rw [bitAt_complete, bitAt_putBits, dif_neg (by omega)]

/-! ## BIT2B -/

theorem execBit2b_eq_raise
    (h : s.cfg.bitCap < s.bitLen.toNat ∨ s.bitLen.toNat % 8 ≠ 0 ∨ s.cfg.byteCap < s.bitLen.toNat / 8) :
    execBit2b s = raise .badOperand s := by
  simp only [execBit2b, bitBufOK_iff]
  split
  · rfl
  split
  · rfl
  · rw [if_pos (by omega)]

theorem execBit2b_eq_next (hbits : s.bitLen.toNat ≤ s.cfg.bitCap) (hmod : s.bitLen.toNat % 8 = 0)
    (hbytes : s.bitLen.toNat / 8 ≤ s.cfg.byteCap) :
    execBit2b s = .next ((s.putBytes (bytesOfBits (s.bits s.bitLen.toNat))).complete 0) := by
  simp only [execBit2b, bitBufOK_iff]
  rw [if_neg (not_not.2 hbits), if_neg (not_not.2 hmod), if_neg (by omega)]
  rfl

theorem byteAt_putBytes_bytesOfBits {n q r : Nat} (hq : q < n / 8) (hr : r < 8) :
    ((s.putBytes (bytesOfBits (s.bits n))).byteAt q).getLsbD (7 - r) = s.bitAt (8 * q + r) := by
  have hlength : q < (bytesOfBits (s.bits n)).length := by simpa using hq
  have hbit : 8 * q + r < (s.bits n).length := by rw [bits_length]; omega
  rw [byteAt_putBytes, dif_pos hlength, bytesOfBits_getLsbD _ _ _ hlength hr, List.getD_eq_getElem _ _ hbit, bits_getElem]

/-- Settles O10: BYTEBUF receives the bytes of the first BITLEN bits. -/
theorem bit2bWritesBytesMostSignificantBitFirst : Obligations.Bit2bWritesBytesMostSignificantBitFirst := by
  refine ⟨rfl, fun s hw => ⟨fun h => failsWith_of_raise (execBit2b_eq_raise h), fun hbits hmod hbytes => ?_⟩⟩
  have hbounds := wellFormed_bounds hw
  have hlength : (bytesOfBits (s.bits s.bitLen.toNat)).length = s.bitLen.toNat / 8 := by simp
  refine ⟨_, execBit2b_eq_next hbits hmod hbytes, completedOk_complete rfl, ?_, fun q r hq hr => ?_, fun k hk => ?_,
    fun _ => rfl, fun _ => rfl, sameRegs_complete (sameRegs_putBytes _) 0, ⟨rfl, rfl, rfl, rfl, rfl, rfl⟩⟩
  · rw [complete_byteLen, putBytes_byteLen, hlength, toNat_ofNat_of_le (by omega)]
  · exact byteAt_putBytes_bytesOfBits hq hr
  · rw [byteAt_complete, byteAt_putBytes, dif_neg (by omega)]

/-! ## One conversion after the other -/

theorem bit2b_after_b2bit (hw : s.cfg.wellFormed = true) (hbytes : s.byteLen.toNat ≤ s.cfg.byteCap)
    (hbits : 8 * s.byteLen.toNat ≤ s.cfg.bitCap) :
    ∃ t u, exec .b2bit s = .next t ∧ exec .bit2b t = .next u ∧ t.err = 0 ∧ u.err = 0 ∧
      sameBytes s u ∧ u.byteLen = s.byteLen := by
  obtain ⟨t, ht, ⟨herrt, -⟩, hlent, hwrittent, -, hsamet, -, -, -, hcfg, -⟩ :=
    (b2bitWritesBytesMostSignificantBitFirst.2 s hw).2 hbytes hbits
  obtain ⟨u, hu, ⟨herru, -⟩, hlenu, hwrittenu, hkeptu, -⟩ :=
    (bit2bWritesBytesMostSignificantBitFirst.2 t (hcfg ▸ hw)).2 (by rw [hcfg]; omega) (by omega) (by rw [hcfg]; omega)
  have hlen : t.bitLen.toNat / 8 = s.byteLen.toNat := by omega
  rw [hlen] at hlenu hwrittenu hkeptu
  refine ⟨t, u, ht, hu, herrt, herru, fun q => ?_, BitVec.eq_of_toNat_eq hlenu⟩
  by_cases hq : q < s.byteLen.toNat
  · exact byte_ext fun r hr => (hwrittenu q r hq hr).trans (hwrittent q r hq hr)
  · exact (hkeptu q (by omega)).trans (hsamet q)

theorem b2bit_after_bit2b (hw : s.cfg.wellFormed = true) (hbits : s.bitLen.toNat ≤ s.cfg.bitCap)
    (hmod : s.bitLen.toNat % 8 = 0) (hbytes : s.bitLen.toNat / 8 ≤ s.cfg.byteCap) :
    ∃ t u, exec .bit2b s = .next t ∧ exec .b2bit t = .next u ∧ t.err = 0 ∧ u.err = 0 ∧
      sameBits s u ∧ u.bitLen = s.bitLen := by
  obtain ⟨t, ht, ⟨herrt, -⟩, hlent, hwrittent, -, hsamet, -, -, -, hcfg, -⟩ :=
    (bit2bWritesBytesMostSignificantBitFirst.2 s hw).2 hbits hmod hbytes
  obtain ⟨u, hu, ⟨herru, -⟩, hlenu, hwrittenu, hkeptu, -⟩ :=
    (b2bitWritesBytesMostSignificantBitFirst.2 t (hcfg ▸ hw)).2 (by rw [hcfg]; omega) (by rw [hcfg]; omega)
  refine ⟨t, u, ht, hu, herrt, herru, fun k => ?_, BitVec.eq_of_toNat_eq (by omega)⟩
  by_cases hk : k < s.bitLen.toNat
  · have hwritten := (hwrittenu (k / 8) (k % 8) (by omega) (by omega)).trans
      (hwrittent (k / 8) (k % 8) (by omega) (by omega))
    rwa [Nat.div_add_mod] at hwritten
  · exact (hkeptu k (by omega)).trans (hsamet k)

/-- Settles O14: each conversion reads back what the other has written, and leaves the rest of its buffer. -/
theorem byteBitConversionsAreLossless : Obligations.ByteBitConversionsAreLossless :=
  ⟨fun _ => bit2b_after_b2bit, fun _ => b2bit_after_bit2b⟩

end Sys2Proof.Machine
end

section
/-! PROOFS. BSET, BCLR and BFLIP on either target (40_bitops.md R133 to R135): the checks, the bit they change, and what two
flips do. -/

namespace Sys2Proof.Machine

variable {s t u : State}

/-! ## Target BITBUF -/

theorem bitCommand_eq_raise (f : Bool → Bool)
    (h : s.cfg.bitCap < s.bitLen.toNat ∨ s.bitLen.toNat ≤ s.arg0.toNat) : bitCommand f s = raise .badOperand s := by
  simp only [bitCommand, bitBufOK_iff]
  split
  · rfl
  · rw [if_pos (by omega)]

theorem bitCommand_eq_next (f : Bool → Bool) (hlen : s.bitLen.toNat ≤ s.cfg.bitCap)
    (hindex : s.arg0.toNat < s.bitLen.toNat) :
    bitCommand f s = .next ((s.setBit s.arg0.toNat (f (s.bitAt s.arg0.toNat))).complete 0) := by
  simp only [bitCommand, bitBufOK_iff]
  rw [if_neg (not_not.2 hlen), if_neg (by omega)]
  rfl

/-! ## Target BYTEBUF -/

theorem byteCommand_eq_raise (g : Byte → Byte → Byte)
    (h : s.cfg.byteCap < s.byteLen.toNat ∨ 8 * s.byteLen.toNat ≤ s.arg0.toNat) :
    byteCommand g s = raise .badOperand s := by
  simp only [byteCommand, byteBufOK_iff]
  split
  · rfl
  · rw [if_pos (by omega)]

theorem byteCommand_eq_next (g : Byte → Byte → Byte) (hlen : s.byteLen.toNat ≤ s.cfg.byteCap)
    (hindex : s.arg0.toNat < 8 * s.byteLen.toNat) :
    byteCommand g s = .next
      ((s.setByte (s.arg0.toNat / 8) (g (s.byteAt (s.arg0.toNat / 8)) (bitInByte s.arg0.toNat))).complete 0) := by
  simp only [byteCommand, byteBufOK_iff]
  rw [if_neg (not_not.2 hlen), if_neg (by omega)]
  rfl

/-- Bit index `i` lies at the bit `7 - i mod 8` of its byte. -/
theorem bitInByte_getLsbD (i : Nat) {r : Nat} (hr : r < 8) : (bitInByte i).getLsbD (7 - r) = decide (r = i % 8) := by
  have hplace : ∀ k < 8, ∀ r < 8, ((0x80 : Byte) >>> k).getLsbD (7 - r) = decide (r = k) := by decide
  exact hplace (i % 8) (Nat.mod_lt i (by decide)) r hr

/-- The operation `g` on a byte and a place applies `f` to the bits at the place and keeps the others. -/
def ActsOnBits (f : Bool → Bool) (g : Byte → Byte → Byte) : Prop :=
  ∀ (b p : Byte) (k : Nat), k < 8 → (g b p).getLsbD k = if p.getLsbD k then f (b.getLsbD k) else b.getLsbD k

theorem or_actsOnBits : ActsOnBits (fun _ => true) fun b p => b ||| p := by
  intro b p k _
  rw [BitVec.getLsbD_or]
  cases p.getLsbD k <;> simp

theorem and_not_actsOnBits : ActsOnBits (fun _ => false) fun b p => b &&& ~~~p := by
  intro b p k hk
  rw [BitVec.getLsbD_and, BitVec.getLsbD_not, decide_eq_true hk]
  cases p.getLsbD k <;> simp

theorem xor_actsOnBits : ActsOnBits (fun b => !b) fun b p => b ^^^ p := by
  intro b p k _
  rw [BitVec.getLsbD_xor]
  cases p.getLsbD k <;> simp

/-- Bit by bit, the write of a single-bit command on BYTEBUF changes the bit at index `i` and no other. -/
theorem getLsbD_byteAt_setByte {f : Bool → Bool} {g : Byte → Byte → Byte} (hg : ActsOnBits f g) (i q : Nat) {r : Nat}
    (hr : r < 8) :
    ((s.setByte (i / 8) (g (s.byteAt (i / 8)) (bitInByte i))).byteAt q).getLsbD (7 - r) =
      if 8 * q + r = i then f ((s.byteAt q).getLsbD (7 - r)) else (s.byteAt q).getLsbD (7 - r) := by
  rw [byteAt_setByte]
  by_cases hq : q = i / 8
  · have hindex : r = i % 8 ↔ 8 * q + r = i := by omega
    rw [if_pos hq, hg _ _ _ (by omega), bitInByte_getLsbD i hr, ← hq]
    simp only [decide_eq_true_eq, hindex]
  · rw [if_neg hq, if_neg (by omega)]

/-! ## The commands -/

theorem singleBitCommand_of_actsOnBits {iBit iByte : Instr} {f : Bool → Bool} {g : Byte → Byte → Byte}
    (hbit : ∀ s, exec iBit s = bitCommand f s) (hbyte : ∀ s, exec iByte s = byteCommand g s) (hg : ActsOnBits f g) :
    singleBitCommand iBit iByte f := by
  intro s
  refine ⟨fun h => failsWith_of_raise ((hbit s).trans (bitCommand_eq_raise f h)), fun hlen hindex => ?_,
    fun h => failsWith_of_raise ((hbyte s).trans (byteCommand_eq_raise g h)), fun hlen hindex => ?_⟩
  · refine ⟨_, (hbit s).trans (bitCommand_eq_next f hlen hindex), completedOk_complete rfl, ?_, fun k hk => ?_,
      fun _ => rfl, fun _ => rfl, sameRegs_complete (sameRegs_setBit _ _) 0, ⟨rfl, rfl, rfl, rfl, rfl, rfl⟩⟩
    · rw [bitAt_complete, bitAt_setBit, if_pos rfl]
    · rw [bitAt_complete, bitAt_setBit, if_neg hk]
  · exact ⟨_, (hbyte s).trans (byteCommand_eq_next g hlen hindex), completedOk_complete rfl,
      fun q r hr => getLsbD_byteAt_setByte hg _ q hr, fun _ => rfl, fun _ => rfl,
      sameRegs_complete (sameRegs_setByte _ _) 0, ⟨rfl, rfl, rfl, rfl, rfl, rfl⟩⟩

theorem singleBitCommand_bset : singleBitCommand .bsetBit .bsetByte fun _ => true :=
  singleBitCommand_of_actsOnBits exec_bsetBit exec_bsetByte or_actsOnBits

theorem singleBitCommand_bflip : singleBitCommand .bflipBit .bflipByte fun b => !b :=
  singleBitCommand_of_actsOnBits exec_bflipBit exec_bflipByte xor_actsOnBits

/-- Settles O12: to clear a bit is to take the conjunction with the complement of its place. -/
theorem bclrClearsTheOneBit : Obligations.BclrClearsTheOneBit :=
  ⟨⟨rfl, rfl⟩, singleBitCommand_of_actsOnBits exec_bclrBit exec_bclrByte and_not_actsOnBits⟩

/-! ## BSET.BYTE through BITBUF -/

/-- `B2BIT`, `BSET.BIT`, `BIT2B` (R133): the bit is set on the way, between the two conversions. -/
theorem bsetByte_eq_bset_between_conversions (hw : s.cfg.wellFormed = true) (hlen : s.byteLen.toNat ≤ s.cfg.byteCap)
    (hindex : s.arg0.toNat < 8 * s.byteLen.toNat) :
    ∃ a b c t, exec .b2bit s = .next a ∧ exec .bsetBit a = .next b ∧ exec .bit2b b = .next c ∧
      exec .bsetByte s = .next t ∧ c.err = 0 ∧ t.err = 0 ∧ sameBytes t c := by
  have hbounds := wellFormed_bounds hw
  obtain ⟨a, ha, -, hlena, hbita, -, hbytea, -, hregsa, -, hcfga, -⟩ :=
    (b2bitWritesBytesMostSignificantBitFirst.2 s hw).2 hlen (by omega)
  have harga : a.arg0 = s.arg0 := hregsa .arg0 (by decide)
  obtain ⟨b, hb, -, hsetb, hkeptb, hbyteb, -, hregsb, -, hcfgb, -⟩ :=
    (singleBitCommand_bset a).2.1 (by rw [hcfga]; omega) (by rw [harga]; omega)
  have hlenb : b.bitLen = a.bitLen := hregsb .bitLen (by decide)
  have hcfg : b.cfg = s.cfg := hcfgb.trans hcfga
  obtain ⟨c, hc, ⟨herrc, -⟩, -, hbitc, hkeptc, -⟩ :=
    (bit2bWritesBytesMostSignificantBitFirst.2 b (hcfg ▸ hw)).2 (by rw [hlenb, hcfg]; omega) (by rw [hlenb]; omega)
      (by rw [hlenb, hcfg]; omega)
  have hn : b.bitLen.toNat / 8 = s.byteLen.toNat := by rw [hlenb]; omega
  rw [hn] at hbitc hkeptc
  rw [harga] at hsetb hkeptb
  obtain ⟨t, ht, ⟨herrt, -⟩, hbitt, -⟩ := (singleBitCommand_bset s).2.2.2 hlen hindex
  refine ⟨a, b, c, t, ha, hb, hc, ht, herrc, herrt, fun q => byte_ext fun r hr => ?_⟩
  rw [hbitt q r hr]
  by_cases hq : q < s.byteLen.toNat
  · rw [hbitc q r hq hr]
    split
    · next hi => rw [hi, hsetb]
    · next hi => rw [hkeptb _ hi, hbita q r hq hr]
  · rw [hkeptc q (by omega), hbyteb q, hbytea q, if_neg (by omega)]

/-- Settles O11: to set a bit is to take the disjunction with its place. -/
theorem bsetSetsTheOneBit : Obligations.BsetSetsTheOneBit :=
  ⟨⟨rfl, rfl⟩, singleBitCommand_bset, fun _ => bsetByte_eq_bset_between_conversions⟩

/-! ## Two flips -/

/-- Both commands are refused, or the second undoes the first. -/
theorem bitCommand_twice {f : Bool → Bool} (hf : ∀ b, f (f b) = b) (ht : bitCommand f s = .next t)
    (hu : bitCommand f t = .next u) : sameBits s u ∧ sameBytes s u := by
  by_cases h : s.bitLen.toNat ≤ s.cfg.bitCap ∧ s.arg0.toNat < s.bitLen.toNat
  · obtain ⟨hlen, hindex⟩ := h
    cases ht.symm.trans (bitCommand_eq_next f hlen hindex)
    cases hu.symm.trans (bitCommand_eq_next f hlen hindex)
    refine ⟨fun k => ?_, fun _ => rfl⟩
    simp only [bitAt_complete, bitAt_setBit, complete_arg0, setBit_arg0, if_true, hf]
    split
    · next hk => rw [hk]
    · rfl
  · have hbad : s.cfg.bitCap < s.bitLen.toNat ∨ s.bitLen.toNat ≤ s.arg0.toNat := by omega
    cases ht.symm.trans (bitCommand_eq_raise f hbad)
    cases hu.symm.trans (bitCommand_eq_raise f hbad)
    exact ⟨fun _ => rfl, fun _ => rfl⟩

theorem byteCommand_twice {g : Byte → Byte → Byte} (hg : ∀ b p, g (g b p) p = b) (ht : byteCommand g s = .next t)
    (hu : byteCommand g t = .next u) : sameBits s u ∧ sameBytes s u := by
  by_cases h : s.byteLen.toNat ≤ s.cfg.byteCap ∧ s.arg0.toNat < 8 * s.byteLen.toNat
  · obtain ⟨hlen, hindex⟩ := h
    cases ht.symm.trans (byteCommand_eq_next g hlen hindex)
    cases hu.symm.trans (byteCommand_eq_next g hlen hindex)
    refine ⟨fun _ => rfl, fun k => ?_⟩
    simp only [byteAt_complete, byteAt_setByte, complete_arg0, setByte_arg0, if_true, hg]
    split
    · next hk => rw [hk]
    · rfl
  · have hbad : s.cfg.byteCap < s.byteLen.toNat ∨ 8 * s.byteLen.toNat ≤ s.arg0.toNat := by omega
    cases ht.symm.trans (byteCommand_eq_raise g hbad)
    cases hu.symm.trans (byteCommand_eq_raise g hbad)
    exact ⟨fun _ => rfl, fun _ => rfl⟩

/-- Settles O13: to flip a bit is to add its place, and adding it twice adds nothing. -/
theorem bflipInvertsTheOneBit : Obligations.BflipInvertsTheOneBit := by
  refine ⟨⟨rfl, rfl⟩, singleBitCommand_bflip, fun i hi s t u ht hu => ?_⟩
  obtain rfl | rfl : i = .bflipBit ∨ i = .bflipByte := by simpa using hi
  · exact bitCommand_twice Bool.not_not ht hu
  · exact byteCommand_twice (fun b p => by rw [BitVec.xor_assoc, BitVec.xor_self, BitVec.xor_zero]) ht hu

end Sys2Proof.Machine
end

section
/-! PROOFS. The CRC bit by bit (41_crc.md R151): adding a whole byte at the top of the register and shifting 8 times is
feeding its bits one after another. -/

namespace Sys2Proof.Machine

variable {w : Nat}

/-- One bit fed to the register: it meets the bit that is shifted out. -/
def crcFeed (poly reg : BitVec w) (b : Bool) : BitVec w :=
  if (reg.msb ^^ b) = true then (reg <<< 1) ^^^ poly else reg <<< 1

/-- What has been added to the register ahead of time can be split off: its top bit is fed, the rest moves up. -/
theorem crcShift_xor (poly reg ahead : BitVec w) :
    crcShift poly (reg ^^^ ahead) = crcFeed poly reg ahead.msb ^^^ (ahead <<< 1) := by
  rw [crcShift, crcFeed, BitVec.msb_xor, BitVec.shiftLeft_xor_distrib]
  split
  · rw [BitVec.xor_assoc, BitVec.xor_assoc, BitVec.xor_comm poly]
  · rfl

theorem msb_shiftLeft_eq_getMsbD (x : BitVec w) (n : Nat) : (x <<< n).msb = x.getMsbD n := by
  rw [BitVec.msb, BitVec.getMsbD_shiftLeft, Nat.zero_add]

/-- `n` shifts with all bits added at once are `n` bits fed, and what is left of the rest. -/
theorem foldl_crcShift_xor (poly reg ahead : BitVec w) (n : Nat) :
    (List.range n).foldl (fun r _ => crcShift poly r) (reg ^^^ ahead) =
      (List.range n).foldl (fun r k => crcFeed poly r (ahead.getMsbD k)) reg ^^^ (ahead <<< n) := by
  induction n with
  | zero => simp
  | succ n ih =>
    rw [List.range_succ, List.foldl_append, List.foldl_append, ih]
    simp only [List.foldl_cons, List.foldl_nil]
    rw [crcShift_xor, msb_shiftLeft_eq_getMsbD, BitVec.shiftLeft_add]

theorem ofNat_bitrev (x : BitVec w) : BitVec.ofNat w (bitrev w x.toNat) = x.reverse := by
  apply BitVec.eq_of_getLsbD_eq
  intro i hi
  rw [BitVec.getLsbD_ofNat, bitrev_testBit, BitVec.getLsbD_reverse, BitVec.getMsbD_eq_getLsbD, BitVec.testBit_toNat]
  simp [hi]

/-- The bits of a byte in the order the register is fed them: most significant first, or least significant first. -/
def fedBits (refin : Bool) (b : Byte) : List Bool := (List.range 8).map fun r => b.getLsbD (if refin then r else 7 - r)

/-- A byte at the top of the register gives its top bits. -/
theorem getMsbD_setWidth_shiftLeft (hw : 8 ≤ w) (b : Byte) {k : Nat} (hk : k < 8) :
    (b.setWidth w <<< (w - 8)).getMsbD k = b.getLsbD (7 - k) := by
  rw [BitVec.getMsbD_shiftLeft, BitVec.getMsbD_eq_getLsbD, BitVec.getLsbD_setWidth,
    show w - 1 - (k + (w - 8)) = 7 - k by omega]
  simp [show k + (w - 8) < w by omega, show 7 - k < w by omega]

theorem crcByte_eq_foldl_crcFeed (hw : 8 ≤ w) (p : CrcParams w) (reg : BitVec w) (b : Byte) :
    crcByte p reg b = (fedBits p.refin b).foldl (crcFeed p.poly) reg := by
  have hout (b : Byte) : b.setWidth w <<< (w - 8) <<< 8 = 0#w := by
    rw [← BitVec.shiftLeft_add, Nat.sub_add_cancel hw]
    simp
  simp only [crcByte, ofNat_bitrev, foldl_crcShift_xor, hout, BitVec.xor_zero, fedBits, List.foldl_map]
  refine List.foldl_ext _ _ _ fun r k hk => ?_
  have hlt : k < 8 := List.mem_range.1 hk
  rw [getMsbD_setWidth_shiftLeft hw _ hlt]
  cases p.refin
  · rfl
  · rw [if_pos rfl, if_pos rfl, BitVec.getLsbD_reverse, BitVec.getMsbD_eq_getLsbD]
    simp [show 7 - k < 8 by omega, show 7 - (7 - k) = k by omega]

theorem eight_le_crcBits : ∀ w : CrcWidth, 8 ≤ crcBits w := by
  rintro (_ | _ | _) <;> decide

/-- Settles O16: each byte acts on the register as its bits do, and the two reversals are those of the bits. -/
theorem crcIsABitSerialDivision : Obligations.CrcIsABitSerialDivision := by
  intro w p d
  have hbytes : d.foldl (crcByte p) p.init = (d.flatMap (fedBits p.refin)).foldl (crcFeed p.poly) p.init := by
    rw [List.foldl_flatMap]
    exact List.foldl_ext _ _ _ fun r b _ => crcByte_eq_foldl_crcFeed (eight_le_crcBits w) p r b
  simp only [crc, hbytes, ofNat_bitrev]
  rfl

end Sys2Proof.Machine
end

section
/-! PROOFS. The stored CRC of an envelope (41_crc.md R154, R158): an envelope is a stored CRC beside a payload, it verifies
exactly when the CRC is the payload's, and so CRCCHK catches one flipped bit of the CRC that CRCENC stored. -/

namespace Sys2Proof.Machine

variable {s : State}

/-! ## Envelopes -/

/-- A stored CRC, whatever its bytes, beside a payload (R154). -/
def envelope (pos : EnvPos) (stored payload : List Byte) : List Byte :=
  match pos with
  | .pre => stored ++ payload
  | .suf => payload ++ stored

theorem envMake_eq_envelope (c : Config) (w : CrcWidth) (pos : EnvPos) (p : List Byte) :
    envMake c w pos p = envelope pos (crcBytes (crcOf c w p)) p := by
  cases pos <;> rfl

theorem envSplit_envelope {w : CrcWidth} (pos : EnvPos) {stored : List Byte} (payload : List Byte)
    (h : stored.length = crcLen w) : envSplit w pos (envelope pos stored payload) = some (stored, payload) := by
  cases pos with
  | suf => simp [envSplit, envelope, ← h]
  | pre => simp [envSplit, envelope, ← h]

theorem envOk_envelope (c : Config) {w : CrcWidth} (pos : EnvPos) {stored : List Byte} (payload : List Byte)
    (h : stored.length = crcLen w) :
    envOk c w pos (envelope pos stored payload) = decide (stored = crcBytes (crcOf c w payload)) := by
  simp only [envOk, envSplit_envelope pos payload h]

/-- A write inside the stored CRC leaves the payload alone. -/
theorem envelope_set {pos : EnvPos} {stored payload : List Byte} {j : Nat} (v : Byte)
    (hlo : crcPlace pos payload.length ≤ j) (hhi : j < crcPlace pos payload.length + stored.length) :
    (envelope pos stored payload).set j v = envelope pos (stored.set (j - crcPlace pos payload.length) v) payload := by
  cases pos with
  | suf => exact List.set_append_right j v hlo
  | pre => exact List.set_append_left j v (by simpa [crcPlace] using hhi)

/-- An envelope with one byte of its stored CRC changed does not verify (R158). -/
theorem envOk_set_eq_false {c : Config} {w : CrcWidth} {pos : EnvPos} {p : List Byte} {j : Nat} {v : Byte}
    (hlo : crcPlace pos p.length ≤ j) (hhi : j < crcPlace pos p.length + crcLen w)
    (hv : (envMake c w pos p)[j]? ≠ some v) : envOk c w pos ((envMake c w pos p).set j v) = false := by
  have hstored := crcBytes_crcOf_length c w p
  have hset := envelope_set v hlo (hstored.symm ▸ hhi)
  rw [← envMake_eq_envelope] at hset
  rw [hset, envOk_envelope c pos p (by rw [List.length_set, hstored]), decide_eq_false_iff_not]
  intro hsame
  have hfix : (envMake c w pos p).set j v = envMake c w pos p := by rw [hset, hsame, envMake_eq_envelope]
  have hj : j < (envMake c w pos p).length := by
    rw [envMake_length]
    cases pos <;> simp only [crcPlace] at hlo hhi <;> omega
  exact hv (by rw [← hfix, List.getElem?_set_self hj])

/-! ## The commands on BYTEBUF -/

theorem crcEncode_eq_next {w : CrcWidth} (pos : EnvPos) (hfit : s.byteLen.toNat + crcLen w ≤ s.cfg.byteCap) :
    crcEncode w pos s = .next (((s.putBytes (envMake s.cfg w pos (s.bytes s.byteLen.toNat))).setResult
      ((crcOf s.cfg w (s.bytes s.byteLen.toNat)).setWidth 32)).complete 0) := by
  simp only [crcEncode, byteBufOK_iff]
  rw [if_neg (by omega), if_neg (by omega)]
  rfl

theorem crcCheck_eq_next (w : CrcWidth) (pos : EnvPos) (hlen : s.byteLen.toNat ≤ s.cfg.byteCap) :
    crcCheck w pos s =
      .next ((s.setResult (if envOk s.cfg w pos (s.bytes s.byteLen.toNat) then 1 else 0)).complete 0) := by
  simp only [crcCheck, byteBufOK_iff]
  rw [if_neg (not_not.2 hlen)]
  rfl

theorem bytes_putBytes (b : List Byte) : (s.putBytes b).bytes b.length = b := by
  refine List.ext_getElem (bytes_length _ _) fun i hi hb => ?_
  rw [bytes_getElem, byteAt_putBytes, dif_pos hb]

theorem bytes_setByte (n j : Nat) (v : Byte) : (s.setByte j v).bytes n = (s.bytes n).set j v := by
  refine List.ext_getElem (by simp) fun i hi hb => ?_
  rw [bytes_getElem, byteAt_setByte, List.getElem_set, bytes_getElem]
  simp only [eq_comm]

theorem xor_bitInByte_ne (b : Byte) (i : Nat) : b ^^^ bitInByte i ≠ b := by
  intro h
  have hflip : (b ^^^ bitInByte i).getLsbD (7 - i % 8) = !b.getLsbD (7 - i % 8) := by
    rw [BitVec.getLsbD_xor, bitInByte_getLsbD i (Nat.mod_lt i (by decide)), decide_eq_true rfl, Bool.xor_true]
  rw [h] at hflip
  exact Bool.not_ne_self _ hflip.symm

theorem exec_crcencOf_stores {w : CrcWidth} (pos : EnvPos) (hw : s.cfg.wellFormed = true)
    (hfit : s.byteLen.toNat + crcLen w ≤ s.cfg.byteCap) :
    ∃ t, exec (crcencOf w pos) s = .next t ∧ t.cfg = s.cfg ∧ t.arg0 = s.arg0 ∧
      t.byteLen.toNat = s.byteLen.toNat + crcLen w ∧
      t.bytes t.byteLen.toNat = envMake s.cfg w pos (s.bytes s.byteLen.toNat) := by
  have hbounds := wellFormed_bounds hw
  have hlen : (BitVec.ofNat 32 (envMake s.cfg w pos (s.bytes s.byteLen.toNat)).length).toNat =
      (envMake s.cfg w pos (s.bytes s.byteLen.toNat)).length := by
    rw [envMake_length, bytes_length, toNat_ofNat_of_le (by omega)]
  refine ⟨_, (exec_crcencOf s w pos).trans (crcEncode_eq_next pos hfit), rfl, rfl, ?_, ?_⟩
  · rw [complete_byteLen, setResult_byteLen, putBytes_byteLen, hlen, envMake_length, bytes_length]
  · rw [complete_byteLen, setResult_byteLen, putBytes_byteLen, hlen]
    exact bytes_putBytes _

theorem exec_crcchkOf_answers (w : CrcWidth) (pos : EnvPos) (hlen : s.byteLen.toNat ≤ s.cfg.byteCap) :
    ∃ t, exec (crcchkOf w pos) s = .next t ∧ t.err = 0 ∧
      t.result = if envOk s.cfg w pos (s.bytes s.byteLen.toNat) then 1 else 0 :=
  ⟨_, (exec_crcchkOf s w pos).trans (crcCheck_eq_next w pos hlen), rfl, rfl⟩

theorem exec_bflipByte_sets (hlen : s.byteLen.toNat ≤ s.cfg.byteCap) (hindex : s.arg0.toNat < 8 * s.byteLen.toNat) :
    ∃ t, exec .bflipByte s = .next t ∧ t.cfg = s.cfg ∧ t.byteLen = s.byteLen ∧
      ∀ n, t.bytes n =
        (s.bytes n).set (s.arg0.toNat / 8) (s.byteAt (s.arg0.toNat / 8) ^^^ bitInByte s.arg0.toNat) :=
  ⟨_, (exec_bflipByte s).trans (byteCommand_eq_next _ hlen hindex), rfl, rfl, fun n => bytes_setByte n _ _⟩

/-- The flip changes a byte of the stored CRC and leaves the payload alone. -/
theorem crcchk_after_bflipByte {w : CrcWidth} {pos : EnvPos} (hw : s.cfg.wellFormed = true)
    (hfit : s.byteLen.toNat + crcLen w ≤ s.cfg.byteCap) (hlo : 8 * crcPlace pos s.byteLen.toNat ≤ s.arg0.toNat)
    (hhi : s.arg0.toNat < 8 * (crcPlace pos s.byteLen.toNat + crcLen w)) :
    ∃ t t' u u', exec (crcencOf w pos) s = .next t ∧ exec (crcchkOf w pos) t = .next t' ∧ t'.result = 1 ∧
      exec .bflipByte t = .next u ∧ exec (crcchkOf w pos) u = .next u' ∧ u'.err = 0 ∧ u'.result = 0 := by
  have hplace : crcPlace pos s.byteLen.toNat ≤ s.byteLen.toNat := by cases pos <;> simp [crcPlace]
  obtain ⟨t, ht, hcfg, harg, hlen, hbytes⟩ := exec_crcencOf_stores pos hw hfit
  have hindex : t.arg0.toNat < 8 * t.byteLen.toNat := by rw [harg, hlen]; omega
  have hcap : t.byteLen.toNat ≤ t.cfg.byteCap := by rwa [hlen, hcfg]
  obtain ⟨t', ht', -, hresult⟩ := exec_crcchkOf_answers w pos hcap
  obtain ⟨u, hu, hcfgu, hlenu, hflip⟩ := exec_bflipByte_sets hcap hindex
  obtain ⟨u', hu', herr, hresult'⟩ := exec_crcchkOf_answers (s := u) w pos (by rwa [hlenu, hcfgu])
  have hread : (envMake s.cfg w pos (s.bytes s.byteLen.toNat))[t.arg0.toNat / 8]? =
      some (t.byteAt (t.arg0.toNat / 8)) := by
    have hlt : t.arg0.toNat / 8 < (t.bytes t.byteLen.toNat).length := by rw [bytes_length]; omega
    rw [← hbytes, List.getElem?_eq_getElem hlt, bytes_getElem]
  refine ⟨t, t', u, u', ht, ht', ?_, hu, hu', herr, ?_⟩
  · rw [hresult, hbytes, hcfg, envOk_envMake, if_pos rfl]
  · rw [hresult', hlenu, hflip, hbytes, hcfgu, hcfg, envOk_set_eq_false, if_neg Bool.false_ne_true]
    · rw [bytes_length, harg]; omega
    · rw [bytes_length, harg]; omega
    · rw [hread, ne_eq, Option.some.injEq]
      exact (xor_bitInByte_ne _ _).symm

/-- Settles O21: the envelope as CRCENC stored it verifies, and with the flip in its CRC it does not. -/
theorem crcchkCatchesAFlippedChecksumBit : Obligations.CrcchkCatchesAFlippedChecksumBit :=
  fun _ _ _ => crcchk_after_bflipByte

end Sys2Proof.Machine
end

section
/-! PROOFS. The CRC commands and the check values (41_crc.md R152, R155 to R158): what each command commits, byte by
byte, and that one inverted bit of a stored CRC changes one of its bytes. -/

namespace Sys2Proof.Machine

variable {s u : State}

/-! ## The check values -/

/-- The nine bytes of ASCII "123456789" (R152). -/
def checkDigits : List Byte := [0x31, 0x32, 0x33, 0x34, 0x35, 0x36, 0x37, 0x38, 0x39]

theorem crc_defaultCrc8_values :
    crc defaultCrc8 checkDigits = 0xF4 ∧ crc defaultCrc8 [] = 0x00 ∧ crc defaultCrc8 [0x00] = 0x00 := by
  decide +kernel

theorem crc_defaultCrc16_values :
    crc defaultCrc16 checkDigits = 0x29B1 ∧ crc defaultCrc16 [] = 0xFFFF ∧ crc defaultCrc16 [0x00] = 0xE1F0 := by
  decide +kernel

theorem crc_defaultCrc32_values :
    crc defaultCrc32 checkDigits = 0xCBF43926 ∧ crc defaultCrc32 [] = 0x00000000 ∧
      crc defaultCrc32 [0x00] = 0xD202EF8D := by
  decide +kernel

/-- Settles O15: the parameter sets are the model's literals, and the check values are computed. -/
theorem crcCheckValues : Obligations.CrcCheckValues :=
  ⟨⟨rfl, rfl, rfl, rfl, rfl, rfl⟩, crc_defaultCrc8_values, crc_defaultCrc16_values, crc_defaultCrc32_values⟩

/-! ## One inverted bit of a byte sequence -/

/-- Bit by bit, adding a place to one byte of a sequence inverts the bit at index `i` and no other. -/
theorem bitsOfBytes_set_xor_bitInByte {x : List Byte} {i : Nat} {b : Byte} (hb : x[i / 8]? = some b) :
    bitsOfBytes (x.set (i / 8) (b ^^^ bitInByte i)) =
      (bitsOfBytes x).mapIdx fun j bit => if j ∈ [i] then !bit else bit := by
  refine List.ext_getElem? fun j => ?_
  obtain ⟨hbyte, -⟩ := List.getElem?_eq_some_iff.1 hb
  have hr : j % 8 < 8 := Nat.mod_lt j (by decide)
  rw [List.getElem?_mapIdx, ← Nat.div_add_mod j 8, bitsOfBytes_getElem? _ _ _ hr, bitsOfBytes_getElem? _ _ _ hr]
  by_cases hq : i / 8 = j / 8
  · have hindex : j % 8 = i % 8 ↔ 8 * (j / 8) + j % 8 = i := by omega
    rw [← hq, List.getElem?_set_self hbyte, hb, Option.map_some, Option.map_some, Option.map_some, BitVec.getLsbD_xor,
      bitInByte_getLsbD i hr, hq]
    by_cases hj : 8 * (j / 8) + j % 8 = i <;> simp [hindex, hj]
  · have hj : 8 * (j / 8) + j % 8 ≠ i := by omega
    simp only [List.getElem?_set_ne hq, List.mem_singleton, hj, if_false, Option.map_id']

/-- Inverting the one bit at position `i` is adding its place to the byte it lies in (49_host_side_units.md R280). -/
theorem corruptBytes_singleton {x e : List Byte} {i : Nat} (h : corruptBytes x 1 [i] = some e) :
    ∃ b, x[i / 8]? = some b ∧ e = x.set (i / 8) (b ^^^ bitInByte i) := by
  rw [corruptBytes, corrupt] at h
  split at h
  · rename_i hpositions
    obtain ⟨-, -, hrange⟩ := hpositions
    have hi : i < 8 * x.length := by simpa using hrange
    have hb : x[i / 8]? = some x[i / 8] := List.getElem?_eq_getElem (by omega)
    refine ⟨_, hb, ?_⟩
    rw [← bitsOfBytes_set_xor_bitInByte hb, Option.map_some, bytesOfBits_bitsOfBytes] at h
    exact (Option.some.inj h).symm
  · cases h

/-- Settles O20: the inverted bit lies in one byte of the stored CRC, which it changes. -/
theorem oneFlippedChecksumBitNeverVerifies : Obligations.OneFlippedChecksumBitNeverVerifies := by
  refine fun cfg w pos p => ⟨envOk_envMake cfg w pos p, fun k e hk he => ?_⟩
  obtain ⟨b, hb, rfl⟩ := corruptBytes_singleton he
  have hbyte : k / 8 < crcLen w := by rw [crcLen]; omega
  refine envOk_set_eq_false (by omega) (by omega) ?_
  rw [hb, ne_eq, Option.some.injEq]
  exact (xor_bitInByte_ne b _).symm

/-! ## Envelopes, byte by byte -/

theorem crcBytes_eq_map_crcStored {w : Nat} (v : BitVec w) : crcBytes v = (List.range (w / 8)).map (crcStored v) := rfl

theorem envMake_getElem?_crcPlace (c : Config) {w : CrcWidth} (pos : EnvPos) (p : List Byte) {k : Nat}
    (hk : k < crcLen w) : (envMake c w pos p)[crcPlace pos p.length + k]? = some (crcStored (crcOf c w p) k) := by
  have hstored : (crcBytes (crcOf c w p))[k]? = some (crcStored (crcOf c w p) k) := by
    rw [crcBytes_eq_map_crcStored, List.getElem?_map, ← crcLen, List.getElem?_range hk, Option.map_some]
  cases pos with
  | suf => rw [envMake, crcPlace, List.getElem?_append_right (by omega), Nat.add_sub_cancel_left, hstored]
  | pre => rw [envMake, crcPlace, Nat.zero_add, List.getElem?_append_left (by rwa [crcBytes_crcOf_length]), hstored]

theorem envMake_getElem?_payloadPlace (c : Config) (w : CrcWidth) (pos : EnvPos) {p : List Byte} {k : Nat}
    (hk : k < p.length) : (envMake c w pos p)[payloadPlace w pos + k]? = p[k]? := by
  cases pos with
  | suf => rw [envMake, payloadPlace, Nat.zero_add, List.getElem?_append_left hk]
  | pre => rw [envMake, payloadPlace, List.getElem?_append_right (by simp), crcBytes_length, Nat.add_sub_cancel_left]

theorem envOk_of_length_lt (c : Config) {w : CrcWidth} (pos : EnvPos) {e : List Byte} (h : e.length < crcLen w) :
    envOk c w pos e = false := by
  simp only [envOk, envSplit, if_pos h]

/-- The payload of an envelope of `l` bytes at the start of BYTEBUF (R154). -/
def State.envPayload (s : State) (w : CrcWidth) (pos : EnvPos) (l : Nat) : List Byte :=
  (List.range (l - crcLen w)).map fun k => s.byteAt (payloadPlace w pos + k)

/-- The stored CRC of an envelope of `l` bytes at the start of BYTEBUF (R154). -/
def State.envStored (s : State) (w : CrcWidth) (pos : EnvPos) (l : Nat) : List Byte :=
  (List.range (crcLen w)).map fun k => s.byteAt (crcPlace pos (l - crcLen w) + k)

theorem bytes_add (m n : Nat) :
    s.bytes (m + n) = (List.range m).map s.byteAt ++ (List.range n).map fun k => s.byteAt (m + k) := by
  rw [State.bytes, List.range_add, List.map_append, List.map_map]
  rfl

theorem bytes_eq_envelope {w : CrcWidth} (pos : EnvPos) {l : Nat} (h : crcLen w ≤ l) :
    s.bytes l = envelope pos (s.envStored w pos l) (s.envPayload w pos l) := by
  obtain ⟨m, rfl⟩ := Nat.exists_eq_add_of_le' h
  simp only [State.envStored, State.envPayload, Nat.add_sub_cancel]
  cases pos with
  | suf => simpa only [envelope, crcPlace, payloadPlace, Nat.zero_add] using bytes_add m (crcLen w)
  | pre =>
    rw [Nat.add_comm]
    simpa only [envelope, crcPlace, payloadPlace, crcLen, Nat.zero_add] using bytes_add (crcLen w) m

/-- The first `l` bytes of BYTEBUF verify exactly when each stored CRC byte is that of the payload's CRC. -/
theorem envOk_bytes_iff (c : Config) (w : CrcWidth) (pos : EnvPos) (l : Nat) :
    envOk c w pos (s.bytes l) = true ↔ crcLen w ≤ l ∧ ∀ k < crcLen w,
      s.byteAt (crcPlace pos (l - crcLen w) + k) = crcStored (crcOf c w (s.envPayload w pos l)) k := by
  by_cases h : crcLen w ≤ l
  · rw [bytes_eq_envelope pos h, envOk_envelope c pos _ (by simp [State.envStored]), decide_eq_true_iff,
      crcBytes_eq_map_crcStored, State.envStored]
    refine List.map_inj_left.trans ?_
    simp only [List.mem_range, h, true_and]
  · rw [envOk_of_length_lt c pos (by rw [bytes_length]; omega)]
    simp [h]

/-! ## The commands -/

theorem sameRegs_setResult {l : List Reg} (h : sameRegs l s u) (v : Word) :
    sameRegs (.result :: l) s (u.setResult v) := by
  intro r hr
  simp only [List.mem_cons, not_or] at hr
  obtain ⟨hresult, hl⟩ := hr
  refine Eq.trans ?_ (h r hl)
  cases r with
  | result => exact absurd rfl hresult
  | _ => rfl

theorem toNat_setWidth_crcOf (c : Config) (w : CrcWidth) (d : List Byte) :
    ((crcOf c w d).setWidth 32).toNat = (crcOf c w d).toNat :=
  BitVec.toNat_setWidth_of_le (by cases w <;> decide)

theorem crcGenerate_eq_raise (w : CrcWidth) (h : s.cfg.byteCap < s.byteLen.toNat) :
    crcGenerate w s = raise .badOperand s := by
  simp only [crcGenerate, byteBufOK_iff]
  rw [if_pos (by omega)]

theorem crcGenerate_eq_next (w : CrcWidth) (h : s.byteLen.toNat ≤ s.cfg.byteCap) :
    crcGenerate w s = .next ((s.setResult ((crcOf s.cfg w (s.bytes s.byteLen.toNat)).setWidth 32)).complete 0) := by
  simp only [crcGenerate, byteBufOK_iff]
  rw [if_neg (not_not.2 h)]
  rfl

/-- Settles O17: the commit writes RESULT alone, and no CRC is wider than a register. -/
theorem crcgenWritesTheCrc : Obligations.CrcgenWritesTheCrc := by
  refine ⟨⟨rfl, rfl, rfl⟩, fun w s => ⟨fun h => ?_, fun hlen => ?_⟩⟩
  · exact failsWith_of_raise ((exec_crcgenOf s w).trans (crcGenerate_eq_raise w h))
  · exact ⟨_, (exec_crcgenOf s w).trans (crcGenerate_eq_next w hlen), completedOk_complete rfl,
      toNat_setWidth_crcOf _ _ _, fun _ => rfl, fun _ => rfl, fun _ => rfl,
      sameRegs_complete (sameRegs_setResult sameRegs_refl _) 0, ⟨rfl, rfl, rfl, rfl, rfl, rfl⟩⟩

theorem crcEncode_eq_raise {w : CrcWidth} (pos : EnvPos)
    (h : s.cfg.byteCap < s.byteLen.toNat ∨ s.cfg.byteCap < s.byteLen.toNat + crcLen w) :
    crcEncode w pos s = raise .badOperand s := by
  simp only [crcEncode, byteBufOK_iff]
  split
  · rfl
  · rw [if_pos (by omega)]

theorem byteAt_putBytes_of_getElem? {b : List Byte} {i : Nat} {v : Byte} (h : b[i]? = some v) :
    (s.putBytes b).byteAt i = v := by
  obtain ⟨hi, hv⟩ := List.getElem?_eq_some_iff.1 h
  rw [byteAt_putBytes, dif_pos hi, hv]

/-- Settles O18: BYTEBUF receives the envelope, whose bytes are those of the stored CRC and of the payload. -/
theorem crcencBuildsTheEnvelope : Obligations.CrcencBuildsTheEnvelope := by
  refine ⟨⟨rfl, rfl, rfl, rfl, rfl, rfl⟩, fun w pos s hw => ⟨fun h => ?_, fun hfit => ?_⟩⟩
  · exact failsWith_of_raise ((exec_crcencOf s w pos).trans (crcEncode_eq_raise pos h))
  have hbounds := wellFormed_bounds hw
  have hlength : (envMake s.cfg w pos (s.bytes s.byteLen.toNat)).length = s.byteLen.toNat + crcBits w / 8 := by
    rw [envMake_length, bytes_length, crcLen]
  refine ⟨_, (exec_crcencOf s w pos).trans (crcEncode_eq_next pos hfit), completedOk_complete rfl, ?_,
    toNat_setWidth_crcOf _ _ _, fun k hk => ?_, fun k hk => ?_, fun k hk => ?_, fun _ => rfl, fun _ => rfl,
    sameRegs_mono (sameRegs_complete (sameRegs_setResult (sameRegs_putBytes _) _) 0) (by decide),
    ⟨rfl, rfl, rfl, rfl, rfl, rfl⟩⟩
  · rw [complete_byteLen, setResult_byteLen, putBytes_byteLen, hlength, toNat_ofNat_of_le (by omega)]
  · refine byteAt_putBytes_of_getElem? ?_
    rw [← envMake_getElem?_crcPlace s.cfg pos _ hk, bytes_length]
  · refine byteAt_putBytes_of_getElem? ?_
    have hlt : k < (s.bytes s.byteLen.toNat).length := by rwa [bytes_length]
    rw [envMake_getElem?_payloadPlace s.cfg w pos hlt, List.getElem?_eq_getElem hlt, bytes_getElem]
  · exact (byteAt_putBytes s _ k).trans (dif_neg (by omega))

theorem crcCheck_eq_raise (w : CrcWidth) (pos : EnvPos) (h : s.cfg.byteCap < s.byteLen.toNat) :
    crcCheck w pos s = raise .badOperand s := by
  simp only [crcCheck, byteBufOK_iff]
  rw [if_pos (by omega)]

/-- Settles O19: RESULT says whether the first BYTELEN bytes verify as an envelope. -/
theorem crcchkReportsWhetherTheCrcMatches : Obligations.CrcchkReportsWhetherTheCrcMatches := by
  refine ⟨⟨rfl, rfl, rfl, rfl, rfl, rfl⟩, fun w pos s => ⟨fun h => ?_, fun hlen => ?_⟩⟩
  · exact failsWith_of_raise ((exec_crcchkOf s w pos).trans (crcCheck_eq_raise w pos h))
  have hverify := envOk_bytes_iff (s := s) s.cfg w pos s.byteLen.toNat
  exact ⟨_, (exec_crcchkOf s w pos).trans (crcCheck_eq_next w pos hlen), completedOk_complete rfl,
    fun h => if_pos (hverify.2 h), fun h => if_neg (h ∘ hverify.1), fun _ => rfl, fun _ => rfl, fun _ => rfl,
    sameRegs_complete (sameRegs_setResult sameRegs_refl _) 0, ⟨rfl, rfl, rfl, rfl, rfl, rfl⟩⟩

end Sys2Proof.Machine
end

section
/-! PROOFS. The Chunker (42_chunker.md R171 to R174): what CHUNK, FLAT and UNFLAT write, and the laws of one after the
other. -/

namespace Sys2Proof.Machine

variable {s t u : State}

/-! ## The frames of the commits -/

theorem sameRegs_setShape {l : List Reg} (h : sameRegs l s u) (r c : Nat) (p q : Word) :
    sameRegs (.rows :: .cols :: .present :: .recon :: l) s (u.setShape r c p q) := by
  intro x hx
  simp only [List.mem_cons, not_or] at hx
  obtain ⟨hrows, hcols, hpresent, hrecon, hl⟩ := hx
  refine Eq.trans ?_ (h x hl)
  cases x with
  | rows => exact absurd rfl hrows
  | cols => exact absurd rfl hcols
  | present => exact absurd rfl hpresent
  | recon => exact absurd rfl hrecon
  | _ => rfl

theorem sameRegs_setPresence {l : List Reg} (h : sameRegs l s u) (p q : Word) :
    sameRegs (.present :: .recon :: l) s (u.setPresence p q) := by
  intro x hx
  simp only [List.mem_cons, not_or] at hx
  obtain ⟨hpresent, hrecon, hl⟩ := hx
  refine Eq.trans ?_ (h x hl)
  cases x with
  | present => exact absurd rfl hpresent
  | recon => exact absurd rfl hrecon
  | _ => rfl

theorem sameRegs_setBytesPadded {l : List Reg} (h : sameRegs l s u) (v : Nat) :
    sameRegs (.bytesPadded :: l) s (u.setBytesPadded v) := by
  intro x hx
  simp only [List.mem_cons, not_or] at hx
  obtain ⟨hpadded, hl⟩ := hx
  refine Eq.trans ?_ (h x hl)
  cases x with
  | bytesPadded => exact absurd rfl hpadded
  | _ => rfl

/-- A presence mask with the bits below `r` marks every row below `r` present (10_state.md R33). -/
theorem not_rowErased_of_present {r : Nat} (h : ∀ k < 32, s.present.getLsbD k = decide (k < r)) :
    ∀ i < r, ¬ s.rowErased i := by
  rintro i hi ⟨hlt, herased⟩
  rw [h i hlt, decide_eq_false_iff_not] at herased
  exact herased hi

/-! ## One buffer copied to the front of the other -/

theorem shardAt_setShards_bytes (n k : Nat) :
    (s.setShards 0 (s.bytes n)).shardAt k = if k < n then s.byteAt k else s.shardAt k := by
  rw [shardAt_setShards]
  by_cases hk : k < n <;> simp [hk, bytes_getElem]

theorem byteAt_putBytes_shards (n k : Nat) :
    (s.putBytes (s.shards 0 n)).byteAt k = if k < n then s.shardAt k else s.byteAt k := by
  rw [byteAt_putBytes]
  by_cases hk : k < n <;> simp [hk, shards_getElem]

theorem padTo_length {size : Nat} {p : List Byte} (h : p.length ≤ size) : (padTo size p).length = size := by
  rw [padTo, List.length_append, List.length_replicate]
  omega

/-- The payload row after row, then zero bytes (R171). -/
theorem shardAt_setShards_padTo {size n : Nat} (h : n ≤ size) (k : Nat) :
    (s.setShards 0 (padTo size (s.bytes n))).shardAt k =
      if k < n then s.byteAt k else if k < size then 0 else s.shardAt k := by
  have hlength : (padTo size (s.bytes n)).length = size := padTo_length (by rwa [bytes_length])
  rw [shardAt_setShards]
  by_cases hsize : k < size
  · rw [dif_pos (by omega), if_pos hsize]
    simp only [padTo, Nat.sub_zero, List.getElem_append, bytes_length, bytes_getElem, List.getElem_replicate]
    rfl
  · rw [dif_neg (by omega), if_neg (by omega), if_neg hsize]

/-! ## CHUNK -/

theorem execChunk_eq_invalidParams (h : ¬ s.paramsFit) : execChunk s = raise .invalidParams s := by
  rw [execChunk, if_pos (mt codecParamsOK_iff.1 h)]

section accepted

variable (hp : s.paramsFit)
include hp

theorem execChunk_eq_badOperand (h : s.cfg.byteCap < s.byteLen.toNat) : execChunk s = raise .badOperand s := by
  rw [execChunk, if_neg (not_not.2 (codecParamsOK_iff.2 hp)), if_pos (mt byteBufOK_iff.1 (by omega))]

theorem execChunk_eq_emptyInput (hlen : s.byteLen.toNat ≤ s.cfg.byteCap) (h : s.byteLen.toNat = 0) :
    execChunk s = raise .emptyInput s := by
  rw [execChunk, if_neg (not_not.2 (codecParamsOK_iff.2 hp)), if_neg (not_not.2 (byteBufOK_iff.2 hlen)),
    if_pos h]

theorem execChunk_eq_payloadTooLarge (hlen : s.byteLen.toNat ≤ s.cfg.byteCap) (h : s.ds * s.cs < s.byteLen.toNat) :
    execChunk s = raise .payloadTooLarge s := by
  rw [execChunk, if_neg (not_not.2 (codecParamsOK_iff.2 hp)), if_neg (not_not.2 (byteBufOK_iff.2 hlen)),
    if_neg (by omega), if_pos h]

theorem execChunk_eq_next (hlen : s.byteLen.toNat ≤ s.cfg.byteCap) (hne : s.byteLen.toNat ≠ 0)
    (hfit : s.byteLen.toNat ≤ s.ds * s.cs) :
    execChunk s = .next ((((s.setShards 0 (padTo (s.ds * s.cs) (s.bytes s.byteLen.toNat))).setShape s.ds s.cs
      (lowmaskWord s.ds) 0).setBytesPadded (s.ds * s.cs - s.byteLen.toNat)).complete 0) := by
  rw [execChunk, if_neg (not_not.2 (codecParamsOK_iff.2 hp)), if_neg (not_not.2 (byteBufOK_iff.2 hlen)),
    if_neg hne, if_neg (by omega)]
  rfl

end accepted

/-- The operands with which CHUNK completes without error (R171). -/
structure ChunkReady (s : State) : Prop where
  params : s.paramsFit
  inBuffer : s.byteLen.toNat ≤ s.cfg.byteCap
  nonEmpty : s.byteLen.toNat ≠ 0
  fits : s.byteLen.toNat ≤ s.ds * s.cs

/-- What CHUNK without error makes of a state (R171). -/
structure Chunked (s t : State) : Prop where
  completed : completedOk s t
  payload : ∀ k < s.byteLen.toNat, t.shardAt k = s.byteAt k
  padding : ∀ k, s.byteLen.toNat ≤ k → k < s.ds * s.cs → t.shardAt k = 0
  above : ∀ k, s.ds * s.cs ≤ k → t.shardAt k = s.shardAt k
  rows : t.rows = s.dataShards
  cols : t.cols = s.chunkSize
  present : ∀ k < 32, t.present.getLsbD k = decide (k < s.ds)
  recon : t.recon = 0
  bytesPadded : t.bytesPadded.toNat = s.ds * s.cs - s.byteLen.toNat
  bytes : sameBytes s t
  bits : sameBits s t
  regs : sameRegs [.status, .err, .rows, .cols, .present, .recon, .bytesPadded] s t
  rest : sameRest s t

theorem exec_chunk_chunked (hw : s.cfg.wellFormed = true) (h : ChunkReady s) :
    ∃ t, exec .chunk s = .next t ∧ Chunked s t := by
  have hfits := h.fits
  have hshard (k : Nat) := shardAt_setShards_padTo (s := s) hfits k
  obtain ⟨-, -, hle, -, hbound, -⟩ := paramsFit_bounds hw h.params
  exact ⟨_, (exec_chunk s).trans (execChunk_eq_next h.params h.inBuffer h.nonEmpty hfits),
    { completed := completedOk_complete rfl
      payload := fun k hk => (hshard k).trans (if_pos hk)
      padding := fun k hl hk => (hshard k).trans ((if_neg (by omega)).trans (if_pos hk))
      above := fun k hk => (hshard k).trans ((if_neg (by omega)).trans (if_neg (by omega)))
      rows := BitVec.ofNat_toNat _ _
      cols := BitVec.ofNat_toNat _ _
      present := lowmaskWord_getLsbD s.ds
      recon := rfl
      bytesPadded := toNat_ofNat_of_le (by omega)
      bytes := fun _ => rfl
      bits := fun _ => rfl
      regs := sameRegs_mono (sameRegs_complete (sameRegs_setBytesPadded
        (sameRegs_setShape (sameRegs_setShards 0 _) _ _ _ _) _) 0) (by decide)
      rest := ⟨rfl, rfl, rfl, rfl, rfl, rfl⟩ }⟩

/-- Settles O22: the errors in the order of the rule, and otherwise the commit of R171. -/
theorem chunkSplitsAndPads : Obligations.ChunkSplitsAndPads := by
  refine ⟨rfl, fun s hw => ⟨fun h => failsWith_of_raise (execChunk_eq_invalidParams h),
    fun hp h => failsWith_of_raise (execChunk_eq_badOperand hp h),
    fun hp hlen h => failsWith_of_raise (execChunk_eq_emptyInput hp hlen h),
    fun hp hlen h => failsWith_of_raise (execChunk_eq_payloadTooLarge hp hlen h),
    fun hp hlen hne hfit => ?_⟩⟩
  obtain ⟨t, ht, h⟩ := exec_chunk_chunked hw ⟨hp, hlen, hne, hfit⟩
  exact ⟨t, ht, h.completed, h.payload, h.padding, h.above, h.rows, h.cols, h.present, h.recon, h.bytesPadded, h.bytes,
    h.bits, h.regs, h.rest⟩

/-- CHUNK has no other way to complete without error. -/
theorem chunkReady_of_exec (hx : exec .chunk s = .next t) (herr : t.err = 0) : ChunkReady s := by
  obtain ⟨-, rfl⟩ | ⟨-, -, rfl⟩ | ⟨-, -, -, rfl⟩ | ⟨-, -, -, -, rfl⟩ | ⟨hp, hlen, hne, hfit, -⟩ := execChunk_next hx
  iterate 4 exact absurd herr (by rw [complete_err]; decide)
  exact ⟨codecParamsOK_iff.1 hp, byteBufOK_iff.1 hlen, hne, hfit⟩

theorem chunked_of_exec (hw : s.cfg.wellFormed = true) (hx : exec .chunk s = .next t) (herr : t.err = 0) :
    Chunked s t := by
  obtain ⟨t', ht', h⟩ := exec_chunk_chunked hw (chunkReady_of_exec hx herr)
  obtain rfl : t = t' := Host.Outcome.next.inj (hx.symm.trans ht')
  exact h

/-! ## FLAT -/

theorem execFlat_eq_raise (h : s.cfg.shardCap < s.rows.toNat * s.cols.toNat ∨ ∃ i < s.rows.toNat, s.rowErased i) :
    execFlat s = raise .badOperand s := by
  rw [execFlat]
  obtain hsize | ⟨i, hi, herased⟩ := h
  · rw [if_pos (mt shapeOK_iff.1 (by omega))]
  · rw [if_pos fun hall => allPresent_iff.1 hall i hi herased, ite_self]

theorem execFlat_eq_next (hsize : s.rows.toNat * s.cols.toNat ≤ s.cfg.shardCap)
    (hall : ∀ i < s.rows.toNat, ¬ s.rowErased i) :
    execFlat s = .next ((s.putBytes (s.shards 0 (s.rows.toNat * s.cols.toNat))).complete 0) := by
  rw [execFlat, if_neg (not_not.2 (shapeOK_iff.2 hsize)), if_neg (not_not.2 (allPresent_iff.2 hall))]
  rfl

/-- Settles O23: BYTEBUF receives the bytes of the matrix, which are no more than it holds. -/
theorem flatCopiesTheRows : Obligations.FlatCopiesTheRows := by
  refine ⟨rfl, fun s hw => ⟨fun h => failsWith_of_raise (execFlat_eq_raise h), fun hsize hall => ?_⟩⟩
  have hbounds := wellFormed_bounds hw
  have hbyte (k : Nat) := byteAt_putBytes_shards (s := s) (s.rows.toNat * s.cols.toNat) k
  refine ⟨_, (exec_flat s).trans (execFlat_eq_next hsize hall), completedOk_complete rfl, ?_,
    fun k hk => (hbyte k).trans (if_pos hk), fun k hk => (hbyte k).trans (if_neg (by omega)), fun _ => rfl,
    fun _ => rfl, sameRegs_complete (sameRegs_putBytes _) 0, ⟨rfl, rfl, rfl, rfl, rfl, rfl⟩⟩
  rw [complete_byteLen, putBytes_byteLen, shards_length, toNat_ofNat_of_le (by omega)]

/-- FLAT completes without error only with a shape that fits and no erased row. -/
theorem flat_ready_of_exec (hx : exec .flat s = .next t) (herr : t.err = 0) :
    s.rows.toNat * s.cols.toNat ≤ s.cfg.shardCap ∧ ∀ i < s.rows.toNat, ¬ s.rowErased i := by
  obtain ⟨-, rfl⟩ | ⟨hsize, hall, -⟩ := execFlat_next hx
  · exact absurd herr (by rw [complete_err]; decide)
  · exact ⟨shapeOK_iff.1 hsize, allPresent_iff.1 hall⟩

/-! ## UNFLAT -/

theorem execUnflat_eq_raise
    (h : s.cfg.byteCap < s.byteLen.toNat ∨ s.cfg.shardCap < s.rows.toNat * s.cols.toNat ∨
      s.byteLen.toNat ≠ s.rows.toNat * s.cols.toNat) :
    execUnflat s = raise .badOperand s := by
  simp only [execUnflat, byteBufOK_iff, shapeOK_iff]
  split
  · rfl
  split
  · rfl
  · rw [if_pos (by omega)]

theorem execUnflat_eq_next (hlen : s.byteLen.toNat ≤ s.cfg.byteCap)
    (hsize : s.rows.toNat * s.cols.toNat ≤ s.cfg.shardCap) (heq : s.byteLen.toNat = s.rows.toNat * s.cols.toNat) :
    execUnflat s = .next (((s.setShards 0 (s.bytes s.byteLen.toNat)).setPresence
      (lowmaskWord (min s.rows.toNat 32)) 0).complete 0) := by
  simp only [execUnflat, byteBufOK_iff, shapeOK_iff]
  rw [if_neg (not_not.2 hlen), if_neg (not_not.2 hsize), if_neg (not_not.2 heq)]
  rfl

/-- Settles O24: SHARDMEM receives the first BYTELEN bytes; PRESENT has a bit for each of the first 32 rows. -/
theorem unflatCopiesTheBytes : Obligations.UnflatCopiesTheBytes := by
  refine ⟨rfl, fun s _ => ⟨fun h => failsWith_of_raise (execUnflat_eq_raise h), fun hlen hsize heq => ?_⟩⟩
  have hshard (k : Nat) := shardAt_setShards_bytes (s := s) s.byteLen.toNat k
  refine ⟨_, (exec_unflat s).trans (execUnflat_eq_next hlen hsize heq), completedOk_complete rfl,
    fun k hk => (hshard k).trans (if_pos (by omega)), fun k hk => (hshard k).trans (if_neg (by omega)), fun k hk => ?_,
    rfl, fun _ => rfl, fun _ => rfl,
    sameRegs_mono (sameRegs_complete (sameRegs_setPresence (sameRegs_setShards 0 _) _ _) 0) (by decide),
    ⟨rfl, rfl, rfl, rfl, rfl, rfl⟩⟩
  exact (lowmaskWord_getLsbD _ k hk).trans (decide_eq_decide.2 (by omega))

/-! ## One after the other (R174) -/

/-- R174 (a): FLAT accepts the shape CHUNK has set. -/
theorem flat_after_chunk (hw : s.cfg.wellFormed = true) (hx : exec .chunk s = .next t) (herr : t.err = 0) :
    ∃ u, exec .flat t = .next u ∧ u.err = 0 ∧ u.byteLen.toNat = s.dataShards.toNat * s.chunkSize.toNat ∧
      (∀ k < s.byteLen.toNat, u.byteAt k = s.byteAt k) ∧
      s.byteLen.toNat + t.bytesPadded.toNat = u.byteLen.toNat ∧
      ∀ k, s.byteLen.toNat ≤ k → k < s.byteLen.toNat + t.bytesPadded.toNat → u.byteAt k = 0 := by
  have hready := chunkReady_of_exec hx herr
  have h := chunked_of_exec hw hx herr
  obtain ⟨-, -, hle, hcap, -, -⟩ := paramsFit_bounds hw hready.params
  have hcfg : t.cfg = s.cfg := h.rest.2.1
  have hrows : t.rows.toNat = s.ds := congrArg BitVec.toNat h.rows
  have hcols : t.cols.toNat = s.cs := congrArg BitVec.toNat h.cols
  have hflat := (flatCopiesTheRows.2 t (hcfg ▸ hw)).2
  simp only [hrows, hcols, hcfg] at hflat
  obtain ⟨u, hu, ⟨herru, -⟩, hlen, hbytes, -⟩ := hflat (by omega) (not_rowErased_of_present h.present)
  have hfits := hready.fits
  have hpadded := h.bytesPadded
  have hsum : s.byteLen.toNat + t.bytesPadded.toNat = s.ds * s.cs := by omega
  exact ⟨u, hu, herru, hlen, fun k hk => (hbytes k (by omega)).trans (h.payload k hk), hsum.trans hlen.symm,
    fun k hk hlt => (hbytes k (by omega)).trans (h.padding k hk (by omega))⟩

/-- R174 (b): the payload is not empty. -/
theorem bytesPadded_lt_of_chunk (hw : s.cfg.wellFormed = true) (hx : exec .chunk s = .next t) (herr : t.err = 0) :
    t.bytesPadded.toNat < s.dataShards.toNat * s.chunkSize.toNat := by
  obtain ⟨-, -, hne, hfits⟩ := chunkReady_of_exec hx herr
  have hpadded := (chunked_of_exec hw hx herr).bytesPadded
  have : t.bytesPadded.toNat < s.ds * s.cs := by omega
  exact this

/-- R174 (c): every byte below `ds * cs` is of the payload or padding. -/
theorem chunk_congr {s' t' : State} (hw : s.cfg.wellFormed = true) (hw' : s'.cfg.wellFormed = true)
    (hds : s'.dataShards = s.dataShards) (hcs : s'.chunkSize = s.chunkSize) (hlen : s'.byteLen = s.byteLen)
    (hpay : ∀ k < s.byteLen.toNat, s'.byteAt k = s.byteAt k)
    (hx : exec .chunk s = .next t) (hx' : exec .chunk s' = .next t') (herr : t.err = 0) (herr' : t'.err = 0) :
    (∀ k < s.dataShards.toNat * s.chunkSize.toNat, t'.shardAt k = t.shardAt k) ∧ t'.rows = t.rows ∧
      t'.cols = t.cols ∧ t'.present = t.present ∧ t'.recon = t.recon ∧ t'.bytesPadded = t.bytesPadded := by
  have h := chunked_of_exec hw hx herr
  have h' := chunked_of_exec hw' hx' herr'
  have hds' : s'.ds = s.ds := congrArg BitVec.toNat hds
  have hcs' : s'.cs = s.cs := congrArg BitVec.toNat hcs
  refine ⟨fun k hk => ?_, by rw [h.rows, h'.rows, hds], by rw [h.cols, h'.cols, hcs],
    BitVec.eq_of_getLsbD_eq fun k hk => by rw [h.present k hk, h'.present k hk, hds'], by rw [h.recon, h'.recon],
    BitVec.eq_of_toNat_eq (by rw [h.bytesPadded, h'.bytesPadded, hds', hcs', hlen])⟩
  by_cases hl : k < s.byteLen.toNat
  · rw [h'.payload k (by rwa [hlen]), h.payload k hl, hpay k hl]
  · rw [h'.padding k (by rw [hlen]; omega) (by rwa [hds', hcs']), h.padding k (by omega) hk]

/-- R174 (d): FLAT leaves the shape and as many bytes as UNFLAT asks for. -/
theorem unflat_after_flat (hw : s.cfg.wellFormed = true) (hx : exec .flat s = .next t) (herr : t.err = 0) :
    ∃ u, exec .unflat t = .next u ∧ u.err = 0 ∧ sameShards s u ∧ u.rows = s.rows ∧ u.cols = s.cols ∧
      ∀ k < 32, u.present.getLsbD k = decide (k < s.rows.toNat) := by
  obtain ⟨hsize, hall⟩ := flat_ready_of_exec hx herr
  obtain ⟨t', ht', -, hlen, hbytes, -, hshards, -, hregs, -, hcfg, -⟩ := (flatCopiesTheRows.2 s hw).2 hsize hall
  obtain rfl : t = t' := Host.Outcome.next.inj (hx.symm.trans ht')
  obtain ⟨-, -, -, -, -, -, -, -, -, -, hcap, -⟩ := wellFormed_bounds hw
  have hrows : t.rows = s.rows := hregs .rows (by decide)
  have hcols : t.cols = s.cols := hregs .cols (by decide)
  have hunflat := (unflatCopiesTheBytes.2 t (hcfg ▸ hw)).2
  simp only [hrows, hcols, hcfg] at hunflat
  obtain ⟨u, hu, ⟨herru, -⟩, hcopied, hkept, hpresent, -, -, -, hregsu, -⟩ := hunflat (by omega) hsize hlen
  refine ⟨u, hu, herru, fun k => ?_, (hregsu .rows (by decide)).trans hrows, (hregsu .cols (by decide)).trans hcols,
    hpresent⟩
  by_cases hk : k < s.rows.toNat * s.cols.toNat
  · exact (hcopied k hk).trans (hbytes k hk)
  · exact (hkept k (by omega)).trans (hshards k)

/-- Settles O25, by the laws (a) to (d) above, each from what the two commands write. -/
theorem chunkerLaws : Obligations.ChunkerLaws :=
  ⟨fun _ _ => flat_after_chunk, fun _ _ => bytesPadded_lt_of_chunk, fun _ _ _ _ => chunk_congr,
    fun _ _ => unflat_after_flat⟩

end Sys2Proof.Machine
end

section
/-! PROOFS. A payload through CHUNK, RSENC and RSDECD (43_reed_solomon.md R198 (a)): RSENC leaves the data rows alone, and
RSDECD takes a data row that is present as it is. -/

namespace Sys2Proof.Machine

variable {s t u : State}

/-! ## Verification after encoding, and reconstruction without an erased data row -/

/-- A code word verifies (R193). -/
theorem rsVerify_rsEncode {g : GfPoly} {ds ps cs : Nat} {d : List (List Byte)} (hd : d.length = ds) :
    rsVerify g ds ps cs (rsEncode g ds ps cs d) = true := by
  rw [rsVerify, rsEncode, List.drop_left' hd, List.take_left' hd, decide_eq_true_iff]

/-- With every data row available, the data is the data rows (R192). -/
theorem rsData_of_available {g : GfPoly} {ds ps cs : Nat} {w : List (List Byte)} {a : List Nat} (ha : ∀ i < ds, i ∈ a) :
    rsData g ds ps cs w a = some ((List.range ds).map fun i => w.getD i []) := by
  have hlength : ds ≤ a.length := by
    have hsub : List.range ds ⊆ a := fun i hi => ha i (List.mem_range.1 hi)
    simpa using (List.nodup_range.subperm hsub).length_le
  rw [rsData, if_neg (by omega)]
  refine congrArg some (List.map_congr_left fun i hi => if_pos ?_)
  exact List.contains_iff_mem.2 (ha i (List.mem_range.1 hi))

theorem map_getD_shardRows {n r cs : Nat} (h : r ≤ n) :
    ((List.range r).map fun i => (s.shardRows n cs).getD i []) = s.shardRows r cs := by
  refine List.map_congr_left fun i hi => ?_
  have hin : i < n := lt_of_lt_of_le (List.mem_range.1 hi) h
  simp [State.shardRows, hin]

theorem rsData_of_present (h : ∀ i < s.ds, ¬ s.rowErased i) :
    rsData s.cfg.gfPoly s.ds s.ps s.cs (s.shardRows s.n s.cs) (s.available s.n) = some (s.shardRows s.ds s.cs) := by
  have hle : s.ds ≤ s.n := Nat.le_add_right _ _
  rw [rsData_of_available fun i hi => (mem_available s).2 ⟨by omega, h i hi⟩, map_getD_shardRows hle]

/-- The payload of the data rows is SHARDMEM from the start (R194). -/
theorem rsPayload_shardRows_getElem? {ds cs pad k : Nat} (h : k < ds * cs - pad) :
    (rsPayload ds cs pad (s.shardRows ds cs))[k]? = some (s.shardAt k) := by
  have hrow := shardRows_row_length s ds cs
  have hlength : k < (rsPayload ds cs pad (s.shardRows ds cs)).length := by
    rwa [rsPayload_length (shardRows_length s ds cs) hrow]
  have hcs : 0 < cs := Nat.pos_of_ne_zero fun h0 => by simp [h0] at h
  have hrows : k / cs < ds := (Nat.div_lt_iff_lt_mul hcs).2 (by omega)
  rw [List.getElem?_eq_getElem hlength, ← List.getD_eq_getElem _ 0 hlength, rsPayload_getD hrow k h,
    entry_shardRows s _ _ _ _ hrows (Nat.mod_lt _ hcs), Nat.div_add_mod']

/-! ## What passes from one command to the next -/

/-- SHARDMEM holds `r` rows of `cs` columns, none of the data rows erased, and the parameters are accepted. -/
structure HoldsRows (s : State) (r : Nat) : Prop where
  params : s.paramsFit
  rows : s.rows.toNat = r
  cols : s.cols.toNat = s.cs
  present : ∀ i < s.ds, ¬ s.rowErased i

/-- The operands of the codec commands are registers (00_scope.md R14). -/
theorem operands_of_sameRegs {l : List Reg} (h : sameRegs l s t)
    (hl : .dataShards ∉ l ∧ .parityShards ∉ l ∧ .chunkSize ∉ l) : t.ds = s.ds ∧ t.ps = s.ps ∧ t.cs = s.cs :=
  ⟨congrArg BitVec.toNat (h _ hl.1), congrArg BitVec.toNat (h _ hl.2.1), congrArg BitVec.toNat (h _ hl.2.2)⟩

theorem paramsFit_of_sameRegs {l : List Reg} (hp : s.paramsFit) (h : sameRegs l s t)
    (hl : .dataShards ∉ l ∧ .parityShards ∉ l ∧ .chunkSize ∉ l) (hcfg : t.cfg = s.cfg) : t.paramsFit := by
  obtain ⟨hds, hps, hcs⟩ := operands_of_sameRegs h hl
  change 1 ≤ t.ds ∧ 1 ≤ t.cs ∧ t.ds + t.ps ≤ t.cfg.nMax ∧ t.cs ≤ t.cfg.chunkMax
  rw [hds, hps, hcs, hcfg]
  exact hp

/-- After CHUNK, SHARDMEM holds the data rows (R171). -/
theorem Chunked.holdsRows (h : Chunked s t) (hp : s.paramsFit) : HoldsRows t t.ds := by
  obtain ⟨hds, -, hcs⟩ := operands_of_sameRegs h.regs (by decide)
  exact
    { params := paramsFit_of_sameRegs hp h.regs (by decide) h.rest.2.1
      rows := (congrArg BitVec.toNat h.rows).trans hds.symm
      cols := (congrArg BitVec.toNat h.cols).trans hcs.symm
      present := hds ▸ not_rowErased_of_present h.present }

/-! ## RSENC -/

theorem execRsenc_eq_next (h : HoldsRows s s.ds) :
    execRsenc s = .next (((s.setShards (s.ds * s.cs)
      (rsParity s.cfg.gfPoly s.ds s.ps s.cs (s.shardRows s.ds s.cs)).flatten).setShape s.n s.cs
      (lowmaskWord s.n) 0).complete 0) := by
  have hverify := rsVerify_rsEncode (g := s.cfg.gfPoly) (ps := s.ps) (cs := s.cs) (shardRows_length s s.ds s.cs)
  rw [execRsenc, if_neg (not_not.2 (codecParamsOK_iff.2 h.params)),
    if_neg (not_not.2 (hasShape_iff.2 ⟨h.rows, h.cols⟩)), if_neg (not_not.2 (allPresent_iff.2 h.present))]
  exact if_neg (not_not.2 hverify)

/-- RSENC completes the data rows to a code word and writes no data row (R195). -/
theorem exec_rsenc_keeps_data (hw : s.cfg.wellFormed = true) (h : HoldsRows s s.ds) :
    ∃ t, exec .rsenc s = .next t ∧ completedOk s t ∧ HoldsRows t t.n ∧
      (∀ k < s.ds * s.cs, t.shardAt k = s.shardAt k) ∧
      sameRegs [.status, .err, .rows, .cols, .present, .recon] s t ∧ t.cfg = s.cfg := by
  obtain ⟨hn, -⟩ := paramsFit_bounds hw h.params
  have hpresent := not_rowErased_of_present (s := s.setShape s.n s.cs (lowmaskWord s.n) 0) (lowmaskWord_getLsbD s.n)
  refine ⟨_, (exec_rsenc s).trans (execRsenc_eq_next h), completedOk_complete rfl,
    { params := h.params
      rows := toNat_ofNat_of_le (by omega)
      cols := toNat_ofNat_of_le s.chunkSize.isLt
      present := fun i hi => hpresent i (lt_of_lt_of_le hi (Nat.le_add_right _ _)) }, fun k hk => ?_,
    sameRegs_mono (sameRegs_complete (sameRegs_setShape (sameRegs_setShards _ _) _ _ _ _) 0) (by decide), rfl⟩
  rw [shardAt_complete, shardAt_setShape, shardAt_setShards, dif_neg (by omega)]

/-! ## RSDECD -/

theorem execRsdecd_eq_next {d : List (List Byte)} (hp : s.paramsFit) (hrows : s.rows.toNat = s.n)
    (hcols : s.cols.toNat = s.cs) (harg : s.arg0.toNat ≤ s.ds * s.cs)
    (hd : rsData s.cfg.gfPoly s.ds s.ps s.cs (s.shardRows s.n s.cs) (s.available s.n) = some d) :
    execRsdecd s = .next ((((s.fillRows s.cs d (s.erased s.ds)).setPresence (s.present ||| maskOf (s.erased s.ds))
      (maskOf (s.erased s.ds))).putBytes (rsPayload s.ds s.cs s.arg0.toNat d)).complete 0) := by
  rw [execRsdecd, if_neg (not_not.2 (codecParamsOK_iff.2 hp)), if_neg (not_not.2 (hasShape_iff.2 ⟨hrows, hcols⟩)),
    if_neg (by omega), hd]
  rfl

/-- RSDECD with no data row erased returns the data rows without the padding (R197). -/
theorem exec_rsdecd_returns_data (hw : s.cfg.wellFormed = true) (h : HoldsRows s s.n)
    (harg : s.arg0.toNat ≤ s.ds * s.cs) :
    ∃ t, exec .rsdecd s = .next t ∧ completedOk s t ∧ t.byteLen.toNat = s.ds * s.cs - s.arg0.toNat ∧
      ∀ k < s.ds * s.cs - s.arg0.toNat, t.byteAt k = s.shardAt k := by
  obtain ⟨-, -, hle, -, hbound, -⟩ := paramsFit_bounds hw h.params
  refine ⟨_, (exec_rsdecd s).trans (execRsdecd_eq_next h.params h.rows h.cols harg (rsData_of_present h.present)),
    completedOk_complete rfl, ?_, fun k hk => ?_⟩
  · rw [complete_byteLen, putBytes_byteLen, rsPayload_length (shardRows_length s _ _) (shardRows_row_length s _ _),
      toNat_ofNat_of_le (by omega)]
  · exact byteAt_putBytes_of_getElem? (rsPayload_shardRows_getElem? hk)

/-! ## The round trip -/

/-- Settles O33: BYTES_PADDED is what RSDECD has to cut off the data rows, none of which is erased. -/
theorem chunkEncodeDecodeRoundTrip : Obligations.ChunkEncodeDecodeRoundTrip := by
  intro s hw hp hpos hfits
  obtain ⟨-, -, -, -, -, -, -, -, hcap, -⟩ := wellFormed_bounds hw
  obtain ⟨-, -, hle, -⟩ := paramsFit_bounds hw hp
  have hbuffer : s.n * s.cs ≤ s.cfg.nMax * s.cfg.chunkMax := Nat.mul_le_mul hp.2.2.1 hp.2.2.2
  obtain ⟨t, ht, hchunk⟩ := exec_chunk_chunked hw ⟨hp, by omega, by omega, hfits⟩
  have hcfgt : t.cfg = s.cfg := hchunk.rest.2.1
  obtain ⟨hdst, -, hcst⟩ := operands_of_sameRegs hchunk.regs (by decide)
  obtain ⟨u, hu, ⟨herru, hidle, -⟩, hcode, hdata, hregs, hcfgu⟩ :=
    exec_rsenc_keeps_data (hcfgt ▸ hw) (hchunk.holdsRows hp)
  obtain ⟨hdsu, -, hcsu⟩ := operands_of_sameRegs hregs (by decide)
  have hsize : u.ds * u.cs = s.ds * s.cs := by rw [hdsu, hcsu, hdst, hcst]
  have hpadded : u.bytesPadded.toNat = s.ds * s.cs - s.byteLen.toNat :=
    (congrArg BitVec.toNat (hregs .bytesPadded (by decide))).trans hchunk.bytesPadded
  have hcut : u.ds * u.cs - u.bytesPadded.toNat = s.byteLen.toNat := by omega
  obtain ⟨v, hv, ⟨herrv, -⟩, hlen, hbytes⟩ := exec_rsdecd_returns_data (s := u.writeReg .arg0 u.bytesPadded)
    (hcfgu.trans hcfgt ▸ hw) { hcode with } (show u.bytesPadded.toNat ≤ u.ds * u.cs by omega)
  refine ⟨t, u, v, ht, hu, by rwa [hostMove_writeReg_of_idle hidle rfl], hchunk.completed.1, herru, herrv,
    BitVec.eq_of_toNat_eq (hlen.trans hcut), fun k hk => ?_⟩
  calc v.byteAt k
      _ = u.shardAt k := hbytes k (hk.trans_eq hcut.symm)
      _ = t.shardAt k := hdata k (by rw [hdst, hcst]; omega)
      _ = s.byteAt k := hchunk.payload k hk

end Sys2Proof.Machine
end

section
/-! PROOFS. The functions of the erasure codec entry by entry (43_reed_solomon.md R191 to R193), and that reconstruction
gives back the data of a code word from any `ds` of its rows: these rows are an invertible matrix times the data (R190). -/

namespace Sys2Proof.Machine

variable {g : GfPoly} {ds ps cs : Nat} {d w : List (List Byte)} {a : List Nat}

/-! ## Entries of parts of a matrix -/

theorem entry_drop (m : List (List Byte)) (k i j : Nat) : entry (m.drop k) i j = entry m (k + i) j := by
  simp [entry, List.getElem?_drop]

theorem entry_take (m : List (List Byte)) {k i : Nat} (hi : i < k) (j : Nat) : entry (m.take k) i j = entry m i j := by
  simp [entry, hi]

theorem entry_map_range (f : Nat → List Byte) {n i : Nat} (hi : i < n) (j : Nat) :
    entry ((List.range n).map f) i j = (f i).getD j 0 := by
  simp [entry, hi]

/-! ## Encoding (R191) -/

theorem getD_rsEncode_data {i : Nat} (hi : i < d.length) : (rsEncode g ds ps cs d).getD i [] = d.getD i [] :=
  List.getD_append _ _ _ _ hi

theorem entry_rsEncode_data {i : Nat} (hi : i < d.length) (b : Nat) :
    entry (rsEncode g ds ps cs d) i b = entry d i b := by
  rw [entry, getD_rsEncode_data hi]; rfl

theorem entry_rsEncode_parity (hd : d.length = ds) {p b : Nat} (hp : p < ps) (hb : b < cs) :
    entry (rsEncode g ds ps cs d) (ds + p) b =
      dot g ds (fun j => entry (genMatrix g ds ps) (ds + p) j) (fun j => entry d j b) := by
  have hdrop : (rsEncode g ds ps cs d).drop ds = rsParity g ds ps cs d := List.drop_left' hd
  rw [← entry_drop, hdrop, entry_rsParity ds ps cs d p b hp hb]

theorem isMatrix_rsEncode (hd : isMatrix ds cs d) : isMatrix (ds + ps) cs (rsEncode g ds ps cs d) :=
  ⟨by rw [rsEncode_length, hd.1], rsEncode_row_length hd.2⟩

theorem rsEncode_appends_parity : rsEncodeAppendsParity := by
  intro g ds ps cs d _ _ hd
  exact ⟨isMatrix_rsEncode hd, fun i b hi _ => entry_rsEncode_data (by rw [hd.1]; exact hi) b,
    fun p b => entry_rsEncode_parity hd.1⟩

/-! ## Verification (R193) -/

theorem rsVerify_compares_parity : rsVerifyComparesParity := by
  intro g ds ps cs w _ _ hw
  obtain ⟨hlength, hrow⟩ := hw
  have hdrop : (w.drop ds).length = ps := by rw [List.length_drop, hlength]; omega
  have hparity {p b : Nat} (hp : p < ps) (hb : b < cs) : entry (rsParity g ds ps cs (w.take ds)) p b =
      dot g ds (fun j => entry (genMatrix g ds ps) (ds + p) j) (fun j => entry w j b) := by
    rw [entry_rsParity _ _ _ _ _ _ hp hb]
    exact dot_congr (fun _ _ => rfl) fun j hj => entry_take w hj b
  rw [rsVerify, decide_eq_true_iff]
  constructor
  · intro heq p b hp hb
    rw [← entry_drop, heq, hparity hp hb]
  · intro hentries
    refine matrix_ext (by rw [hdrop, rsParity_length]) (fun row hr => hrow row (List.mem_of_mem_drop hr))
      rsParity_row_length fun p b hp hb => ?_
    rw [hdrop] at hp
    rw [entry_drop, hparity hp hb, hentries p b hp hb]

/-! ## Reconstruction (R192) -/

/-- The data rebuilt from the rows `used`: the inverse of these rows of the generator matrix, times these rows. -/
def rebuiltRows (g : GfPoly) (ds ps cs : Nat) (w : List (List Byte)) (used : List Nat) : List (List Byte) :=
  matMul g ds cs (matInv g ds (rowsAt (genMatrix g ds ps) used)) (rowsAt w used)

theorem rsData_eq_some (ha : ds ≤ a.length) : rsData g ds ps cs w a =
    some ((List.range ds).map fun i =>
      if i ∈ a then w.getD i [] else (rebuiltRows g ds ps cs w (a.take ds)).getD i []) := by
  simp only [rsData, if_neg (Nat.not_lt.2 ha), List.contains_iff_mem]
  rfl

theorem entry_rebuiltRows {used : List Nat} (hused : used.length = ds) {i b : Nat} (hi : i < ds) (hb : b < cs) :
    entry (rebuiltRows g ds ps cs w used) i b =
      dot g ds (fun j => entry (matInv g ds (rowsAt (genMatrix g ds ps) used)) i j)
        (fun j => entry w (used.getD j 0) b) := by
  rw [rebuiltRows, entry_matMul _ _ _ _ _ _ (by simp [hused, hi]) hb]
  refine dot_congr (fun _ _ => rfl) fun j hj => ?_
  rw [rowsAt, entry_map_getD _ _ _ _ (by omega), List.getD_eq_getElem]

theorem isMatrix_of_rsData (hw : isMatrix (ds + ps) cs w) (hd : rsData g ds ps cs w a = some d) : isMatrix ds cs d :=
  ⟨rsData_length hd, rsData_row_length (by rw [hw.1]; omega) hw.2 hd⟩

theorem rsData_reconstructs : rsDataReconstructs := by
  intro g ds ps cs w a _ _ hw _ _
  refine ⟨rsData_eq_none.2, fun ha =>
    ⟨_, rsData_eq_some ha, isMatrix_of_rsData hw (rsData_eq_some ha), fun i b hi hb => ?_⟩⟩
  rw [entry_map_range _ hi]
  split
  · rfl
  · exact entry_rebuiltRows (List.length_take_of_le ha) hi hb

/-! ## Reconstruction of a code word (R192, R198 (b)) -/

section field

variable {F : Type} [Field F] (φ : ByteField g F)

/-- Two matrices of one shape over the field are equal when their lists of rows are. -/
theorem eq_of_matOf_eq {r c : Nat} {m m' : List (List Byte)} (hm : isMatrix r c m) (hm' : isMatrix r c m')
    (h : matOf φ r c m = matOf φ r c m') : m = m' :=
  matrix_ext (hm.1.trans hm'.1.symm) hm.2 hm'.2 fun i j hi hj =>
    φ.toField.injective (congrFun₂ h ⟨i, hm.1 ▸ hi⟩ ⟨j, hj⟩)

include φ

theorem matMul_identityRows (hd : isMatrix ds cs d) : matMul g ds cs (identityRows ds) d = d := by
  refine eq_of_matOf_eq φ ⟨by simp, matMul_row_length⟩ hd ?_
  rw [matOf_matMul φ (by simp), matOf_identityRows, Matrix.one_mul]

/-- Encoding is the product with the generator matrix, whose first rows are the identity. -/
theorem rsEncode_eq_matMul (hn : ds + ps ≤ 256) (hd : isMatrix ds cs d) :
    rsEncode g ds ps cs d = matMul g ds cs (genMatrix g ds ps) d := by
  have htop : matMul g ds cs ((genMatrix g ds ps).take ds) d = d := by
    rw [genMatrix_take φ hn, matMul_identityRows φ hd]
  calc rsEncode g ds ps cs d
      _ = matMul g ds cs ((genMatrix g ds ps).take ds) d ++ matMul g ds cs ((genMatrix g ds ps).drop ds) d := by
          rw [htop]; rfl
      _ = matMul g ds cs (genMatrix g ds ps) d := by
          rw [matMul, matMul, ← List.map_append, List.take_append_drop]; rfl

/-- Any `ds` rows of a code word, times the inverse of these rows of the generator matrix, are the data. -/
theorem rebuiltRows_rsEncode (hn : ds + ps ≤ 256) (hd : isMatrix ds cs d) {used : List Nat}
    (hsort : used.Pairwise (· < ·)) (hl : used.length = ds) (hused : ∀ r ∈ used, r < ds + ps) :
    rebuiltRows g ds ps cs (rsEncode g ds ps cs d) used = d := by
  have hgen : ∀ r ∈ used, r < (genMatrix g ds ps).length := by simpa using hused
  have hinv := matOf_matInv_mul φ (m := rowsAt (genMatrix g ds ps) used) (by simp [hl])
    (rowsAt_rect genMatrix_row_length hgen) (det_rowsAt_genMatrix_ne_zero φ hn hsort hl hused)
  refine eq_of_matOf_eq φ ⟨by simp [rebuiltRows, hl], matMul_row_length⟩ hd ?_
  rw [rebuiltRows, rsEncode_eq_matMul φ hn hd, rowsAt_matMul _ _ _ _ hgen, matOf_matMul φ (by simp [hl]),
    matOf_matMul φ (by simp [hl]), ← Matrix.mul_assoc, hinv, Matrix.one_mul]

end field

/-- A code word of which at least `ds` rows are left gives its data back. -/
theorem rsData_of_codeWord (hg : g.isFieldPoly = true) (hn : ds + ps ≤ 256) (hd : isMatrix ds cs d)
    (hsort : a.Pairwise (· < ·)) (hbound : ∀ i ∈ a, i < ds + ps) (ha : ds ≤ a.length)
    (hcode : ∀ i ∈ a, w.getD i [] = (rsEncode g ds ps cs d).getD i []) : rsData g ds ps cs w a = some d := by
  obtain ⟨F, _, ⟨φ⟩⟩ := exists_byteField hg
  have htake : ∀ i ∈ a.take ds, i ∈ a := fun i => List.mem_of_mem_take
  have hrows : rowsAt w (a.take ds) = rowsAt (rsEncode g ds ps cs d) (a.take ds) :=
    List.map_congr_left fun i hi => hcode i (htake i hi)
  have hrebuilt : rebuiltRows g ds ps cs w (a.take ds) = d := by
    rw [rebuiltRows, hrows]
    exact rebuiltRows_rsEncode φ hn hd (hsort.sublist (List.take_sublist _ _)) (List.length_take_of_le ha)
      fun i hi => hbound i (htake i hi)
  rw [rsData_eq_some ha, hrebuilt, Option.some.injEq]
  refine List.ext_getElem (by simp [hd.1]) fun i hi hid => ?_
  rw [List.getElem_map, List.getElem_range, ← List.getD_eq_getElem _ [] hid]
  split
  · rename_i hia
    rw [hcode i hia, getD_rsEncode_data hid]
  · rfl

end Sys2Proof.Machine
end

section
/-! PROOFS. RSENC, RSDECF and RSDECD (43_reed_solomon.md R195 to R197): the errors of each in the order of its rule, the
rows each writes, and its frame. -/

namespace Sys2Proof.Machine

variable {s t u : State}

/-! ## Frames and rows -/

theorem sameRegs_trans {l l' : List Reg} (h : sameRegs l s t) (h' : sameRegs l' t u) : sameRegs (l ++ l') s u := by
  intro r hr
  rw [List.mem_append, not_or] at hr
  exact (h' r hr.2).trans (h r hr.1)

/-- A register written with the value it had is unchanged. -/
theorem sameRegs_of_cons {l : List Reg} {r : Reg} (h : sameRegs (r :: l) s t) (hr : t.reg r = s.reg r) :
    sameRegs l s t := by
  intro x hx
  by_cases hxr : x = r
  · rw [hxr, hr]
  · exact h x (by simp [hxr, hx])

theorem sameRegs_fillRows (cs : Nat) (m : List (List Byte)) (is : List Nat) : sameRegs [] s (s.fillRows cs m is) := by
  intro r _
  cases r <;> rfl

/-- Rows written one after another from row `r` on: a byte of a written row is the entry. -/
theorem shardAt_setShards_flatten {m : List (List Byte)} {c : Nat} (hm : ∀ row ∈ m, row.length = c) (r : Nat)
    {i b : Nat} (hi : i < m.length) (hb : b < c) :
    (s.setShards (r * c) m.flatten).shardAt ((r + i) * c + b) = entry m i b := by
  have hlength := flatten_length hm
  have hrow : (i + 1) * c ≤ m.length * c := Nat.mul_le_mul_right c hi
  have hplace : (r + i) * c + b - r * c = i * c + b := by rw [Nat.add_mul]; omega
  have hin : i * c + b < m.flatten.length := by rw [Nat.succ_mul] at hrow; omega
  rw [shardAt_setShards, dif_pos (by rw [Nat.add_mul]; omega), ← flatten_getD hm i b hb, List.getD_eq_getElem _ _ hin]
  simp only [hplace]

/-- Rows filled in place: a byte of row `i` is the entry when the row is filled, and as before when it is not. -/
theorem shardAt_fillRows_row {cs : Nat} {m : List (List Byte)} {is : List Nat} (hm : ∀ row ∈ m, row.length = cs)
    (his : ∀ i ∈ is, i < m.length) {i b : Nat} (hb : b < cs) :
    (s.fillRows cs m is).shardAt (i * cs + b) = if i ∈ is then entry m i b else s.shardAt (i * cs + b) := by
  have hdiv : (i * cs + b) / cs = i := by
    rw [Nat.mul_comm, Nat.mul_add_div (by omega), Nat.div_eq_of_lt hb, Nat.add_zero]
  have hmod : (i * cs + b) % cs = b := by rw [Nat.mul_comm, Nat.mul_add_mod, Nat.mod_eq_of_lt hb]
  have hpos : 0 < cs := by omega
  simp only [shardAt_fillRows s cs m is hm his, hdiv, hmod, hpos, and_true]

/-- Bytes beyond the filled rows are as before. -/
theorem shardAt_fillRows_above {cs : Nat} {m : List (List Byte)} {is : List Nat} (hm : ∀ row ∈ m, row.length = cs)
    (his : ∀ i ∈ is, i < m.length) {k r : Nat} (hr : ∀ i ∈ is, i < r) (hk : r * cs ≤ k) :
    (s.fillRows cs m is).shardAt k = s.shardAt k := by
  rw [shardAt_fillRows s cs m is hm his, if_neg]
  rintro ⟨hmem, hpos⟩
  have := (Nat.div_lt_iff_lt_mul hpos).1 (hr _ hmem)
  omega

theorem isMatrix_shardRows (n cs : Nat) : isMatrix n cs (s.shardRows n cs) :=
  ⟨shardRows_length s n cs, shardRows_row_length s n cs⟩

theorem mem_rowsKept {n i : Nat} : i ∈ s.rowsKept n ↔ i < n ∧ ¬ s.rowErased i := mem_available s

/-! ## RSENC -/

theorem execRsenc_eq_invalidParams (h : ¬ s.paramsFit) : execRsenc s = raise .invalidParams s := by
  rw [execRsenc, if_pos (mt codecParamsOK_iff.1 h)]

theorem execRsenc_eq_badOperand (hp : s.paramsFit)
    (h : s.rows.toNat ≠ s.ds ∨ s.cols.toNat ≠ s.cs ∨ ∃ i < s.ds, s.rowErased i) :
    execRsenc s = raise .badOperand s := by
  rw [execRsenc, if_neg (not_not.2 (codecParamsOK_iff.2 hp))]
  by_cases hshape : s.rows.toNat = s.ds ∧ s.cols.toNat = s.cs
  · obtain ⟨i, hi, herased⟩ : ∃ i < s.ds, s.rowErased i := by tauto
    rw [if_pos fun hall => allPresent_iff.1 hall i hi herased, ite_self]
  · rw [if_pos (mt hasShape_iff.1 hshape)]

/-- Settles O29: the parity rows are written after the data rows, and the code word verifies. -/
theorem rsencAppendsTheParityRows : Obligations.RsencAppendsTheParityRows := by
  refine ⟨rfl, fun s hw => ⟨fun h => failsWith_of_raise (execRsenc_eq_invalidParams h),
    fun hp h => failsWith_of_raise (execRsenc_eq_badOperand hp h), fun hp hrows hcols hpresent => ?_⟩⟩
  obtain ⟨hn, -⟩ := paramsFit_bounds hw hp
  have hrow : ∀ row ∈ rsParity s.cfg.gfPoly s.ds s.ps s.cs (s.shardRows s.ds s.cs), row.length = s.cs :=
    rsParity_row_length
  have hlength := flatten_length hrow
  rw [rsParity_length] at hlength
  refine ⟨_, (exec_rsenc s).trans (execRsenc_eq_next ⟨hp, hrows, hcols, hpresent⟩), completedOk_complete rfl,
    fun p b hparity hb => ?parity, fun k hk => ?outside, toNat_ofNat_of_le (show s.n < _ by omega),
    lowmaskWord_getLsbD s.n, rfl, fun _ => rfl, fun _ => rfl, ?regs, ⟨rfl, rfl, rfl, rfl, rfl, rfl⟩⟩
  case parity =>
    refine (shardAt_setShards_flatten hrow s.ds (by rwa [rsParity_length]) hb).trans ?_
    exact (entry_rsParity _ _ _ _ _ _ hparity hb).trans
      (dot_congr (fun _ _ => rfl) fun i hi => entry_shardRows s _ _ _ _ hi hb)
  case outside =>
    change k < s.ds * s.cs ∨ (s.ds + s.ps) * s.cs ≤ k at hk
    rw [Nat.add_mul] at hk
    rw [shardAt_complete, shardAt_setShape, shardAt_setShards, dif_neg (by omega)]
  case regs =>
    have hcolsKept : BitVec.ofNat 32 s.cs = s.cols :=
      BitVec.eq_of_toNat_eq ((toNat_ofNat_of_le s.chunkSize.isLt).trans hcols.symm)
    exact sameRegs_of_cons (r := .cols)
      (sameRegs_mono (sameRegs_complete (sameRegs_setShape (sameRegs_setShards _ _) _ _ _ _) 0) (by decide)) hcolsKept

/-! ## What RSDECF and RSDECD share -/

/-- The operands both decoders accept (R196, R197). -/
structure DecodeReady (s : State) : Prop where
  params : s.paramsFit
  rows : s.rows.toNat = s.n
  cols : s.cols.toNat = s.cs
  pad : s.arg0.toNat ≤ s.ds * s.cs

/-- `rs_data` of the rows of SHARDMEM (R192). -/
def State.rebuilt (s : State) : Option (List (List Byte)) :=
  rsData s.cfg.gfPoly s.ds s.ps s.cs (s.shardRows s.n s.cs) (s.rowsKept s.n)

theorem isMatrix_of_rebuilt {d : List (List Byte)} (h : s.rebuilt = some d) : isMatrix s.ds s.cs d :=
  isMatrix_of_rsData (isMatrix_shardRows s.n s.cs) h

/-- The state a decoder completes with: the rows `is` filled from `m`, PRESENT at `p`, the payload of `d` in BYTEBUF. -/
def State.decoded (s : State) (m : List (List Byte)) (is : List Nat) (p : Word) (d : List (List Byte)) : State :=
  (((s.fillRows s.cs m is).setPresence p (maskOf is)).putBytes (rsPayload s.ds s.cs s.arg0.toNat d)).complete 0

/-- A decoder has completed with the payload of `d` in BYTEBUF, and with the frame of R196 and R197. -/
structure PayloadWritten (d : List (List Byte)) (s t : State) : Prop where
  completed : completedOk s t
  byteLen : t.byteLen.toNat = s.ds * s.cs - s.arg0.toNat
  payload : ∀ k < s.ds * s.cs - s.arg0.toNat, t.byteAt k = entry d (k / s.cs) (k % s.cs)
  bytesAbove : ∀ k, s.ds * s.cs - s.arg0.toNat ≤ k → t.byteAt k = s.byteAt k
  bits : sameBits s t
  regs : sameRegs [.status, .err, .present, .recon, .byteLen] s t
  rest : sameRest s t

theorem payloadWritten_decoded {d : List (List Byte)} (hw : s.cfg.wellFormed = true) (hp : s.paramsFit)
    (hd : isMatrix s.ds s.cs d) (m : List (List Byte)) (is : List Nat) (p : Word) :
    PayloadWritten d s (s.decoded m is p d) := by
  obtain ⟨-, -, hle, -, hbound, -⟩ := paramsFit_bounds hw hp
  have hlength : (rsPayload s.ds s.cs s.arg0.toNat d).length = s.ds * s.cs - s.arg0.toNat := rsPayload_length hd.1 hd.2
  exact
    { completed := completedOk_complete rfl
      byteLen := by rw [State.decoded, complete_byteLen, putBytes_byteLen, hlength, toNat_ofNat_of_le (by omega)]
      payload := fun k hk => by
        rw [State.decoded, byteAt_complete, byteAt_putBytes, dif_pos (by omega), ← List.getD_eq_getElem _ 0,
          rsPayload_getD hd.2 k hk]
      bytesAbove := fun k hk => by
        rw [State.decoded, byteAt_complete, byteAt_putBytes, dif_neg (by omega)]
        rfl
      bits := fun _ => rfl
      regs := sameRegs_mono (sameRegs_complete (sameRegs_trans
        (sameRegs_setPresence (sameRegs_fillRows _ _ _) _ _) (sameRegs_putBytes _)) 0) (by decide)
      rest := ⟨rfl, rfl, rfl, rfl, rfl, rfl⟩ }

/-- RECON marks the rows that were erased. -/
theorem maskOf_erased_getLsbD {n k : Nat} (hk : k < 32) :
    (maskOf (s.erased n)).getLsbD k = true ↔ k < n ∧ s.rowErased k := by
  rw [maskOf_getLsbD _ _ hk, decide_eq_true_iff, mem_erased]

section rows

variable {m d : List (List Byte)} {n : Nat} {p : Word} (hm : isMatrix n s.cs m)
include hm

/-- With the erased ones of the first `n` rows filled, a byte of an erased row is the entry, one of another row as before. -/
theorem shardAt_decoded_row {i b : Nat} (hb : b < s.cs) : (s.decoded m (s.erased n) p d).shardAt (i * s.cs + b) =
    if i ∈ s.erased n then entry m i b else s.shardAt (i * s.cs + b) :=
  shardAt_fillRows_row hm.2 (fun _ hj => hm.1 ▸ ((mem_erased s).1 hj).1) hb

theorem shardAt_decoded_erased {i b : Nat} (hi : i < n) (herased : s.rowErased i) (hb : b < s.cs) :
    (s.decoded m (s.erased n) p d).shardAt (i * s.cs + b) = entry m i b :=
  (shardAt_decoded_row hm hb).trans (if_pos ((mem_erased s).2 ⟨hi, herased⟩))

theorem shardAt_decoded_present {i b : Nat} (hpresent : ¬ s.rowErased i) (hb : b < s.cs) :
    (s.decoded m (s.erased n) p d).shardAt (i * s.cs + b) = s.shardAt (i * s.cs + b) :=
  (shardAt_decoded_row hm hb).trans (if_neg fun h => hpresent ((mem_erased s).1 h).2)

theorem shardAt_decoded_above {k : Nat} (hk : n * s.cs ≤ k) :
    (s.decoded m (s.erased n) p d).shardAt k = s.shardAt k := by
  have his : ∀ j ∈ s.erased n, j < n := fun j hj => ((mem_erased s).1 hj).1
  exact shardAt_fillRows_above hm.2 (fun j hj => hm.1 ▸ his j hj) his hk

end rows

/-- What both decoders check before anything else, and what they do with the data `rs_data` gives (R196, R197). -/
def State.decodeWith (s : State) (k : List (List Byte) → Host.Outcome State Fault Refusal) :
    Host.Outcome State Fault Refusal :=
  if ¬ s.codecParamsOK then raise .invalidParams s
  else if ¬ s.hasShape s.n s.cs then raise .badOperand s
  else if s.ds * s.cs < s.arg0.toNat then raise .badOperand s
  else s.rebuilt.elim (raise .reconstructionFailed s) k

section decodeWith

variable {k : List (List Byte) → Host.Outcome State Fault Refusal}

theorem decodeWith_eq_invalidParams (h : ¬ s.paramsFit) : s.decodeWith k = raise .invalidParams s := by
  rw [State.decodeWith, if_pos (mt codecParamsOK_iff.1 h)]

theorem decodeWith_eq_badOperand (hp : s.paramsFit)
    (h : s.rows.toNat ≠ s.n ∨ s.cols.toNat ≠ s.cs ∨ s.ds * s.cs < s.arg0.toNat) :
    s.decodeWith k = raise .badOperand s := by
  rw [State.decodeWith, if_neg (not_not.2 (codecParamsOK_iff.2 hp))]
  by_cases hshape : s.rows.toNat = s.n ∧ s.cols.toNat = s.cs
  · rw [if_pos (show s.ds * s.cs < s.arg0.toNat by tauto), ite_self]
  · rw [if_pos (mt hasShape_iff.1 hshape)]

theorem decodeWith_of_ready (h : DecodeReady s) :
    s.decodeWith k = s.rebuilt.elim (raise .reconstructionFailed s) k := by
  rw [State.decodeWith, if_neg (not_not.2 (codecParamsOK_iff.2 h.params)),
    if_neg (not_not.2 (hasShape_iff.2 ⟨h.rows, h.cols⟩)), if_neg (Nat.not_lt.2 h.pad)]

theorem decodeWith_eq_reconstructionFailed (h : DecodeReady s) (hd : s.rebuilt = none) :
    s.decodeWith k = raise .reconstructionFailed s := by
  rw [decodeWith_of_ready h, hd, Option.elim_none]

theorem decodeWith_of_rebuilt {d : List (List Byte)} (h : DecodeReady s) (hd : s.rebuilt = some d) :
    s.decodeWith k = k d := by
  rw [decodeWith_of_ready h, hd, Option.elim_some]

end decodeWith

/-! ## RSDECF -/

/-- The rows RSDECF verifies: the available ones as they are, the erased ones from the code word `f` (R196). -/
def State.mended (s : State) (f : List (List Byte)) : List (List Byte) :=
  (List.range s.n).map fun i => if i ∈ s.rowsKept s.n then (s.shardRows s.n s.cs).getD i [] else f.getD i []

theorem mended_eq (f : List (List Byte)) :
    ((List.range s.n).map fun i => if s.isPresent i then (s.shardRows s.n s.cs).getD i [] else f.getD i []) =
      s.mended f := by
  refine List.map_congr_left fun i hi => if_congr ?_ rfl rfl
  rw [State.rowsKept, List.mem_filter]
  exact (and_iff_right hi).symm

/-- RSDECF verifies the mended rows before it commits (R196). -/
theorem exec_rsdecf_eq_decodeWith : exec .rsdecf s = s.decodeWith fun d =>
    if rsVerify s.cfg.gfPoly s.ds s.ps s.cs (s.mended (rsEncode s.cfg.gfPoly s.ds s.ps s.cs d)) then
      .next (s.decoded (rsEncode s.cfg.gfPoly s.ds s.ps s.cs d) (s.erased s.n) (lowmaskWord s.n) d)
    else raise .verificationFailed s := by
  rw [exec_rsdecf, execRsdecf, State.decodeWith, State.rebuilt, ← available_eq_rowsKept]
  simp only [mended_eq, ite_not]
  cases rsData s.cfg.gfPoly s.ds s.ps s.cs (s.shardRows s.n s.cs) (s.available s.n) <;> rfl

/-- What RSDECF without error makes of a state (R196). -/
structure FullyDecoded (d : List (List Byte)) (s t : State) : Prop extends PayloadWritten d s t where
  erasedRows : ∀ i b, i < s.n → s.rowErased i → b < s.cs →
    t.shardAt (i * s.cs + b) = entry (rsEncode s.cfg.gfPoly s.ds s.ps s.cs d) i b
  presentRows : ∀ i b, i < s.n → ¬ s.rowErased i → b < s.cs → t.shardAt (i * s.cs + b) = s.shardAt (i * s.cs + b)
  rowsAbove : ∀ k, s.n * s.cs ≤ k → t.shardAt k = s.shardAt k
  present : ∀ k < 32, t.present.getLsbD k = decide (k < s.n)
  recon : ∀ k < 32, (t.recon.getLsbD k = true ↔ k < s.n ∧ s.rowErased k)

theorem rsdecf_fails_of_rebuilt_none (h : DecodeReady s) (hd : s.rebuilt = none) :
    failsWith .reconstructionFailed .rsdecf s :=
  failsWith_of_raise (exec_rsdecf_eq_decodeWith.trans (decodeWith_eq_reconstructionFailed h hd))

theorem exec_rsdecf_fullyDecoded {d : List (List Byte)} (hw : s.cfg.wellFormed = true) (h : DecodeReady s)
    (hd : s.rebuilt = some d)
    (hverify : rsVerify s.cfg.gfPoly s.ds s.ps s.cs (s.mended (rsEncode s.cfg.gfPoly s.ds s.ps s.cs d)) = true) :
    ∃ t, exec .rsdecf s = .next t ∧ FullyDecoded d s t := by
  have hdata := isMatrix_of_rebuilt hd
  have hcode : isMatrix s.n s.cs (rsEncode s.cfg.gfPoly s.ds s.ps s.cs d) := isMatrix_rsEncode hdata
  exact ⟨_, exec_rsdecf_eq_decodeWith.trans ((decodeWith_of_rebuilt h hd).trans (if_pos hverify)),
    { toPayloadWritten := payloadWritten_decoded hw h.params hdata _ _ _
      erasedRows := fun _ _ hi herased hb => shardAt_decoded_erased hcode hi herased hb
      presentRows := fun _ _ _ hpresent hb => shardAt_decoded_present hcode hpresent hb
      rowsAbove := fun _ hk => shardAt_decoded_above hcode hk
      present := lowmaskWord_getLsbD s.n
      recon := fun _ hk => maskOf_erased_getLsbD hk }⟩

/-- Settles O30: the functions of R191 to R193 entry by entry, and RSDECF by the outcome of reconstruction and
verification. -/
theorem rsdecfRepairsEveryErasedRow : Obligations.RsdecfRepairsEveryErasedRow := by
  refine ⟨rfl, rsData_reconstructs, rsEncode_appends_parity, rsVerify_compares_parity, fun s hw =>
    ⟨fun h => failsWith_of_raise (exec_rsdecf_eq_decodeWith.trans (decodeWith_eq_invalidParams h)),
      fun hp h => failsWith_of_raise (exec_rsdecf_eq_decodeWith.trans (decodeWith_eq_badOperand hp h)),
      fun ⟨hp, hrows, hcols, hpad⟩ hd => rsdecf_fails_of_rebuilt_none ⟨hp, hrows, hcols, hpad⟩ hd,
      fun d ⟨hp, hrows, hcols, hpad⟩ hd => ⟨fun hfalse => ?unverified, fun htrue => ?verified⟩⟩⟩
  case unverified =>
    exact failsWith_of_raise (exec_rsdecf_eq_decodeWith.trans
      ((decodeWith_of_rebuilt ⟨hp, hrows, hcols, hpad⟩ hd).trans (if_neg (Bool.eq_false_iff.1 hfalse))))
  case verified =>
    obtain ⟨t, ht, h⟩ := exec_rsdecf_fullyDecoded hw ⟨hp, hrows, hcols, hpad⟩ hd htrue
    exact ⟨t, ht, h.completed, h.erasedRows, h.presentRows, h.rowsAbove, h.present, h.recon, h.byteLen, h.payload,
      h.bytesAbove, h.bits, h.regs, h.rest⟩

/-! ## RSDECD -/

/-- RSDECD commits the data at once (R197). -/
theorem exec_rsdecd_eq_decodeWith : exec .rsdecd s = s.decodeWith fun d =>
    .next (s.decoded d (s.erased s.ds) (s.present ||| maskOf (s.erased s.ds)) d) := by
  rw [exec_rsdecd, execRsdecd, State.decodeWith, State.rebuilt, ← available_eq_rowsKept]
  cases rsData s.cfg.gfPoly s.ds s.ps s.cs (s.shardRows s.n s.cs) (s.available s.n) <;> rfl

theorem rsdecd_fails_of_rebuilt_none (h : DecodeReady s) (hd : s.rebuilt = none) :
    failsWith .reconstructionFailed .rsdecd s :=
  failsWith_of_raise (exec_rsdecd_eq_decodeWith.trans (decodeWith_eq_reconstructionFailed h hd))

/-- What RSDECD without error makes of a state (R197). -/
structure DataDecoded (d : List (List Byte)) (s t : State) : Prop extends PayloadWritten d s t where
  erasedRows : ∀ i b, i < s.ds → s.rowErased i → b < s.cs → t.shardAt (i * s.cs + b) = entry d i b
  presentRows : ∀ i b, i < s.ds → ¬ s.rowErased i → b < s.cs → t.shardAt (i * s.cs + b) = s.shardAt (i * s.cs + b)
  rowsAbove : ∀ k, s.ds * s.cs ≤ k → t.shardAt k = s.shardAt k
  present : ∀ k < 32, t.present.getLsbD k = (s.present.getLsbD k || decide (k < s.ds))
  recon : ∀ k < 32, (t.recon.getLsbD k = true ↔ k < s.ds ∧ s.rowErased k)

/-- Adding the erased rows to PRESENT adds all of the first `n` rows. -/
theorem present_or_erased_getLsbD {n k : Nat} (hk : k < 32) :
    (s.present ||| maskOf (s.erased n)).getLsbD k = (s.present.getLsbD k || decide (k < n)) := by
  rw [BitVec.getLsbD_or, maskOf_getLsbD _ _ hk]
  cases hbit : s.present.getLsbD k with
  | true => rfl
  | false => simp only [Bool.false_or, mem_erased, State.rowErased, hk, hbit, and_self, and_true]

theorem exec_rsdecd_dataDecoded {d : List (List Byte)} (hw : s.cfg.wellFormed = true) (h : DecodeReady s)
    (hd : s.rebuilt = some d) : ∃ t, exec .rsdecd s = .next t ∧ DataDecoded d s t := by
  have hdata := isMatrix_of_rebuilt hd
  exact ⟨_, exec_rsdecd_eq_decodeWith.trans (decodeWith_of_rebuilt h hd),
    { toPayloadWritten := payloadWritten_decoded hw h.params hdata _ _ _
      erasedRows := fun _ _ hi herased hb => shardAt_decoded_erased hdata hi herased hb
      presentRows := fun _ _ _ hpresent hb => shardAt_decoded_present hdata hpresent hb
      rowsAbove := fun _ hk => shardAt_decoded_above hdata hk
      present := fun _ hk => present_or_erased_getLsbD hk
      recon := fun _ hk => maskOf_erased_getLsbD hk }⟩

/-- Settles O31: `rs_data` entry by entry, and RSDECD by the outcome of reconstruction. -/
theorem rsdecdRepairsTheErasedDataRows : Obligations.RsdecdRepairsTheErasedDataRows := by
  refine ⟨rfl, rsData_reconstructs, fun s hw =>
    ⟨fun h => failsWith_of_raise (exec_rsdecd_eq_decodeWith.trans (decodeWith_eq_invalidParams h)),
      fun hp h => failsWith_of_raise (exec_rsdecd_eq_decodeWith.trans (decodeWith_eq_badOperand hp h)),
      fun ⟨hp, hrows, hcols, hpad⟩ hd => rsdecd_fails_of_rebuilt_none ⟨hp, hrows, hcols, hpad⟩ hd,
      fun d ⟨hp, hrows, hcols, hpad⟩ hd => ?_⟩⟩
  obtain ⟨t, ht, h⟩ := exec_rsdecd_dataDecoded hw ⟨hp, hrows, hcols, hpad⟩ hd
  exact ⟨t, ht, h.completed, h.erasedRows, h.presentRows, h.rowsAbove, h.present, h.recon, h.byteLen, h.payload,
    h.bytesAbove, h.bits, h.regs, h.rest⟩

end Sys2Proof.Machine
end

section
/-! PROOFS. Up to `ps` erased rows of a code word are repaired, and more are not (43_reed_solomon.md R198 (b)): the
available rows give the data back, so the mended rows are the code word and verify. -/

namespace Sys2Proof.Machine

variable {s : State} {d : List (List Byte)}

/-- Every row below `n` is kept or erased. -/
theorem rowsKept_length_add_erased {n : Nat} (hn : n ≤ 32) :
    (s.rowsKept n).length + ((List.range n).filter fun k => !s.present.getLsbD k).length = n := by
  have hkept : s.rowsKept n = (List.range n).filter s.present.getLsbD :=
    List.filter_congr fun k hk => by
      have hlt := List.mem_range.1 hk
      simp only [show ¬ 32 ≤ k by omega, decide_false, Bool.false_or]
  have hsplit := List.length_eq_length_filter_add (l := List.range n) s.present.getLsbD
  rw [List.length_range] at hsplit
  rw [hkept, ← hsplit]

/-- Rows of two matrices of one shape are equal when their entries are. -/
theorem getD_eq_of_entry_eq {n cs i : Nat} {m m' : List (List Byte)} (hm : isMatrix n cs m) (hm' : isMatrix n cs m')
    (hi : i < n) (h : ∀ b < cs, entry m i b = entry m' i b) : m.getD i [] = m'.getD i [] := by
  have hl := getD_length hm.2 (hm.1 ▸ hi : i < m.length)
  have hl' := getD_length hm'.2 (hm'.1 ▸ hi : i < m'.length)
  refine List.ext_getElem (hl.trans hl'.symm) fun b hb hb' => ?_
  rw [← List.getD_eq_getElem _ 0 hb, ← List.getD_eq_getElem _ 0 hb']
  exact h b (hl ▸ hb)

/-- The available rows of SHARDMEM are those of the code word of `d`. -/
def State.keepsCodeWord (s : State) (d : List (List Byte)) : Prop :=
  ∀ i ∈ s.rowsKept s.n, (s.shardRows s.n s.cs).getD i [] = (rsEncode s.cfg.gfPoly s.ds s.ps s.cs d).getD i []

theorem keepsCodeWord_of_bytes (hd : isMatrix s.ds s.cs d)
    (h : ∀ i b, i < s.n → ¬ s.rowErased i → b < s.cs →
      s.shardAt (i * s.cs + b) = entry (rsEncode s.cfg.gfPoly s.ds s.ps s.cs d) i b) : s.keepsCodeWord d := by
  intro i hi
  obtain ⟨hlt, hpresent⟩ := mem_rowsKept.1 hi
  exact getD_eq_of_entry_eq (isMatrix_shardRows s.n s.cs) (isMatrix_rsEncode hd) hlt fun b hb =>
    (entry_shardRows s _ _ _ _ hlt hb).trans (h i b hlt hpresent hb)

/-- The code word's rows where rows are erased, its rows as they are elsewhere: the code word. -/
theorem mended_of_keepsCodeWord (hd : isMatrix s.ds s.cs d) (h : s.keepsCodeWord d) :
    s.mended (rsEncode s.cfg.gfPoly s.ds s.ps s.cs d) = rsEncode s.cfg.gfPoly s.ds s.ps s.cs d := by
  have hlength : (rsEncode s.cfg.gfPoly s.ds s.ps s.cs d).length = s.n := (isMatrix_rsEncode hd).1
  refine List.ext_getElem (by rw [State.mended, List.length_map, List.length_range, hlength]) fun i _ hi => ?_
  rw [← List.getD_eq_getElem _ [] hi]
  simp only [State.mended, List.getElem_map, List.getElem_range]
  split
  · rename_i hkept
    exact h i hkept
  · rfl

theorem rebuilt_of_keepsCodeWord (hw : s.cfg.wellFormed = true) (hp : s.paramsFit) (hd : isMatrix s.ds s.cs d)
    (hkept : s.ds ≤ (s.rowsKept s.n).length) (h : s.keepsCodeWord d) : s.rebuilt = some d := by
  obtain ⟨hn, -⟩ := paramsFit_bounds hw hp
  exact rsData_of_codeWord (isFieldPoly_of_wellFormed hw) (show s.n ≤ 256 by omega) hd (List.pairwise_lt_range.filter _)
    (fun _ hi => (mem_rowsKept.1 hi).1) hkept h

/-- Settles O34: with at least `ds` rows left the data is rebuilt and the mended rows verify; with fewer nothing is. -/
theorem erasuresUpToTheParityAreTolerated : Obligations.ErasuresUpToTheParityAreTolerated := by
  intro s d hw hp hrows hcols hpad hlength hrow hbytes
  have hready : DecodeReady s := ⟨hp, hrows, hcols, hpad⟩
  have hd : isMatrix s.ds s.cs d := ⟨hlength, hrow⟩
  have hcode := keepsCodeWord_of_bytes hd hbytes
  have hn : s.n ≤ 31 := (paramsFit_bounds hw hp).1
  have hcount := rowsKept_length_add_erased (s := s) (n := s.n) (by omega)
  have hsum : s.n = s.ds + s.ps := rfl
  refine ⟨fun hfew => ?few, fun hmany => ?many⟩
  case few =>
    have hrebuilt := rebuilt_of_keepsCodeWord hw hp hd (by omega) hcode
    have hverify := rsVerify_rsEncode (g := s.cfg.gfPoly) (ps := s.ps) (cs := s.cs) hlength
    rw [← mended_of_keepsCodeWord hd hcode] at hverify
    obtain ⟨t, ht, hfull⟩ := exec_rsdecf_fullyDecoded hw hready hrebuilt hverify
    obtain ⟨u, hu, hdata⟩ := exec_rsdecd_dataDecoded hw hready hrebuilt
    refine ⟨⟨t, ht, hfull.completed, hfull.byteLen, hfull.payload, fun i b hi hb => ?_⟩,
      ⟨u, hu, hdata.completed, hdata.byteLen, hdata.payload, fun i b hi hb => ?_⟩⟩
    · by_cases herased : s.rowErased i
      · exact hfull.erasedRows i b hi herased hb
      · exact (hfull.presentRows i b hi herased hb).trans (hbytes i b hi herased hb)
    · by_cases herased : s.rowErased i
      · exact hdata.erasedRows i b hi herased hb
      · exact (hdata.presentRows i b hi herased hb).trans ((hbytes i b (by omega) herased hb).trans
          (entry_rsEncode_data (by rwa [hlength]) b))
  case many =>
    have hnone : s.rebuilt = none := rsData_eq_none.2 (by omega)
    exact ⟨rsdecf_fails_of_rebuilt_none hready hnone, rsdecd_fails_of_rebuilt_none hready hnone⟩

end Sys2Proof.Machine
end

section
/-! PROOFS. ILV and DILV (44_interleaver.md R221 to R223): both put the transpose of the matrix in its place, and the transpose
of the transpose is the matrix. -/

namespace Sys2Proof.Machine

variable {i : Instr} {s : State}

/-! ## The transpose in SHARDMEM (R220) -/

@[simp] theorem transposed_length (rows cols : Nat) : (transposed s rows cols).length = rows * cols := by
  simp [transposed]

theorem transposed_getElem (rows cols k : Nat) (h : k < (transposed s rows cols).length) :
    (transposed s rows cols)[k] = s.shardAt (k % rows * cols + k / rows) := by
  simp [transposed]

theorem shardAt_setShards_transposed (rows cols k : Nat) :
    (s.setShards 0 (transposed s rows cols)).shardAt k =
      if k < rows * cols then s.shardAt (k % rows * cols + k / rows) else s.shardAt k := by
  rw [shardAt_setShards]
  by_cases hk : k < rows * cols <;> simp [hk, transposed_getElem]

/-- Place `c * rows + r` is in row `c` and column `r` of the transpose, which has rows of `rows` elements. -/
theorem shardAt_setShards_transposed_entry {rows cols c r : Nat} (hc : c < cols) (hr : r < rows) :
    (s.setShards 0 (transposed s rows cols)).shardAt (c * rows + r) = s.shardAt (r * cols + c) := by
  have hlt : rows * c + r < rows * cols := Nat.mul_comm cols rows ▸ Nat.mul_add_lt_mul_of_lt_of_lt hc hr
  have hcol : (rows * c + r) % rows = r := by rw [Nat.mul_add_mod, Nat.mod_eq_of_lt hr]
  have hrow : (rows * c + r) / rows = c := by rw [Nat.mul_add_div (by omega), Nat.div_eq_of_lt hr, Nat.add_zero]
  rw [Nat.mul_comm c, shardAt_setShards_transposed, if_pos hlt, hcol, hrow]

/-! ## The commands -/

theorem exec_eq_interleave (hi : i = .ilv ∨ i = .dilv) : exec i s = interleave s := by
  obtain rfl | rfl := hi
  · exact exec_ilv s
  · exact exec_dilv s

theorem interleave_eq_raise (h : s.cfg.shardCap < s.rows.toNat * s.cols.toNat ∨ ∃ r < s.rows.toNat, s.rowErased r) :
    interleave s = raise .badOperand s := by
  rw [interleave]
  obtain hsize | ⟨r, hr, herased⟩ := h
  · rw [if_pos (mt shapeOK_iff.1 (by omega))]
  · rw [if_pos fun hall => allPresent_iff.1 hall r hr herased, ite_self]

theorem interleave_eq_next (hsize : s.rows.toNat * s.cols.toNat ≤ s.cfg.shardCap)
    (hall : ∀ r < s.rows.toNat, ¬ s.rowErased r) :
    interleave s = .next (((s.setShards 0 (transposed s s.rows.toNat s.cols.toNat)).setShape s.cols.toNat s.rows.toNat
      (lowmaskWord (min s.cols.toNat 32)) 0).complete 0) := by
  rw [interleave, if_neg (not_not.2 (shapeOK_iff.2 hsize)), if_neg (not_not.2 (allPresent_iff.2 hall))]
  rfl

/-- Settles O35: the commit writes the transpose to the front of SHARDMEM; PRESENT has a bit for each of its first 32 rows. -/
theorem interleavingTransposes : Obligations.InterleavingTransposes := by
  refine ⟨⟨rfl, rfl⟩, fun i s hi _ =>
    ⟨fun h => failsWith_of_raise ((exec_eq_interleave hi).trans (interleave_eq_raise h)), fun hsize hall => ?_⟩⟩
  refine ⟨_, (exec_eq_interleave hi).trans (interleave_eq_next hsize hall), completedOk_complete rfl,
    fun _ _ hc hr => shardAt_setShards_transposed_entry hc hr,
    fun k hk => (shardAt_setShards_transposed _ _ k).trans (if_neg (by omega)),
    BitVec.ofNat_toNat _ _, BitVec.ofNat_toNat _ _, fun k hk => ?_, rfl, fun _ => rfl, fun _ => rfl,
    sameRegs_mono (sameRegs_complete (sameRegs_setShape (sameRegs_setShards 0 _) _ _ _ _) 0) (by decide),
    ⟨rfl, rfl, rfl, rfl, rfl, rfl⟩⟩
  exact (lowmaskWord_getLsbD _ k hk).trans (decide_eq_decide.2 (by omega))

/-- Settles O36: the first command leaves a shape and a presence mask the second accepts, and the second moves every element
back to its place. -/
theorem interleavingTwiceRestoresTheMatrix : Obligations.InterleavingTwiceRestoresTheMatrix := by
  intro i j s hi hj hw hsize hall
  obtain ⟨t, ht, ⟨herrt, -⟩, hmoved, hkept, hrows, hcols, hpresent, -, -, -, -, -, hcfg, -⟩ :=
    (interleavingTransposes.2 i s hi hw).2 hsize hall
  have hback := (interleavingTransposes.2 j t hj (hcfg ▸ hw)).2
  simp only [hrows, hcols, hcfg, Nat.mul_comm s.cols.toNat] at hback
  obtain ⟨u, hu, ⟨herru, -⟩, hmoved', hkept', hrows', hcols', hpresent', hrecon', -⟩ :=
    hback hsize (not_rowErased_of_present hpresent)
  refine ⟨t, u, ht, hu, herrt, herru, fun k => ?_, hrows', hcols', hpresent', hrecon'⟩
  by_cases hk : k < s.rows.toNat * s.cols.toNat
  · have hr : k / s.cols.toNat < s.rows.toNat := Nat.div_lt_of_lt_mul (Nat.mul_comm _ _ ▸ hk)
    have hc : k % s.cols.toNat < s.cols.toNat := Nat.mod_lt k (Nat.pos_of_ne_zero fun h => by simp [h] at hk)
    rw [← Nat.div_add_mod' k s.cols.toNat, hmoved' _ _ hr hc, hmoved _ _ hc hr]
  · rw [hkept' k (by omega), hkept k (by omega)]

end Sys2Proof.Machine
end

section
/-! PROOFS. The search decoder (45_search_decoder.md R231 to R235): the keep masks, PATGEN, and SEARCH, whose outcome is the first
attempt that verifies. -/

namespace Sys2Proof.Machine

variable {s s' : State} {w : CrcWidth} {pos : EnvPos} {j n : Nat} {p : List Byte}

/-! ## The keep masks (R231) -/

theorem keepMask_lt (n j : Nat) : keepMask n j < 2 ^ n := by
  have hpos := Nat.two_pow_pos n
  rw [keepMask]
  omega

/-- The enumeration of the masks is its own inverse. -/
theorem keepMask_keepMask (hj : j < 2 ^ n) : keepMask n (keepMask n j) = j := by
  rw [keepMask, keepMask]
  omega

/-- Settles O37: a mask is the complement of its index, so complementing a mask gives the one index it has. -/
theorem everyKeepMaskOccursOnce : Obligations.EveryKeepMaskOccursOnce := by
  refine fun n => ⟨fun j hj => ⟨keepMask_lt n j, fun i hi => ?_⟩, fun k hk =>
    ⟨keepMask n k, keepMask_lt n k, keepMask_keepMask hk, fun j hj hmask => ?_⟩⟩
  · rw [keepMask_testBit hj, decide_eq_true hi, Bool.true_and]
  · rw [← hmask, keepMask_keepMask hj]

/-- MASK holds the keep mask of an attempt (R234). -/
theorem ofNat_keepMask_getLsbD (hj : j < 2 ^ n) {k : Nat} (hk : k < 32) :
    (BitVec.ofNat 32 (keepMask n j)).getLsbD k = (decide (k < n) && !j.testBit k) := by
  rw [BitVec.getLsbD_ofNat, decide_eq_true hk, Bool.true_and, keepMask_testBit hj]

/-! ## The pattern cache (R233) -/

theorem markPattern_pcache_getLsbD {k : Nat} (hk : k < 32) :
    (s.markPattern n).pcache.getLsbD k = (s.pcache.getLsbD k || decide (k = n)) := by
  rw [markPattern_pcache, BitVec.getLsbD_or, BitVec.getLsbD_ofNat, decide_eq_true hk, Bool.true_and, Nat.testBit_two_pow]
  simp only [eq_comm]

theorem markPattern_pcache_of_set (h : s.pcache.getLsbD n = true) : (s.markPattern n).pcache = s.pcache := by
  refine BitVec.eq_of_getLsbD_eq fun k hk => ?_
  rw [markPattern_pcache_getLsbD hk]
  by_cases hkn : k = n
  · rw [hkn, h, Bool.true_or]
  · rw [decide_eq_false hkn, Bool.or_false]

theorem sameRegs_markPattern (n : Nat) : sameRegs [.pcache] s (s.markPattern n) := by
  intro r hr
  cases r with
  | pcache => exact absurd List.mem_cons_self hr
  | _ => rfl

theorem sameRegs_setAttempts (j k : Nat) : sameRegs [.attempts, .mask] s (s.setAttempts j k) := by
  intro r hr
  simp only [List.mem_cons, List.not_mem_nil, or_false, not_or] at hr
  obtain ⟨hattempts, hmask⟩ := hr
  cases r with
  | attempts => exact absurd rfl hattempts
  | mask => exact absurd rfl hmask
  | _ => rfl

theorem execPatgen_eq_raise (h : ¬ s.paramsFit) : execPatgen s = raise .invalidParams s := by
  rw [execPatgen, if_pos (mt codecParamsOK_iff.1 h)]

theorem execPatgen_eq_next (h : s.paramsFit) : execPatgen s = .next ((s.markPattern s.n).complete 0) := by
  rw [execPatgen, if_neg (not_not.2 (codecParamsOK_iff.2 h))]
  rfl

/-- Settles O38: the commit of PATGEN is `State.markPattern` alone. -/
theorem patgenSetsTheCacheBit : Obligations.PatgenSetsTheCacheBit := by
  refine ⟨rfl, fun s _ => ⟨fun h => failsWith_of_raise ((exec_patgen s).trans (execPatgen_eq_raise h)), fun h => ?_⟩⟩
  exact ⟨_, (exec_patgen s).trans (execPatgen_eq_next h), completedOk_complete rfl,
    fun _ hk => markPattern_pcache_getLsbD hk, markPattern_pcache_of_set, fun _ => rfl, fun _ => rfl, fun _ => rfl,
    sameRegs_complete (sameRegs_markPattern _) 0, ⟨rfl, rfl, rfl, rfl, rfl, rfl⟩⟩

/-! ## One attempt (R232, R234) -/

/-- `A_j` by the keep mask is `A_j` by the bits of `j`. -/
theorem attemptSet_eq_trialRows (hj : j < 2 ^ s.n) : s.attemptSet s.n j = s.trialRows j := by
  rw [State.attemptSet, State.trialRows, State.rowsKept, List.filter_filter]
  refine List.filter_congr fun i hi => ?_
  rw [keepMask_testBit hj, decide_eq_true (List.mem_range.1 hi), Bool.true_and, Bool.and_comm]
  rfl

/-- An attempt answers the payload whose envelope its candidate is. -/
theorem attempt_eq_some_iff_candidate (hj : j < 2 ^ s.n) :
    s.attempt w pos j = some p ↔ s.candidate j = some (envMake s.cfg w pos p) := by
  rw [attempt_eq_some, attemptSet_eq_trialRows hj, State.candidate, Option.map_eq_some_iff]

theorem attempt_eq_none_iff_candidate (hj : j < 2 ^ s.n) :
    s.attempt w pos j = none ↔ ∀ p, s.candidate j ≠ some (envMake s.cfg w pos p) :=
  Option.eq_none_iff_forall_ne_some.trans (forall_congr' fun _ => not_congr (attempt_eq_some_iff_candidate hj))

/-- The payload an attempt answers is the data rows without the padding and the CRC. -/
theorem attempt_length (h : s.attempt w pos j = some p) :
    p.length = s.ds * s.cs - s.arg0.toNat - crcBits w / 8 := by
  obtain ⟨d, hd, henvelope⟩ := attempt_eq_some.1 h
  obtain ⟨hrows, hcols⟩ := rsData_shardRows_isMatrix hd
  have hlength := congrArg List.length henvelope
  rw [rsPayload_length hrows hcols, envMake_length, crcLen] at hlength
  omega

/-! ## The outcomes of SEARCH (R234) -/

/-- The operands SEARCH accepts. -/
def State.searchReady (w : CrcWidth) (s : State) : Prop :=
  s.paramsFit ∧ s.rows.toNat = s.n ∧ s.cols.toNat = s.cs ∧ s.arg0.toNat + crcLen w ≤ s.ds * s.cs

/-- The attempt SEARCH ends with, and its payload. -/
def State.firstAttempt (w : CrcWidth) (pos : EnvPos) (s : State) : Option (Nat × List Byte) :=
  firstFrom (s.attempt w pos) (2 ^ s.n) 0

/-- The state SEARCH completes with when attempt `j` answers `p`. -/
def State.searchFound (s : State) (j : Nat) (p : List Byte) : State :=
  (((s.markPattern s.n).putBytes p).setAttempts j (keepMask s.n j)).complete 0

/-- The state SEARCH completes with when no attempt answers. -/
def State.searchExhausted (s : State) : State :=
  ((s.markPattern s.n).setAttempts (2 ^ s.n) 0).complete Err.decodeExhausted.code

theorem searchDecode_eq_invalidParams (h : ¬ s.paramsFit) : searchDecode w pos s = raise .invalidParams s := by
  rw [searchDecode, if_pos (mt codecParamsOK_iff.1 h)]

theorem searchDecode_eq_badOperand (hp : s.paramsFit) (h : ¬ s.searchReady w) :
    searchDecode w pos s = raise .badOperand s := by
  rw [searchDecode, if_neg (not_not.2 (codecParamsOK_iff.2 hp))]
  by_cases hshape : s.rows.toNat = s.n ∧ s.cols.toNat = s.cs
  · obtain ⟨hrows, hcols⟩ := hshape
    rw [if_pos (Nat.not_le.1 fun hpad => h ⟨hp, hrows, hcols, hpad⟩), ite_self]
  · rw [if_pos (mt hasShape_iff.1 hshape)]

theorem searchDecode_of_ready (h : s.searchReady w) :
    searchDecode w pos s =
      (s.firstAttempt w pos).elim (.next s.searchExhausted) fun r => .next (s.searchFound r.1 r.2) := by
  obtain ⟨hp, hrows, hcols, hpad⟩ := h
  rw [searchDecode, if_neg (not_not.2 (codecParamsOK_iff.2 hp)), if_neg (not_not.2 (hasShape_iff.2 ⟨hrows, hcols⟩)),
    if_neg (Nat.not_lt.2 hpad), State.firstAttempt]
  cases firstFrom (s.attempt w pos) (2 ^ s.n) 0 <;> rfl

theorem searchDecode_eq_exhausted (h : s.searchReady w) (hnone : s.firstAttempt w pos = none) :
    searchDecode w pos s = .next s.searchExhausted := by
  rw [searchDecode_of_ready h, hnone, Option.elim_none]

theorem searchDecode_eq_found (h : s.searchReady w) (hsome : s.firstAttempt w pos = some (j, p)) :
    searchDecode w pos s = .next (s.searchFound j p) := by
  rw [searchDecode_of_ready h, hsome, Option.elim_some]

/-- No attempt answers exactly when no candidate is an envelope. -/
theorem firstAttempt_eq_none : s.firstAttempt w pos = none ↔
    ∀ j < 2 ^ s.n, ∀ p, s.candidate j ≠ some (envMake s.cfg w pos p) :=
  firstFrom_eq_none.trans (forall₂_congr fun _ hj => attempt_eq_none_iff_candidate hj)

/-- The search ends with the first attempt whose candidate is an envelope. -/
theorem firstAttempt_eq_some (hj : j < 2 ^ s.n) (hp : s.candidate j = some (envMake s.cfg w pos p))
    (hfirst : ∀ i < j, ∀ p, s.candidate i ≠ some (envMake s.cfg w pos p)) : s.firstAttempt w pos = some (j, p) :=
  firstFrom_eq_some.2 ⟨hj, (attempt_eq_some_iff_candidate hj).2 hp, fun i hi =>
    (attempt_eq_none_iff_candidate (hi.trans hj)).2 (hfirst i hi)⟩

theorem sameRegs_searchFound (j : Nat) (p : List Byte) :
    sameRegs [.status, .err, .pcache, .attempts, .mask, .byteLen] s (s.searchFound j p) :=
  sameRegs_mono (sameRegs_complete (sameRegs_trans (sameRegs_trans (sameRegs_markPattern _) (sameRegs_putBytes _))
    (sameRegs_setAttempts _ _)) 0) (by decide)

theorem sameRegs_searchExhausted : sameRegs [.status, .err, .pcache, .attempts, .mask] s s.searchExhausted :=
  sameRegs_complete (sameRegs_trans (sameRegs_markPattern _) (sameRegs_setAttempts _ _)) _

theorem byteAt_searchFound (j : Nat) (p : List Byte) (k : Nat) :
    (s.searchFound j p).byteAt k = if k < p.length then p.getD k 0 else s.byteAt k := by
  refine (byteAt_putBytes _ p k).trans ?_
  split
  · exact (List.getD_eq_getElem p 0 _).symm
  · rfl

/-- A number of attempts fits its register. -/
theorem attempts_lt (hw : s.cfg.wellFormed = true) (hp : s.paramsFit) (hj : j ≤ 2 ^ s.n) : j < 4294967296 :=
  lt_of_le_of_lt (hj.trans (Nat.pow_le_pow_right (by omega) (paramsFit_bounds hw hp).1)) (by decide)

/-- Settles O39: the outcome follows the first attempt that verifies, and each commit writes what the rule lists. -/
theorem searchAcceptsTheFirstVerifyingAttempt : Obligations.SearchAcceptsTheFirstVerifyingAttempt := by
  refine ⟨⟨rfl, rfl, rfl, rfl, rfl, rfl⟩, fun w pos s hw =>
    ⟨fun h => ?invalid, fun hp h => ?refused, fun hready hnone => ?exhausted,
      fun j p hready hj hverifies hfirst => ?found⟩⟩
  case invalid =>
    exact failsWith_of_raise ((exec_searchOf s w pos).trans (searchDecode_eq_invalidParams h))
  case refused =>
    refine failsWith_of_raise ((exec_searchOf s w pos).trans (searchDecode_eq_badOperand hp ?_))
    rintro ⟨-, hrows, hcols, hpad⟩
    exact h.elim (· hrows) (Or.elim · (· hcols) (Nat.not_lt.2 hpad))
  case exhausted =>
    exact ⟨_, (exec_searchOf s w pos).trans (searchDecode_eq_exhausted hready (firstAttempt_eq_none.2 hnone)),
      completedWith_complete _ rfl, toNat_ofNat_of_le (attempts_lt hw hready.1 le_rfl), rfl,
      fun _ hk => markPattern_pcache_getLsbD hk, fun _ => rfl, fun _ => rfl, fun _ => rfl,
      sameRegs_searchExhausted, ⟨rfl, rfl, rfl, rfl, rfl, rfl⟩⟩
  case found =>
    obtain ⟨-, -, hdata, -, hbound, -⟩ := paramsFit_bounds hw hready.1
    have hlength := attempt_length ((attempt_eq_some_iff_candidate hj).2 hverifies)
    have hbyteLen : (s.searchFound j p).byteLen.toNat = p.length := toNat_ofNat_of_le (by omega)
    exact ⟨_, (exec_searchOf s w pos).trans (searchDecode_eq_found hready (firstAttempt_eq_some hj hverifies hfirst)),
      completedOk_complete rfl, hbyteLen.trans hlength, hlength,
      fun k hk => (byteAt_searchFound j p k).trans (if_pos hk),
      fun k hk => (byteAt_searchFound j p k).trans (if_neg (Nat.not_lt.2 hk)),
      toNat_ofNat_of_le (attempts_lt hw hready.1 hj.le), fun _ hk => ofNat_keepMask_getLsbD hj hk,
      fun _ hk => markPattern_pcache_getLsbD hk, fun _ => rfl, fun _ => rfl, sameRegs_searchFound j p,
      ⟨rfl, rfl, rfl, rfl, rfl, rfl⟩⟩

/-! ## What SEARCH depends on (R235) -/

/-- Two states with the same operands of SEARCH: the parameters, the registers R235 names and the bytes of the matrix. -/
structure SameOperands (s s' : State) : Prop where
  cfg : s'.cfg = s.cfg
  dataShards : s'.dataShards = s.dataShards
  parityShards : s'.parityShards = s.parityShards
  chunkSize : s'.chunkSize = s.chunkSize
  arg0 : s'.arg0 = s.arg0
  rows : s'.rows = s.rows
  cols : s'.cols = s.cols
  present : s'.present = s.present
  shards : ∀ k < s.n * s.cs, s'.shardAt k = s.shardAt k

namespace SameOperands

theorem ds_eq (h : SameOperands s s') : s'.ds = s.ds := congrArg BitVec.toNat h.dataShards

theorem ps_eq (h : SameOperands s s') : s'.ps = s.ps := congrArg BitVec.toNat h.parityShards

theorem cs_eq (h : SameOperands s s') : s'.cs = s.cs := congrArg BitVec.toNat h.chunkSize

theorem n_eq (h : SameOperands s s') : s'.n = s.n := congrArg₂ (· + ·) h.ds_eq h.ps_eq

theorem paramsFit_iff (h : SameOperands s s') : s'.paramsFit ↔ s.paramsFit := by
  simp only [State.paramsFit, h.cfg, h.dataShards, h.parityShards, h.chunkSize]

theorem searchReady_iff (h : SameOperands s s') : s'.searchReady w ↔ s.searchReady w := by
  simp only [State.searchReady, h.paramsFit_iff, h.rows, h.cols, h.arg0, h.n_eq, h.cs_eq, h.ds_eq]

theorem shardRows_eq (h : SameOperands s s') : s'.shardRows s.n s.cs = s.shardRows s.n s.cs := by
  refine List.map_congr_left fun r hr => List.map_congr_left fun b hb => h.shards _ ?_
  have hrow : (r + 1) * s.cs ≤ s.n * s.cs := Nat.mul_le_mul_right _ (List.mem_range.1 hr)
  have hcol := List.mem_range.1 hb
  rw [Nat.succ_mul] at hrow
  omega

theorem attemptSet_eq (h : SameOperands s s') (j : Nat) : s'.attemptSet s.n j = s.attemptSet s.n j := by
  simp only [State.attemptSet, State.isPresent, h.present]

theorem attempt_eq (h : SameOperands s s') : s'.attempt w pos = s.attempt w pos := by
  funext j
  simp only [State.attempt, h.cfg, h.n_eq, h.ds_eq, h.ps_eq, h.cs_eq, h.arg0, h.shardRows_eq, h.attemptSet_eq]

theorem firstAttempt_eq (h : SameOperands s s') : s'.firstAttempt w pos = s.firstAttempt w pos := by
  rw [State.firstAttempt, State.firstAttempt, h.attempt_eq, h.n_eq]

end SameOperands

/-- Operands SEARCH does not accept give one of two errors, the same in every state with these operands. -/
theorem searchDecode_refuses_alike (h : SameOperands s s') (hready : ¬ s.searchReady w) :
    ∃ e, (e = .invalidParams ∨ e = .badOperand) ∧
      searchDecode w pos s = raise e s ∧ searchDecode w pos s' = raise e s' := by
  by_cases hp : s.paramsFit
  · exact ⟨.badOperand, .inr rfl, searchDecode_eq_badOperand hp hready,
      searchDecode_eq_badOperand (h.paramsFit_iff.2 hp) (mt h.searchReady_iff.1 hready)⟩
  · exact ⟨.invalidParams, .inl rfl, searchDecode_eq_invalidParams hp,
      searchDecode_eq_invalidParams (mt h.paramsFit_iff.1 hp)⟩

/-- Settles O40: the operands decide whether SEARCH is refused, and which attempt it ends with. -/
theorem searchIsAFunctionOfItsOperands : Obligations.SearchIsAFunctionOfItsOperands := by
  intro w pos s s' hcfg hds hps hcs harg0 hrows hcols hpresent hshards
  have hsame : SameOperands s s' := ⟨hcfg, hds, hps, hcs, harg0, hrows, hcols, hpresent, hshards⟩
  rw [exec_searchOf, exec_searchOf]
  by_cases hready : s.searchReady w
  · have hready' := hsame.searchReady_iff.2 hready
    cases hfirst : s.firstAttempt w pos with
    | none =>
      have hfirst' := hsame.firstAttempt_eq.trans hfirst
      refine ⟨_, _, searchDecode_eq_exhausted hready hfirst, searchDecode_eq_exhausted hready' hfirst', rfl,
        fun _ => ⟨?_, rfl⟩, fun herr => absurd herr Err.decodeExhausted.code_ne_zero⟩
      simp only [State.searchExhausted, complete_attempts, setAttempts_attempts, hsame.n_eq]
    | some r =>
      have hfirst' := hsame.firstAttempt_eq.trans hfirst
      refine ⟨_, _, searchDecode_eq_found hready hfirst, searchDecode_eq_found hready' hfirst', rfl,
        fun _ => ⟨rfl, ?_⟩, fun _ => ⟨rfl, fun k hk => ?_⟩⟩
      · simp only [State.searchFound, complete_mask, setAttempts_mask, hsame.n_eq]
      · have hlt : k < r.2.length := lt_of_lt_of_le hk (BitVec.toNat_ofNat _ 32 ▸ Nat.mod_le _ _)
        rw [byteAt_searchFound, byteAt_searchFound, if_pos hlt, if_pos hlt]
  · obtain ⟨e, he, hs, hs'⟩ := searchDecode_refuses_alike (pos := pos) hsame hready
    have hcode : ¬ (e.code = 0 ∨ e.code = Err.decodeExhausted.code) := by
      obtain rfl | rfl := he <;> decide
    exact ⟨_, _, hs, hs', rfl, fun herr => absurd herr hcode, fun herr => absurd (.inl herr) hcode⟩

end Sys2Proof.Machine
end

section
/-! PROOFS. The trellis and the convolutional code (46_viterbi.md R252 to R255): the two predecessors of a state, an output bit
as a parity over the message, and that a valid code tells two messages of one length apart. -/

namespace Sys2Proof.Machine

variable (c : Codec)

/-! ## The trellis (R255) -/

theorem input_toNat (hk : 2 ≤ c.k) {st : Nat} (h : st < 2 ^ (c.k - 1)) :
    (c.input st).toNat = st >>> (c.k - 2) := by
  have hpow : 2 ^ (c.k - 1) = 2 ^ (c.k - 2) * 2 := by rw [← Nat.pow_succ]; congr 1; omega
  have hlt : st / 2 ^ (c.k - 2) < 2 := Nat.div_lt_of_lt_mul (hpow ▸ h)
  rw [Codec.input, Nat.shiftRight_eq_div_pow]
  obtain h0 | h1 := Nat.le_one_iff_eq_zero_or_eq_one.1 (Nat.lt_succ_iff.1 hlt)
  · rw [h0]; rfl
  · rw [h1]; rfl

/-- Settles O43: the formula gives two branches into a state, and `pred_next` finds every branch among them. -/
theorem trellisHasTwoPredecessorsPerState : Obligations.TrellisHasTwoPredecessorsPerState := by
  intro c st hk hst
  refine ⟨fun b => ⟨?formula, ?dropped, pred_lt c hk st b, next_pred c hk hst b⟩, input_toNat c hk hst, ?only⟩
  case formula => rw [Codec.pred, lowmask, Nat.shiftLeft_eq, Nat.pow_one]
  case dropped => rw [pred_testBit, if_pos rfl]
  case only =>
    rintro p u hp rfl
    obtain ⟨hinput, hpred⟩ := pred_next c hk hp u
    exact ⟨hinput.symm, _, hpred.symm⟩

/-! ## Output bits (R252, R254) -/

/-- What tap `d` of the polynomial `e` adds to its output bit of step `t`: the message bit of `d` steps ago, where bit `K-1-d`
of `e` is set (R252). -/
def Codec.tap (e : Word) (u : List Bool) (t d : Nat) : Bool :=
  e.getLsbD (c.k - 1 - d) && decide (d ≤ t) && u.getD (t - d) false

theorem length_filter_range_reflect (n : Nat) (p : Nat → Bool) :
    ((List.range n).filter p).length = ((List.range n).filter fun d => p (n - 1 - d)).length := by
  have hreflect : (List.range n).reverse = (List.range n).map fun d => n - 1 - d := by
    rw [List.range_eq_range', List.reverse_range', ← List.range_eq_range', Nat.zero_add]
  rw [← List.countP_eq_length_filter, ← List.countP_reverse, hreflect, List.countP_map, List.countP_eq_length_filter]
  rfl

/-- The flush bits read as the bits beyond the end of the message. -/
theorem getD_append_replicate_false (u : List Bool) (n i : Nat) :
    (u ++ List.replicate n false).getD i false = u.getD i false := by
  rcases Nat.lt_or_ge i u.length with hi | hi
  · exact List.getD_append _ _ _ _ hi
  · rw [List.getD_append_right _ _ _ _ hi, List.getD_eq_default _ _ hi, List.getD_eq_getElem?_getD,
      List.getElem?_replicate]
    split <;> rfl

/-- The register of step `t` holds the message bits of that step and the `K-1` steps before it. -/
theorem register_getLsbD (hk : 2 ≤ c.k) (us : List Bool) {t d : Nat} (ht : t < us.length) (hd : d < c.k) :
    ((us.take t).foldl c.next 0 + (us.getD t false).toNat * 2 ^ (c.k - 1)).testBit (c.k - 1 - d) =
      (decide (d ≤ t) && us.getD (t - d) false) := by
  have hlength : (us.take t).length = t := List.length_take_of_le (by omega)
  rw [register_testBit c hk _ _ _ hd, hlength, List.getD_eq_getElem _ _ ht, List.take_append_getElem]
  simp only [List.getD_eq_getElem?_getD]
  rw [List.getElem?_take_of_lt (by omega)]

theorem outputs_getD (st : Nat) (u : Bool) {j : Nat} (hj : j < c.m) :
    (c.outputs st u).getD j false = parity c.k ((st + u.toNat * 2 ^ (c.k - 1)) &&& (c.polys.getD j 0).toNat) := by
  have hpoly : j < c.polys.length := hj
  rw [List.getD_eq_getElem _ _ (by rwa [outputs_length]), List.getD_eq_getElem _ _ hpoly]
  simp only [Codec.outputs, List.getElem_map]

theorem convEncode_getD (hk : 2 ≤ c.k) (u : List Bool) {t j : Nat} (ht : t < u.length + c.k - 1) (hj : j < c.m) :
    (convEncode c u).getD (c.m * t + j) false =
      decide (((List.range c.k).filter (c.tap (c.polys.getD j 0) u t)).length % 2 = 1) := by
  have hlength : t < (u ++ List.replicate (c.k - 1) false).length := by simp; omega
  rw [convEncode, run_getD c 0 _ t j hlength hj, outputs_getD c _ _ hj, parity, length_filter_range_reflect]
  congr 4
  refine List.filter_congr fun d hd => ?_
  rw [Nat.testBit_and, register_getLsbD c hk _ hlength (List.mem_range.1 hd), getD_append_replicate_false,
    BitVec.testBit_toNat, Bool.and_comm, ← Bool.and_assoc, Codec.tap]

/-- Settles O42: the length of the code, and `convEncode_getD`. -/
theorem convEncodeIsAConvolution : Obligations.ConvEncodeIsAConvolution := by
  rintro cfg c u - ⟨hk, -⟩
  refine ⟨?_, fun t j => convEncode_getD c hk u⟩
  rw [convEncode_length, Nat.add_sub_assoc (by omega)]

/-! ## A valid code tells messages apart (R257) -/

theorem exists_first_getD_ne {u v : List Bool} (hl : u.length = v.length) (hne : u ≠ v) :
    ∃ p < u.length, u.getD p false ≠ v.getD p false ∧ ∀ q < p, u.getD q false = v.getD q false := by
  have hex : ∃ p, u.getD p false ≠ v.getD p false := by
    by_contra hall
    push Not at hall
    refine hne (List.ext_getElem hl fun i hu hv => ?_)
    rw [← List.getD_eq_getElem u false hu, ← List.getD_eq_getElem v false hv, hall i]
  refine ⟨Nat.find hex, ?_, Nat.find_spec hex, fun q hq => not_not.1 (Nat.find_min hex hq)⟩
  by_contra hge
  refine Nat.find_spec hex ?_
  rw [List.getD_eq_default _ _ (by omega), List.getD_eq_default _ _ (by omega)]

/-- A non-zero polynomial has a tap of the smallest delay. -/
theorem exists_least_delay {e : Word} (hpos : 1 ≤ e.toNat) (hlt : e.toNat < 2 ^ c.k) :
    ∃ d < c.k, e.getLsbD (c.k - 1 - d) = true ∧ ∀ d' < d, e.getLsbD (c.k - 1 - d') = false := by
  have hex : ∃ d, d < c.k ∧ e.getLsbD (c.k - 1 - d) = true := by
    obtain ⟨i, hi⟩ := Nat.exists_testBit_of_ne_zero (Nat.one_le_iff_ne_zero.1 hpos)
    have hik : i < c.k := (Nat.pow_lt_pow_iff_right (by decide)).1 (lt_of_le_of_lt (Nat.ge_two_pow_of_testBit hi) hlt)
    refine ⟨c.k - 1 - i, by omega, ?_⟩
    rwa [show c.k - 1 - (c.k - 1 - i) = i by omega, ← BitVec.testBit_toNat]
  obtain ⟨hd, htap⟩ := Nat.find_spec hex
  refine ⟨Nat.find hex, hd, htap, fun d' hd' => ?_⟩
  have hmin := Nat.find_min hex hd'
  exact Bool.eq_false_iff.2 fun h => hmin ⟨by omega, h⟩

/-- Where two messages first differ, the tap of the smallest delay brings the difference into an output bit, and no other tap
does. -/
theorem exists_tap_ne {e : Word} (hpos : 1 ≤ e.toNat) (hlt : e.toNat < 2 ^ c.k) {u v : List Bool}
    (hl : u.length = v.length) (hne : u ≠ v) :
    ∃ t d, t < u.length + c.k - 1 ∧ d < c.k ∧ c.tap e u t d ≠ c.tap e v t d ∧
      ∀ d', d' ≠ d → c.tap e u t d' = c.tap e v t d' := by
  obtain ⟨p, hp, hdiffer, hbefore⟩ := exists_first_getD_ne hl hne
  obtain ⟨d, hd, htap, hleast⟩ := exists_least_delay c hpos hlt
  refine ⟨p + d, d, by omega, hd, ?_, fun d' hd' => ?_⟩
  · simpa [Codec.tap, htap] using hdiffer
  · simp only [Codec.tap]
    rcases Nat.lt_or_gt_of_ne hd' with hless | hmore
    · simp only [hleast d' hless, Bool.false_and]
    · by_cases hle : d' ≤ p + d
      · rw [hbefore _ (by omega)]
      · simp only [decide_eq_false hle, Bool.and_false, Bool.false_and]

theorem convEncode_injective {cfg : Config} (hc : c.valid cfg) {u v : List Bool} (hl : u.length = v.length)
    (h : convEncode c u = convEncode c v) : u = v := by
  obtain ⟨hk, -, hm, -, hpolys⟩ := hc
  by_contra hne
  have hpoly : c.polys.getD 0 0 ∈ c.polys := List.getD_eq_getElem c.polys 0 hm ▸ List.getElem_mem hm
  obtain ⟨hpos, hlt⟩ := hpolys _ hpoly
  obtain ⟨t, d, ht, hd, hdiffer, hagree⟩ := exists_tap_ne c hpos hlt hl hne
  have hparity := count_parity_ne c.k _ _ d hd hdiffer hagree
  rw [← convEncode_getD c hk u ht hm, ← convEncode_getD c hk v (hl ▸ ht) hm, h] at hparity
  exact hparity rfl

end Sys2Proof.Machine
end

section
/-! PROOFS. The Viterbi decoder (46_viterbi.md R256, R257): the answer is the message of a path of least distance to state 0,
the one the tie rule picks, and a clean stream decodes exactly. -/

namespace Sys2Proof.Machine

variable {c : Codec} {r : List Bool}

/-! ## The received bits in whole steps (R256) -/

/-- The received bits, padded with zeros to whole steps. -/
def Codec.padded (c : Codec) (r : List Bool) : List Bool :=
  r ++ List.replicate (c.m * c.steps r.length - r.length) false

theorem le_mul_steps (hm : 1 ≤ c.m) (b : Nat) : b ≤ c.m * c.steps b := by
  have hmod := Nat.div_add_mod (b + c.m - 1) c.m
  have hlt := Nat.mod_lt (b + c.m - 1) hm
  rw [Codec.steps]
  omega

theorem padded_length (hm : 1 ≤ c.m) (r : List Bool) : (c.padded r).length = c.m * c.steps r.length := by
  have hle := le_mul_steps hm r.length
  rw [Codec.padded, List.length_append, List.length_replicate]
  omega

theorem blocks_flatten_padded (hm : 1 ≤ c.m) (r : List Bool) :
    (c.blocks r).flatten = c.padded r ∧ ∀ b ∈ c.blocks r, b.length = c.m :=
  blocks_flatten c.m (c.steps r.length) (c.padded r) (padded_length hm r)

/-! ## The path of the traceback -/

/-- The path that the traceback from state 0 finds, flush bits included (R256). -/
def Codec.survivor (c : Codec) (r : List Bool) : List Bool :=
  c.traceback 0 (c.survivors c.startMetrics (c.blocks r) []) []

/-- The distance of the path `us` from the received bits. -/
def Codec.distance (c : Codec) (r us : List Bool) : Nat := hamming (c.run 0 us) (c.padded r)

theorem survivor_length (r : List Bool) : (c.survivor r).length = c.steps r.length := by simp [Codec.survivor]

/-- What the traceback from state 0 finds: a path to state 0 that no other is nearer than, and that wins every tie. -/
theorem survivor_nearest (hk : 2 ≤ c.k) (hm : 1 ≤ c.m) (hT : c.k - 1 ≤ c.steps r.length) :
    (c.survivor r).foldl c.next 0 = 0 ∧
    ∀ us : List Bool, us.length = c.steps r.length → us.foldl c.next 0 = 0 →
      c.distance r (c.survivor r) ≤ c.distance r us ∧
      (c.distance r us = c.distance r (c.survivor r) → us ≠ c.survivor r → TieGoesTo (c.survivor r) us) := by
  obtain ⟨hflatten, hblocks⟩ := blocks_flatten_padded hm r
  obtain ⟨pm, ⟨-, hpaths⟩, hties⟩ :=
    tiesOf_survivors c hk (c.blocks r) (survivorsOf_start c) (tiesOf_start c) (by simp) hblocks
  rw [List.nil_append] at hpaths hties
  have h0 : 0 < 2 ^ (c.k - 1) := Nat.two_pow_pos _
  obtain ⟨hreached, hnearest⟩ := hpaths 0 h0
  rw [hflatten, blocks_length] at hnearest
  rw [hflatten] at hreached
  -- some path to state 0 exists, so state 0 has a metric
  have hzeros : (List.replicate (c.steps r.length) false).foldl c.next 0 = 0 := by
    rw [← Nat.sub_add_cancel hT, List.replicate_add]
    exact foldl_next_flush c hk _
  obtain ⟨v, hv, -⟩ := hnearest _ List.length_replicate hzeros
  obtain ⟨hfold, hdistance⟩ := hreached v hv
  refine ⟨hfold, fun us hl hs => ⟨?_, fun htie hne => ?_⟩⟩
  · obtain ⟨w, hw, hle⟩ := hnearest us hl hs
    obtain rfl : v = w := Option.some.inj (hv.symm.trans hw)
    exact hdistance.trans_le hle
  · refine hties 0 v us h0 hv (hl.trans (blocks_length c r).symm) hs ?_ hne
    rw [hflatten]
    exact htie.trans hdistance

/-- The answer, with its flush bits, is the path found. -/
theorem viterbi_append_flush (hk : 2 ≤ c.k) (hm : 1 ≤ c.m) (hT : c.k - 1 ≤ c.steps r.length) :
    viterbi c r ++ List.replicate (c.k - 1) false = c.survivor r := by
  have hpath := path_to_zero c hk (c.survivor r) (by rwa [survivor_length]) (survivor_nearest hk hm hT).1
  rw [survivor_length] at hpath
  exact hpath.symm

theorem TieGoesTo.of_append_replicate {a d : List Bool} {n : Nat}
    (h : TieGoesTo (a ++ List.replicate n false) (d ++ List.replicate n false)) : TieGoesTo a d := by
  obtain ⟨p, -, h0, h1, hafter⟩ := h
  simp only [getD_append_replicate_false] at h0 h1 hafter
  refine ⟨p, ?_, h0, h1, fun q hq hqd => hafter q hq (by rw [List.length_append]; omega)⟩
  by_contra hge
  rw [List.getD_eq_default _ _ (by omega)] at h1
  cases h1

/-! ## Maximum likelihood (R257) -/

/-- The messages with their flush bits are the paths to state 0, so the answer is nearest among them and wins every tie. -/
theorem viterbi_nearest (hk : 2 ≤ c.k) (hm : 1 ≤ c.m) (hT : c.k - 1 ≤ c.steps r.length) {d : List Bool}
    (hd : d.length = c.steps r.length - (c.k - 1)) :
    hamming (convEncode c (viterbi c r)) (c.padded r) ≤ hamming (convEncode c d) (c.padded r) ∧
    (hamming (convEncode c d) (c.padded r) = hamming (convEncode c (viterbi c r)) (c.padded r) → d ≠ viterbi c r →
      TieGoesTo (viterbi c r) d) := by
  have hlength : (d ++ List.replicate (c.k - 1) false).length = c.steps r.length := by
    rw [List.length_append, List.length_replicate, hd, Nat.sub_add_cancel hT]
  obtain ⟨hle, htie⟩ := (survivor_nearest hk hm hT).2 _ hlength (foldl_next_flush c hk d)
  rw [← viterbi_append_flush hk hm hT] at hle htie
  exact ⟨hle, fun heq hne => (htie heq fun h => hne (List.append_cancel_right h)).of_append_replicate⟩

/-- Settles O46: the length of the answer, and `viterbi_nearest`. -/
theorem viterbiIsMaximumLikelihood : Obligations.ViterbiIsMaximumLikelihood := by
  rintro cfg c r - ⟨hk, -, hm, -⟩ steps padded hT
  exact ⟨viterbi_length c r, fun d hd => (viterbi_nearest hk hm hT hd).1,
    fun d hd hne heq => (viterbi_nearest hk hm hT hd).2 heq hne⟩

/-! ## Clean streams (R257) -/

theorem steps_convEncode (hm : 1 ≤ c.m) (u : List Bool) :
    c.steps (convEncode c u).length = u.length + (c.k - 1) := by
  rw [convEncode_length, steps_mul c hm]

theorem padded_convEncode (hm : 1 ≤ c.m) (u : List Bool) : c.padded (convEncode c u) = convEncode c u := by
  rw [Codec.padded, steps_convEncode hm, convEncode_length, Nat.sub_self, List.replicate_zero, List.append_nil]

/-- The answer's code is at distance 0 from the stream, and only one message of that length has this code. -/
theorem viterbi_convEncode {cfg : Config} (hc : c.valid cfg) (u : List Bool) : viterbi c (convEncode c u) = u := by
  have ⟨hk, _, hm, _⟩ := hc
  have hsteps := steps_convEncode hm u
  have hlength : (viterbi c (convEncode c u)).length = u.length := by rw [viterbi_length, hsteps, Nat.add_sub_cancel]
  have hnearest := (viterbi_nearest hk hm (by omega) (by omega : u.length = c.steps (convEncode c u).length - _)).1
  rw [padded_convEncode hm, (hamming_eq_zero rfl).2 rfl, Nat.le_zero, hamming_eq_zero (by simp [hlength])] at hnearest
  exact convEncode_injective c hc hlength hnearest

end Sys2Proof.Machine
end

section
/-! PROOFS. VINIT, VENC and VDEC (46_viterbi.md R258 to R261): what each raises and commits, and that VDEC undoes VENC. -/

namespace Sys2Proof.Machine

variable {s t u : State} {c : Codec}

/-! ## An element after a commit, with the elements written read from the front of the sequence -/

theorem bitAt_putBits_getD (b : List Bool) (k : Nat) :
    (s.putBits b).bitAt k = if k < b.length then b.getD k false else s.bitAt k := by
  rw [bitAt_putBits]
  split
  · exact (List.getD_eq_getElem _ _ _).symm
  · rfl

theorem byteAt_putBytes_getD (b : List Byte) (k : Nat) :
    (s.putBytes b).byteAt k = if k < b.length then b.getD k 0 else s.byteAt k := by
  rw [byteAt_putBytes]
  split
  · exact (List.getD_eq_getElem _ _ _).symm
  · rfl

/-! ## VINIT (R258) -/

theorem sameRegs_latch {l : List Reg} (h : sameRegs l s u) (o : Option Codec) :
    sameRegs (.codec :: l) s (u.latch o) := by
  intro r hr
  simp only [List.mem_cons, not_or] at hr
  obtain ⟨hcodec, hl⟩ := hr
  refine Eq.trans ?_ (h r hl)
  cases r with
  | codec => exact absurd rfl hcodec
  | _ => rfl

theorem execVinit_eq_raise (h : ¬ s.convFits) : execVinit s = raise .invalidParams (s.latch none) := by
  rw [execVinit, if_pos (mt convValid_iff.1 h)]

theorem execVinit_eq_next (h : s.convFits) : execVinit s = .next ((s.latch (some s.codecFromRegs)).complete 0) := by
  rw [execVinit, if_neg (not_not.2 (convValid_iff.2 h))]
  rfl

theorem effectivePoly_getLsbD {k i : Nat} (rev : Bool) (g : Word) (hi : i < 32) :
    (effectivePoly k rev g).getLsbD i = if rev then decide (i < k) && g.getLsbD (k - 1 - i) else g.getLsbD i := by
  cases rev with
  | false => rfl
  | true =>
    rw [effectivePoly, if_pos rfl, if_pos rfl, BitVec.getLsbD_ofNat, decide_eq_true hi, Bool.true_and, bitrev_testBit,
      BitVec.testBit_toNat]

theorem codecFromRegs_polys_getD {j : Nat} (hj : j < s.nPoly.toNat) :
    s.codecFromRegs.polys.getD j 0 = effectivePoly s.constraintLen.toNat s.reversePolys (s.reg (.poly j)) := by
  rw [List.getD_eq_getElem _ _ (by simpa [State.codecFromRegs] using hj)]
  simp [State.codecFromRegs, State.reg]

/-- Settles O41: the latched polynomials are the effective ones, and without a valid codec none is latched. -/
theorem vinitLatchesOrDropsTheCodec : Obligations.VinitLatchesOrDropsTheCodec := by
  refine ⟨rfl, fun s _ => ⟨fun h => ?_, fun h => ?_⟩⟩
  · exact ⟨_, (exec_vinit s).trans (execVinit_eq_raise h), completedWith_complete .invalidParams rfl, rfl, rfl,
      fun _ => rfl, fun _ => rfl, fun _ => rfl, sameRegs_complete (sameRegs_latch sameRegs_refl _) _,
      ⟨rfl, rfl, rfl, rfl, rfl⟩⟩
  · refine ⟨_, _, (exec_vinit s).trans (execVinit_eq_next h), completedOk_complete rfl, rfl, rfl, rfl,
      codecFromRegs_m s, fun j hj i hi => ?_, fun _ => rfl, fun _ => rfl, fun _ => rfl,
      sameRegs_complete (sameRegs_latch sameRegs_refl _) 0, ⟨rfl, rfl, rfl, rfl, rfl⟩⟩
    rw [codecFromRegs_polys_getD hj]
    exact effectivePoly_getLsbD _ _ hi

/-! ## VENC (R259) -/

/-- The number of code bits of an envelope with a CRC-16 and a payload of `l` bytes (R254, R259). -/
def Codec.codeSize (c : Codec) (l : Nat) : Nat := c.m * (8 * (l + 2) + c.k - 1)

/-- The bits that VENC encodes: those of the envelope of the first BYTELEN bytes (R259). -/
def State.vencMessage (s : State) : List Bool := bitsOfBytes (envMake s.cfg .w16 .suf (s.bytes s.byteLen.toNat))

theorem vencMessage_length (s : State) : s.vencMessage.length = 8 * (s.byteLen.toNat + 2) := by
  rw [State.vencMessage, bitsOfBytes_length, envMake_length, bytes_length]
  rfl

theorem convEncode_vencMessage_length (hk : 2 ≤ c.k) (s : State) :
    (convEncode c s.vencMessage).length = c.codeSize s.byteLen.toNat := by
  rw [convEncode_length, vencMessage_length, ← Nat.add_sub_assoc (by omega), Codec.codeSize]

theorem execVenc_eq_invalidParams (h : s.codec = none) : execVenc s = raise .invalidParams s := by
  simp only [execVenc, h]

theorem execVenc_eq_badOperand (hc : s.codec = some c)
    (h : s.cfg.byteCap < s.byteLen.toNat ∨ s.cfg.bitCap < c.codeSize s.byteLen.toNat) :
    execVenc s = raise .badOperand s := by
  simp only [execVenc, hc, byteBufOK_iff]
  split
  · rfl
  · exact if_pos (h.resolve_left (by omega))

theorem execVenc_eq_next (hc : s.codec = some c) (hbytes : s.byteLen.toNat ≤ s.cfg.byteCap)
    (hbits : c.codeSize s.byteLen.toNat ≤ s.cfg.bitCap) :
    execVenc s = .next ((s.putBits (convEncode c s.vencMessage)).complete 0) := by
  simp only [execVenc, hc, byteBufOK_iff]
  exact (if_neg (not_not.2 hbytes)).trans (if_neg (Nat.not_lt.2 hbits))

/-- Settles O44: BITBUF receives the code of the envelope, which has `Codec.codeSize` bits. -/
theorem vencEncodesTheEnvelope : Obligations.VencEncodesTheEnvelope := by
  refine ⟨rfl, fun s hw => ⟨fun h => failsWith_of_raise (execVenc_eq_invalidParams h), fun c hc ⟨hk, _⟩ =>
    ⟨fun h => failsWith_of_raise (execVenc_eq_badOperand hc h), fun hbytes hbits => ?_⟩⟩⟩
  have hbounds := wellFormed_bounds hw
  have hlength := convEncode_vencMessage_length hk s
  have hbit (k : Nat) := bitAt_putBits_getD (s := s) (convEncode c s.vencMessage) k
  rw [hlength] at hbit
  refine ⟨_, (exec_venc s).trans (execVenc_eq_next hc hbytes hbits), completedOk_complete rfl, ?_,
    fun k hk => (hbit k).trans (if_pos hk), fun k hk => (hbit k).trans (if_neg (Nat.not_lt.2 hk)), fun _ => rfl,
    fun _ => rfl, sameRegs_complete (sameRegs_putBits _) 0, ⟨rfl, rfl, rfl, rfl, rfl, rfl⟩⟩
  rw [complete_bitLen, putBits_bitLen, hlength]
  exact toNat_ofNat_of_le (lt_of_le_of_lt hbits (by omega))

/-- VENC has no other way to complete without error. -/
theorem venc_ready_of_exec (hc : s.codec = some c) (hx : exec .venc s = .next t) (herr : t.err = 0) :
    s.byteLen.toNat ≤ s.cfg.byteCap ∧ c.codeSize s.byteLen.toNat ≤ s.cfg.bitCap := by
  obtain ⟨-, rfl⟩ | ⟨c', hc', ⟨-, rfl⟩ | ⟨hbytes, hbits, -⟩⟩ := execVenc_next hx
  iterate 2 exact absurd herr (by rw [complete_err]; decide)
  obtain rfl : c = c' := Option.some.inj (hc.symm.trans hc')
  exact ⟨byteBufOK_iff.1 hbytes, hbits⟩

/-! ## VDEC (R260) -/

/-- `Lm`, the length of the message that `b` received bits decode to (R256, R260). -/
def Codec.messageLength (c : Codec) (b : Nat) : Nat := c.steps b - (c.k - 1)

/-- The payload that VDEC decodes would exceed BYTEBUF (R260). -/
def State.decodesTooLong (s : State) (c : Codec) : Prop :=
  c.messageLength s.bitLen.toNat % 8 = 0 ∧ s.cfg.byteCap + 2 < c.messageLength s.bitLen.toNat / 8

/-- The bytes that VDEC decodes (R260). -/
def State.decodedBytes (s : State) (c : Codec) : List Byte := bytesOfBits (viterbi c (s.bits s.bitLen.toNat))

theorem decodedBytes_length (s : State) (c : Codec) :
    (s.decodedBytes c).length = c.messageLength s.bitLen.toNat / 8 := by
  rw [State.decodedBytes, bytesOfBits_length, viterbi_length, bits_length, Codec.messageLength]

theorem execVdec_eq_invalidParams (h : s.codec = none) : execVdec s = raise .invalidParams s := by
  simp only [execVdec, h]

theorem execVdec_eq_badOperand (hc : s.codec = some c)
    (h : s.cfg.bitCap < s.bitLen.toNat ∨ s.decodesTooLong c) : execVdec s = raise .badOperand s := by
  simp only [execVdec, hc, bitBufOK_iff]
  split
  · rfl
  · exact if_pos (h.resolve_left (by omega))

theorem execVdec_eq_crcMismatch (hc : s.codec = some c) (hbits : s.bitLen.toNat ≤ s.cfg.bitCap)
    (hfit : ¬ s.decodesTooLong c)
    (h : c.messageLength s.bitLen.toNat < 16 ∨ c.messageLength s.bitLen.toNat % 8 ≠ 0 ∨
      ∀ p, s.decodedBytes c ≠ envMake s.cfg .w16 .suf p) : execVdec s = raise .crcMismatch s := by
  simp only [execVdec, hc, bitBufOK_iff]
  refine (if_neg (not_not.2 hbits)).trans ((if_neg hfit).trans ?_)
  split
  · rfl
  rename_i hwhole
  split
  · rfl
  · rename_i p hopen
    obtain hshort | hpartial | hnone := h
    · exact absurd (.inl hshort) hwhole
    · exact absurd (.inr hpartial) hwhole
    · exact absurd (envOpen_eq_some.1 hopen) (hnone p)

theorem execVdec_eq_next (hc : s.codec = some c) (hbits : s.bitLen.toNat ≤ s.cfg.bitCap)
    (hfit : ¬ s.decodesTooLong c) (hlong : 16 ≤ c.messageLength s.bitLen.toNat)
    (hwhole : c.messageLength s.bitLen.toNat % 8 = 0) {p : List Byte}
    (hp : s.decodedBytes c = envMake s.cfg .w16 .suf p) : execVdec s = .next ((s.putBytes p).complete 0) := by
  have hopen : envOpen s.cfg .w16 .suf (bytesOfBits (viterbi c (s.bits s.bitLen.toNat))) = some p :=
    envOpen_eq_some.2 hp
  simp only [execVdec, hc, bitBufOK_iff, hopen]
  refine (if_neg (not_not.2 hbits)).trans ((if_neg hfit).trans (if_neg ?_))
  rintro (hshort | hpartial)
  · exact Nat.not_lt.2 hlong hshort
  · exact hpartial hwhole

/-- Settles O45: BYTEBUF receives the payload of the decoded envelope. -/
theorem vdecDecodesAndChecksTheCrc : Obligations.VdecDecodesAndChecksTheCrc := by
  refine ⟨rfl, fun s hw => ⟨fun h => failsWith_of_raise (execVdec_eq_invalidParams h), fun c hc _ =>
    ⟨fun h => failsWith_of_raise (execVdec_eq_badOperand hc h),
      fun hbits hfit h => failsWith_of_raise (execVdec_eq_crcMismatch hc hbits hfit h),
      fun p hbits hfit hlong hwhole hp => ?_⟩⟩⟩
  have hbounds := wellFormed_bounds hw
  have hdecoded := decodedBytes_length s c
  have henvelope : (s.decodedBytes c).length = p.length + 2 :=
    (congrArg List.length hp).trans (envMake_length s.cfg .w16 .suf p)
  have hlength : p.length = c.messageLength s.bitLen.toNat / 8 - 2 := by omega
  have hcap : p.length ≤ s.cfg.byteCap := by
    have hle := Nat.not_lt.1 fun h => hfit ⟨hwhole, h⟩
    change c.messageLength s.bitLen.toNat / 8 ≤ s.cfg.byteCap + 2 at hle
    omega
  have hbyte (k : Nat) := byteAt_putBytes_getD (s := s) p k
  refine ⟨_, (exec_vdec s).trans (execVdec_eq_next hc hbits hfit hlong hwhole hp), completedOk_complete rfl, ?_, hlength,
    fun k hk => (hbyte k).trans (if_pos hk), fun k hk => (hbyte k).trans (if_neg (Nat.not_lt.2 hk)), fun _ => rfl,
    fun _ => rfl, sameRegs_complete (sameRegs_putBytes _) 0, ⟨rfl, rfl, rfl, rfl, rfl, rfl⟩⟩
  rw [complete_byteLen, putBytes_byteLen, toNat_ofNat_of_le (by omega)]
  exact hlength

/-! ## VENC, then VDEC (R261) -/

theorem messageLength_codeSize (hk : 2 ≤ c.k) (hm : 1 ≤ c.m) (l : Nat) :
    c.messageLength (c.codeSize l) = 8 * (l + 2) := by
  rw [Codec.messageLength, Codec.codeSize, steps_mul c hm]
  omega

/-- What VDEC decodes from a state that holds the stream of VENC is the envelope that VENC encoded. -/
theorem decodedBytes_of_stream (hc : c.valid s.cfg) (hlen : t.bitLen.toNat = c.codeSize s.byteLen.toNat)
    (hstream : ∀ k < c.codeSize s.byteLen.toNat, t.bitAt k = (convEncode c s.vencMessage).getD k false) :
    t.decodedBytes c = envMake s.cfg .w16 .suf (s.bytes s.byteLen.toNat) := by
  have hbits : t.bits t.bitLen.toNat = convEncode c s.vencMessage := by
    have hlength : t.bitLen.toNat = (convEncode c s.vencMessage).length :=
      hlen.trans (convEncode_vencMessage_length hc.1 s).symm
    refine List.ext_getElem ((bits_length _ _).trans hlength) fun k hk hcode => ?_
    rw [bits_getElem, hstream k (by rwa [bits_length, hlen] at hk), List.getD_eq_getElem _ _ hcode]
  rw [State.decodedBytes, hbits, viterbi_convEncode hc, State.vencMessage, bytesOfBits_bitsOfBytes]

/-- After a VENC without error VDEC decodes the envelope and opens it. -/
theorem venc_then_vdec (hw : s.cfg.wellFormed = true) (hc : s.codec = some c) (hvalid : c.valid s.cfg)
    (hx : exec .venc s = .next t) (herr : t.err = 0) :
    ∃ u, exec .vdec t = .next u ∧ u.err = 0 ∧ u.byteLen = s.byteLen ∧
      ∀ k < s.byteLen.toNat, u.byteAt k = s.byteAt k := by
  have ⟨hk, _, hm, _⟩ := hvalid
  obtain ⟨hbytes, hbits⟩ := venc_ready_of_exec hc hx herr
  obtain ⟨t', ht', -, hlen, hstream, -, -, -, -, hcodec, hcfg, -⟩ :=
    ((vencEncodesTheEnvelope.2 s hw).2 c hc hvalid).2 hbytes hbits
  obtain rfl : t = t' := Host.Outcome.next.inj (hx.symm.trans ht')
  have hmessage : c.messageLength t.bitLen.toNat = 8 * (s.byteLen.toNat + 2) :=
    (congrArg c.messageLength hlen).trans (messageLength_codeSize hk hm _)
  have hfit : ¬ t.decodesTooLong c := by
    rintro ⟨-, hlong⟩
    rw [hmessage, hcfg] at hlong
    omega
  obtain ⟨u, hu, ⟨herru, -⟩, hlenu, hlengthu, hwritten, -⟩ :=
    ((vdecDecodesAndChecksTheCrc.2 t (hcfg ▸ hw)).2 c (hcodec.trans hc) (hcfg ▸ hvalid)).2.2 (s.bytes s.byteLen.toNat)
      (by rw [hlen, hcfg]; exact hbits) hfit (show 16 ≤ c.messageLength _ by omega)
      (show c.messageLength _ % 8 = 0 by omega) (hcfg ▸ decodedBytes_of_stream hvalid hlen hstream)
  rw [bytes_length] at hlengthu hwritten
  refine ⟨u, hu, herru, BitVec.eq_of_toNat_eq (hlenu.trans hlengthu.symm), fun k hk => ?_⟩
  rw [hwritten k hk, List.getD_eq_getElem _ _ (by rwa [bytes_length]), bytes_getElem]

/-- Settles O47: `viterbi_convEncode` and `venc_then_vdec`. -/
theorem convolutionalRoundTrip : Obligations.ConvolutionalRoundTrip :=
  ⟨fun _ _ u _ hvalid => viterbi_convEncode hvalid u, fun _ _ _ => venc_then_vdec⟩

end Sys2Proof.Machine
end

section
/-! PROOFS. Two errors of their own (60_exceptions.md R308, R312): the word that is no command, and the reconstruction with
too many rows erased. -/

namespace Sys2Proof.Machine

variable {s : State} {i : Instr}

/-! ## An illegal word (R312) -/

theorem hostMove_writeCmd_of_illegal (hb : s.busy = false) {w : Word} (hw : ∀ i, decode w ≠ .ok i) :
    s.hostMove (.writeReg .cmd w) = (s.accept w).complete Err.illegalCommand.code :=
  (hostMove_writeReg_of_idle hb rfl w).trans (acceptWord_of_illegal hw)

/-- Acceptance keeps the bits of STATUS that completion keeps, so that a completion after it is one of the state before. -/
theorem completedWith_complete_accept (e : Err) (w : Word) : completedWith e s ((s.accept w).complete e.code) := by
  obtain ⟨herr, hbusy, hdone, herrf, hhigh⟩ := completedWith_complete e (rfl : (s.accept w).status = (s.accept w).status)
  exact ⟨herr, hbusy, hdone, herrf, fun i hi => (hhigh i hi).trans (acceptedStatus_high s.status i hi)⟩

/-- Settles O7: the write accepts the word and completes it with IllegalCommand in one step. -/
theorem illegalWordCompletesWithIllegalCommand : Obligations.IllegalWordCompletesWithIllegalCommand := by
  intro s w hw hb
  rw [hostMove_writeCmd_of_illegal hb hw]
  exact ⟨rfl, rfl, completedWith_complete_accept .illegalCommand w, rfl⟩

/-! ## Too many erasures (R308) -/

/-- Both decoders are the shared checks and reconstruction, followed by a step of their own that does not raise
ReconstructionFailed. -/
theorem exec_decoder (hi : i = .rsdecf ∨ i = .rsdecd) :
    ∃ k, exec i s = s.decodeWith k ∧ ∀ d, ∃ t, k d = .next t ∧ t.err ≠ Err.reconstructionFailed.code := by
  obtain rfl | rfl := hi
  · refine ⟨_, exec_rsdecf_eq_decodeWith, fun d => ?_⟩
    split
    · exact ⟨_, rfl, (Err.code_ne_zero _).symm⟩
    · exact ⟨_, rfl, (by decide : Err.verificationFailed.code ≠ Err.reconstructionFailed.code)⟩
  · exact ⟨_, exec_rsdecd_eq_decodeWith, fun d => ⟨_, rfl, (Err.code_ne_zero _).symm⟩⟩

/-- Settles O32: the reconstruction fails exactly with fewer than `ds` rows kept, and each of the `n` rows is kept or erased. -/
theorem reconstructionFailsExactlyOnTooManyErasures : Obligations.ReconstructionFailsExactlyOnTooManyErasures := by
  intro i s hi hw hp hrows hcols hpad
  have hready : DecodeReady s := ⟨hp, hrows, hcols, hpad⟩
  have hcount : ((s.rowsKept s.n).length < s.ds ↔
      s.ps < ((List.range s.n).filter fun k => !s.present.getLsbD k).length) := by
    obtain ⟨hn, -⟩ := paramsFit_bounds hw hp
    have hsplit := rowsKept_length_add_erased (s := s) (n := s.n) (by omega)
    have hsum : s.n = s.ds + s.ps := rfl
    omega
  have hfew : s.rebuilt = none ↔ (s.rowsKept s.n).length < s.ds := rsData_eq_none
  obtain ⟨k, hexec, hk⟩ := exec_decoder (s := s) hi
  cases hd : s.rebuilt with
  | none =>
    exact ⟨_, hexec.trans (decodeWith_eq_reconstructionFailed hready hd), iff_of_true rfl (hfew.1 hd), hcount⟩
  | some d =>
    obtain ⟨t, ht, herr⟩ := hk d
    have hmany : ¬ (s.rowsKept s.n).length < s.ds := fun h => by simp [hfew.2 h] at hd
    exact ⟨t, hexec.trans ((decodeWith_of_rebuilt hready hd).trans ht), iff_of_false herr hmany, hcount⟩

end Sys2Proof.Machine
end

section
/-! PROOFS. How a command ends (60_exceptions.md R300 to R304): in one of four ways, from which the code it completes with, the
flags and what it leaves unchanged follow. -/

namespace Sys2Proof.Machine

variable {s t u : State} {i : Instr} {o o' : Host.Outcome State Fault Refusal}

/-! ## The four endings -/

/-- What the writes of a command never touch: STATUS, which completion alone writes, the parameters, and the bits that are
set in PCACHE. -/
structure CommitFrame (s u : State) : Prop where
  status : u.status = s.status
  cfg : u.cfg = s.cfg
  pcache : ∀ k, s.pcache.getLsbD k = true → u.pcache.getLsbD k = true

theorem commitFrame_of_pcache_eq (hstatus : u.status = s.status) (hcfg : u.cfg = s.cfg) (hpcache : u.pcache = s.pcache) :
    CommitFrame s u :=
  ⟨hstatus, hcfg, fun _ hk => hpcache ▸ hk⟩

/-- A pattern list is added to the valid ones, and none is dropped (45_search_decoder.md R233). -/
theorem markPattern_keeps_pcache (n k : Nat) (hk : s.pcache.getLsbD k = true) :
    (s.markPattern n).pcache.getLsbD k = true := by
  simp [hk]

/-- The endings of a command: it commits; it raises an error of its row of R302 with nothing written; or one of the two
exceptions of R304, VINIT dropping the codec and an exhausted SEARCH. -/
inductive Ends (s : State) : Instr → Host.Outcome State Fault Refusal → Prop
  | commit {i : Instr} {u : State} (h : CommitFrame s u) : Ends s i (.next (u.complete 0))
  | refuse {i : Instr} (e : Err) (hcode : e.code.toNat ∈ possibleCodes i) (hi : i ≠ .vinit)
      (he : e.code ≠ Err.decodeExhausted.code) : Ends s i (.next (s.complete e.code))
  | drop : Ends s .vinit (.next ((s.latch none).complete Err.invalidParams.code))
  | exhaust (w : CrcWidth) (pos : EnvPos) : Ends s (searchOf w pos) (.next s.searchExhausted)

theorem Ends.ite {p : Prop} [Decidable p] (h : Ends s i o) (h' : Ends s i o') : Ends s i (if p then o else o') := by
  split
  · exact h
  · exact h'

/-- A commit that leaves PCACHE alone. -/
theorem Ends.write (hstatus : u.status = s.status) (hcfg : u.cfg = s.cfg) (hpcache : u.pcache = s.pcache) :
    Ends s i (.next (u.complete 0)) :=
  .commit (commitFrame_of_pcache_eq hstatus hcfg hpcache)

/-- An error that is in the row of a given command. -/
theorem Ends.raise (e : Err) (hcode : e.code.toNat ∈ possibleCodes i := by decide) (hi : i ≠ .vinit := by decide)
    (he : e.code ≠ Err.decodeExhausted.code := by decide) : Ends s i (raise e s) :=
  .refuse e hcode hi he

/-! ## Every command ends in one of them -/

theorem execNop_ends : Ends s .nop (execNop s) := .write rfl rfl rfl

section badOperand

/-! The commands whose row has BadOperand alone. -/

variable (hcodes : possibleCodes i = [0, 9])
include hcodes

theorem badOperand_ends : Ends s i (raise .badOperand s) :=
  .raise .badOperand (hcodes ▸ by decide) fun hi => by rw [hi] at hcodes; exact absurd hcodes (by decide)

theorem execB2bit_ends : Ends s i (execB2bit s) :=
  .ite (badOperand_ends hcodes) (.ite (badOperand_ends hcodes) (.write rfl rfl rfl))

theorem execBit2b_ends : Ends s i (execBit2b s) :=
  .ite (badOperand_ends hcodes) (.ite (badOperand_ends hcodes) (.ite (badOperand_ends hcodes) (.write rfl rfl rfl)))

theorem bitCommand_ends (f : Bool → Bool) : Ends s i (bitCommand f s) :=
  .ite (badOperand_ends hcodes) (.ite (badOperand_ends hcodes) (.write rfl rfl rfl))

theorem byteCommand_ends (f : Byte → Byte → Byte) : Ends s i (byteCommand f s) :=
  .ite (badOperand_ends hcodes) (.ite (badOperand_ends hcodes) (.write rfl rfl rfl))

theorem crcGenerate_ends (w : CrcWidth) : Ends s i (crcGenerate w s) :=
  .ite (badOperand_ends hcodes) (.write rfl rfl rfl)

theorem crcEncode_ends (w : CrcWidth) (pos : EnvPos) : Ends s i (crcEncode w pos s) :=
  .ite (badOperand_ends hcodes) (.ite (badOperand_ends hcodes) (.write rfl rfl rfl))

theorem crcCheck_ends (w : CrcWidth) (pos : EnvPos) : Ends s i (crcCheck w pos s) :=
  .ite (badOperand_ends hcodes) (.write rfl rfl rfl)

theorem execFlat_ends : Ends s i (execFlat s) :=
  .ite (badOperand_ends hcodes) (.ite (badOperand_ends hcodes) (.write rfl rfl rfl))

theorem execUnflat_ends : Ends s i (execUnflat s) :=
  .ite (badOperand_ends hcodes) (.ite (badOperand_ends hcodes) (.ite (badOperand_ends hcodes) (.write rfl rfl rfl)))

theorem interleave_ends : Ends s i (interleave s) :=
  .ite (badOperand_ends hcodes) (.ite (badOperand_ends hcodes) (.write rfl rfl rfl))

end badOperand

theorem execChunk_ends : Ends s .chunk (execChunk s) :=
  .ite (.raise .invalidParams) (.ite (.raise .badOperand) (.ite (.raise .emptyInput) (.ite (.raise .payloadTooLarge)
    (.write rfl rfl rfl))))

theorem execRsenc_ends : Ends s .rsenc (execRsenc s) :=
  .ite (.raise .invalidParams) (.ite (.raise .badOperand) (.ite (.raise .badOperand) (.ite (.raise .verificationFailed)
    (.write rfl rfl rfl))))

/-- What the two decoders share (43_reed_solomon.md R196, R197). -/
theorem decodeWith_ends {k : List (List Byte) → Host.Outcome State Fault Refusal} (hi : i = .rsdecf ∨ i = .rsdecd)
    (hk : ∀ d, Ends s i (k d)) : Ends s i (s.decodeWith k) := by
  obtain rfl | rfl := hi
  all_goals
    refine .ite (.raise .invalidParams) (.ite (.raise .badOperand) (.ite (.raise .badOperand) ?_))
    cases s.rebuilt with
    | none => exact .raise .reconstructionFailed
    | some d => exact hk d

theorem exec_rsdecf_ends : Ends s .rsdecf (exec .rsdecf s) :=
  exec_rsdecf_eq_decodeWith ▸ decodeWith_ends (.inl rfl) fun _ =>
    .ite (.write rfl rfl rfl) (.raise .verificationFailed)

theorem exec_rsdecd_ends : Ends s .rsdecd (exec .rsdecd s) :=
  exec_rsdecd_eq_decodeWith ▸ decodeWith_ends (.inr rfl) fun _ => .write rfl rfl rfl

theorem execPatgen_ends : Ends s .patgen (execPatgen s) :=
  .ite (.raise .invalidParams) (.commit ⟨rfl, rfl, markPattern_keeps_pcache s.n⟩)

theorem possibleCodes_searchOf (w : CrcWidth) (pos : EnvPos) : possibleCodes (searchOf w pos) = [0, 5, 8, 9] := by
  cases w <;> cases pos <;> rfl

theorem searchOf_ne_vinit (w : CrcWidth) (pos : EnvPos) : searchOf w pos ≠ .vinit := by
  cases w <;> cases pos <;> decide

theorem searchDecode_ends (w : CrcWidth) (pos : EnvPos) : Ends s (searchOf w pos) (searchDecode w pos s) := by
  have hcodes := possibleCodes_searchOf w pos
  have hbad : Ends s (searchOf w pos) (raise .badOperand s) :=
    .raise .badOperand (hcodes ▸ by decide) (searchOf_ne_vinit w pos)
  refine .ite (.raise .invalidParams (hcodes ▸ by decide) (searchOf_ne_vinit w pos)) (.ite hbad (.ite hbad ?_))
  split
  · exact .commit ⟨rfl, rfl, markPattern_keeps_pcache s.n⟩
  · exact .exhaust w pos

theorem execVinit_ends : Ends s .vinit (execVinit s) := .ite .drop (.write rfl rfl rfl)

theorem execVenc_ends : Ends s .venc (execVenc s) := by
  unfold execVenc
  split
  · exact .raise .invalidParams
  · exact .ite (.raise .badOperand) (.ite (.raise .badOperand) (.write rfl rfl rfl))

theorem execVdec_ends : Ends s .vdec (execVdec s) := by
  unfold execVdec
  split
  · exact .raise .invalidParams
  · refine .ite (.raise .badOperand) (.ite (.raise .badOperand) (.ite (.raise .crcMismatch) ?_))
    split
    · exact .raise .crcMismatch
    · exact .write rfl rfl rfl

theorem exec_ends (s : State) : ∀ i, Ends s i (exec i s) :=
  exec_cases s (P := fun i o => Ends s i o)
    (nop := execNop_ends) (b2bit := execB2bit_ends rfl) (bit2b := execBit2b_ends rfl)
    (bsetBit := bitCommand_ends rfl _) (bsetByte := byteCommand_ends rfl _) (bclrBit := bitCommand_ends rfl _)
    (bclrByte := byteCommand_ends rfl _) (bflipBit := bitCommand_ends rfl _) (bflipByte := byteCommand_ends rfl _)
    (crcgen := fun w => crcGenerate_ends (by cases w <;> rfl) w)
    (crcenc := fun w pos => crcEncode_ends (by cases w <;> cases pos <;> rfl) w pos)
    (crcchk := fun w pos => crcCheck_ends (by cases w <;> cases pos <;> rfl) w pos)
    (chunk := execChunk_ends) (flat := execFlat_ends rfl) (unflat := execUnflat_ends rfl)
    (rsenc := execRsenc_ends) (rsdecf := exec_rsdecf_ends) (rsdecd := exec_rsdecd_ends)
    (ilv := interleave_ends rfl) (dilv := interleave_ends rfl) (patgen := execPatgen_ends)
    (search := searchDecode_ends) (vinit := execVinit_ends) (venc := execVenc_ends) (vdec := execVdec_ends)

/-! ## What every ending is -/

theorem zero_mem_possibleCodes (i : Instr) : 0 ∈ possibleCodes i := by
  cases i <;> exact List.mem_cons_self

/-- Every command completes, with a code of its row of R302 and the frame of a commit (60_exceptions.md R300, R303). -/
theorem exec_completes (i : Instr) (s : State) :
    ∃ u c, exec i s = .next (u.complete c) ∧ CommitFrame s u ∧ c.toNat ∈ possibleCodes i := by
  have h := exec_ends s i
  generalize exec i s = o at h
  cases h with
  | commit hu => exact ⟨_, _, rfl, hu, zero_mem_possibleCodes i⟩
  | refuse e hcode => exact ⟨_, _, rfl, commitFrame_of_pcache_eq rfl rfl rfl, hcode⟩
  | drop => exact ⟨_, _, rfl, commitFrame_of_pcache_eq rfl rfl rfl, by decide⟩
  | exhaust w pos =>
    exact ⟨_, _, rfl, ⟨rfl, rfl, markPattern_keeps_pcache s.n⟩, possibleCodes_searchOf w pos ▸ by decide⟩

/-- Settles O48: `exec_completes`, and the flags of a completion. -/
theorem everyCommandCompletesWithACodeOfTheTable : Obligations.EveryCommandCompletesWithACodeOfTheTable := by
  intro i s
  obtain ⟨u, c, h, -, hcode⟩ := exec_completes i s
  obtain ⟨hbusy, hdone, herrf, -⟩ := completedStatus_flags u.status c
  exact ⟨_, h, hcode, hbusy, hdone, (iff_of_eq (congrArg (· = true) herrf)).trans decide_eq_true_iff⟩

/-- Settles O49: an ending with a code other than 0 is a plain refusal or one of the two exceptions. -/
theorem erroringCommandsChangeNothingElse : Obligations.ErroringCommandsChangeNothingElse := by
  refine ⟨fun i s t hx herr => ?_, fun s t h => raise_next h ▸ sameButStatus_complete _⟩
  have h := exec_ends s i
  rw [hx] at h
  cases h with
  | commit => exact absurd rfl herr
  | refuse e _ hi he =>
    exact ⟨fun _ _ => rfl, fun h => absurd h hi, fun _ _ _ _ => rfl, fun _ _ _ h => absurd h he⟩
  | drop =>
    exact ⟨fun h => absurd rfl h, fun _ => rfl, fun w pos h => absurd h.symm (searchOf_ne_vinit w pos),
      fun w pos h => absurd h.symm (searchOf_ne_vinit w pos)⟩
  | exhaust w pos =>
    exact ⟨fun _ h => absurd rfl (h w pos), fun h => absurd h (searchOf_ne_vinit w pos),
      fun _ _ _ h => absurd rfl h, fun _ _ _ _ => rfl⟩

end Sys2Proof.Machine
end

section
/-! PROOFS. Every step answers a next state with the same parameters (60_exceptions.md R300), and what every step but a reset
keeps (70_reset_and_hazards.md R340). -/

namespace Sys2Proof.Machine

variable {s t u : State}

/-! ## What every step but a reset keeps -/

/-- The parameters stay, HERR and the bits of PCACHE that are set stay set, and a running command runs on or completes. -/
structure KeptWithoutReset (s t : State) : Prop where
  cfg : t.cfg = s.cfg
  herr : s.herr = true → t.herr = true
  pcache : ∀ k, s.pcache.getLsbD k = true → t.pcache.getLsbD k = true
  running : s.busy = true → t.busy = true ∨ t.done = true

theorem KeptWithoutReset.refl (s : State) : KeptWithoutReset s s := ⟨rfl, id, fun _ => id, .inl⟩

/-- A completion ends the command and keeps HERR. -/
theorem CommitFrame.complete (h : CommitFrame s u) (c : Word) : KeptWithoutReset s (u.complete c) := by
  obtain ⟨-, hdone, -, hherr⟩ := completedStatus_flags u.status c
  have hkept : (u.complete c).herr = s.herr := hherr.trans (congrArg (·.getLsbD 3) h.status)
  exact ⟨h.cfg, hkept.trans, h.pcache, fun _ => .inr hdone⟩

theorem keptWithoutReset_violation : KeptWithoutReset s s.violation := by
  obtain ⟨hbusy, -, -, hherr⟩ := violatedStatus_flags s.status
  exact ⟨rfl, fun _ => hherr, fun _ => id, fun hb => .inl (hbusy.trans hb)⟩

/-! ## The core's turn -/

/-- No host write makes a state BUSY with an illegal word; in one, the core completes it (60_exceptions.md R312). -/
theorem coreTurn_of_illegal {e : Illegal} (hb : s.busy = true) (he : decode s.cmd = .error e) :
    coreTurn s = .next (s.complete Err.illegalCommand.code) := by
  have hf : s.fetch = .error e := he
  simp only [coreTurn, hb, hf, if_true]
  rfl

theorem coreTurn_answers (s : State) : ∃ t, coreTurn s = .next t ∧ KeptWithoutReset s t := by
  cases hb : s.busy with
  | false => exact ⟨s, coreTurn_of_idle hb, .refl s⟩
  | true =>
    cases hd : decode s.cmd with
    | ok i =>
      obtain ⟨u, c, h, hframe, -⟩ := exec_completes i s
      exact ⟨_, (coreTurn_of_busy hb hd).trans h, hframe.complete c⟩
    | error e =>
      exact ⟨_, coreTurn_of_illegal hb hd, (commitFrame_of_pcache_eq rfl rfl rfl).complete Err.illegalCommand.code⟩

/-! ## The host's moves -/

theorem hostRead_keeps (tgt : Target) (width : Nat) : KeptWithoutReset s (s.hostRead tgt width) := by
  obtain ⟨hframe, hstatus | hstatus⟩ := hostRead_frame s tgt width
  · rw [hframe, hstatus]
    exact { KeptWithoutReset.refl s with }
  · rw [hframe, hstatus]
    exact { keptWithoutReset_violation with }

/-- A write that leaves the parameters, STATUS and PCACHE alone. -/
theorem keptWithoutReset_of_store (hcfg : t.cfg = s.cfg) (hstatus : t.status = s.status) (hpcache : t.pcache = s.pcache) :
    KeptWithoutReset s t :=
  ⟨hcfg, by rw [State.herr, State.herr, hstatus]; exact id, fun _ hk => hpcache ▸ hk,
    by rw [State.busy, State.busy, hstatus]; exact .inl⟩

/-- Acceptance, and the completion of an illegal word with it, keep HERR; no command is running before. -/
theorem acceptWord_keeps (hb : s.busy = false) (w : Word) : KeptWithoutReset s (s.acceptWord w) := by
  have hidle {p : Prop} : s.busy = true → p := fun h => by rw [hb] at h; cases h
  obtain ⟨-, -, -, hherr⟩ := acceptedStatus_flags s.status
  cases hd : decode w with
  | ok i =>
    rw [acceptWord_of_ok hd]
    exact ⟨rfl, hherr.trans, fun _ => id, hidle⟩
  | error e =>
    rw [acceptWord_of_illegal fun i hi => by rw [hd] at hi; cases hi]
    obtain ⟨-, -, -, hherr'⟩ := completedStatus_flags (s.accept w).status Err.illegalCommand.code
    exact ⟨rfl, (hherr'.trans hherr).trans, fun _ => id, hidle⟩

theorem writeReg_keeps (hb : s.busy = false) (r : Reg) (v : Word) : KeptWithoutReset s (s.writeReg r v) := by
  cases r with
  | cmd => exact acceptWord_keeps hb v
  | status | err | recon | bytesPadded | attempts | result | mask | pcache | codec | ident | caps =>
    exact keptWithoutReset_violation
  | _ => exact keptWithoutReset_of_store rfl rfl rfl

theorem hostWrite_keeps (tgt : Target) (v : Word) : KeptWithoutReset s (s.hostWrite tgt v) := by
  obtain ⟨-, e⟩ | e | ⟨hb, r, -, e⟩ | ⟨-, i, -, e⟩ | ⟨-, i, -, e⟩ | ⟨-, view, i, b, -, -, e⟩ := hostWrite_cases s tgt v
  all_goals rw [e]
  · exact .refl s
  · exact keptWithoutReset_violation
  · exact writeReg_keeps hb r v
  all_goals exact keptWithoutReset_of_store rfl rfl rfl

theorem hostMove_keeps (s : State) (m : HostMove) : KeptWithoutReset s (s.hostMove m) := by
  obtain ⟨tgt, -, ⟨width, e⟩ | ⟨v, e⟩⟩ := hostMove_cases s m
  · exact e ▸ hostRead_keeps tgt width
  · exact e ▸ hostWrite_keeps tgt v

/-! ## Steps -/

theorem step_of_schedule_reset {es : List Event} (h : s.schedule = .reset :: es) :
    step s = .next (s.withSchedule es).afterReset := by
  simp only [step, h]

/-- A step that is no reset answers a next state and keeps what only a reset would clear. -/
theorem step_answers (h : s.schedule.head? ≠ some .reset) : ∃ t, step s = .next t ∧ KeptWithoutReset s t := by
  match hs : s.schedule with
  | [] => exact step_of_schedule_nil hs ▸ coreTurn_answers s
  | .core :: es =>
    obtain ⟨t, ht, hk⟩ := coreTurn_answers (s.withSchedule es)
    exact ⟨t, (step_of_schedule_core hs).trans ht, { hk with }⟩
  | .host m :: es => exact ⟨_, step_of_schedule_host hs, { hostMove_keeps (s.withSchedule es) m with }⟩
  | .reset :: es => exact absurd (by rw [hs]; rfl) h

/-- Settles O51: a reset keeps the parameters, and any other step is `step_answers`. -/
theorem everyStepAnswersANextState : Obligations.EveryStepAnswersANextState := by
  intro s
  by_cases h : s.schedule.head? = some .reset
  · obtain ⟨es, hs⟩ := List.head?_eq_some_iff.1 h
    exact ⟨_, step_of_schedule_reset hs, rfl⟩
  · obtain ⟨t, ht, hk⟩ := step_answers h
    exact ⟨t, ht, hk.cfg⟩

/-! ## The reset event -/

theorem reg_afterReset {r : Reg} (hid : r ≠ .ident) (hcaps : r ≠ .caps) : s.afterReset.reg r = 0 := by
  rw [← reg_initial s.cfg hid hcaps]
  cases r <;> rfl

theorem afterReset_idle (s : State) : s.afterReset.busy = false := by
  simp [State.busy, State.afterReset, State.initial]

/-- Settles O53: the state after the reset event is the reset state of the same parameters, in which the core is idle; any other
step is `step_answers`. -/
theorem resetEventAndWhatOnlyItDoes : Obligations.ResetEventAndWhatOnlyItDoes := by
  refine ⟨fun s es hs => ?_, fun s t h ht => ?_⟩
  · exact ⟨_, step_of_schedule_reset hs, fun _ => reg_afterReset, rfl, rfl, rfl, rfl, rfl, fun _ => ⟨rfl, rfl, rfl⟩,
      fun _ hes => (step_of_schedule_core hes).trans (coreTurn_of_idle (afterReset_idle (s.withSchedule es)))⟩
  · obtain ⟨t', ht', hk⟩ := step_answers h
    obtain rfl : t = t' := Host.Outcome.next.inj (ht.symm.trans ht')
    exact ⟨hk.herr, hk.pcache, hk.running⟩

end Sys2Proof.Machine
end
